-- ==== Sys2Proof/Word.lean ====
section
/-! DEFINITION. The word types of the machine (00_scope.md R8, R9: registers and addresses are 32 bits, memory is bytes)
and the two kinds of register number an encoding can hold. -/

namespace Sys2Proof

/-- A 32-bit register value or address; arithmetic on it is modulo 2^32 (00_scope.md R10). -/
abbrev Word := BitVec 32

/-- One halfword, the unit of instruction fetch (20_memory.md R133). -/
abbrev Half := BitVec 16

/-- One byte of memory (20_memory.md R120). -/
abbrev Byte := BitVec 8

/-- A 3-bit register field: R0 to R7, the low registers (30_encoding.md R193). -/
abbrev LoReg := Fin 8

/-- A 4-bit register field: R0 to R15, where 13 is SP, 14 is LR and 15 is PC (30_encoding.md R193). -/
abbrev Reg := Fin 16

end Sys2Proof
end

