-- ==== Sys2Proof/Syntax.lean ====
section
/-! DEFINITION. The instructions: one constructor per row of spec/opcode_table.json, its operands already taken apart from
the encoding (30_encoding.md R193 to R198). Low registers are `LoReg`, any register is `Reg`; an immediate stays the bit
field of the encoding, scaled by its rule where it is used (R195). -/

namespace Sys2Proof

/-- The fourteen conditions of B{cond} (30_encoding.md R206). -/
inductive Cond
  /-- Z = 1 -/
  | eq
  /-- Z = 0 -/
  | ne
  /-- C = 1 -/
  | cs
  /-- C = 0 -/
  | cc
  /-- N = 1 -/
  | mi
  /-- N = 0 -/
  | pl
  /-- V = 1 -/
  | vs
  /-- V = 0 -/
  | vc
  /-- C = 1 and Z = 0 -/
  | hi
  /-- C = 0 or Z = 1 -/
  | ls
  /-- N = V -/
  | ge
  /-- N != V -/
  | lt
  /-- Z = 0 and N = V -/
  | gt
  /-- Z = 1 or N != V -/
  | le
  deriving DecidableEq, Repr

/-- The special registers that MRS and MSR name (43_misc.md R336; 30_encoding.md R198). -/
inductive SpecReg
  | apsr | iapsr | eapsr | psr | ipsr | epsr | iepsr | msp | psp | primask | control
  deriving DecidableEq, Repr

/-- The instructions, in the order of spec/opcode_table.json. -/
inductive Instr
  /-- MOVS Rd, Rm (41_data_processing.md R295) -/
  | movsReg (rd : LoReg) (rm : LoReg)
  /-- LSLS Rd, Rm, #imm5 (41_data_processing.md R282) -/
  | lslsImm (imm5 : BitVec 5) (rm : LoReg) (rd : LoReg)
  /-- LSRS Rd, Rm, #imm (41_data_processing.md R284) -/
  | lsrsImm (imm5 : BitVec 5) (rm : LoReg) (rd : LoReg)
  /-- ASRS Rd, Rm, #imm (41_data_processing.md R286) -/
  | asrsImm (imm5 : BitVec 5) (rm : LoReg) (rd : LoReg)
  /-- ADDS Rd, Rn, Rm (41_data_processing.md R268) -/
  | addsReg (rd : LoReg) (rn : LoReg) (rm : LoReg)
  /-- SUBS Rd, Rn, Rm (41_data_processing.md R274) -/
  | subsReg (rd : LoReg) (rn : LoReg) (rm : LoReg)
  /-- ADDS Rd, Rn, #imm3 (41_data_processing.md R266) -/
  | addsImm3 (rd : LoReg) (rn : LoReg) (imm3 : BitVec 3)
  /-- SUBS Rd, Rn, #imm3 (41_data_processing.md R272) -/
  | subsImm3 (rd : LoReg) (rn : LoReg) (imm3 : BitVec 3)
  /-- MOVS Rd, #imm8 (41_data_processing.md R294) -/
  | movsImm (rd : LoReg) (imm8 : BitVec 8)
  /-- CMP Rn, #imm8 (41_data_processing.md R290) -/
  | cmpImm (rn : LoReg) (imm8 : BitVec 8)
  /-- ADDS Rdn, #imm8 (41_data_processing.md R267) -/
  | addsImm8 (rdn : LoReg) (imm8 : BitVec 8)
  /-- SUBS Rdn, #imm8 (41_data_processing.md R273) -/
  | subsImm8 (rdn : LoReg) (imm8 : BitVec 8)
  /-- ANDS Rdn, Rm (41_data_processing.md R278) -/
  | ands (rdn : LoReg) (rm : LoReg)
  /-- EORS Rdn, Rm (41_data_processing.md R280) -/
  | eors (rdn : LoReg) (rm : LoReg)
  /-- LSLS Rdn, Rs (41_data_processing.md R283) -/
  | lslsReg (rdn : LoReg) (rs : LoReg)
  /-- LSRS Rdn, Rs (41_data_processing.md R285) -/
  | lsrsReg (rdn : LoReg) (rs : LoReg)
  /-- ASRS Rdn, Rs (41_data_processing.md R287) -/
  | asrsReg (rdn : LoReg) (rs : LoReg)
  /-- ADCS Rdn, Rm (41_data_processing.md R265) -/
  | adcs (rdn : LoReg) (rm : LoReg)
  /-- SBCS Rdn, Rm (41_data_processing.md R276) -/
  | sbcs (rdn : LoReg) (rm : LoReg)
  /-- RORS Rdn, Rs (41_data_processing.md R288) -/
  | rors (rdn : LoReg) (rs : LoReg)
  /-- TST Rn, Rm (41_data_processing.md R305) -/
  | tst (rn : LoReg) (rm : LoReg)
  /-- RSBS Rd, Rn, #0 (41_data_processing.md R277) -/
  | rsbs (rd : LoReg) (rn : LoReg)
  /-- CMP Rn, Rm (low) (41_data_processing.md R291) -/
  | cmpLow (rn : LoReg) (rm : LoReg)
  /-- CMN Rn, Rm (41_data_processing.md R289) -/
  | cmn (rn : LoReg) (rm : LoReg)
  /-- ORRS Rdn, Rm (41_data_processing.md R279) -/
  | orrs (rdn : LoReg) (rm : LoReg)
  /-- MULS Rdm, Rn, Rdm (41_data_processing.md R297) -/
  | muls (rdm : LoReg) (rn : LoReg)
  /-- BICS Rdn, Rm (41_data_processing.md R281) -/
  | bics (rdn : LoReg) (rm : LoReg)
  /-- MVNS Rd, Rm (41_data_processing.md R296) -/
  | mvns (rd : LoReg) (rm : LoReg)
  /-- ADD Rdn, Rm (any) (41_data_processing.md R269) -/
  | addHigh (rdn : Reg) (rm : Reg)
  /-- CMP Rn, Rm (any) (41_data_processing.md R292) -/
  | cmpHigh (rn : Reg) (rm : Reg)
  /-- MOV Rd, Rm (any) (41_data_processing.md R293) -/
  | mov (rd : Reg) (rm : Reg)
  /-- BX Rm (42_branch.md R323) -/
  | bx (rm : Reg)
  /-- BLX Rm (42_branch.md R324) -/
  | blx (rm : Reg)
  /-- LDR Rt, label (40_memory_access.md R247) -/
  | ldrLit (rt : LoReg) (imm8 : BitVec 8)
  /-- STR Rt, [Rn, Rm] (40_memory_access.md R244) -/
  | strReg (rt : LoReg) (rn : LoReg) (rm : LoReg)
  /-- STRH Rt, [Rn, Rm] (40_memory_access.md R246) -/
  | strhReg (rt : LoReg) (rn : LoReg) (rm : LoReg)
  /-- STRB Rt, [Rn, Rm] (40_memory_access.md R245) -/
  | strbReg (rt : LoReg) (rn : LoReg) (rm : LoReg)
  /-- LDRSB Rt, [Rn, Rm] (40_memory_access.md R242) -/
  | ldrsb (rt : LoReg) (rn : LoReg) (rm : LoReg)
  /-- LDR Rt, [Rn, Rm] (40_memory_access.md R239) -/
  | ldrReg (rt : LoReg) (rn : LoReg) (rm : LoReg)
  /-- LDRH Rt, [Rn, Rm] (40_memory_access.md R241) -/
  | ldrhReg (rt : LoReg) (rn : LoReg) (rm : LoReg)
  /-- LDRB Rt, [Rn, Rm] (40_memory_access.md R240) -/
  | ldrbReg (rt : LoReg) (rn : LoReg) (rm : LoReg)
  /-- LDRSH Rt, [Rn, Rm] (40_memory_access.md R243) -/
  | ldrsh (rt : LoReg) (rn : LoReg) (rm : LoReg)
  /-- STR Rt, [Rn, #imm] (40_memory_access.md R234) -/
  | strImm (rt : LoReg) (rn : LoReg) (imm5 : BitVec 5)
  /-- LDR Rt, [Rn, #imm] (40_memory_access.md R231) -/
  | ldrImm (rt : LoReg) (rn : LoReg) (imm5 : BitVec 5)
  /-- STRB Rt, [Rn, #imm] (40_memory_access.md R235) -/
  | strbImm (rt : LoReg) (rn : LoReg) (imm5 : BitVec 5)
  /-- LDRB Rt, [Rn, #imm] (40_memory_access.md R232) -/
  | ldrbImm (rt : LoReg) (rn : LoReg) (imm5 : BitVec 5)
  /-- STRH Rt, [Rn, #imm] (40_memory_access.md R236) -/
  | strhImm (rt : LoReg) (rn : LoReg) (imm5 : BitVec 5)
  /-- LDRH Rt, [Rn, #imm] (40_memory_access.md R233) -/
  | ldrhImm (rt : LoReg) (rn : LoReg) (imm5 : BitVec 5)
  /-- STR Rt, [SP, #imm] (40_memory_access.md R238) -/
  | strSp (rt : LoReg) (imm8 : BitVec 8)
  /-- LDR Rt, [SP, #imm] (40_memory_access.md R237) -/
  | ldrSp (rt : LoReg) (imm8 : BitVec 8)
  /-- ADR Rd, label (40_memory_access.md R230) -/
  | adr (rd : LoReg) (imm8 : BitVec 8)
  /-- ADD Rd, SP, #imm (41_data_processing.md R270) -/
  | addRdSp (rd : LoReg) (imm8 : BitVec 8)
  /-- ADD SP, SP, #imm (41_data_processing.md R271) -/
  | addSp (imm7 : BitVec 7)
  /-- SUB SP, SP, #imm (41_data_processing.md R275) -/
  | subSp (imm7 : BitVec 7)
  /-- SXTH Rd, Rm (41_data_processing.md R302) -/
  | sxth (rd : LoReg) (rm : LoReg)
  /-- SXTB Rd, Rm (41_data_processing.md R301) -/
  | sxtb (rd : LoReg) (rm : LoReg)
  /-- UXTH Rd, Rm (41_data_processing.md R304) -/
  | uxth (rd : LoReg) (rm : LoReg)
  /-- UXTB Rd, Rm (41_data_processing.md R303) -/
  | uxtb (rd : LoReg) (rm : LoReg)
  /-- PUSH reglist (40_memory_access.md R250); `m` adds LR -/
  | push (m : Bool) (list8 : BitVec 8)
  /-- CPSIE i (43_misc.md R332) -/
  | cpsie
  /-- CPSID i (43_misc.md R331) -/
  | cpsid
  /-- REV Rd, Rm (41_data_processing.md R298) -/
  | rev (rd : LoReg) (rm : LoReg)
  /-- REV16 Rd, Rm (41_data_processing.md R299) -/
  | rev16 (rd : LoReg) (rm : LoReg)
  /-- REVSH Rd, Rm (41_data_processing.md R300) -/
  | revsh (rd : LoReg) (rm : LoReg)
  /-- POP reglist (40_memory_access.md R251); `p` adds PC -/
  | pop (p : Bool) (list8 : BitVec 8)
  /-- BKPT #imm8 (43_misc.md R330) -/
  | bkpt (imm8 : BitVec 8)
  /-- NOP (43_misc.md R338) -/
  | nop
  /-- YIELD (43_misc.md R345) -/
  | yield
  /-- WFE (43_misc.md R342) -/
  | wfe
  /-- WFI (43_misc.md R343) -/
  | wfi
  /-- SEV (43_misc.md R340) -/
  | sev
  /-- STM Rn!, reglist (40_memory_access.md R249) -/
  | stm (rn : LoReg) (list8 : BitVec 8)
  /-- LDM Rn(!), reglist (40_memory_access.md R248) -/
  | ldm (rn : LoReg) (list8 : BitVec 8)
  /-- UDF #imm8 (43_misc.md R346) -/
  | udf (imm8 : BitVec 8)
  /-- SVC #imm8 (43_misc.md R341) -/
  | svc (imm8 : BitVec 8)
  /-- B(cond) label (42_branch.md R321) -/
  | bcond (cond : Cond) (imm8 : BitVec 8)
  /-- B label (42_branch.md R320) -/
  | b (imm11 : BitVec 11)
  /-- BL label (42_branch.md R322); `imm24` is S:I1:I2:imm10:imm11 -/
  | bl (imm24 : BitVec 24)
  /-- MSR spec_reg, Rn (43_misc.md R337) -/
  | msr (spec : SpecReg) (rn : Reg)
  /-- MRS Rd, spec_reg (43_misc.md R336) -/
  | mrs (rd : Reg) (spec : SpecReg)
  /-- DSB (43_misc.md R334) -/
  | dsb (option : BitVec 4)
  /-- DMB (43_misc.md R333) -/
  | dmb (option : BitVec 4)
  /-- ISB (43_misc.md R335) -/
  | isb (option : BitVec 4)
  /-- UDF.W #imm16 (43_misc.md R346); `imm16` is imm4:imm12 -/
  | udfW (imm16 : BitVec 16)
  deriving DecidableEq, Repr

end Sys2Proof
end

