-- ==== Sys2Proof/WellFormed.lean ====
section
/-! DEFINITION. Which terms of `Instr` the encodings admit: the operand restrictions of 30_encoding.md R203, each a named
check, and the one overlap of R199 item 1. The decoder answers only well-formed instructions. -/

namespace Sys2Proof

/-- The names of the unpredictable encodings and operands of 30_encoding.md R203, all of which the spec refuses
(92_eei_decisions.md D24; 93_implementation_defined.md U12, U13). -/
inductive Unpredictable
  /-- BX or BLX with a nonzero bit in hw1[2:0] -/
  | branchBits
  /-- BX or BLX with SP or PC -/
  | branchReg
  /-- ADD Rdn, Rm with both operands PC -/
  | addPcPc
  /-- CMP (high form) with two low registers or with PC -/
  | cmpHighRegs
  /-- LDM, STM, PUSH or POP with an empty list -/
  | emptyList
  /-- the CPS space with other flag bits -/
  | cpsBits
  /-- MRS or MSR with a should-be bit wrong -/
  | specMoveBits
  /-- MRS or MSR with SP or PC as the general register -/
  | specMoveReg
  /-- MRS or MSR with a SYSm value that names no register -/
  | sysm
  /-- DSB, DMB or ISB with a should-be bit wrong -/
  | barrierBits
  deriving DecidableEq, Repr

/-- LSLS (immediate) shifts by 1 to 31: the encoding with imm5 = 0 is MOVS Rd, Rm (30_encoding.md R199 item 1). -/
def lslsImmOk (imm5 : BitVec 5) : Bool := imm5 != 0

/-- "do not use SP or PC in the BX or BLX instruction" (42_branch.md R323, R324; 30_encoding.md R203). -/
def branchRegOk (rm : Reg) : Bool := rm != 13 && rm != 15

/-- ADD Rdn, Rm: not both operands PC (41_data_processing.md R269). -/
def addHighOk (rdn rm : Reg) : Bool := !(rdn == 15 && rm == 15)

/-- CMP Rn, Rm (high form): not both low, and neither of them PC (41_data_processing.md R292). -/
def cmpHighOk (rn rm : Reg) : Bool :=
  !(decide (rn.val < 8) && decide (rm.val < 8)) && rn != 15 && rm != 15

/-- A register list is not empty (40_memory_access.md R255). -/
def listOk (list8 : BitVec 8) : Bool := list8 != 0

/-- A PUSH or POP list is not empty, counting LR or PC (40_memory_access.md R255). -/
def stackListOk (extra : Bool) (list8 : BitVec 8) : Bool := extra || list8 != 0

/-- MRS and MSR: the general register is not SP and not PC (43_misc.md R336, R337). -/
def specMoveRegOk (r : Reg) : Bool := r != 13 && r != 15

/-- The terms of `Instr` that stand for an encoding. -/
def WellFormed : Instr → Bool
  | .lslsImm imm5 _ _ => lslsImmOk imm5
  | .addHigh rdn rm => addHighOk rdn rm
  | .cmpHigh rn rm => cmpHighOk rn rm
  | .bx rm => branchRegOk rm
  | .blx rm => branchRegOk rm
  | .push m list8 => stackListOk m list8
  | .pop p list8 => stackListOk p list8
  | .stm _ list8 => listOk list8
  | .ldm _ list8 => listOk list8
  | .msr _ rn => specMoveRegOk rn
  | .mrs rd _ => specMoveRegOk rd
  | .movsReg _ _ | .lsrsImm _ _ _ | .asrsImm _ _ _ | .addsReg _ _ _ | .subsReg _ _ _ | .addsImm3 _ _ _
  | .subsImm3 _ _ _ | .movsImm _ _ | .cmpImm _ _ | .addsImm8 _ _ | .subsImm8 _ _ | .ands _ _ | .eors _ _
  | .lslsReg _ _ | .lsrsReg _ _ | .asrsReg _ _ | .adcs _ _ | .sbcs _ _ | .rors _ _ | .tst _ _ | .rsbs _ _
  | .cmpLow _ _ | .cmn _ _ | .orrs _ _ | .muls _ _ | .bics _ _ | .mvns _ _ | .mov _ _ | .ldrLit _ _
  | .strReg _ _ _ | .strhReg _ _ _ | .strbReg _ _ _ | .ldrsb _ _ _ | .ldrReg _ _ _ | .ldrhReg _ _ _
  | .ldrbReg _ _ _ | .ldrsh _ _ _ | .strImm _ _ _ | .ldrImm _ _ _ | .strbImm _ _ _ | .ldrbImm _ _ _
  | .strhImm _ _ _ | .ldrhImm _ _ _ | .strSp _ _ | .ldrSp _ _ | .adr _ _ | .addRdSp _ _ | .addSp _ | .subSp _
  | .sxth _ _ | .sxtb _ _ | .uxth _ _ | .uxtb _ _ | .cpsie | .cpsid | .rev _ _ | .rev16 _ _ | .revsh _ _
  | .bkpt _ | .nop | .yield | .wfe | .wfi | .sev | .udf _ | .svc _ | .bcond _ _ | .b _ | .bl _ | .dsb _ | .dmb _
  | .isb _ | .udfW _ => true

end Sys2Proof
end

