-- ==== Sys2Proof/Decode.lean ====
section
/-! DEFINITION. From the bits of an instruction to the instruction and back, written from the tables of 30_encoding.md
(R191 to R204). A halfword is taken apart as a natural number, so that bit k on is `w / 2 ^ k`. -/

namespace Sys2Proof

/-- What an encoding stands for: an instruction, an undefined encoding (R201, R204: executing it is a HardFault), or an
unpredictable one (R203: refused by name). -/
inductive Decoded
  /-- an instruction -/
  | instr (i : Instr)
  /-- allocated to no instruction -/
  | undefined
  /-- allocated, with a restriction broken -/
  | unpredictable (u : Unpredictable)
  deriving DecidableEq, Repr

/-- The low-register field whose lowest bit is bit k. -/
def loAt (w k : Nat) : LoReg := Fin.ofNat 8 (w / 2 ^ k)

/-- The 4-bit register field whose lowest bit is bit k. -/
def regAt (w k : Nat) : Reg := Fin.ofNat 16 (w / 2 ^ k)

/-- The register DN:Rdn3, bit 7 and bits [2:0] (R193, F-HI). -/
def splitReg (w : Nat) : Reg := Fin.ofNat 16 (w / 128 % 2 * 8 + w % 8)

/-- The n-bit field whose lowest bit is bit k. -/
def bitsAt (n w k : Nat) : BitVec n := BitVec.ofNat n (w / 2 ^ k)

/-- The condition of the field value c (R206); 13 is LE, and 14 and 15 are UDF and SVC. -/
def Cond.ofCode : Nat → Cond
  | 0 => .eq | 1 => .ne | 2 => .cs | 3 => .cc | 4 => .mi | 5 => .pl | 6 => .vs
  | 7 => .vc | 8 => .hi | 9 => .ls | 10 => .ge | 11 => .lt | 12 => .gt | _ => .le

/-- The field value of a condition (R206). -/
def Cond.code : Cond → Nat
  | .eq => 0 | .ne => 1 | .cs => 2 | .cc => 3 | .mi => 4 | .pl => 5 | .vs => 6
  | .vc => 7 | .hi => 8 | .ls => 9 | .ge => 10 | .lt => 11 | .gt => 12 | .le => 13

/-- The special register of a SYSm value (R198). -/
def SpecReg.ofSysm : Nat → Option SpecReg
  | 0 => some .apsr | 1 => some .iapsr | 2 => some .eapsr | 3 => some .psr | 5 => some .ipsr | 6 => some .epsr
  | 7 => some .iepsr | 8 => some .msp | 9 => some .psp | 16 => some .primask | 20 => some .control | _ => none

/-- The SYSm value of a special register (R198). -/
def SpecReg.sysm : SpecReg → Nat
  | .apsr => 0 | .iapsr => 1 | .eapsr => 2 | .psr => 3 | .ipsr => 5 | .epsr => 6
  | .iepsr => 7 | .msp => 8 | .psp => 9 | .primask => 16 | .control => 20

/-- The register forms of `00011 I op1` (R193, F-AS3). -/
def decodeAddSub (w : Nat) : Decoded :=
  match w / 512 % 4 with
  | 0 => .instr (.addsReg (loAt w 0) (loAt w 3) (loAt w 6))
  | 1 => .instr (.subsReg (loAt w 0) (loAt w 3) (loAt w 6))
  | 2 => .instr (.addsImm3 (loAt w 0) (loAt w 3) (bitsAt 3 w 6))
  | _ => .instr (.subsImm3 (loAt w 0) (loAt w 3) (bitsAt 3 w 6))

/-- The sixteen operations of `010000 op4` (R193, F-DP). -/
def decodeDataProcessing (w : Nat) : Decoded :=
  match w / 64 % 16 with
  | 0 => .instr (.ands (loAt w 0) (loAt w 3))
  | 1 => .instr (.eors (loAt w 0) (loAt w 3))
  | 2 => .instr (.lslsReg (loAt w 0) (loAt w 3))
  | 3 => .instr (.lsrsReg (loAt w 0) (loAt w 3))
  | 4 => .instr (.asrsReg (loAt w 0) (loAt w 3))
  | 5 => .instr (.adcs (loAt w 0) (loAt w 3))
  | 6 => .instr (.sbcs (loAt w 0) (loAt w 3))
  | 7 => .instr (.rors (loAt w 0) (loAt w 3))
  | 8 => .instr (.tst (loAt w 0) (loAt w 3))
  | 9 => .instr (.rsbs (loAt w 0) (loAt w 3))
  | 10 => .instr (.cmpLow (loAt w 0) (loAt w 3))
  | 11 => .instr (.cmn (loAt w 0) (loAt w 3))
  | 12 => .instr (.orrs (loAt w 0) (loAt w 3))
  | 13 => .instr (.muls (loAt w 0) (loAt w 3))
  | 14 => .instr (.bics (loAt w 0) (loAt w 3))
  | _ => .instr (.mvns (loAt w 0) (loAt w 3))

/-- BX and BLX, `010001 11 L Rm4 000` (R193, F-BX), with the restrictions of R203. -/
def decodeBranchExchange (w : Nat) : Decoded :=
  if w % 8 ≠ 0 then .unpredictable .branchBits
  else if branchRegOk (regAt w 3) = false then .unpredictable .branchReg
  else if w / 128 % 2 = 0 then .instr (.bx (regAt w 3))
  else .instr (.blx (regAt w 3))

/-- The any-register group `010001 op2` (R193, F-HI and F-BX). -/
def decodeSpecialData (w : Nat) : Decoded :=
  match w / 256 % 4 with
  | 0 =>
    if addHighOk (splitReg w) (regAt w 3) then .instr (.addHigh (splitReg w) (regAt w 3))
    else .unpredictable .addPcPc
  | 1 =>
    if cmpHighOk (splitReg w) (regAt w 3) then .instr (.cmpHigh (splitReg w) (regAt w 3))
    else .unpredictable .cmpHighRegs
  | 2 => .instr (.mov (splitReg w) (regAt w 3))
  | _ => decodeBranchExchange w

/-- The register-offset loads and stores `0101 opB3` (R193, F-LSR). -/
def decodeLoadStoreReg (w : Nat) : Decoded :=
  match w / 512 % 8 with
  | 0 => .instr (.strReg (loAt w 0) (loAt w 3) (loAt w 6))
  | 1 => .instr (.strhReg (loAt w 0) (loAt w 3) (loAt w 6))
  | 2 => .instr (.strbReg (loAt w 0) (loAt w 3) (loAt w 6))
  | 3 => .instr (.ldrsb (loAt w 0) (loAt w 3) (loAt w 6))
  | 4 => .instr (.ldrReg (loAt w 0) (loAt w 3) (loAt w 6))
  | 5 => .instr (.ldrhReg (loAt w 0) (loAt w 3) (loAt w 6))
  | 6 => .instr (.ldrbReg (loAt w 0) (loAt w 3) (loAt w 6))
  | _ => .instr (.ldrsh (loAt w 0) (loAt w 3) (loAt w 6))

/-- The sign and zero extensions `1011 0010 op2` (R193, F-EXT). -/
def decodeExtend (w : Nat) : Decoded :=
  match w / 64 % 4 with
  | 0 => .instr (.sxth (loAt w 0) (loAt w 3))
  | 1 => .instr (.sxtb (loAt w 0) (loAt w 3))
  | 2 => .instr (.uxth (loAt w 0) (loAt w 3))
  | _ => .instr (.uxtb (loAt w 0) (loAt w 3))

/-- The byte reversals `1011 1010 op2` (R193, F-REV); op2 = 10 is undefined (R201). -/
def decodeReverse (w : Nat) : Decoded :=
  match w / 64 % 4 with
  | 0 => .instr (.rev (loAt w 0) (loAt w 3))
  | 1 => .instr (.rev16 (loAt w 0) (loAt w 3))
  | 2 => .undefined
  | _ => .instr (.revsh (loAt w 0) (loAt w 3))

/-- The space `1011 0110`: CPS inside `011 im 0010` (R193, F-CPS), unpredictable with other flag bits (R203), undefined
outside `011` (R201). -/
def decodeCps (w : Nat) : Decoded :=
  if w / 32 % 8 ≠ 3 then .undefined
  else if w % 16 ≠ 2 then .unpredictable .cpsBits
  else if w / 16 % 2 = 0 then .instr .cpsie
  else .instr .cpsid

/-- The space `1011 1111 opA yyyy`: the hints (R202), where an unallocated hint executes as NOP; yyyy != 0 is undefined
(R201). -/
def decodeHint (w : Nat) : Decoded :=
  if w % 16 ≠ 0 then .undefined
  else match w / 16 % 16 with
    | 1 => .instr .yield
    | 2 => .instr .wfe
    | 3 => .instr .wfi
    | 4 => .instr .sev
    | _ => .instr .nop

/-- PUSH and POP lists (R193, F-PP), refused when empty (R203). -/
def decodePush (w : Nat) : Decoded :=
  if stackListOk (w / 256 % 2 == 1) (bitsAt 8 w 0) then .instr (.push (w / 256 % 2 == 1) (bitsAt 8 w 0))
  else .unpredictable .emptyList

/-- POP, as `decodePush`. -/
def decodePop (w : Nat) : Decoded :=
  if stackListOk (w / 256 % 2 == 1) (bitsAt 8 w 0) then .instr (.pop (w / 256 % 2 == 1) (bitsAt 8 w 0))
  else .unpredictable .emptyList

/-- The miscellaneous group `1011` by hw1[11:8] (R196, R197, R201). -/
def decodeMisc (w : Nat) : Decoded :=
  match w / 256 % 16 with
  | 0 => if w / 128 % 2 = 0 then .instr (.addSp (bitsAt 7 w 0)) else .instr (.subSp (bitsAt 7 w 0))
  | 2 => decodeExtend w
  | 4 => decodePush w
  | 5 => decodePush w
  | 6 => decodeCps w
  | 10 => decodeReverse w
  | 12 => decodePop w
  | 13 => decodePop w
  | 14 => .instr (.bkpt (bitsAt 8 w 0))
  | 15 => decodeHint w
  | _ => .undefined

/-- LDM and STM (R193, F-LSM), refused with an empty list (R203). A list that makes the word STM stores for its base
unknown is an instruction (93_implementation_defined.md U1 lets the word be any value). -/
def decodeMultiple (w : Nat) : Decoded :=
  if listOk (bitsAt 8 w 0) = false then .unpredictable .emptyList
  else if w / 2048 % 2 = 0 then .instr (.stm (loAt w 8) (bitsAt 8 w 0))
  else .instr (.ldm (loAt w 8) (bitsAt 8 w 0))

/-- The space `1101 cond`: UDF and SVC have the two highest condition values (R199 item 2). -/
def decodeCondBranch (w : Nat) : Decoded :=
  match w / 256 % 16 with
  | 14 => .instr (.udf (bitsAt 8 w 0))
  | 15 => .instr (.svc (bitsAt 8 w 0))
  | c => .instr (.bcond (Cond.ofCode c) (bitsAt 8 w 0))

/-- A 16-bit instruction, by the major opcode hw1[15:11] (R196, R197, R199). -/
def decode16 (w : Nat) : Decoded :=
  match w / 2048 with
  | 0 =>
    if w / 64 % 32 = 0 then .instr (.movsReg (loAt w 0) (loAt w 3))
    else .instr (.lslsImm (bitsAt 5 w 6) (loAt w 3) (loAt w 0))
  | 1 => .instr (.lsrsImm (bitsAt 5 w 6) (loAt w 3) (loAt w 0))
  | 2 => .instr (.asrsImm (bitsAt 5 w 6) (loAt w 3) (loAt w 0))
  | 3 => decodeAddSub w
  | 4 => .instr (.movsImm (loAt w 8) (bitsAt 8 w 0))
  | 5 => .instr (.cmpImm (loAt w 8) (bitsAt 8 w 0))
  | 6 => .instr (.addsImm8 (loAt w 8) (bitsAt 8 w 0))
  | 7 => .instr (.subsImm8 (loAt w 8) (bitsAt 8 w 0))
  | 8 => if w / 1024 % 2 = 0 then decodeDataProcessing w else decodeSpecialData w
  | 9 => .instr (.ldrLit (loAt w 8) (bitsAt 8 w 0))
  | 10 => decodeLoadStoreReg w
  | 11 => decodeLoadStoreReg w
  | 12 => .instr (.strImm (loAt w 0) (loAt w 3) (bitsAt 5 w 6))
  | 13 => .instr (.ldrImm (loAt w 0) (loAt w 3) (bitsAt 5 w 6))
  | 14 => .instr (.strbImm (loAt w 0) (loAt w 3) (bitsAt 5 w 6))
  | 15 => .instr (.ldrbImm (loAt w 0) (loAt w 3) (bitsAt 5 w 6))
  | 16 => .instr (.strhImm (loAt w 0) (loAt w 3) (bitsAt 5 w 6))
  | 17 => .instr (.ldrhImm (loAt w 0) (loAt w 3) (bitsAt 5 w 6))
  | 18 => .instr (.strSp (loAt w 8) (bitsAt 8 w 0))
  | 19 => .instr (.ldrSp (loAt w 8) (bitsAt 8 w 0))
  | 20 => .instr (.adr (loAt w 8) (bitsAt 8 w 0))
  | 21 => .instr (.addRdSp (loAt w 8) (bitsAt 8 w 0))
  | 22 => decodeMisc w
  | 23 => decodeMisc w
  | 24 => decodeMultiple w
  | 25 => decodeMultiple w
  | 26 => decodeCondBranch w
  | 27 => decodeCondBranch w
  | 28 => .instr (.b (bitsAt 11 w 0))
  | _ => .undefined

/-- The offset field S:I1:I2:imm10:imm11 of BL, with I1 = NOT(J1 XOR S) and I2 = NOT(J2 XOR S) (R195). -/
def blOffset (h1 h2 : Nat) : BitVec 24 :=
  let s := h1 / 1024 % 2
  let i1 := (h2 / 8192 + s + 1) % 2
  let i2 := (h2 / 2048 + s + 1) % 2
  BitVec.ofNat 24 (s * 8388608 + i1 * 4194304 + i2 * 2097152 + h1 % 1024 * 2048 + h2 % 2048)

/-- MSR spec_reg, Rn (R198), with the restrictions of R203. -/
def decodeMsr (h1 h2 : Nat) : Decoded :=
  match SpecReg.ofSysm (h2 % 256) with
  | none => .unpredictable .sysm
  | some r => if specMoveRegOk (regAt h1 0) then .instr (.msr r (regAt h1 0)) else .unpredictable .specMoveReg

/-- MRS Rd, spec_reg (R198), with the restrictions of R203. -/
def decodeMrs (h2 : Nat) : Decoded :=
  match SpecReg.ofSysm (h2 % 256) with
  | none => .unpredictable .sysm
  | some r => if specMoveRegOk (regAt h2 8) then .instr (.mrs (regAt h2 8) r) else .unpredictable .specMoveReg

/-- DSB, DMB and ISB by the op4 field (R198); the space of a barrier with a should-be bit wrong is unpredictable (R203). -/
def decodeBarrier (h1 h2 : Nat) : Decoded :=
  match h2 / 16 % 16 with
  | 4 => if h1 = 0xF3BF ∧ h2 / 256 = 0x8F then .instr (.dsb (bitsAt 4 h2 0)) else .unpredictable .barrierBits
  | 5 => if h1 = 0xF3BF ∧ h2 / 256 = 0x8F then .instr (.dmb (bitsAt 4 h2 0)) else .unpredictable .barrierBits
  | 6 => if h1 = 0xF3BF ∧ h2 / 256 = 0x8F then .instr (.isb (bitsAt 4 h2 0)) else .unpredictable .barrierBits
  | _ => .undefined

/-- The group with hw2[15:14] = 10 and hw2[12] = 0 by hw1[15:4] (R199 item 6). Which bits are should-be bits is the
architecture's (PRESUMED, assumption log 12). -/
def decodeSystem (h1 h2 : Nat) : Decoded :=
  match h1 / 16 with
  | 0xF38 => if h2 / 256 = 0x88 then decodeMsr h1 h2 else .unpredictable .specMoveBits
  | 0xF39 => .unpredictable .specMoveBits
  | 0xF3B => decodeBarrier h1 h2
  | 0xF3E => if h1 = 0xF3EF ∧ h2 / 4096 = 8 then decodeMrs h2 else .unpredictable .specMoveBits
  | 0xF3F => .unpredictable .specMoveBits
  | 0xF7F =>
    if h2 / 4096 = 10 then .instr (.udfW (BitVec.ofNat 16 (h1 % 16 * 4096 + h2 % 4096))) else .undefined
  | _ => .undefined

/-- A 32-bit instruction hw1:hw2 (R198, R199 item 6, R204). -/
def decode32 (h1 h2 : Nat) : Decoded :=
  if h1 / 2048 = 30 then
    if h2 / 16384 = 3 ∧ h2 / 4096 % 2 = 1 then .instr (.bl (blOffset h1 h2))
    else if h2 / 16384 = 2 ∧ h2 / 4096 % 2 = 0 then decodeSystem h1 h2
    else .undefined
  else .undefined

/-- hw1[15:11] in 11101, 11110, 11111 begins a 32-bit instruction (R191). -/
def isWide (hw1 : Half) : Bool := decide (29 ≤ hw1.toNat / 2048)

/-- The instruction of a first halfword and the halfword after it, which a 16-bit instruction ignores (R191). -/
def decodeHalves (hw1 hw2 : Half) : Decoded :=
  if isWide hw1 then decode32 hw1.toNat hw2.toNat else decode16 hw1.toNat

/-- A halfword from its two bytes, the lower address first (R192). -/
def halfOfBytes (lo hi : Byte) : Half := hi ++ lo

/-- The first instruction of a list of bytes and the bytes after it; none when the bytes end before it does (R191, R192). -/
def decodeBytes : List Byte → Option (Decoded × List Byte)
  | b0 :: b1 :: rest =>
    if isWide (halfOfBytes b0 b1) then
      match rest with
      | b2 :: b3 :: rest' => some (decodeHalves (halfOfBytes b0 b1) (halfOfBytes b2 b3), rest')
      | _ => none
    else some (decodeHalves (halfOfBytes b0 b1) 0, rest)
  | _ => none

/-- A 16-bit encoding as the list of its one halfword. -/
def oneHalf (w : Nat) : List Half := [BitVec.ofNat 16 w]

/-- An encoding `base Rm3 Rd3` (R193, F-SHI, F-DP, F-EXT, F-REV). -/
def encodeTwo (base : Nat) (hi lo : LoReg) : List Half := oneHalf (base + hi.val * 8 + lo.val)

/-- An encoding `base x Rn3 Rd3` with a field x at bit 6 (R193, F-AS3, F-LSR, F-LSI, F-SHI). -/
def encodeThree (base x : Nat) (mid lo : LoReg) : List Half := oneHalf (base + x * 64 + mid.val * 8 + lo.val)

/-- An encoding `base Rd3 imm8` (R193, F-I8, F-LIT, F-LSSP, F-ADR, F-LSM). -/
def encodeImm8 (base : Nat) (r : LoReg) (imm8 : BitVec 8) : List Half := oneHalf (base + r.val * 256 + imm8.toNat)

/-- An encoding `base DN Rm4 Rdn3` (R193, F-HI). -/
def encodeHigh (base : Nat) (d m : Reg) : List Half := oneHalf (base + d.val / 8 * 128 + m.val * 8 + d.val % 8)

/-- The two halfwords of BL, with J1 = NOT(I1) XOR S and J2 = NOT(I2) XOR S (R195). -/
def encodeBl (imm24 : BitVec 24) : List Half :=
  let n := imm24.toNat
  let s := n / 8388608
  let j1 := (n / 4194304 + s + 1) % 2
  let j2 := (n / 2097152 + s + 1) % 2
  [BitVec.ofNat 16 (0xF000 + s * 1024 + n / 2048 % 1024),
   BitVec.ofNat 16 (0xD000 + j1 * 8192 + j2 * 2048 + n % 2048)]

/-- The halfwords of a well-formed instruction, hw1 first (R197, R198). -/
def encode : Instr → List Half
  | .movsReg rd rm => encodeTwo 0x0000 rm rd
  | .lslsImm imm5 rm rd => encodeThree 0x0000 imm5.toNat rm rd
  | .lsrsImm imm5 rm rd => encodeThree 0x0800 imm5.toNat rm rd
  | .asrsImm imm5 rm rd => encodeThree 0x1000 imm5.toNat rm rd
  | .addsReg rd rn rm => encodeThree 0x1800 rm.val rn rd
  | .subsReg rd rn rm => encodeThree 0x1A00 rm.val rn rd
  | .addsImm3 rd rn imm3 => encodeThree 0x1C00 imm3.toNat rn rd
  | .subsImm3 rd rn imm3 => encodeThree 0x1E00 imm3.toNat rn rd
  | .movsImm rd imm8 => encodeImm8 0x2000 rd imm8
  | .cmpImm rn imm8 => encodeImm8 0x2800 rn imm8
  | .addsImm8 rdn imm8 => encodeImm8 0x3000 rdn imm8
  | .subsImm8 rdn imm8 => encodeImm8 0x3800 rdn imm8
  | .ands rdn rm => encodeTwo 0x4000 rm rdn
  | .eors rdn rm => encodeTwo 0x4040 rm rdn
  | .lslsReg rdn rs => encodeTwo 0x4080 rs rdn
  | .lsrsReg rdn rs => encodeTwo 0x40C0 rs rdn
  | .asrsReg rdn rs => encodeTwo 0x4100 rs rdn
  | .adcs rdn rm => encodeTwo 0x4140 rm rdn
  | .sbcs rdn rm => encodeTwo 0x4180 rm rdn
  | .rors rdn rs => encodeTwo 0x41C0 rs rdn
  | .tst rn rm => encodeTwo 0x4200 rm rn
  | .rsbs rd rn => encodeTwo 0x4240 rn rd
  | .cmpLow rn rm => encodeTwo 0x4280 rm rn
  | .cmn rn rm => encodeTwo 0x42C0 rm rn
  | .orrs rdn rm => encodeTwo 0x4300 rm rdn
  | .muls rdm rn => encodeTwo 0x4340 rn rdm
  | .bics rdn rm => encodeTwo 0x4380 rm rdn
  | .mvns rd rm => encodeTwo 0x43C0 rm rd
  | .addHigh rdn rm => encodeHigh 0x4400 rdn rm
  | .cmpHigh rn rm => encodeHigh 0x4500 rn rm
  | .mov rd rm => encodeHigh 0x4600 rd rm
  | .bx rm => oneHalf (0x4700 + rm.val * 8)
  | .blx rm => oneHalf (0x4780 + rm.val * 8)
  | .ldrLit rt imm8 => encodeImm8 0x4800 rt imm8
  | .strReg rt rn rm => encodeThree 0x5000 rm.val rn rt
  | .strhReg rt rn rm => encodeThree 0x5200 rm.val rn rt
  | .strbReg rt rn rm => encodeThree 0x5400 rm.val rn rt
  | .ldrsb rt rn rm => encodeThree 0x5600 rm.val rn rt
  | .ldrReg rt rn rm => encodeThree 0x5800 rm.val rn rt
  | .ldrhReg rt rn rm => encodeThree 0x5A00 rm.val rn rt
  | .ldrbReg rt rn rm => encodeThree 0x5C00 rm.val rn rt
  | .ldrsh rt rn rm => encodeThree 0x5E00 rm.val rn rt
  | .strImm rt rn imm5 => encodeThree 0x6000 imm5.toNat rn rt
  | .ldrImm rt rn imm5 => encodeThree 0x6800 imm5.toNat rn rt
  | .strbImm rt rn imm5 => encodeThree 0x7000 imm5.toNat rn rt
  | .ldrbImm rt rn imm5 => encodeThree 0x7800 imm5.toNat rn rt
  | .strhImm rt rn imm5 => encodeThree 0x8000 imm5.toNat rn rt
  | .ldrhImm rt rn imm5 => encodeThree 0x8800 imm5.toNat rn rt
  | .strSp rt imm8 => encodeImm8 0x9000 rt imm8
  | .ldrSp rt imm8 => encodeImm8 0x9800 rt imm8
  | .adr rd imm8 => encodeImm8 0xA000 rd imm8
  | .addRdSp rd imm8 => encodeImm8 0xA800 rd imm8
  | .addSp imm7 => oneHalf (0xB000 + imm7.toNat)
  | .subSp imm7 => oneHalf (0xB080 + imm7.toNat)
  | .sxth rd rm => encodeTwo 0xB200 rm rd
  | .sxtb rd rm => encodeTwo 0xB240 rm rd
  | .uxth rd rm => encodeTwo 0xB280 rm rd
  | .uxtb rd rm => encodeTwo 0xB2C0 rm rd
  | .push m list8 => oneHalf (0xB400 + m.toNat * 256 + list8.toNat)
  | .cpsie => oneHalf 0xB662
  | .cpsid => oneHalf 0xB672
  | .rev rd rm => encodeTwo 0xBA00 rm rd
  | .rev16 rd rm => encodeTwo 0xBA40 rm rd
  | .revsh rd rm => encodeTwo 0xBAC0 rm rd
  | .pop p list8 => oneHalf (0xBC00 + p.toNat * 256 + list8.toNat)
  | .bkpt imm8 => oneHalf (0xBE00 + imm8.toNat)
  | .nop => oneHalf 0xBF00
  | .yield => oneHalf 0xBF10
  | .wfe => oneHalf 0xBF20
  | .wfi => oneHalf 0xBF30
  | .sev => oneHalf 0xBF40
  | .stm rn list8 => encodeImm8 0xC000 rn list8
  | .ldm rn list8 => encodeImm8 0xC800 rn list8
  | .udf imm8 => oneHalf (0xDE00 + imm8.toNat)
  | .svc imm8 => oneHalf (0xDF00 + imm8.toNat)
  | .bcond cond imm8 => oneHalf (0xD000 + cond.code * 256 + imm8.toNat)
  | .b imm11 => oneHalf (0xE000 + imm11.toNat)
  | .bl imm24 => encodeBl imm24
  | .msr spec rn => [BitVec.ofNat 16 (0xF380 + rn.val), BitVec.ofNat 16 (0x8800 + spec.sysm)]
  | .mrs rd spec => [0xF3EF, BitVec.ofNat 16 (0x8000 + rd.val * 256 + spec.sysm)]
  | .dsb option => [0xF3BF, BitVec.ofNat 16 (0x8F40 + option.toNat)]
  | .dmb option => [0xF3BF, BitVec.ofNat 16 (0x8F50 + option.toNat)]
  | .isb option => [0xF3BF, BitVec.ofNat 16 (0x8F60 + option.toNat)]
  | .udfW imm16 =>
    [BitVec.ofNat 16 (0xF7F0 + imm16.toNat / 4096), BitVec.ofNat 16 (0xA000 + imm16.toNat % 4096)]

/-- The two bytes of a halfword in memory order (R192). -/
def bytesOfHalf (h : Half) : List Byte := [h.extractLsb' 0 8, h.extractLsb' 8 8]

/-- The bytes of an instruction in memory order (R192). -/
def encodeBytes (i : Instr) : List Byte := (encode i).flatMap bytesOfHalf

/-- What the decoder reads from a list of halfwords that is one encoding. -/
def decodeList : List Half → Decoded
  | [] => .undefined
  | [h] => decodeHalves h 0
  | h1 :: h2 :: _ => decodeHalves h1 h2

/-- A 32-bit table word has hw1 in bits [31:16] (R192: the table numbers a row hw1:hw2). A word whose upper half begins no
32-bit instruction while its lower half does is read the other way round (DESIGN CHOICE, assumption log 13). -/
def tableHighFirst (w : Nat) : Bool :=
  isWide (BitVec.ofNat 16 (w / 65536)) || !isWide (BitVec.ofNat 16 w)

/-- The halfword hw1 of a table word. -/
def tableHalf1 (nbits w : Nat) : Half :=
  if nbits ≤ 16 then BitVec.ofNat 16 w
  else if tableHighFirst w then BitVec.ofNat 16 (w / 65536) else BitVec.ofNat 16 w

/-- The halfword hw2 of a table word, 0 where the table gives it no bits. -/
def tableHalf2 (nbits w : Nat) : Half :=
  if nbits ≤ 16 then 0
  else if tableHighFirst w then BitVec.ofNat 16 w else BitVec.ofNat 16 (w / 65536)

/-- The instruction the decoder reads from an instruction whose bits are w, numbered as spec/opcode_table.json numbers them,
laid out in bytes as the hardware stores them; none where the decoder answers no instruction. -/
def decodeTableWord (nbits w : Nat) : Option Instr :=
  match decodeBytes (bytesOfHalf (tableHalf1 nbits w) ++ bytesOfHalf (tableHalf2 nbits w)) with
  | some (.instr i, _) => some i
  | _ => none

end Sys2Proof
end

