-- ==== Sys2Proof/Config.lean ====
section
/-! DEFINITION. What an implementation fixes: the platform parameters of 00_scope.md R8 that the spec leaves OPEN (a record
that State carries in its field `cfg`, so that a statement about every state holds for every platform), and the free values
that the manual leaves open. -/

namespace Sys2Proof

/-- The value of the n-th draw of a value the manual leaves open: it has no body, so nothing can be proved of it
(93_implementation_defined.md U1, U3, U16, U19; assumption log 11). -/
opaque Config.freeWord : Nat → Word

/-- An inclusive range of addresses. -/
structure Span where
  /-- first address of the range -/
  lo : Word
  /-- last address of the range -/
  hi : Word
  deriving DecidableEq, Repr

/-- The three access sizes (20_memory.md R147). -/
inductive Size
  | byte | half | word
  deriving DecidableEq, Repr

/-- The number of bytes of an access. -/
def Size.bytes : Size → Nat
  | .byte => 1
  | .half => 2
  | .word => 4

/-- What an access does (20_memory.md R180). -/
inductive AccessKind
  | read | write | fetch
  deriving DecidableEq, Repr

/-- What answers an access outside the PPB: the four results of the parameter `MemMap` (92_eei_decisions.md D5). -/
inductive MemKind
  /-- RAM-like storage -/
  | ram
  /-- read-only storage: it reads like RAM, and a write leaves it unchanged (assumption log 3) -/
  | rom
  /-- a device, whose behaviour is the platform's parameter `Config.deviceRead` (93_implementation_defined.md U26) -/
  | device
  /-- the access is a bus error (20_memory.md R144) -/
  | busError
  deriving DecidableEq, Repr

/-- One entry of the platform's memory map, a function of address, size, read/write/fetch and privilege (92_eei_decisions.md D5). -/
structure MapEntry where
  /-- the addresses the entry covers -/
  span : Span
  /-- the access sizes the entry is for -/
  sizes : List Size
  /-- reads, writes or fetches -/
  accesses : List AccessKind
  /-- the privileges the entry is for: `true` privileged, `false` unprivileged -/
  privileges : List Bool
  /-- what answers there -/
  kind : MemKind
  deriving DecidableEq, Repr

/-- One access that a device saw (20_memory.md R149; U26; assumption log 39). -/
structure DeviceAccess where
  /-- its address -/
  address : Word
  /-- its size -/
  size : Size
  /-- read, write or fetch -/
  access : AccessKind
  /-- its privilege -/
  privileged : Bool
  /-- the value written, 0 for a read or a fetch -/
  value : Word
  /-- what the world outside did to the devices in the step of this access -/
  input : Nat
  deriving DecidableEq, Repr

/-- The platform's device models (93_implementation_defined.md U26, treatment `parameter`): model `n` answers the newest access, a
read or a fetch, from all accesses so far, the newest first. It has no body, so a statement holds for every behaviour of the devices. -/
opaque Config.deviceRead : Nat → List DeviceAccess → Word

/-- The parameters that 00_scope.md R8 leaves OPEN, as plain data. -/
structure Platform where
  /-- HAS_MPU (92_eei_decisions.md D2) -/
  hasMpu : Bool
  /-- TENMS, the SysTick calibration value (D4) -/
  tenms : BitVec 24
  /-- MemMap (D5): the first entry that covers an access decides; an access that none covers goes to RAM-like storage -/
  memMap : List MapEntry
  /-- IOPORT_RANGE (D30): the addresses at which data accesses are Device accesses and an instruction fetch is a bus error -/
  ioPort : List Span
  /-- DEBUGGER_ATTACHED (D7) -/
  debuggerAttached : Bool
  /-- MULTI_ACCESS_ATOMIC (D16): LDM, STM, PUSH, POP and MULS are never abandoned -/
  multiAccessAtomic : Bool
  /-- which of the device models of `Config.deviceRead` the platform has (U26) -/
  deviceModel : Nat
  deriving DecidableEq, Repr

/-- The platform of `State.reset`: an MPU, no calibration value, RAM-like storage at every address outside the PPB, no I/O
port (DESIGN CHOICE, assumption logs 1 and 3), no debugger and MULTI_ACCESS_ATOMIC true (the spec's own defaults, D7 and D16). -/
def Platform.standard : Platform :=
  { hasMpu := true, tenms := 0, memMap := [], ioPort := [], debuggerAttached := false, multiAccessAtomic := true, deviceModel := 0 }

/-- An address lies in a range. -/
def Span.covers (r : Span) (a : Word) : Bool :=
  decide (r.lo.toNat ≤ a.toNat) && decide (a.toNat ≤ r.hi.toNat)

/-- An entry of the memory map is for an access. -/
def MapEntry.covers (e : MapEntry) (priv : Bool) (kind : AccessKind) (size : Size) (a : Word) : Bool :=
  e.span.covers a && decide (size ∈ e.sizes) && decide (kind ∈ e.accesses) && decide (priv ∈ e.privileges)

end Sys2Proof
end

