-- ==== Sys2Proof/Machine/Memory.lean ====
section
/-! DEFINITION. Memory: one address space of 2^32 bytes (20_memory.md R120), held as a list of (address, byte) pairs in one
canonical form, with little-endian reads and writes of 1, 2 and 4 bytes (20_memory.md R130, R132). -/

namespace Sys2Proof.Machine

/-- Memory as a list of the bytes that differ from what an unlisted address reads as. -/
abbrev Memory := List Host.Cell

/-- What a byte of memory that nothing has written reads as (DESIGN CHOICE, assumption log 2; unsafe: 10_state.md R102 leaves
memory contents to the platform). -/
def Memory.background : Byte := 0

/-- The byte at an address. -/
def Memory.byteAt : Memory → Nat → Byte
  | [], _ => Memory.background
  | (k, b) :: rest, a => if k = a then b else Memory.byteAt rest a

/-- The list with one entry put in its place by address. -/
def Memory.insert : Memory → Nat → Byte → Memory
  | [], a, v => [(a, v)]
  | (k, b) :: rest, a, v =>
    if a < k then (a, v) :: (k, b) :: rest
    else if a = k then (a, v) :: rest
    else (k, b) :: Memory.insert rest a v

/-- The list without the entry of an address. -/
def Memory.erase : Memory → Nat → Memory
  | [], _ => []
  | (k, b) :: rest, a => if k = a then Memory.erase rest a else (k, b) :: Memory.erase rest a

/-- Writing one byte: writing what an unlisted address reads as removes the entry. -/
def Memory.setByte (m : Memory) (a : Nat) (v : Byte) : Memory :=
  if v = Memory.background then Memory.erase m a else Memory.insert m a v

/-- The canonical form from address `lo` on: addresses strictly rise and lie in the address space, and no entry holds what an
unlisted address reads as. -/
def Memory.wfFrom : Nat → Memory → Bool
  | _, [] => true
  | lo, (k, b) :: rest =>
    decide (lo ≤ k) && decide (k < 4294967296) && decide (b ≠ Memory.background) && Memory.wfFrom (k + 1) rest

/-- The canonical form of memory. -/
def Memory.wf (m : Memory) : Bool := Memory.wfFrom 0 m

/-- The little-endian value at an address, zero-extended to a word (20_memory.md R132); addresses are modulo 2^32 (R29). -/
def Memory.load (m : Memory) (size : Size) (a : Word) : Word :=
  match size with
  | .byte => (Memory.byteAt m a.toNat).setWidth 32
  | .half => (Memory.byteAt m (a + 1).toNat ++ Memory.byteAt m a.toNat).setWidth 32
  | .word =>
    Memory.byteAt m (a + 3).toNat ++ Memory.byteAt m (a + 2).toNat ++ Memory.byteAt m (a + 1).toNat
      ++ Memory.byteAt m a.toNat

/-- The halfword at an address, as an instruction fetch reads it (20_memory.md R133). -/
def Memory.halfAt (m : Memory) (a : Word) : Half :=
  Memory.byteAt m (a + 1).toNat ++ Memory.byteAt m a.toNat

/-- Byte `i` of a word, byte 0 the least significant (20_memory.md R132). -/
def byteOf (v : Word) (i : Nat) : Byte := v.extractLsb' (8 * i) 8

/-- The bytes of a word that an access of a size carries, zero-extended (40_memory_access.md R253). -/
def narrowTo (size : Size) (v : Word) : Word :=
  match size with
  | .byte => v &&& 0x000000FF#32
  | .half => v &&& 0x0000FFFF#32
  | .word => v

/-- The addresses of the bytes of an access, in rising order modulo 2^32. -/
def accessBytes (size : Size) (a : Word) : List Word :=
  match size with
  | .byte => [a]
  | .half => [a, a + 1]
  | .word => [a, a + 1, a + 2, a + 3]

/-- Several bytes written by another bus master (60_exceptions.md R420). -/
def Memory.setBytes (m : Memory) : List Host.Cell → Memory
  | [] => m
  | (a, v) :: rest => Memory.setBytes (Memory.setByte m (a % 4294967296) v) rest

end Sys2Proof.Machine
end

