-- ==== Sys2Proof/Machine/State.lean ====
section
/-! DEFINITION. The state of the machine as plain data (10_state.md), the reasons for which it stops, and the state right
after reset (70_reset_and_hazards.md R430, R433). -/

namespace Sys2Proof.Machine

/-- The reasons for which the machine stops with a fault. Every fault of the processor itself is the HardFault exception
(60_exceptions.md R390), a next state; what stands here is where the spec says that the machine stops. -/
inductive Fault
  /-- BKPT with a debugger attached enters Debug state, where the model stops (43_misc.md R330; 92_eei_decisions.md D7: "With true
  the model stops at BKPT"). Raised by `execBkpt`. Safe: a debugger could let the machine go on. -/
  | debugState
  deriving DecidableEq, Repr

/-- The reasons for which the model gives no meaning: the treatment `refuse` of 93_implementation_defined.md. -/
inductive Refusal
  /-- an instruction that has no meaning yet; raised by its arm in `exec`; safe -/
  | notModelled (mnemonic : String)
  /-- an unpredictable encoding or operand (30_encoding.md R203; U12, U13); raised by the decoder through `step`, and by a
  meaning whose operands no encoding admits; safe -/
  | unpredictable (u : Unpredictable)
  /-- a byte or halfword access to the PPB (D9, U20); raised by the PPB check of an access; safe -/
  | ppbSize
  /-- a write of 1 to a reserved bit that "must be kept cleared" (10_state.md R53; D11); raised by a system register write;
  safe -/
  | reservedBitWrite
  /-- ICSR written with set and clear of one exception together (U4); raised by a system register write; safe -/
  | icsrSetClear
  /-- AIRCR written with VECTCLRACTIVE (U5); raised by a system register write; safe -/
  | aircrVectClrActive
  /-- MPU_CTRL.HFNMIENA = 1 with ENABLE = 0 (U7); raised by a system register write; safe -/
  | mpuHfnmienaWithoutEnable
  /-- an access that hits a region with AP = 100 (U8); raised by the MPU check; safe -/
  | mpuAp100
  /-- a region number above 7 (U9); raised by a system register write; safe -/
  | mpuRegionNumber
  /-- an enabled region with SIZE below 7 (U10); raised by the MPU check; safe -/
  | mpuRegionSize
  /-- a bus error on the reads of addresses 0 and 4 at reset (U11); raised by `doReset`; safe -/
  | resetReadBusError
  /-- an exception return with a reserved EXC_RETURN value (U18, D22); raised by `exceptionReturn`; safe -/
  | excReturnValue
  /-- an exception return to Thread mode while another exception is active, or to Handler mode while none is (D22); raised by
  `exceptionReturn`; safe -/
  | excReturnNesting
  /-- an exception return from an exception that is not active (D22); raised by `exceptionReturn`; safe -/
  | excReturnNotActive
  /-- an exception return to an odd address (U2); raised by `exceptionReturn`; safe -/
  | excReturnOddAddress
  /-- an exception return to an IPSR that does not fit the mode or names no exception (U6); raised by `exceptionReturn`; safe -/
  | excReturnIpsr
  deriving DecidableEq, Repr

/-- The flags of the APSR (10_state.md R31). -/
structure Apsr where
  /-- negative -/
  n : Bool
  /-- zero -/
  z : Bool
  /-- carry or borrow -/
  c : Bool
  /-- overflow -/
  v : Bool
  deriving DecidableEq, Repr

/-- The execution priority at which the processor locked up: -1 or -2 (60_exceptions.md R396). -/
inductive LockupLevel
  /-- LockupPriority = -1 -/
  | hardFault
  /-- LockupPriority = -2 -/
  | nmi
  deriving DecidableEq, Repr

/-- The sleep state (10_state.md R43). -/
inductive SleepState
  /-- executing instructions -/
  | running
  /-- asleep after WFI -/
  | wfi
  /-- asleep after WFE -/
  | wfe
  /-- asleep by sleep-on-exit -/
  | onExit
  deriving DecidableEq, Repr

/-- The exceptions other than reset (60_exceptions.md R350). -/
inductive Exc
  /-- exception 2 -/
  | nmi
  /-- exception 3 -/
  | hardFault
  /-- exception 11 -/
  | svCall
  /-- exception 14 -/
  | pendSV
  /-- exception 15 -/
  | sysTick
  /-- exception 16 + n -/
  | irq (n : Fin 32)
  deriving DecidableEq, Repr

/-- The interrupt controller: pending and active bits of every exception by its number (10_state.md R41), the enable bits and
priorities of the interrupts (R54, R58), and the previous samples of the input lines (60_exceptions.md R366, R367). -/
structure Nvic where
  /-- pending bit e of exception number e -/
  pending : BitVec 48
  /-- active bit e of exception number e -/
  active : BitVec 48
  /-- enable bit n of IRQ n -/
  enable : BitVec 32
  /-- NVIC_IPR0 to NVIC_IPR7 -/
  ipr : Vector Word 8
  /-- Lprev, the previous sample of each interrupt line -/
  irqPrev : BitVec 32
  /-- the previous sample of the NMI input -/
  nmiPrev : Bool
  deriving DecidableEq, Repr

/-- The system control block registers that hold state (10_state.md R66 to R72). -/
structure Scb where
  /-- VTOR -/
  vtor : Word
  /-- SCR -/
  scr : Word
  /-- SHPR2 -/
  shpr2 : Word
  /-- SHPR3 -/
  shpr3 : Word
  /-- a system reset was requested by AIRCR.SYSRESETREQ (10_state.md R46) -/
  resetRequest : Bool
  deriving DecidableEq, Repr

/-- The SysTick timer (10_state.md R76 to R78). -/
structure SysTick where
  /-- STK_CSR[2:0]: CLKSOURCE, TICKINT, ENABLE -/
  ctrl : BitVec 3
  /-- STK_CSR.COUNTFLAG -/
  countFlag : Bool
  /-- STK_RVR.RELOAD -/
  reload : BitVec 24
  /-- STK_CVR.CURRENT -/
  current : BitVec 24
  deriving DecidableEq, Repr

/-- One MPU region: its base address word and its attribute word (10_state.md R90). -/
structure MpuRegion where
  /-- the word behind MPU_RBAR -/
  base : Word
  /-- the word behind MPU_RASR -/
  attr : Word
  deriving DecidableEq, Repr

/-- The memory protection unit (10_state.md R83 to R90). -/
structure Mpu where
  /-- MPU_CTRL[2:0]: PRIVDEFENA, HFNMIENA, ENABLE -/
  ctrl : BitVec 3
  /-- MPU_RNR.REGION -/
  rnr : Fin 8
  /-- the eight regions -/
  regions : Vector MpuRegion 8
  deriving DecidableEq, Repr

/-- What arrives while LDM, STM, PUSH, POP or MULS is in progress, on a platform where these can be abandoned (60_exceptions.md R384;
92_eei_decisions.md D16; assumption log 40). -/
structure Midway where
  /-- after how many of the instruction's accesses it arrives -/
  after : Nat
  /-- the levels of the 32 interrupt lines then -/
  irq : BitVec 32
  /-- the level of the NMI input then -/
  nmi : Bool
  /-- the SysTick ticks that elapse -/
  ticks : Nat
  deriving DecidableEq, Repr

/-- What the environment does at one step (60_exceptions.md R425; 10_state.md R44; the model's own record, assumption log 9). -/
structure StepInput where
  /-- the reset input -/
  reset : Bool
  /-- the levels of the 32 interrupt lines -/
  irq : BitVec 32
  /-- the level of the NMI input -/
  nmi : Bool
  /-- the external event input (60_exceptions.md R417), and events of other processors -/
  event : Bool
  /-- the SysTick ticks that elapse (60_exceptions.md R407) -/
  ticks : Nat
  /-- a spurious wake-up (D17) -/
  wake : Bool
  /-- a debugger, if one is attached, holds the processor halted at this step (60_exceptions.md R421) -/
  halt : Bool
  /-- bytes that other bus masters write (60_exceptions.md R420) -/
  dma : List Host.Cell
  /-- what arrives in the middle of an instruction that can be abandoned (60_exceptions.md R384) -/
  midway : Option Midway
  /-- what happens to the platform's devices, as their models understand it (U26) -/
  device : Nat
  /-- the pipeline fetches the instruction after this one before this one executes (20_memory.md R165) -/
  prefetch : Bool
  deriving DecidableEq, Repr

/-- An instruction fetched ahead: its address and the two halfwords from there on (20_memory.md R165; 70_reset_and_hazards.md R452;
assumption log 41). -/
structure Prefetched where
  /-- the address of the instruction -/
  addr : Word
  /-- the halfword there -/
  hw1 : Half
  /-- the next halfword -/
  hw2 : Half
  deriving DecidableEq, Repr

/-- The state of the machine. -/
structure State where
  /-- R0 to R12 (10_state.md R20) -/
  regs : Vector Word 13
  /-- the main stack pointer (R22) -/
  msp : Word
  /-- the process stack pointer (R22) -/
  psp : Word
  /-- R14 (R25) -/
  lr : Word
  /-- the address of the next instruction to execute (R26) -/
  pc : Word
  /-- the flags (R31) -/
  apsr : Apsr
  /-- the exception number, 0 in Thread mode (R32) -/
  ipsr : BitVec 6
  /-- EPSR.T (R33) -/
  epsrT : Bool
  /-- PRIMASK.PM (R36) -/
  primask : Bool
  /-- CONTROL.nPRIV (R37) -/
  nPriv : Bool
  /-- CONTROL.SPSEL (R37) -/
  spsel : Bool
  /-- the event register (R40) -/
  eventReg : Bool
  /-- the lockup state and the priority at which it was entered (R42) -/
  lockup : Option LockupLevel
  /-- the sleep state (R43) -/
  sleep : SleepState
  /-- the interrupt controller -/
  nvic : Nvic
  /-- the system control block -/
  scb : Scb
  /-- the system timer -/
  stk : SysTick
  /-- the memory protection unit -/
  mpu : Mpu
  /-- memory (R48) -/
  mem : Memory
  /-- the instruction fetched ahead, if any (20_memory.md R165; assumption log 41) -/
  prefetched : Option Prefetched
  /-- every access that the platform's devices saw, the newest first (20_memory.md R149; the model's own field, assumption log
  39) -/
  devices : List DeviceAccess
  /-- what happened to the devices at this step (the model's own field, assumption log 39) -/
  deviceInput : Nat
  /-- what arrives in the middle of this step's instruction (60_exceptions.md R384; the model's own field, assumption log 40) -/
  midway : Option Midway
  /-- what the environment does at the coming steps (the model's own field, assumption log 9) -/
  inputs : List StepInput
  /-- how many free values were drawn (the model's own field, assumption log 11) -/
  freeCount : Nat
  /-- the platform, which no step changes (the model's own field, assumption log 1) -/
  cfg : Platform
  deriving DecidableEq, Repr

/-- The interrupt controller after reset (10_state.md R41, R50, R101; 60_exceptions.md R366). -/
def Nvic.reset : Nvic :=
  { pending := 0, active := 0, enable := 0, ipr := Vector.replicate 8 0, irqPrev := 0, nmiPrev := false }

/-- The system control block after reset (10_state.md R50). -/
def Scb.reset : Scb := { vtor := 0, scr := 0, shpr2 := 0, shpr3 := 0, resetRequest := false }

/-- The system timer after reset: STK_CSR 0 (10_state.md R50), reload and current value unknown to the spec (DESIGN CHOICE 0,
assumption log 7). -/
def SysTick.reset : SysTick := { ctrl := 0, countFlag := false, reload := 0, current := 0 }

/-- The memory protection unit after reset: MPU_CTRL 0 and every region disabled (10_state.md R50, R90), the rest unknown to
the spec (DESIGN CHOICE 0, assumption log 8). -/
def Mpu.reset : Mpu := { ctrl := 0, rnr := 0, regions := Vector.replicate 8 { base := 0, attr := 0 } }

/-- The core after reset from memory whose first word is `sp` and whose second word is `v` (70_reset_and_hazards.md R430). What
the spec calls unknown holds the values of assumption logs 4 and 6. -/
def State.resetFrom (sp v : Word) (mem : Memory) (devices : List DeviceAccess) (deviceInput : Nat) (inputs : List StepInput)
    (freeCount : Nat) (cfg : Platform) : State :=
  { regs := Vector.replicate 13 0
    msp := sp &&& 0xFFFFFFFC#32
    psp := 0
    lr := 0xFFFFFFFF
    pc := v &&& 0xFFFFFFFE#32
    apsr := { n := false, z := false, c := false, v := false }
    ipsr := 0
    epsrT := v.getLsbD 0
    primask := false
    nPriv := false
    spsel := false
    eventReg := false
    lockup := none
    sleep := .running
    nvic := Nvic.reset
    scb := Scb.reset
    stk := SysTick.reset
    mpu := Mpu.reset
    mem := mem
    prefetched := none
    devices := devices
    deviceInput := deviceInput
    midway := none
    inputs := inputs
    freeCount := freeCount
    cfg := cfg }

/-- The machine right after reset, with nothing in memory: the words at addresses 0 and 4 of empty memory give MSP, PC and T
(assumption log 5). -/
def State.reset : State :=
  State.resetFrom (Memory.load [] .word 0) (Memory.load [] .word 4) [] [] 0 [] 0 Platform.standard

end Sys2Proof.Machine
end

