-- ==== Sys2Proof/Machine/Registers.lean ====
section
/-! DEFINITION. Reading and writing the core registers: R0 to R15 with the banked stack pointer (10_state.md R20 to R28), the
status words (R30 to R37), privilege (R39), and drawing a free value. -/

namespace Sys2Proof.Machine

/-- Thread mode exactly when IPSR is 0 (10_state.md R32). -/
def State.threadMode (s : State) : Bool := s.ipsr == 0

/-- The current privilege (10_state.md R39). -/
def State.privileged (s : State) : Bool := s.ipsr != 0 || !s.nPriv

/-- PSP is the current stack pointer (10_state.md R24). -/
def State.usesPsp (s : State) : Bool := s.ipsr == 0 && s.spsel

/-- The current stack pointer, R13 (10_state.md R24). -/
def State.sp (s : State) : Word := if s.usesPsp then s.psp else s.msp

/-- A stack pointer drops bits [1:0] of what is written to it (10_state.md R23). -/
def alignSp (v : Word) : Word := v &&& 0xFFFFFFFC#32

/-- Writing MSP (10_state.md R23). -/
def State.setMsp (s : State) (v : Word) : State := { s with msp := alignSp v }

/-- Writing PSP (10_state.md R23). -/
def State.setPsp (s : State) (v : Word) : State := { s with psp := alignSp v }

/-- Writing R13, the current stack pointer (10_state.md R22 to R24). -/
def State.setSp (s : State) (v : Word) : State := if s.usesPsp then s.setPsp v else s.setMsp v

/-- R0 to R12 by number (10_state.md R20). -/
def State.gpr (s : State) (n : Fin 13) : Word := s.regs[n]

/-- Writing one of R0 to R12 (10_state.md R20). -/
def State.setGpr (s : State) (n : Fin 13) (v : Word) : State := { s with regs := s.regs.set n v }

/-- The number of a low register among R0 to R12. -/
def LoReg.gpr (r : LoReg) : Fin 13 := ⟨r.val, by omega⟩

/-- R[n] of a low register (00_scope.md R12). -/
def State.lo (s : State) (r : LoReg) : Word := s.gpr (LoReg.gpr r)

/-- R[n] <- v of a low register (00_scope.md R12). -/
def State.setLo (s : State) (r : LoReg) (v : Word) : State := s.setGpr (LoReg.gpr r) v

/-- The value an instruction reads from the PC: its own address plus 4 (10_state.md R27). -/
def State.pcRead (s : State) : Word := s.pc + 4

/-- Setting the PC, which discards bit [0] (10_state.md R26). -/
def State.setPc (s : State) (v : Word) : State := { s with pc := v &&& 0xFFFFFFFE#32 }

/-- Going on after an instruction of `n` bytes (10_state.md R28). -/
def State.advance (s : State) (n : Word) : State := { s with pc := s.pc + n }

/-- R[n] of any register (00_scope.md R12): 13 is the current SP, 14 is LR, 15 reads as the instruction's address plus 4. -/
def State.reg (s : State) (r : Reg) : Word :=
  if h : r.val < 13 then s.gpr ⟨r.val, h⟩
  else if r = 13 then s.sp
  else if r = 14 then s.lr
  else s.pcRead

/-- R[n] <- v of any register (00_scope.md R12); a write of R15 is a branch that ignores bit [0] (10_state.md R26). -/
def State.setReg (s : State) (r : Reg) (v : Word) : State :=
  if h : r.val < 13 then s.setGpr ⟨r.val, h⟩ v
  else if r = 13 then s.setSp v
  else if r = 14 then { s with lr := v }
  else s.setPc v

/-- Writing N, Z, C, V. -/
def State.setFlags (s : State) (f : Apsr) : State := { s with apsr := f }

/-- APSR.N:Z:C:V as the bits [31:28] of a word (10_state.md R31). -/
def Apsr.toWord (f : Apsr) : Word :=
  (BitVec.ofBool f.n ++ BitVec.ofBool f.z ++ BitVec.ofBool f.c ++ BitVec.ofBool f.v ++ 0#28 : BitVec 32)

/-- N, Z, C, V from the bits [31:28] of a word (10_state.md R31). -/
def Apsr.ofWord (w : Word) : Apsr :=
  { n := w.getLsbD 31, z := w.getLsbD 30, c := w.getLsbD 29, v := w.getLsbD 28 }

/-- IPSR as a word (10_state.md R32). -/
def State.ipsrWord (s : State) : Word := s.ipsr.setWidth 32

/-- The PSR word that exception entry stacks: flags in [31:28], T in [24], the alignment bit in [9], IPSR in [5:0]
(60_exceptions.md R371, R375). -/
def State.stackedPsr (s : State) (alignBit : Bool) : Word :=
  s.apsr.toWord ||| ((BitVec.ofBool s.epsrT).setWidth 32 <<< 24) ||| ((BitVec.ofBool alignBit).setWidth 32 <<< 9)
    ||| s.ipsrWord

/-- CONTROL as a word: SPSEL in [1], nPRIV in [0] (10_state.md R37). -/
def State.controlWord (s : State) : Word := (BitVec.ofBool s.spsel ++ BitVec.ofBool s.nPriv).setWidth 32

/-- PRIMASK as a word (10_state.md R36). -/
def State.primaskWord (s : State) : Word := (BitVec.ofBool s.primask).setWidth 32

/-- The next free value (assumption log 11). -/
def State.freeValue (s : State) : Word := Config.freeWord s.freeCount

/-- The state after one free value was drawn. -/
def State.drewFree (s : State) : State := { s with freeCount := s.freeCount + 1 }

end Sys2Proof.Machine
end

