-- ==== Sys2Proof/Machine/Flags.lean ====
section
/-! DEFINITION. Flag computation (00_scope.md R11, R12; 10_state.md R35) and conditions (30_encoding.md R206, R207). -/

namespace Sys2Proof.Machine

/-- The results of AddWithCarry: result, carry, overflow. -/
structure AddResult where
  /-- the sum modulo 2^32 -/
  result : Word
  /-- the unsigned sum reaches 2^32 -/
  carry : Bool
  /-- the signed sum leaves the range of 32 bits -/
  overflow : Bool
  deriving DecidableEq, Repr

/-- AddWithCarry(x, y, cin), computed exactly and then narrowed (00_scope.md R11). -/
def addWithCarry (x y : Word) (cin : Bool) : AddResult :=
  let usum : Nat := x.toNat + y.toNat + cin.toNat
  let ssum : Int := x.toInt + y.toInt + (cin.toNat : Int)
  { result := BitVec.ofNat 32 usum
    carry := decide (4294967296 ≤ usum)
    overflow := decide (ssum < -2147483648) || decide (2147483647 < ssum) }

/-- SetFlagsNZ(v) (00_scope.md R12). -/
def Apsr.withNZ (f : Apsr) (v : Word) : Apsr := { f with n := v.getLsbD 31, z := v == 0 }

/-- N and Z from a result, C from a shifter (10_state.md R35). -/
def Apsr.withNZC (f : Apsr) (v : Word) (c : Bool) : Apsr := { f.withNZ v with c := c }

/-- N, Z, C and V from AddWithCarry (10_state.md R35). -/
def AddResult.flags (r : AddResult) : Apsr :=
  { n := r.result.getLsbD 31, z := r.result == 0, c := r.carry, v := r.overflow }

/-- ConditionPassed(cond) (30_encoding.md R206, R207). -/
def conditionPassed (f : Apsr) : Cond → Bool
  | .eq => f.z
  | .ne => !f.z
  | .cs => f.c
  | .cc => !f.c
  | .mi => f.n
  | .pl => !f.n
  | .vs => f.v
  | .vc => !f.v
  | .hi => f.c && !f.z
  | .ls => !f.c || f.z
  | .ge => f.n == f.v
  | .lt => f.n != f.v
  | .gt => !f.z && (f.n == f.v)
  | .le => f.z || (f.n != f.v)

end Sys2Proof.Machine
end

