-- ==== Sys2Proof/Machine/Operands.lean ====
section
/-! DEFINITION. Operands: immediates, the shifter, byte reversal, addresses and register lists (30_encoding.md R195;
41_data_processing.md R261 to R264, R298 to R300; 40_memory_access.md R230 to R257). -/

namespace Sys2Proof.Machine

/-- A zero-extended immediate field (30_encoding.md R195). -/
def immWord {n : Nat} (imm : BitVec n) : Word := imm.setWidth 32

/-- An immediate field in units of 4 bytes (30_encoding.md R195). -/
def immWords {n : Nat} (imm : BitVec n) : Word := immWord imm * 4

/-- A branch offset: the field with a zero below it, sign-extended (30_encoding.md R195). -/
def branchOffset {n : Nat} (imm : BitVec n) : Word := (imm ++ 0#1).signExtend 32

/-- The target of a branch relative to the PC (42_branch.md R320 to R322). -/
def State.branchTarget {n : Nat} (s : State) (imm : BitVec n) : Word := s.pcRead + branchOffset imm

/-- Align(x, 4) (00_scope.md R10). -/
def align4 (x : Word) : Word := x &&& 0xFFFFFFFC#32

/-- LSL_C(x, n) for n from 1 on: result and carry (41_data_processing.md R261). -/
def lslC (x : Word) (n : Nat) : Word × Bool :=
  if n < 32 then (x <<< n, x.getLsbD (32 - n))
  else if n = 32 then (0, x.getLsbD 0)
  else (0, false)

/-- LSR_C(x, n) for n from 1 on (41_data_processing.md R262). -/
def lsrC (x : Word) (n : Nat) : Word × Bool :=
  if n < 32 then (x >>> n, x.getLsbD (n - 1))
  else if n = 32 then (0, x.getLsbD 31)
  else (0, false)

/-- ASR_C(x, n) for n from 1 on (41_data_processing.md R263). -/
def asrC (x : Word) (n : Nat) : Word × Bool :=
  if n < 32 then (x.sshiftRight n, x.getLsbD (n - 1))
  else (if x.getLsbD 31 then 0xFFFFFFFF#32 else 0, x.getLsbD 31)

/-- ROR_C(x, n) for n from 1 on (41_data_processing.md R264). -/
def rorC (x : Word) (n : Nat) : Word × Bool :=
  let m := n % 32
  let r := if m = 0 then x else (x >>> m) ||| (x <<< (32 - m))
  (r, r.getLsbD 31)

/-- The shift length of LSRS and ASRS (immediate): 32 where the field is 0 (41_data_processing.md R284, R286). -/
def immShift (imm5 : BitVec 5) : Nat := if imm5 = 0 then 32 else imm5.toNat

/-- The shift length of a register shift: the bottom byte (41_data_processing.md R283). -/
def regShift (v : Word) : Nat := v.toNat % 256

/-- A shift whose length may be 0: then no shift occurs and the carry stays (41_data_processing.md R264, R283). -/
def shiftOrKeep (f : Word → Nat → Word × Bool) (x : Word) (n : Nat) (c : Bool) : Word × Bool :=
  if n = 0 then (x, c) else f x n

/-- REV: the bytes of a word in reverse order (41_data_processing.md R298). -/
def revWord (x : Word) : Word := byteOf x 0 ++ byteOf x 1 ++ byteOf x 2 ++ byteOf x 3

/-- REV16: the bytes of each halfword in reverse order (41_data_processing.md R299). -/
def rev16Word (x : Word) : Word := byteOf x 2 ++ byteOf x 3 ++ byteOf x 0 ++ byteOf x 1

/-- REVSH: the bytes of the bottom halfword in reverse order, sign-extended (41_data_processing.md R300). -/
def revshWord (x : Word) : Word := (byteOf x 0 ++ byteOf x 1).signExtend 32

/-- sext_32 of the bottom byte (00_scope.md R10). -/
def sextByte (x : Word) : Word := (x.setWidth 8).signExtend 32

/-- sext_32 of the bottom halfword (00_scope.md R10). -/
def sextHalf (x : Word) : Word := (x.setWidth 16).signExtend 32

/-- zext_32 of the bottom byte (00_scope.md R10). -/
def zextByte (x : Word) : Word := (x.setWidth 8).setWidth 32

/-- zext_32 of the bottom halfword (00_scope.md R10). -/
def zextHalf (x : Word) : Word := (x.setWidth 16).setWidth 32

/-- The address R[Rn] + imm5 * scale, scale the access size (40_memory_access.md R231 to R236). -/
def State.immAddr (s : State) (rn : LoReg) (imm5 : BitVec 5) (size : Size) : Word :=
  s.lo rn + immWord imm5 * BitVec.ofNat 32 size.bytes

/-- The address R[Rn] + R[Rm] (40_memory_access.md R257). -/
def State.regAddr (s : State) (rn rm : LoReg) : Word := s.lo rn + s.lo rm

/-- The address R[13] + imm8 * 4 (40_memory_access.md R237, R238). -/
def State.spAddr (s : State) (imm8 : BitVec 8) : Word := s.sp + immWords imm8

/-- The address Align(PC, 4) + imm8 * 4 (40_memory_access.md R230, R247). -/
def State.literalAddr (s : State) (imm8 : BitVec 8) : Word := align4 s.pcRead + immWords imm8

/-- The registers of a list in rising order (40_memory_access.md R254). -/
def regList (list8 : BitVec 8) : List LoReg := (List.finRange 8).filter (fun r => list8.getLsbD r.val)

/-- 4 * n as a word: the extent of n transferred registers. -/
def wordsExtent (n : Nat) : Word := BitVec.ofNat 32 (4 * n)

/-- Writing the registers of a list in order (40_memory_access.md R248). -/
def State.setLos (s : State) : List LoReg → List Word → State
  | r :: rs, v :: vs => (s.setLo r v).setLos rs vs
  | _, _ => s

/-- STM stores a value that the spec leaves open: the base is in the list and not its lowest register (40_memory_access.md R249;
93_implementation_defined.md U1). -/
def stmBaseOpen (rn : LoReg) (list8 : BitVec 8) : Bool :=
  list8.getLsbD rn.val && (regList list8).head? != some rn

/-- The words that STM stores: the registers of the list, the base's own word free where it is not the lowest (40_memory_access.md
R249; U1; assumption log 11). -/
def State.stmWords (s : State) (rn : LoReg) (list8 : BitVec 8) : List Word :=
  (regList list8).map (fun r => if stmBaseOpen rn list8 && r == rn then s.freeValue else s.lo r)

/-- The words that PUSH stores: the registers of the list, then LR (40_memory_access.md R250). -/
def State.pushWords (s : State) (m : Bool) (list8 : BitVec 8) : List Word :=
  (regList list8).map s.lo ++ (if m then [s.lr] else [])

end Sys2Proof.Machine
end

