-- ==== Sys2Proof/Machine/Priority.lean ====
section
/-! DEFINITION. Exception numbers, pending and active bits, priorities and the choice of the exception to take
(10_state.md R41, R59, R73; 60_exceptions.md R350 to R370, R415, R416). -/

namespace Sys2Proof.Machine

/-- The exception number (60_exceptions.md R350). -/
def Exc.num : Exc → Nat
  | .nmi => 2
  | .hardFault => 3
  | .svCall => 11
  | .pendSV => 14
  | .sysTick => 15
  | .irq n => 16 + n.val

/-- Every exception other than reset, in rising number (60_exceptions.md R350). -/
def Exc.all : List Exc :=
  [.nmi, .hardFault, .svCall, .pendSV, .sysTick] ++ (List.finRange 32).map .irq

/-- The exception of a number; none for the reserved numbers (10_state.md R32). -/
def Exc.ofNum? (n : Nat) : Option Exc :=
  if n = 2 then some .nmi
  else if n = 3 then some .hardFault
  else if n = 11 then some .svCall
  else if n = 14 then some .pendSV
  else if n = 15 then some .sysTick
  else if h : 16 ≤ n ∧ n < 48 then some (.irq ⟨n - 16, by omega⟩)
  else none

/-- The bit of an exception in the pending and active words. -/
def Exc.mask (e : Exc) : BitVec 48 := BitVec.twoPow 48 e.num

/-- pending[e] (10_state.md R41). -/
def State.isPending (s : State) (e : Exc) : Bool := s.nvic.pending.getLsbD e.num

/-- active[e] (10_state.md R41). -/
def State.isActive (s : State) (e : Exc) : Bool := s.nvic.active.getLsbD e.num

/-- Enabled(e): the interrupts by their enable bit, every other exception always (60_exceptions.md R354, R362). -/
def State.isEnabled (s : State) : Exc → Bool
  | .irq n => s.nvic.enable.getLsbD n.val
  | _ => true

/-- Priority(IRQ M) = NVIC_IPR[M DIV 4][8*(M MOD 4)+7 : 8*(M MOD 4)] (10_state.md R59). -/
def State.irqPriority (s : State) (m : Fin 32) : Nat :=
  (s.nvic.ipr[m.val / 4]'(by omega)).toNat / 2 ^ (8 * (m.val % 4)) % 256

/-- Prio(e) (10_state.md R73). -/
def State.prio (s : State) : Exc → Int
  | .nmi => -2
  | .hardFault => -1
  | .svCall => (s.scb.shpr2.toNat / 16777216 : Nat)
  | .pendSV => (s.scb.shpr3.toNat / 65536 % 256 : Nat)
  | .sysTick => (s.scb.shpr3.toNat / 16777216 : Nat)
  | .irq n => (s.irqPriority n : Nat)

/-- The smallest priority value among the active exceptions of a list, 256 where none is active (60_exceptions.md R361). -/
def State.activePriority (s : State) : List Exc → Int
  | [] => 256
  | e :: rest => if s.isActive e then min (s.prio e) (s.activePriority rest) else s.activePriority rest

/-- The execution priority without its PRIMASK line (60_exceptions.md R411). -/
def State.priorityIgnoringPrimask (s : State) : Int := s.activePriority Exc.all

/-- ExecutionPriority() (60_exceptions.md R361). -/
def State.executionPriority (s : State) : Int :=
  if s.primask && decide (0 < s.priorityIgnoringPrimask) then 0 else s.priorityIgnoringPrimask

/-- An exception that may be taken at an execution priority: pending, enabled, of smaller priority value (60_exceptions.md
R362). -/
def State.isCandidate (s : State) (limit : Int) (e : Exc) : Bool :=
  s.isPending e && s.isEnabled e && decide (s.prio e < limit)

/-- The candidate of a list with the smallest (priority, number), the list being in rising number (60_exceptions.md R360,
R362). -/
def State.bestOf (s : State) (limit : Int) : List Exc → Option Exc
  | [] => none
  | e :: rest =>
    match s.bestOf limit rest with
    | none => if s.isCandidate limit e then some e else none
    | some b => if s.isCandidate limit e && decide (s.prio e ≤ s.prio b) then some e else some b

/-- The exception that is taken at a boundary, if any (60_exceptions.md R362). -/
def State.bestCandidate (s : State) : Option Exc := s.bestOf s.executionPriority Exc.all

/-- ICSR.VECTPENDING: the number of the pending enabled exception with the smallest (priority, number), 0 if none; PRIMASK and
the active exceptions are not looked at (10_state.md R63, R64). -/
def State.vectPending (s : State) : Nat :=
  match s.bestOf 256 Exc.all with
  | none => 0
  | some e => e.num

/-- The number of active exceptions (60_exceptions.md R388). -/
def State.activeCount (s : State) : Nat := (Exc.all.filter s.isActive).length

/-- An event: it wakes a processor asleep in WFE, and else sets the event register (60_exceptions.md R415). -/
def State.signalEvent (s : State) : State :=
  if s.sleep = .wfe then { s with sleep := .running } else { s with eventReg := true }

/-- SCR.SEVONPEND (10_state.md R69). -/
def State.sevOnPend (s : State) : Bool := s.scb.scr.getLsbD 4

/-- SCR.SLEEPONEXIT (10_state.md R69). -/
def State.sleepOnExit (s : State) : Bool := s.scb.scr.getLsbD 1

/-- Writing the pending bits. -/
def State.withPending (s : State) (p : BitVec 48) : State := { s with nvic := { s.nvic with pending := p } }

/-- Writing the active bits. -/
def State.withActive (s : State) (p : BitVec 48) : State := { s with nvic := { s.nvic with active := p } }

/-- Setting pending bits: with SCR.SEVONPEND a bit that goes from 0 to 1 is an event (60_exceptions.md R416). -/
def State.setPendingMask (s : State) (mask : BitVec 48) : State :=
  let s' := s.withPending (s.nvic.pending ||| mask)
  if s.sevOnPend && (mask &&& ~~~s.nvic.pending) != 0 then s'.signalEvent else s'

/-- Clearing pending bits. -/
def State.clearPendingMask (s : State) (mask : BitVec 48) : State := s.withPending (s.nvic.pending &&& ~~~mask)

/-- pending[e] <- 1 (60_exceptions.md R353). -/
def State.setPending (s : State) (e : Exc) : State := s.setPendingMask e.mask

/-- active[e] <- 0 (60_exceptions.md R388). -/
def State.clearActive (s : State) (e : Exc) : State := s.withActive (s.nvic.active &&& ~~~e.mask)

/-- pending[e] <- 0; active[e] <- 1 (60_exceptions.md R375). -/
def State.activate (s : State) (e : Exc) : State :=
  (s.withPending (s.nvic.pending &&& ~~~e.mask)).withActive (s.nvic.active ||| e.mask)

/-- The bits of the interrupts in the pending and active words. -/
def irqMask (w : BitVec 32) : BitVec 48 := w ++ 0#16

/-- The active bits of the interrupts. -/
def State.irqActive (s : State) : BitVec 32 := s.nvic.active.extractLsb' 16 32

/-- Sampling the interrupt lines (60_exceptions.md R366). -/
def State.sampleIrq (s : State) (levels : BitVec 32) : State :=
  let set := (levels &&& ~~~s.irqActive) ||| (levels &&& ~~~s.nvic.irqPrev)
  let s' := s.setPendingMask (irqMask set)
  { s' with nvic := { s'.nvic with irqPrev := levels } }

/-- Sampling the NMI input: a rising edge makes NMI pending (60_exceptions.md R367; D35). -/
def State.sampleNmi (s : State) (level : Bool) : State :=
  let s' := if level && !s.nvic.nmiPrev then s.setPending .nmi else s
  { s' with nvic := { s'.nvic with nmiPrev := level } }

end Sys2Proof.Machine
end

