-- ==== Sys2Proof/Machine/Mpu.lean ====
section
/-! DEFINITION. The default memory map and its attributes (20_memory.md R121 to R123), and the memory protection unit
(10_state.md R83 to R90; 20_memory.md R170 to R180). -/

namespace Sys2Proof.Machine

/-- Why an access or a fetch is a HardFault (60_exceptions.md R390); no register records it (R392). -/
inductive FaultCause
  /-- cause 9: an unaligned load or store -/
  | unaligned
  /-- unprivileged access to the PPB (D10) -/
  | ppbPrivilege
  /-- cause 10: an MPU fault -/
  | mpu
  /-- causes 3, 5 and 6: a bus error -/
  | bus
  /-- cause 4: a fetch from an execute-never address -/
  | executeNever
  /-- cause 8: a fetch with T = 0 -/
  | notThumb
  deriving DecidableEq, Repr

/-- The result of an access: done, HardFault, or outside the specified behaviour. -/
inductive Acc (α : Type)
  | ok (a : α)
  | fault (c : FaultCause)
  | refused (r : Refusal)
  deriving DecidableEq, Repr

/-- Going on after an access that was done. -/
def Acc.bind {α β : Type} (x : Acc α) (f : α → Acc β) : Acc β :=
  match x with
  | .ok a => f a
  | .fault c => .fault c
  | .refused r => .refused r

/-- The memory types (20_memory.md R150). -/
inductive MemType
  | normal | device | stronglyOrdered
  deriving DecidableEq, Repr

/-- The private peripheral bus, 0xE0000000 to 0xE00FFFFF (20_memory.md R125). -/
def inPpb (a : Word) : Bool := decide (a.toNat / 1048576 = 0xE00)

/-- The cache policies of 20_memory.md R122 and 10_state.md R89. -/
inductive CachePolicy
  /-- write through, no write allocate -/
  | writeThrough
  /-- write back, write allocate -/
  | writeBackAllocate
  /-- write back, no write allocate -/
  | writeBackNoAllocate
  deriving DecidableEq, Repr

/-- The attributes of an address (20_memory.md R122, R178). -/
structure MemAttr where
  /-- Normal, Device or Strongly-ordered -/
  type : MemType
  /-- shareable or not, none where the spec's table has no entry -/
  shareable : Option Bool
  /-- the cache policy, none where the spec's table has no entry -/
  cache : Option CachePolicy
  deriving DecidableEq, Repr

/-- The attributes of the default map (20_memory.md R121 to R123; 92_eei_decisions.md D33). -/
def defaultAttr (a : Word) : MemAttr :=
  match a.toNat / 536870912 with
  | 0 => { type := .normal, shareable := none, cache := some .writeThrough }
  | 1 => { type := .normal, shareable := none, cache := some .writeBackAllocate }
  | 2 => { type := .device, shareable := none, cache := none }
  | 3 => { type := .normal, shareable := none, cache := some .writeBackAllocate }
  | 4 => { type := .normal, shareable := none, cache := some .writeThrough }
  | 5 => { type := .device, shareable := some true, cache := none }
  | 6 => { type := .device, shareable := some false, cache := none }
  | _ =>
    if inPpb a then { type := .stronglyOrdered, shareable := some true, cache := none }
    else { type := .device, shareable := some true, cache := none }

/-- Execute-never in the default map: the Peripheral and External device regions and everything from 0xE0000000 on
(20_memory.md R121, R123). -/
def defaultXn (a : Word) : Bool :=
  match a.toNat / 536870912 with
  | 2 => true
  | 5 => true
  | 6 => true
  | 7 => true
  | _ => false

/-- MPU_CTRL.ENABLE (10_state.md R83). -/
def Mpu.enabled (m : Mpu) : Bool := m.ctrl.getLsbD 0

/-- MPU_CTRL.HFNMIENA (10_state.md R83). -/
def Mpu.hfnmiena (m : Mpu) : Bool := m.ctrl.getLsbD 1

/-- MPU_CTRL.PRIVDEFENA (10_state.md R83). -/
def Mpu.privdefena (m : Mpu) : Bool := m.ctrl.getLsbD 2

/-- MPUActive() (20_memory.md R171). -/
def State.mpuActive (s : State) : Bool :=
  s.cfg.hasMpu && s.mpu.enabled && (s.mpu.hfnmiena || decide (0 ≤ s.executionPriority))

/-- MPU_RASR.ENABLE of a region (10_state.md R86). -/
def MpuRegion.enabled (r : MpuRegion) : Bool := r.attr.getLsbD 0

/-- MPU_RASR.SIZE of a region (10_state.md R86). -/
def MpuRegion.size (r : MpuRegion) : Nat := r.attr.toNat / 2 % 32

/-- MPU_RBAR as the base bits of a region read: ADDR in bits [31:N], N = SIZE + 1 and at least 8, the reserved bits [N-1:5] zero
(10_state.md R53, R85, R87; 90_conflicts.md C30; assumption log 36). -/
def MpuRegion.addrField (r : MpuRegion) : Word :=
  let n := max 8 (r.size + 1)
  BitVec.ofNat 32 (r.base.toNat / 2 ^ n * 2 ^ n)

/-- MPU_RASR.SRD bit i of a region: subregion i is disabled (10_state.md R86). -/
def MpuRegion.subDisabled (r : MpuRegion) (i : Nat) : Bool := r.attr.getLsbD (8 + i)

/-- MPU_RASR.AP of a region (10_state.md R86, R88). -/
def MpuRegion.ap (r : MpuRegion) : Nat := r.attr.toNat / 16777216 % 8

/-- MPU_RASR.XN of a region (10_state.md R86). -/
def MpuRegion.xn (r : MpuRegion) : Bool := r.attr.getLsbD 28

/-- matches(r, a): enabled, in range and in a subregion that is not disabled; the base bits below the size are ignored
(20_memory.md R172). -/
def MpuRegion.covers (r : MpuRegion) (a : Word) : Bool :=
  let n := r.size + 1
  r.enabled && decide (a.toNat / 2 ^ n = r.base.toNat / 2 ^ n) && !r.subDisabled (a.toNat / 2 ^ (n - 3) % 8)

/-- The attributes that a region's C, B and S bits give (10_state.md R89). -/
def MpuRegion.memAttr (r : MpuRegion) : MemAttr :=
  match r.attr.getLsbD 17, r.attr.getLsbD 16 with
  | false, false => { type := .stronglyOrdered, shareable := some true, cache := none }
  | false, true => { type := .device, shareable := some true, cache := none }
  | true, false => { type := .normal, shareable := some (r.attr.getLsbD 18), cache := some .writeThrough }
  | true, true => { type := .normal, shareable := some (r.attr.getLsbD 18), cache := some .writeBackNoAllocate }

/-- The result of the region search. -/
inductive RegionHit
  /-- the region that decides -/
  | hit (r : MpuRegion)
  /-- no region matches -/
  | miss
  /-- an enabled region with SIZE below 7 was met (93_implementation_defined.md U10) -/
  | badSize
  deriving DecidableEq, Repr

/-- The first matching region of a list (20_memory.md R173, for the list from the highest number down). -/
def findRegion (a : Word) : List MpuRegion → RegionHit
  | [] => .miss
  | r :: rest =>
    if r.enabled && decide (r.size < 7) then .badSize
    else if r.covers a then .hit r
    else findRegion a rest

/-- hit(a): the highest-numbered region that matches (20_memory.md R173). -/
def Mpu.lookup (m : Mpu) (a : Word) : RegionHit := findRegion a m.regions.toList.reverse

/-- The AP table: may a read be done (10_state.md R88); AP = 100 is refused before it is asked. -/
def apReads (ap : Nat) (priv : Bool) : Bool :=
  match ap with
  | 0 => false
  | 1 => priv
  | 2 => true
  | 3 => true
  | 5 => priv
  | 6 => true
  | 7 => true
  | _ => false

/-- The AP table: may a write be done (10_state.md R88). -/
def apWrites (ap : Nat) (priv : Bool) : Bool :=
  match ap with
  | 1 => priv
  | 2 => priv
  | 3 => true
  | _ => false

/-- The permission of a region that is hit (20_memory.md R175, R180; 10_state.md R88). -/
def checkRegion (r : MpuRegion) (priv : Bool) (kind : AccessKind) : Acc Unit :=
  if r.ap = 4 then .refused .mpuAp100
  else match kind with
    | .write => if apWrites r.ap priv then .ok () else .fault .mpu
    | .read => if apReads r.ap priv then .ok () else .fault .mpu
    | .fetch =>
      if apReads r.ap priv then (if r.xn then .fault .executeNever else .ok ()) else .fault .mpu

/-- The default map: everything is allowed but a fetch from an execute-never address (20_memory.md R180). -/
def checkDefault (kind : AccessKind) (a : Word) : Acc Unit :=
  if kind = .fetch && defaultXn a then .fault .executeNever else .ok ()

/-- MPUCheck(a, kind, priv) (20_memory.md R180). -/
def State.mpuCheck (s : State) (a : Word) (kind : AccessKind) (priv : Bool) : Acc Unit :=
  if !s.mpuActive then checkDefault kind a
  else if inPpb a then (if kind = .fetch then .fault .executeNever else .ok ())
  else match s.mpu.lookup a with
    | .badSize => .refused .mpuRegionSize
    | .hit r => checkRegion r priv kind
    | .miss => if priv && s.mpu.privdefena then checkDefault kind a else .fault .mpu

/-- The attributes of an address: a region that is hit replaces the default map's (20_memory.md R150, R178). -/
def State.memAttr (s : State) (a : Word) : MemAttr :=
  if !s.mpuActive || inPpb a then defaultAttr a
  else match s.mpu.lookup a with
    | .hit r => r.memAttr
    | _ => defaultAttr a

/-- An address of the I/O port (20_memory.md R126; 92_eei_decisions.md D30). -/
def State.isIoPort (s : State) (a : Word) : Bool := s.cfg.ioPort.any (fun r => r.covers a)

/-- The memory type of an address: the I/O port is accessed as Device memory (D30). In this hardware it changes no result of a single
processor (20_memory.md R157 case 1): nothing else reads it. -/
def State.memType (s : State) (a : Word) : MemType := if s.isIoPort a then .device else (s.memAttr a).type

end Sys2Proof.Machine
end

