-- ==== Sys2Proof/Machine/Ppb.lean ====
section
/-! DEFINITION. The memory-mapped system registers of the private peripheral bus: their addresses, reads and writes
(10_state.md R50 to R91). -/

namespace Sys2Proof.Machine

/-- The system registers (10_state.md R50). -/
inductive PpbReg
  | stkCsr | stkRvr | stkCvr | stkCalib
  | nvicIser | nvicIcer | nvicIspr | nvicIcpr
  | nvicIpr (n : Fin 8)
  | cpuid | icsr | vtor | aircr | scr | ccr | shpr2 | shpr3
  | mpuType | mpuCtrl | mpuRnr | mpuRbar | mpuRasr
  deriving DecidableEq, Repr

/-- The address of a system register (10_state.md R50). -/
def PpbReg.addr : PpbReg → Word
  | .stkCsr => 0xE000E010
  | .stkRvr => 0xE000E014
  | .stkCvr => 0xE000E018
  | .stkCalib => 0xE000E01C
  | .nvicIser => 0xE000E100
  | .nvicIcer => 0xE000E180
  | .nvicIspr => 0xE000E200
  | .nvicIcpr => 0xE000E280
  | .nvicIpr n => BitVec.ofNat 32 (0xE000E400 + 4 * n.val)
  | .cpuid => 0xE000ED00
  | .icsr => 0xE000ED04
  | .vtor => 0xE000ED08
  | .aircr => 0xE000ED0C
  | .scr => 0xE000ED10
  | .ccr => 0xE000ED14
  | .shpr2 => 0xE000ED1C
  | .shpr3 => 0xE000ED20
  | .mpuType => 0xE000ED90
  | .mpuCtrl => 0xE000ED94
  | .mpuRnr => 0xE000ED98
  | .mpuRbar => 0xE000ED9C
  | .mpuRasr => 0xE000EDA0

/-- Every system register. -/
def PpbReg.all : List PpbReg :=
  [.stkCsr, .stkRvr, .stkCvr, .stkCalib, .nvicIser, .nvicIcer, .nvicIspr, .nvicIcpr,
   .nvicIpr 0, .nvicIpr 1, .nvicIpr 2, .nvicIpr 3, .nvicIpr 4, .nvicIpr 5, .nvicIpr 6, .nvicIpr 7,
   .cpuid, .icsr, .vtor, .aircr, .scr, .ccr, .shpr2, .shpr3, .mpuType, .mpuCtrl, .mpuRnr, .mpuRbar, .mpuRasr]

/-- The system register at an address, if one is there (10_state.md R50). -/
def PpbReg.at? (a : Word) : Option PpbReg := PpbReg.all.find? (fun r => decide (r.addr = a))

/-- The address ranges of the system registers (10_state.md R50, the source's Table 24). -/
def ppbBlocks : List Span :=
  [{ lo := 0xE000E008, hi := 0xE000E00F }, { lo := 0xE000E010, hi := 0xE000E01F },
   { lo := 0xE000E100, hi := 0xE000E4EF }, { lo := 0xE000ED00, hi := 0xE000ED3F },
   { lo := 0xE000ED90, hi := 0xE000EDB8 }, { lo := 0xE000EF00, hi := 0xE000EF03 }]

/-- An address lies in one of the blocks (10_state.md R52). -/
def inPpbBlock (a : Word) : Bool := ppbBlocks.any (fun r => r.covers a)

/-- The ICSR bits that a read may return as any value: 25 (U3) and the figure-only 22, 18, 11 and 8:0 (U19). -/
def icsrFreeMask : Word := 0x024409FF

/-- A read of ICSR but for its free bits (10_state.md R63). -/
def State.icsrBase (s : State) : Word :=
  ((BitVec.ofBool (s.isPending .nmi)).setWidth 32 <<< 31)
    ||| ((BitVec.ofBool (s.isPending .pendSV)).setWidth 32 <<< 28)
    ||| ((BitVec.ofBool (s.isPending .sysTick)).setWidth 32 <<< 26)
    ||| (BitVec.ofNat 32 (s.vectPending * 4096))

/-- The pending bits of the interrupts (10_state.md R56). -/
def State.irqPending (s : State) : Word := s.nvic.pending.extractLsb' 16 32

/-- The region that MPU_RNR selects (10_state.md R90). -/
def Mpu.current (m : Mpu) : MpuRegion := m.regions[m.rnr]

/-- The value a system register reads as (10_state.md R54 to R91): a free bit takes the next free value, a reserved bit is zero
(R53). -/
def State.ppbValue (s : State) : PpbReg → Word
  | .stkCsr => s.stk.ctrl.setWidth 32 ||| ((BitVec.ofBool s.stk.countFlag).setWidth 32 <<< 16)
  | .stkRvr => s.stk.reload.setWidth 32
  | .stkCvr => s.stk.current.setWidth 32
  | .stkCalib => 0x40000000#32 ||| s.cfg.tenms.setWidth 32
  | .nvicIser => s.nvic.enable
  | .nvicIcer => s.nvic.enable
  | .nvicIspr => s.irqPending
  | .nvicIcpr => s.irqPending
  | .nvicIpr n => s.nvic.ipr[n]
  | .cpuid => 0x410CC601
  | .icsr => s.icsrBase ||| (s.freeValue &&& icsrFreeMask)
  | .vtor => s.scb.vtor
  | .aircr => s.freeValue &&& 0xFFFF0000#32
  | .scr => s.scb.scr
  | .ccr => 0x00000208
  | .shpr2 => s.scb.shpr2
  | .shpr3 => s.scb.shpr3
  | .mpuType => if s.cfg.hasMpu then 0x00000800 else 0
  | .mpuCtrl => if s.cfg.hasMpu then s.mpu.ctrl.setWidth 32 else 0
  | .mpuRnr => if s.cfg.hasMpu then BitVec.ofNat 32 s.mpu.rnr.val else 0
  | .mpuRbar =>
    if s.cfg.hasMpu then s.mpu.current.addrField ||| BitVec.ofNat 32 s.mpu.rnr.val else 0
  | .mpuRasr => if s.cfg.hasMpu then s.mpu.current.attr else 0

/-- What reading a system register changes: STK_CSR clears COUNTFLAG (10_state.md R76), a register with free bits draws a free
value; nothing else (20_memory.md R149). -/
def State.ppbReadEffect (s : State) : PpbReg → State
  | .stkCsr => { s with stk := { s.stk with countFlag := false } }
  | .icsr => s.drewFree
  | .aircr => s.drewFree
  | _ => s

/-- A register write with reserved bits that "must be kept cleared" (10_state.md R53): refused if one is set. -/
def keepCleared (reserved w : Word) (s : State) : Acc State :=
  if w &&& reserved = 0 then .ok s else .refused .reservedBitWrite

/-- A write to ICSR (10_state.md R63, R64). -/
def State.writeIcsr (s : State) (w : Word) : Acc State :=
  if (w.getLsbD 28 && w.getLsbD 27) || (w.getLsbD 26 && w.getLsbD 25) then .refused .icsrSetClear
  else
    let set := (if w.getLsbD 31 then Exc.nmi.mask else 0) ||| (if w.getLsbD 28 then Exc.pendSV.mask else 0)
      ||| (if w.getLsbD 26 then Exc.sysTick.mask else 0)
    let clear := (if w.getLsbD 27 then Exc.pendSV.mask else 0) ||| (if w.getLsbD 25 then Exc.sysTick.mask else 0)
    .ok ((s.clearPendingMask clear).setPendingMask set)

/-- A write to AIRCR (10_state.md R67). -/
def State.writeAircr (s : State) (w : Word) : Acc State :=
  if w.toNat / 65536 ≠ 0x05FA then .ok s
  else if w.getLsbD 1 then .refused .aircrVectClrActive
  else if w.getLsbD 2 then .ok { s with scb := { s.scb with resetRequest := true } }
  else .ok s

/-- A write to MPU_CTRL (10_state.md R83; 93_implementation_defined.md U7). -/
def State.writeMpuCtrl (s : State) (w : Word) : Acc State :=
  if w.getLsbD 1 && !w.getLsbD 0 then .refused .mpuHfnmienaWithoutEnable
  else .ok { s with mpu := { s.mpu with ctrl := w.setWidth 3 } }

/-- A write to MPU_RNR (10_state.md R84; U9). -/
def State.writeMpuRnr (s : State) (w : Word) : Acc State :=
  if w.toNat ≥ 256 then .refused .reservedBitWrite
  else if h : w.toNat < 8 then .ok { s with mpu := { s.mpu with rnr := ⟨w.toNat, h⟩ } }
  else .refused .mpuRegionNumber

/-- Writing the base word of a region. -/
def Mpu.setBase (m : Mpu) (r : Fin 8) (w : Word) : Mpu :=
  { m with regions := m.regions.set r { m.regions[r] with base := w } }

/-- Writing the attribute word of a region. -/
def Mpu.setAttr (m : Mpu) (r : Fin 8) (w : Word) : Mpu :=
  { m with regions := m.regions.set r { m.regions[r] with attr := w } }

/-- A write to MPU_RBAR (10_state.md R85; U9). It stores the base bits [31:8]: bits [7:5] are reserved for every region size
(90_conflicts.md C30), and those from 8 up to the size read as zero and are ignored by the match while the region has that size
(`MpuRegion.addrField`; DEDUCED, assumption log 36). -/
def State.writeMpuRbar (s : State) (w : Word) : Acc State :=
  if w.getLsbD 4 then
    if h : w.toNat % 16 < 8 then
      .ok { s with mpu := { s.mpu with rnr := ⟨w.toNat % 16, h⟩ }.setBase ⟨w.toNat % 16, h⟩ (w &&& 0xFFFFFF00#32) }
    else .refused .mpuRegionNumber
  else .ok { s with mpu := s.mpu.setBase s.mpu.rnr (w &&& 0xFFFFFF00#32) }

/-- A word write to a system register (10_state.md R54 to R91); read-only registers ignore it (D11). -/
def State.ppbWrite (s : State) (r : PpbReg) (w : Word) : Acc State :=
  match r with
  | .stkCsr => keepCleared 0xFFFEFFF8#32 w { s with stk := { s.stk with ctrl := w.setWidth 3 } }
  | .stkRvr => keepCleared 0xFF000000#32 w { s with stk := { s.stk with reload := w.setWidth 24 } }
  | .stkCvr => .ok { s with stk := { s.stk with current := 0, countFlag := false } }
  | .stkCalib => .ok s
  | .nvicIser => .ok { s with nvic := { s.nvic with enable := s.nvic.enable ||| w } }
  | .nvicIcer => .ok { s with nvic := { s.nvic with enable := s.nvic.enable &&& ~~~w } }
  | .nvicIspr => .ok (s.setPendingMask (irqMask w))
  | .nvicIcpr => .ok (s.clearPendingMask (irqMask w))
  | .nvicIpr n => .ok { s with nvic := { s.nvic with ipr := s.nvic.ipr.set n (w &&& 0xC0C0C0C0#32) } }
  | .cpuid => .ok s
  | .icsr => s.writeIcsr w
  | .vtor => .ok { s with scb := { s.scb with vtor := w &&& 0xFFFFFF80#32 } }
  | .aircr => s.writeAircr w
  | .scr => keepCleared 0x00000009#32 w { s with scb := { s.scb with scr := w &&& 0x00000016#32 } }
  | .ccr => .ok s
  | .shpr2 => keepCleared 0x00FFFFFF#32 w { s with scb := { s.scb with shpr2 := w &&& 0xC0000000#32 } }
  | .shpr3 => keepCleared 0x0000FFFF#32 w { s with scb := { s.scb with shpr3 := w &&& 0xC0C00000#32 } }
  | .mpuType => .ok s
  | .mpuCtrl => if s.cfg.hasMpu then s.writeMpuCtrl w else .ok s
  | .mpuRnr => if s.cfg.hasMpu then s.writeMpuRnr w else .ok s
  | .mpuRbar => if s.cfg.hasMpu then s.writeMpuRbar w else .ok s
  | .mpuRasr =>
    if s.cfg.hasMpu then .ok { s with mpu := s.mpu.setAttr s.mpu.rnr (w &&& 0x1707FF3F#32) } else .ok s

/-- One tick of the system timer (60_exceptions.md R406). -/
def State.sysTickTick (s : State) : State :=
  if !s.stk.ctrl.getLsbD 0 then s
  else if s.stk.current = 0 then { s with stk := { s.stk with current := s.stk.reload } }
  else if s.stk.current = 1 then
    let s' := { s with stk := { s.stk with current := 0, countFlag := true } }
    if s.stk.ctrl.getLsbD 1 then s'.setPending .sysTick else s'
  else { s with stk := { s.stk with current := s.stk.current - 1 } }

/-- Several ticks (60_exceptions.md R425). -/
def State.sysTickTicks (s : State) : Nat → State
  | 0 => s
  | n + 1 => s.sysTickTick.sysTickTicks n

end Sys2Proof.Machine
end

