-- ==== Sys2Proof/Machine/Access.lean ====
section
/-! DEFINITION. The access procedure of loads, stores, stacking, vector fetch and instruction fetch (20_memory.md R135 to R145):
first the checks, then the access itself. -/

namespace Sys2Proof.Machine

/-- What the memory map says of an access: the first entry for it, else RAM-like storage (20_memory.md R124; 92_eei_decisions.md
D5; one decision for the whole access, assumption log 3). -/
def State.mapKind (s : State) (priv : Bool) (kind : AccessKind) (size : Size) (a : Word) : MemKind :=
  match s.cfg.memMap.find? (fun e => e.covers priv kind size a) with
  | some e => e.kind
  | none => .ram

/-- What answers an access outside the PPB: at the I/O port a device, and a bus error for a fetch (20_memory.md R126; 92_eei_decisions.md
D30), elsewhere what the memory map says. -/
def State.kindAt (s : State) (priv : Bool) (kind : AccessKind) (size : Size) (a : Word) : MemKind :=
  if s.isIoPort a && decide (s.mapKind priv kind size a ≠ .busError) then (if kind = .fetch then .busError else .device)
  else s.mapKind priv kind size a

/-- An address is a multiple of the access size (20_memory.md R135). -/
def aligned (size : Size) (a : Word) : Bool := decide (a.toNat % size.bytes = 0)

/-- Step 4 of the access procedure: the bus error that the platform answers with (20_memory.md R144). -/
def State.checkBus (s : State) (priv : Bool) (kind : AccessKind) (size : Size) (a : Word) : Acc Unit :=
  if s.kindAt priv kind size a = .busError then .fault .bus else .ok ()

/-- Step 2 of the access procedure: the PPB rules (20_memory.md R142). Outside the blocks of the system registers the memory map says
whether there is a bus error; a map that says nothing gives none (10_state.md R51, R52; DESIGN CHOICE, assumption log 35). -/
def State.checkPpb (s : State) (priv : Bool) (kind : AccessKind) (size : Size) (a : Word) : Acc Unit :=
  if !priv then .fault .ppbPrivilege
  else if size ≠ .word then .refused .ppbSize
  else if inPpbBlock a then .ok ()
  else s.checkBus priv kind size a

/-- The checks of a data access in their order: alignment, PPB rules, MPU, bus (20_memory.md R140). -/
def State.checkAccess (s : State) (priv : Bool) (kind : AccessKind) (size : Size) (a : Word) : Acc Unit :=
  if !aligned size a then .fault .unaligned
  else if inPpb a then s.checkPpb priv kind size a
  else (s.mpuCheck a kind priv).bind fun _ => s.checkBus priv kind size a

/-- The record of an access of this step by a device. -/
def State.deviceAccess (s : State) (priv : Bool) (kind : AccessKind) (size : Size) (a v : Word) : DeviceAccess :=
  { address := a, size := size, access := kind, privileged := priv, value := v, input := s.deviceInput }

/-- A device saw an access (20_memory.md R149; assumption log 39). -/
def State.sawAccess (s : State) (d : DeviceAccess) : State := { s with devices := d :: s.devices }

/-- What a device answers to a read: the bytes of the access that its model gives (93_implementation_defined.md U26). -/
def State.deviceValue (s : State) (d : DeviceAccess) : Word :=
  narrowTo d.size (Config.deviceRead s.cfg.deviceModel (d :: s.devices))

/-- The value of a read whose checks have passed: a system register, a reserved word of the PPB (zero inside the blocks; outside them a
free value, DESIGN CHOICE, R52, assumption logs 11 and 35), a device, or memory. -/
def State.busValue (s : State) (priv : Bool) (kind : AccessKind) (size : Size) (a : Word) : Word :=
  if inPpb a then
    match PpbReg.at? a with
    | some r => s.ppbValue r
    | none => if inPpbBlock a then 0 else s.freeValue
  else if s.kindAt priv kind size a = .device then s.deviceValue (s.deviceAccess priv kind size a 0)
  else s.mem.load size a

/-- What a read whose checks have passed changes. -/
def State.busReadEffect (s : State) (priv : Bool) (kind : AccessKind) (size : Size) (a : Word) : State :=
  if inPpb a then
    match PpbReg.at? a with
    | some r => s.ppbReadEffect r
    | none => if inPpbBlock a then s else s.drewFree
  else if s.kindAt priv kind size a = .device then s.sawAccess (s.deviceAccess priv kind size a 0)
  else s

/-- One byte stored in memory. -/
def State.storeByte (s : State) (a : Word) (v : Byte) : State := { s with mem := s.mem.setByte a.toNat v }

/-- The bytes of a value stored in rising addresses, the least significant first (20_memory.md R132). -/
def State.storeBytes (s : State) (v : Word) : Nat → List Word → State
  | _, [] => s
  | i, a :: rest => (s.storeByte a (byteOf v i)).storeBytes v (i + 1) rest

/-- A write whose checks have passed (20_memory.md R140 step 5). Read-only storage keeps its bytes (92_eei_decisions.md D5, assumption
log 3); a write to the PPB that no register answers is ignored, outside the blocks of the system registers as the model's choice
(20_memory.md R142 (c); 10_state.md R52; DESIGN CHOICE, assumption log 35). -/
def State.busWrite (s : State) (priv : Bool) (size : Size) (a : Word) (v : Word) : Acc State :=
  if inPpb a then
    match PpbReg.at? a with
    | some r => s.ppbWrite r v
    | none => .ok s
  else match s.kindAt priv .write size a with
    | .rom => .ok s
    | .device => .ok (s.sawAccess (s.deviceAccess priv .write size a (narrowTo size v)))
    | _ => .ok (s.storeBytes v 0 (accessBytes size a))

/-- MemRead(a, n) of the running program: the value, and the state after the read (20_memory.md R140). Data is read only where an
instruction or an exception asks for it: of the speculative reads that Normal memory allows, 70_reset_and_hazards.md R456, the model makes
none (DESIGN CHOICE, assumption log 42). -/
def State.memRead (s : State) (size : Size) (a : Word) : Acc (Word × State) :=
  (s.checkAccess s.privileged .read size a).bind fun _ =>
    .ok (s.busValue s.privileged .read size a, s.busReadEffect s.privileged .read size a)

/-- MemWrite(a, n, v) of the running program (20_memory.md R140). -/
def State.memWrite (s : State) (size : Size) (a : Word) (v : Word) : Acc State :=
  (s.checkAccess s.privileged .write size a).bind fun _ => s.busWrite s.privileged size a v

/-- The checks of consecutive words from an address on (40_memory_access.md R254 with MULTI_ACCESS_ATOMIC, assumption log
15). -/
def State.checkWords (s : State) (priv : Bool) (kind : AccessKind) (a : Word) : Nat → Acc Unit
  | 0 => .ok ()
  | n + 1 => (s.checkAccess priv kind .word a).bind fun _ => s.checkWords priv kind (a + 4) n

/-- Consecutive words read after their checks: the values, and the state after the reads. -/
def State.readWords (s : State) (priv : Bool) (a : Word) : Nat → List Word × State
  | 0 => ([], s)
  | n + 1 =>
    let r := (s.busReadEffect priv .read .word a).readWords priv (a + 4) n
    (s.busValue priv .read .word a :: r.1, r.2)

/-- Consecutive words written after their checks. -/
def State.writeWords (s : State) (priv : Bool) (a : Word) : List Word → Acc State
  | [] => .ok s
  | v :: rest => (s.busWrite priv .word a v).bind fun s' => s'.writeWords priv (a + 4) rest

/-- A vector fetch: a privileged word read that the MPU does not check (60_exceptions.md R358; 20_memory.md R176; assumption log
32). -/
def State.vectorRead (s : State) (a : Word) : Acc (Word × State) :=
  (if inPpb a then s.checkPpb true .read .word a else s.checkBus true .read .word a).bind fun _ =>
    .ok (s.busValue true .read .word a, s.busReadEffect true .read .word a)

/-- A halfword of code: that of the instruction fetched ahead, where that is the instruction at the PC, else what memory holds now
(20_memory.md R165; assumption log 41). -/
def State.codeHalf (s : State) (a : Word) : Half :=
  match s.prefetched with
  | some p => if p.addr = s.pc then (if a = s.pc then p.hw1 else p.hw2) else s.mem.halfAt a
  | none => s.mem.halfAt a

/-- The fetch of one halfword (20_memory.md R145): T, execute-never and permission, bus. -/
def State.fetchHalf (s : State) (a : Word) : Acc (Half × State) :=
  if !s.epsrT then .fault .notThumb
  else (s.mpuCheck a .fetch s.privileged).bind fun _ => (s.checkBus s.privileged .fetch .half a).bind fun _ =>
    if s.kindAt s.privileged .fetch .half a = .device then
      .ok ((s.deviceValue (s.deviceAccess s.privileged .fetch .half a 0)).setWidth 16,
        s.sawAccess (s.deviceAccess s.privileged .fetch .half a 0))
    else .ok (s.codeHalf a, s)

end Sys2Proof.Machine
end

