-- ==== Sys2Proof/Machine/Ops.lean ====
section
/-! DEFINITION. Taking an exception, raising HardFault, lockup, returning from an exception (60_exceptions.md R371 to R396), the
writes of the PC (42_branch.md R325), and how a meaning ends after a memory access. -/

namespace Sys2Proof.Machine

/-- The outcomes of this machine. -/
abbrev Result := Host.Outcome State Fault Refusal

/-- Entering lockup: LockupPriority is the execution priority, -1 or -2, and the PC is 0xFFFFFFFE (60_exceptions.md R396). -/
def State.enterLockup (s : State) : State :=
  { s with
    lockup := some (if s.executionPriority ≤ -2 then .nmi else .hardFault)
    sleep := .running
    pc := 0xFFFFFFFE }

/-- EXC_RETURN of the interrupted context (60_exceptions.md R376). -/
def State.excReturn (s : State) : Word :=
  if s.ipsr != 0 then 0xFFFFFFF1 else if s.spsel then 0xFFFFFFFD else 0xFFFFFFF9

/-- The alignment bit of a stack frame: bit 2 of the old stack pointer (60_exceptions.md R372). -/
def frameAlign (sp : Word) : Bool := sp.getLsbD 2

/-- The address of a stack frame (60_exceptions.md R372). -/
def framePtr (sp : Word) : Word := (sp - 0x20) &&& 0xFFFFFFF8#32

/-- The eight words of a stack frame in rising addresses (60_exceptions.md R371). -/
def State.frameWords (s : State) (ra : Word) : List Word :=
  [s.gpr 0, s.gpr 1, s.gpr 2, s.gpr 3, s.gpr 12, s.lr, ra, s.stackedPsr (frameAlign s.sp)]

/-- The stacking stores: each is checked with the privilege of the interrupted code; one that faults is not performed, the
others are (60_exceptions.md R371, R393). The Boolean says that one faulted. -/
def State.stackWords (s : State) (priv : Bool) (a : Word) : List Word → Acc (Bool × State)
  | [] => .ok (false, s)
  | v :: rest =>
    match s.checkAccess priv .write .word a with
    | .refused r => .refused r
    | .fault _ => (s.stackWords priv (a + 4) rest).bind fun r => .ok (true, r.2)
    | .ok _ => (s.busWrite priv .word a v).bind fun s' => s'.stackWords priv (a + 4) rest

/-- The part of exception entry after stacking, without the vector: LR, IPSR, SPSEL, pending, active and the event register
(60_exceptions.md R375). The processor is awake from then on, and an instruction fetched ahead is fetched again (20_memory.md R165). -/
def State.enterHandlerMode (s : State) (e : Exc) (lr : Word) : State :=
  { (s.activate e) with
    lr := lr
    ipsr := BitVec.ofNat 6 e.num
    spsel := false
    eventReg := true
    sleep := .running
    prefetched := none }

/-- The address of a vector: VTOR + 4*e (60_exceptions.md R357; 10_state.md R66). -/
def State.vectorAddr (s : State) (e : Exc) : Word := (s.scb.vtor &&& 0xFFFFFF80#32) + BitVec.ofNat 32 (4 * e.num)

/-- Going to a handler: pc <- v AND 0xFFFFFFFE, EPSR.T <- v[0] (60_exceptions.md R358, R375). -/
def State.jumpVector (s : State) (v : Word) : State := { s with pc := v &&& 0xFFFFFFFE#32, epsrT := v.getLsbD 0 }

/-- Entering HardFault on a frame that is already stacked: tail-chaining (60_exceptions.md R393). A fault of this vector fetch
is lockup at priority -1 (DESIGN CHOICE, assumption log 16). -/
def State.enterHardFault (s : State) (lr : Word) : Result :=
  match s.vectorRead (s.vectorAddr .hardFault) with
  | .ok (v, s') => .next ((s'.enterHandlerMode .hardFault lr).jumpVector v)
  | .fault _ => .next (s.enterHandlerMode .hardFault lr).enterLockup
  | .refused r => .refused r

/-- A fault of a stacking store or of the vector fetch: lockup where the interrupted context has priority -1 or -2, else
HardFault by tail-chaining, the exception staying pending (60_exceptions.md R393). The spec says no more of an NMI whose entry from
HardFault faults than that the result is lockup: NMI stays pending there, and is no cause of its own to stay locked up, so the next
step of R396 takes it again (DESIGN CHOICE, assumption log 37). -/
def State.entryFault (s : State) (contextPriority : Int) (lr : Word) : Result :=
  if contextPriority ≤ -1 then .next s.enterLockup else (s.setPending .hardFault).enterHardFault lr

/-- Entering the handler of an exception whose frame is stacked (60_exceptions.md R375, R393). -/
def State.enterHandler (s : State) (e : Exc) (contextPriority : Int) (lr : Word) : Result :=
  match s.vectorRead (s.vectorAddr e) with
  | .ok (v, s') => .next ((s'.enterHandlerMode e lr).jumpVector v)
  | .fault _ => s.entryFault contextPriority lr
  | .refused r => .refused r

/-- Taking an exception: TakeException(e, ra) (60_exceptions.md R371 to R376, R393). -/
def State.takeException (s : State) (e : Exc) (ra : Word) : Result :=
  match s.stackWords s.privileged (framePtr s.sp) (s.frameWords ra) with
  | .refused r => .refused r
  | .fault _ => .next s.enterLockup
  | .ok (faulted, s') =>
    let s'' := s'.setSp (framePtr s.sp)
    if faulted then s''.entryFault s.executionPriority s.excReturn
    else s''.enterHandler e s.executionPriority s.excReturn

/-- Taking the best candidate at once, with a return address; the state itself where there is none (60_exceptions.md R362,
R390). -/
def State.takeBest (s : State) (ra : Word) : Result :=
  match s.bestCandidate with
  | some e => s.takeException e ra
  | none => .next s

/-- raise HardFault(cause) with a return address (60_exceptions.md R390, R374): lockup at execution priority -1 or -2. -/
def State.raiseHardFault (s : State) (ra : Word) : Result :=
  if s.executionPriority ≤ -1 then .next s.enterLockup else (s.setPending .hardFault).takeBest ra

/-- What an EXC_RETURN value asks for: return to Thread mode, and the process stack (60_exceptions.md R387). -/
def excReturnTarget (x : Word) : Option (Bool × Bool) :=
  if x = 0xFFFFFFF1#32 then some (false, false)
  else if x = 0xFFFFFFF9#32 then some (true, false)
  else if x = 0xFFFFFFFD#32 then some (true, true)
  else none

/-- The state after a frame was read: registers, stack pointer, PSR, pc, event register (60_exceptions.md R373, R388); an instruction
fetched ahead is fetched again (20_memory.md R165). -/
def State.unstacked (s : State) (toPsp : Bool) (frame : Word) (w : List Word) : State :=
  let ra := w.getD 6 0
  let psr := w.getD 7 0
  let sp := (frame + 0x20) ||| ((BitVec.ofBool (psr.getLsbD 9)).setWidth 32 <<< 2)
  let s1 := ((((s.setGpr 0 (w.getD 0 0)).setGpr 1 (w.getD 1 0)).setGpr 2 (w.getD 2 0)).setGpr 3 (w.getD 3 0)).setGpr 12
    (w.getD 4 0)
  let s2 := if toPsp then s1.setPsp sp else s1.setMsp sp
  { s2 with
    lr := w.getD 5 0
    spsel := toPsp
    apsr := Apsr.ofWord psr
    epsrT := psr.getLsbD 24
    ipsr := psr.setWidth 6
    pc := ra &&& 0xFFFFFFFE#32
    eventReg := true
    prefetched := none }

/-- The IPSR that a return restores fits the mode: 0 for Thread mode, the number of an exception for Handler mode
(60_exceptions.md R388; U6). -/
def returnIpsrOk (toThread : Bool) (psr : Word) : Bool :=
  if toThread then psr.toNat % 64 == 0 else (Exc.ofNum? (psr.toNat % 64)).isSome

/-- Sleep-on-exit after a return to Thread mode (60_exceptions.md R413). -/
def State.afterReturn (s : State) (toThread : Bool) : State :=
  if toThread && s.sleepOnExit then { s with sleep := .onExit } else s

/-- The privilege of the unstacking loads: privileged for a return to Handler mode, else that of the Thread code (60_exceptions.md
R388). -/
def State.unstackPriv (s : State) (toThread : Bool) : Bool := !toThread || !s.nPriv

/-- The return once the frame's checks have passed (60_exceptions.md R388). -/
def State.popFrame (s : State) (toThread toPsp : Bool) (frame : Word) : Result :=
  let r := s.readWords (s.unstackPriv toThread) frame 8
  if (r.1.getD 6 0).getLsbD 0 then .refused .excReturnOddAddress
  else if !returnIpsrOk toThread (r.1.getD 7 0) then .refused .excReturnIpsr
  else .next ((r.2.unstacked toPsp frame r.1).afterReturn toThread)

/-- A fault while unstacking: lockup where the remaining execution priority is -1 or -2, else HardFault by tail-chaining on the
frame left in place (60_exceptions.md R393 (b)). -/
def State.unstackFault (s : State) (x : Word) : Result :=
  if s.executionPriority ≤ -1 then .next s.enterLockup else (s.setPending .hardFault).enterHardFault x

/-- The return sequence from the exception e, no longer active (60_exceptions.md R388). -/
def State.unstack (s : State) (x : Word) (toThread toPsp : Bool) : Result :=
  let frame := if toPsp then s.psp else s.msp
  match s.checkWords (s.unstackPriv toThread) .read frame 8 with
  | .ok _ => s.popFrame toThread toPsp frame
  | .fault _ => s.unstackFault x
  | .refused r => .refused r

/-- ExceptionReturn(x) (60_exceptions.md R388). -/
def State.exceptionReturn (s : State) (x : Word) : Result :=
  match excReturnTarget x, Exc.ofNum? s.ipsr.toNat with
  | none, _ => .refused .excReturnValue
  | some _, none => .refused .excReturnNotActive
  | some (toThread, toPsp), some e =>
    if toThread && s.activeCount != 1 || !toThread && decide (s.activeCount ≤ 1) then .refused .excReturnNesting
    else if !s.isActive e then .refused .excReturnNotActive
    else (s.clearActive e).unstack x toThread toPsp

/-- EPSR.T <- v[0]; pc <- v AND 0xFFFFFFFE (42_branch.md R325). -/
def State.interwork (s : State) (v : Word) : State := { s with epsrT := v.getLsbD 0, pc := v &&& 0xFFFFFFFE#32 }

/-- BXWritePC(v), of BX and POP (42_branch.md R325). -/
def State.bxWritePc (s : State) (v : Word) : Result :=
  if s.ipsr != 0 && decide (v.toNat / 268435456 = 15) then s.exceptionReturn v else .next (s.interwork v)

/-- BLXWritePC(v): never an exception return (42_branch.md R325). -/
def State.blxWritePc (s : State) (v : Word) : Result := .next (s.interwork v)

/-- How a meaning goes on after its accesses: a fault is HardFault at the instruction's own address with no effect of the
instruction (60_exceptions.md R374, R390). -/
def State.afterAccess {α : Type} (s : State) (r : Acc α) (k : α → Result) : Result :=
  match r with
  | .ok a => k a
  | .fault _ => s.raiseHardFault s.pc
  | .refused r => .refused r

end Sys2Proof.Machine
end

