-- ==== Sys2Proof/Machine/Finish.lean ====
section
/-! DEFINITION. The ways in which the meanings end: a result with or without flags and the next instruction, a load, a store
(41_data_processing.md and 40_memory_access.md, their conventions). -/

namespace Sys2Proof.Machine

/-- R[Rd] <- r and the next instruction, flags unchanged. -/
def State.putPlain (s : State) (rd : LoReg) (r : Word) : Result := .next ((s.setLo rd r).advance 2)

/-- R[Rd] <- r; SetFlagsNZ(r). -/
def State.putNZ (s : State) (rd : LoReg) (r : Word) : Result :=
  .next (((s.setLo rd r).setFlags (s.apsr.withNZ r)).advance 2)

/-- R[Rd] <- r; SetFlagsNZ(r); APSR.C <- c, for a shifter's result and carry. -/
def State.putShift (s : State) (rd : LoReg) (r : Word × Bool) : Result :=
  .next (((s.setLo rd r.1).setFlags (s.apsr.withNZC r.1 r.2)).advance 2)

/-- R[Rd] <- result of AddWithCarry, with all four flags. -/
def State.putAdd (s : State) (rd : LoReg) (r : AddResult) : Result :=
  .next (((s.setLo rd r.result).setFlags r.flags).advance 2)

/-- The flags of AddWithCarry alone: the result is discarded. -/
def State.putFlags (s : State) (f : Apsr) : Result := .next ((s.setFlags f).advance 2)

/-- A value written to any register without flags: a write of the PC is a simple branch (41_data_processing.md R269, R293). -/
def State.putAny (s : State) (rd : Reg) (r : Word) : Result :=
  if rd = 15 then .next (s.setPc r) else .next ((s.setReg rd r).advance 2)

/-- A load of one size with its extension (40_memory_access.md R253). -/
def State.load (s : State) (rt : LoReg) (size : Size) (a : Word) (ext : Word → Word) : Result :=
  s.afterAccess (s.memRead size a) fun r => .next ((r.2.setLo rt (ext r.1)).advance 2)

/-- A store of one size of the register Rt (40_memory_access.md R253). -/
def State.store (s : State) (rt : LoReg) (size : Size) (a : Word) : Result :=
  s.afterAccess (s.memWrite size a (s.lo rt)) fun s' => .next (s'.advance 2)

end Sys2Proof.Machine
end

