-- ==== Sys2Proof/Machine/Arith.lean ====
section
/-! DEFINITION. Addition and subtraction, and ADR (41_data_processing.md R265 to R277; 40_memory_access.md R230). -/

namespace Sys2Proof.Machine

/-- ADDS Rd, Rn, Rm (41_data_processing.md R268). -/
def execAddsReg (rd : LoReg) (rn : LoReg) (rm : LoReg) (s : State) : Result :=
  s.putAdd rd (addWithCarry (s.lo rn) (s.lo rm) false)

/-- SUBS Rd, Rn, Rm (41_data_processing.md R274). -/
def execSubsReg (rd : LoReg) (rn : LoReg) (rm : LoReg) (s : State) : Result :=
  s.putAdd rd (addWithCarry (s.lo rn) (~~~s.lo rm) true)

/-- ADDS Rd, Rn, #imm3 (41_data_processing.md R266). -/
def execAddsImm3 (rd : LoReg) (rn : LoReg) (imm3 : BitVec 3) (s : State) : Result :=
  s.putAdd rd (addWithCarry (s.lo rn) (immWord imm3) false)

/-- SUBS Rd, Rn, #imm3 (41_data_processing.md R272). -/
def execSubsImm3 (rd : LoReg) (rn : LoReg) (imm3 : BitVec 3) (s : State) : Result :=
  s.putAdd rd (addWithCarry (s.lo rn) (~~~immWord imm3) true)

/-- ADDS Rdn, #imm8 (41_data_processing.md R267). -/
def execAddsImm8 (rdn : LoReg) (imm8 : BitVec 8) (s : State) : Result :=
  s.putAdd rdn (addWithCarry (s.lo rdn) (immWord imm8) false)

/-- SUBS Rdn, #imm8 (41_data_processing.md R273). -/
def execSubsImm8 (rdn : LoReg) (imm8 : BitVec 8) (s : State) : Result :=
  s.putAdd rdn (addWithCarry (s.lo rdn) (~~~immWord imm8) true)

/-- ADCS Rdn, Rm (41_data_processing.md R265). -/
def execAdcs (rdn : LoReg) (rm : LoReg) (s : State) : Result := s.putAdd rdn (addWithCarry (s.lo rdn) (s.lo rm) s.apsr.c)

/-- SBCS Rdn, Rm (41_data_processing.md R276). -/
def execSbcs (rdn : LoReg) (rm : LoReg) (s : State) : Result := s.putAdd rdn (addWithCarry (s.lo rdn) (~~~s.lo rm) s.apsr.c)

/-- RSBS Rd, Rn, #0 (41_data_processing.md R277). -/
def execRsbs (rd : LoReg) (rn : LoReg) (s : State) : Result := s.putAdd rd (addWithCarry (~~~s.lo rn) 0 true)

/-- ADD Rdn, Rm: any registers but PC with PC, no flags (41_data_processing.md R269). -/
def execAddHigh (rdn : Reg) (rm : Reg) (s : State) : Result :=
  if addHighOk rdn rm then s.putAny rdn (s.reg rdn + s.reg rm) else .refused (.unpredictable .addPcPc)

/-- ADD Rd, SP, #imm (41_data_processing.md R270). -/
def execAddRdSp (rd : LoReg) (imm8 : BitVec 8) (s : State) : Result := s.putPlain rd (s.sp + immWords imm8)

/-- ADD SP, SP, #imm (41_data_processing.md R271). -/
def execAddSp (imm7 : BitVec 7) (s : State) : Result := .next ((s.setSp (s.sp + immWords imm7)).advance 2)

/-- SUB SP, SP, #imm (41_data_processing.md R275). -/
def execSubSp (imm7 : BitVec 7) (s : State) : Result := .next ((s.setSp (s.sp - immWords imm7)).advance 2)

/-- ADR Rd, label (40_memory_access.md R230). -/
def execAdr (rd : LoReg) (imm8 : BitVec 8) (s : State) : Result := s.putPlain rd (s.literalAddr imm8)

end Sys2Proof.Machine
end

