-- ==== Sys2Proof/Machine/Branch.lean ====
section
/-! DEFINITION. Branches (42_branch.md R320 to R325). -/

namespace Sys2Proof.Machine

/-- B label (42_branch.md R320). -/
def execB (imm11 : BitVec 11) (s : State) : Result := .next { s with pc := s.branchTarget imm11 }

/-- B{cond} label (42_branch.md R321). -/
def execBcond (cond : Cond) (imm8 : BitVec 8) (s : State) : Result :=
  if conditionPassed s.apsr cond then .next { s with pc := s.branchTarget imm8 } else .next (s.advance 2)

/-- BL label (42_branch.md R322). -/
def execBl (imm24 : BitVec 24) (s : State) : Result := .next { s with lr := s.pcRead ||| 1, pc := s.branchTarget imm24 }

/-- BX Rm (42_branch.md R323). -/
def execBx (rm : Reg) (s : State) : Result :=
  if branchRegOk rm then s.bxWritePc (s.reg rm) else .refused (.unpredictable .branchReg)

/-- BLX Rm: the target is read before LR is written (42_branch.md R324). -/
def execBlx (rm : Reg) (s : State) : Result :=
  if branchRegOk rm then State.blxWritePc { s with lr := (s.pc + 2) ||| 1 } (s.reg rm)
  else .refused (.unpredictable .branchReg)

end Sys2Proof.Machine
end

