-- ==== Sys2Proof/Machine/Compare.lean ====
section
/-! DEFINITION. Comparisons and the test, which write no register (41_data_processing.md R289 to R292, R305). -/

namespace Sys2Proof.Machine

/-- CMP Rn, #imm8 (41_data_processing.md R290). -/
def execCmpImm (rn : LoReg) (imm8 : BitVec 8) (s : State) : Result :=
  s.putFlags (addWithCarry (s.lo rn) (~~~immWord imm8) true).flags

/-- CMP Rn, Rm, low registers (41_data_processing.md R291). -/
def execCmpLow (rn : LoReg) (rm : LoReg) (s : State) : Result := s.putFlags (addWithCarry (s.lo rn) (~~~s.lo rm) true).flags

/-- CMP Rn, Rm, at least one register from R8 to R14 (41_data_processing.md R292). -/
def execCmpHigh (rn : Reg) (rm : Reg) (s : State) : Result :=
  if cmpHighOk rn rm then s.putFlags (addWithCarry (s.reg rn) (~~~s.reg rm) true).flags
  else .refused (.unpredictable .cmpHighRegs)

/-- CMN Rn, Rm (41_data_processing.md R289). -/
def execCmn (rn : LoReg) (rm : LoReg) (s : State) : Result := s.putFlags (addWithCarry (s.lo rn) (s.lo rm) false).flags

/-- TST Rn, Rm (41_data_processing.md R305). -/
def execTst (rn : LoReg) (rm : LoReg) (s : State) : Result := s.putFlags (s.apsr.withNZ (s.lo rn &&& s.lo rm))

end Sys2Proof.Machine
end

