-- ==== Sys2Proof/Machine/Extend.lean ====
section
/-! DEFINITION. Extension and byte reversal, without flags (41_data_processing.md R298 to R304). -/

namespace Sys2Proof.Machine

/-- SXTH Rd, Rm (41_data_processing.md R302). -/
def execSxth (rd : LoReg) (rm : LoReg) (s : State) : Result := s.putPlain rd (sextHalf (s.lo rm))

/-- SXTB Rd, Rm (41_data_processing.md R301). -/
def execSxtb (rd : LoReg) (rm : LoReg) (s : State) : Result := s.putPlain rd (sextByte (s.lo rm))

/-- UXTH Rd, Rm (41_data_processing.md R304). -/
def execUxth (rd : LoReg) (rm : LoReg) (s : State) : Result := s.putPlain rd (zextHalf (s.lo rm))

/-- UXTB Rd, Rm (41_data_processing.md R303). -/
def execUxtb (rd : LoReg) (rm : LoReg) (s : State) : Result := s.putPlain rd (zextByte (s.lo rm))

/-- REV Rd, Rm (41_data_processing.md R298). -/
def execRev (rd : LoReg) (rm : LoReg) (s : State) : Result := s.putPlain rd (revWord (s.lo rm))

/-- REV16 Rd, Rm (41_data_processing.md R299). -/
def execRev16 (rd : LoReg) (rm : LoReg) (s : State) : Result := s.putPlain rd (rev16Word (s.lo rm))

/-- REVSH Rd, Rm (41_data_processing.md R300). -/
def execRevsh (rd : LoReg) (rm : LoReg) (s : State) : Result := s.putPlain rd (revshWord (s.lo rm))

end Sys2Proof.Machine
end

