-- ==== Sys2Proof/Machine/Load.lean ====
section
/-! DEFINITION. Single loads (40_memory_access.md R231 to R233, R237, R239 to R243, R247). -/

namespace Sys2Proof.Machine

/-- LDR Rt, label (40_memory_access.md R247). -/
def execLdrLit (rt : LoReg) (imm8 : BitVec 8) (s : State) : Result := s.load rt .word (s.literalAddr imm8) id

/-- LDRSB Rt, [Rn, Rm] (40_memory_access.md R242). -/
def execLdrsb (rt : LoReg) (rn : LoReg) (rm : LoReg) (s : State) : Result := s.load rt .byte (s.regAddr rn rm) sextByte

/-- LDR Rt, [Rn, Rm] (40_memory_access.md R239). -/
def execLdrReg (rt : LoReg) (rn : LoReg) (rm : LoReg) (s : State) : Result := s.load rt .word (s.regAddr rn rm) id

/-- LDRH Rt, [Rn, Rm] (40_memory_access.md R241). -/
def execLdrhReg (rt : LoReg) (rn : LoReg) (rm : LoReg) (s : State) : Result := s.load rt .half (s.regAddr rn rm) zextHalf

/-- LDRB Rt, [Rn, Rm] (40_memory_access.md R240). -/
def execLdrbReg (rt : LoReg) (rn : LoReg) (rm : LoReg) (s : State) : Result := s.load rt .byte (s.regAddr rn rm) zextByte

/-- LDRSH Rt, [Rn, Rm] (40_memory_access.md R243). -/
def execLdrsh (rt : LoReg) (rn : LoReg) (rm : LoReg) (s : State) : Result := s.load rt .half (s.regAddr rn rm) sextHalf

/-- LDR Rt, [Rn, #imm] (40_memory_access.md R231). -/
def execLdrImm (rt : LoReg) (rn : LoReg) (imm5 : BitVec 5) (s : State) : Result :=
  s.load rt .word (s.immAddr rn imm5 .word) id

/-- LDRB Rt, [Rn, #imm] (40_memory_access.md R232). -/
def execLdrbImm (rt : LoReg) (rn : LoReg) (imm5 : BitVec 5) (s : State) : Result :=
  s.load rt .byte (s.immAddr rn imm5 .byte) zextByte

/-- LDRH Rt, [Rn, #imm] (40_memory_access.md R233). -/
def execLdrhImm (rt : LoReg) (rn : LoReg) (imm5 : BitVec 5) (s : State) : Result :=
  s.load rt .half (s.immAddr rn imm5 .half) zextHalf

/-- LDR Rt, [SP, #imm] (40_memory_access.md R237). -/
def execLdrSp (rt : LoReg) (imm8 : BitVec 8) (s : State) : Result := s.load rt .word (s.spAddr imm8) id

end Sys2Proof.Machine
end

