-- ==== Sys2Proof/Machine/Transfer.lean ====
section
/-! DEFINITION. The instructions that an interrupt can abandon: LDM, STM, PUSH, POP and MULS (60_exceptions.md R384; 40_memory_access.md
R254; 20_memory.md R148, R149; 92_eei_decisions.md D16). On a platform with MULTI_ACCESS_ATOMIC the words of a block are all checked and
then all transferred; on one without it each word is an access of its own, and the instruction may be abandoned between two of them. -/

namespace Sys2Proof.Machine

/-- How far the accesses of a block got: the words transferred, the state then, and what the next access answered if it was not done. -/
structure Progress where
  /-- the words loaded or stored so far -/
  words : List Word
  /-- the state after them -/
  state : State
  /-- `ok` where every access was done -/
  stop : Acc Unit
  deriving DecidableEq, Repr

/-- No access yet. -/
def Progress.start (s : State) : Progress := { words := [], state := s, stop := .ok () }

/-- Consecutive words read one by one, until one is not done. -/
def State.readSteps (s : State) (a : Word) : Nat → Progress
  | 0 => Progress.start s
  | n + 1 =>
    match s.memRead .word a with
    | .ok (v, s') =>
      let p := s'.readSteps (a + 4) n
      { p with words := v :: p.words }
    | .fault c => { words := [], state := s, stop := .fault c }
    | .refused r => { words := [], state := s, stop := .refused r }

/-- Consecutive words written one by one, until one is not done. -/
def State.writeSteps (s : State) (a : Word) : List Word → Progress
  | [] => Progress.start s
  | v :: rest =>
    match s.memWrite .word a v with
    | .ok s' =>
      let p := s'.writeSteps (a + 4) rest
      { p with words := v :: p.words }
    | .fault c => { words := [], state := s, stop := .fault c }
    | .refused r => { words := [], state := s, stop := .refused r }

/-- The state after the lines that arrive midway are sampled and SysTick ticks elapse (60_exceptions.md R366, R367, R406). -/
def State.sampleMidway (s : State) (m : Midway) : State := ((s.sampleIrq m.irq).sampleNmi m.nmi).sysTickTicks m.ticks

/-- The exception that abandons an instruction of `n` accesses, whose first `k` accesses are `upTo k`, and the state then: the
accesses done so far happened, and what arrives midway makes an exception a candidate (60_exceptions.md R362, R363, R384;
92_eei_decisions.md D16; that an arrival which makes none has no effect is assumption log 40). -/
def State.abandonment (s : State) (n : Nat) (upTo : Nat → Progress) (partway : Progress → State) : Option (Exc × State) :=
  match s.cfg.multiAccessAtomic, s.midway with
  | false, some m =>
    let p := upTo (min m.after n)
    let u := (partway p).sampleMidway m
    if p.stop = .ok () then u.bestCandidate.map (fun e => (e, u)) else none
  | _, _ => none

/-- An instruction of `n` accesses in steps: abandoned by an exception whose return address is the instruction's own, stopped by a
HardFault at the instruction's own address, or done (60_exceptions.md R374, R384, R390). -/
def State.inSteps (s : State) (n : Nat) (upTo : Nat → Progress) (partway : Progress → State) (finish : Progress → Result) : Result :=
  match s.abandonment n upTo partway with
  | some (e, u) => u.takeException e s.pc
  | none =>
    match (upTo n).stop with
    | .ok _ => finish (upTo n)
    | .fault _ => (partway (upTo n)).raiseHardFault s.pc
    | .refused r => .refused r

/-- The registers of a list that were loaded keep the loaded value or the one before, as the bits of a word say; the base register
keeps its own (60_exceptions.md R384; 92_eei_decisions.md D16). -/
def State.keepLoaded (s : State) (bits : Word) (base : Option LoReg) : List LoReg → List Word → State
  | r :: rs, v :: vs => (if bits.getLsbD r.val && decide (base ≠ some r) then s.setLo r v else s).keepLoaded bits base rs vs
  | _, _ => s

/-- The state that a load of a block leaves when it is abandoned or stopped: which loaded registers keep their new value is free
(60_exceptions.md R384; assumption log 11). -/
def Progress.loadsKept (p : Progress) (base : Option LoReg) (rs : List LoReg) : State :=
  if p.words.isEmpty then p.state else p.state.drewFree.keepLoaded p.state.freeValue base rs p.words

/-- The state that a store of a block leaves when it is abandoned or stopped; where an open word was among the stored ones it is open
again when the instruction is restarted (60_exceptions.md R384; assumption log 11). -/
def Progress.storesKept (p : Progress) (fresh : Bool) : State :=
  if fresh && !p.words.isEmpty then p.state.drewFree else p.state

/-- The loads of LDM and POP: `n` words from an address on into the registers of a list, then the rest of the instruction
(40_memory_access.md R254). -/
def State.transferLoads (s : State) (a : Word) (n : Nat) (base : Option LoReg) (rs : List LoReg)
    (finish : List Word → State → Result) : Result :=
  if s.cfg.multiAccessAtomic then
    s.afterAccess (s.checkWords s.privileged .read a n) fun _ =>
      finish (s.readWords s.privileged a n).1 (s.readWords s.privileged a n).2
  else s.inSteps n (s.readSteps a) (fun p => p.loadsKept base rs) fun p => finish p.words p.state

/-- The stores of STM and PUSH, then the rest of the instruction; `fresh` says that one of the words is a free value (40_memory_access.md
R254). -/
def State.transferStores (s : State) (a : Word) (ws : List Word) (fresh : Bool) (finish : State → Result) : Result :=
  if s.cfg.multiAccessAtomic then
    s.afterAccess ((s.checkWords s.privileged .write a ws.length).bind fun _ => s.writeWords s.privileged a ws) fun s' =>
      finish (if fresh then s'.drewFree else s')
  else
    s.inSteps ws.length (fun k => s.writeSteps a (ws.take k)) (fun p => p.storesKept fresh) fun p =>
      finish (if fresh then p.state.drewFree else p.state)

end Sys2Proof.Machine
end

