-- ==== Sys2Proof/Machine/Logic.lean ====
section
/-! DEFINITION. Logic and multiplication (41_data_processing.md R278 to R281, R297). -/

namespace Sys2Proof.Machine

/-- ANDS Rdn, Rm (41_data_processing.md R278). -/
def execAnds (rdn : LoReg) (rm : LoReg) (s : State) : Result := s.putNZ rdn (s.lo rdn &&& s.lo rm)

/-- EORS Rdn, Rm (41_data_processing.md R280). -/
def execEors (rdn : LoReg) (rm : LoReg) (s : State) : Result := s.putNZ rdn (s.lo rdn ^^^ s.lo rm)

/-- ORRS Rdn, Rm (41_data_processing.md R279). -/
def execOrrs (rdn : LoReg) (rm : LoReg) (s : State) : Result := s.putNZ rdn (s.lo rdn ||| s.lo rm)

/-- BICS Rdn, Rm (41_data_processing.md R281). -/
def execBics (rdn : LoReg) (rm : LoReg) (s : State) : Result := s.putNZ rdn (s.lo rdn &&& ~~~s.lo rm)

/-- MULS Rdm, Rn, Rdm, which an interrupt can abandon with nothing written (41_data_processing.md R297; 60_exceptions.md R384). -/
def execMuls (rdm : LoReg) (rn : LoReg) (s : State) : Result :=
  s.inSteps 0 (fun _ => Progress.start s) Progress.state fun _ => s.putNZ rdm (s.lo rn * s.lo rdm)

end Sys2Proof.Machine
end

