-- ==== Sys2Proof/Machine/Move.lean ====
section
/-! DEFINITION. The moves (41_data_processing.md R293 to R296). -/

namespace Sys2Proof.Machine

/-- MOVS Rd, Rm (41_data_processing.md R295). -/
def execMovsReg (rd : LoReg) (rm : LoReg) (s : State) : Result := s.putNZ rd (s.lo rm)

/-- MOVS Rd, #imm8 (41_data_processing.md R294). -/
def execMovsImm (rd : LoReg) (imm8 : BitVec 8) (s : State) : Result := s.putNZ rd (immWord imm8)

/-- MVNS Rd, Rm (41_data_processing.md R296). -/
def execMvns (rd : LoReg) (rm : LoReg) (s : State) : Result := s.putNZ rd (~~~s.lo rm)

/-- MOV Rd, Rm: any registers, no flags (41_data_processing.md R293). -/
def execMov (rd : Reg) (rm : Reg) (s : State) : Result := s.putAny rd (s.reg rm)

end Sys2Proof.Machine
end

