-- ==== Sys2Proof/Machine/Multiple.lean ====
section
/-! DEFINITION. LDM, STM, PUSH and POP (40_memory_access.md R248 to R251, R254, R255). -/

namespace Sys2Proof.Machine

/-- LDM Rn(!), reglist: the base is written back where it is not in the list (40_memory_access.md R248). -/
def execLdm (rn : LoReg) (list8 : BitVec 8) (s : State) : Result :=
  if !listOk list8 then .refused (.unpredictable .emptyList)
  else
    let rs := regList list8
    s.transferLoads (s.lo rn) rs.length (some rn) rs fun ws s' =>
      let s1 := s'.setLos rs ws
      .next ((if list8.getLsbD rn.val then s1 else s1.setLo rn (s.lo rn + wordsExtent rs.length)).advance 2)

/-- STM Rn!, reglist: a base in the list that is not its lowest register is stored as a free value (40_memory_access.md R249; R203
refuses it, 93_implementation_defined.md U1 allows this; assumption log 11). -/
def execStm (rn : LoReg) (list8 : BitVec 8) (s : State) : Result :=
  if !listOk list8 then .refused (.unpredictable .emptyList)
  else
    s.transferStores (s.lo rn) (s.stmWords rn list8) (stmBaseOpen rn list8) fun s1 =>
      .next ((s1.setLo rn (s.lo rn + wordsExtent (regList list8).length)).advance 2)

/-- PUSH reglist (40_memory_access.md R250). -/
def execPush (m : Bool) (list8 : BitVec 8) (s : State) : Result :=
  if !stackListOk m list8 then .refused (.unpredictable .emptyList)
  else
    let ws := s.pushWords m list8
    let a := s.sp - wordsExtent ws.length
    s.transferStores a ws false fun s1 => .next ((s1.setSp a).advance 2)

/-- POP reglist; with PC in the list it branches, or returns from an exception, with SP already advanced
(40_memory_access.md R251). -/
def execPop (p : Bool) (list8 : BitVec 8) (s : State) : Result :=
  if !stackListOk p list8 then .refused (.unpredictable .emptyList)
  else
    let rs := regList list8
    let n := rs.length + p.toNat
    s.transferLoads s.sp n none rs fun ws s' =>
      let s1 := (s'.setLos rs ws).setSp (s.sp + wordsExtent n)
      if p then s1.bxWritePc (ws.getD rs.length 0) else .next (s1.advance 2)

end Sys2Proof.Machine
end

