-- ==== Sys2Proof/Machine/Shift.lean ====
section
/-! DEFINITION. Shifts and the rotate (41_data_processing.md R261 to R264, R282 to R288). -/

namespace Sys2Proof.Machine

/-- LSLS Rd, Rm, #imm5; with imm5 = 0, which decodes as MOVS, no shift occurs (41_data_processing.md R282). -/
def execLslsImm (imm5 : BitVec 5) (rm : LoReg) (rd : LoReg) (s : State) : Result :=
  s.putShift rd (shiftOrKeep lslC (s.lo rm) imm5.toNat s.apsr.c)

/-- LSRS Rd, Rm, #imm (41_data_processing.md R284). -/
def execLsrsImm (imm5 : BitVec 5) (rm : LoReg) (rd : LoReg) (s : State) : Result :=
  s.putShift rd (lsrC (s.lo rm) (immShift imm5))

/-- ASRS Rd, Rm, #imm (41_data_processing.md R286). -/
def execAsrsImm (imm5 : BitVec 5) (rm : LoReg) (rd : LoReg) (s : State) : Result :=
  s.putShift rd (asrC (s.lo rm) (immShift imm5))

/-- LSLS Rdn, Rs (41_data_processing.md R283). -/
def execLslsReg (rdn : LoReg) (rs : LoReg) (s : State) : Result :=
  s.putShift rdn (shiftOrKeep lslC (s.lo rdn) (regShift (s.lo rs)) s.apsr.c)

/-- LSRS Rdn, Rs (41_data_processing.md R285). -/
def execLsrsReg (rdn : LoReg) (rs : LoReg) (s : State) : Result :=
  s.putShift rdn (shiftOrKeep lsrC (s.lo rdn) (regShift (s.lo rs)) s.apsr.c)

/-- ASRS Rdn, Rs (41_data_processing.md R287). -/
def execAsrsReg (rdn : LoReg) (rs : LoReg) (s : State) : Result :=
  s.putShift rdn (shiftOrKeep asrC (s.lo rdn) (regShift (s.lo rs)) s.apsr.c)

/-- RORS Rdn, Rs (41_data_processing.md R288). -/
def execRors (rdn : LoReg) (rs : LoReg) (s : State) : Result :=
  s.putShift rdn (shiftOrKeep rorC (s.lo rdn) (regShift (s.lo rs)) s.apsr.c)

end Sys2Proof.Machine
end

