-- ==== Sys2Proof/Machine/Store.lean ====
section
/-! DEFINITION. Single stores (40_memory_access.md R234 to R236, R238, R244 to R246). -/

namespace Sys2Proof.Machine

/-- STR Rt, [Rn, Rm] (40_memory_access.md R244). -/
def execStrReg (rt : LoReg) (rn : LoReg) (rm : LoReg) (s : State) : Result := s.store rt .word (s.regAddr rn rm)

/-- STRH Rt, [Rn, Rm] (40_memory_access.md R246). -/
def execStrhReg (rt : LoReg) (rn : LoReg) (rm : LoReg) (s : State) : Result := s.store rt .half (s.regAddr rn rm)

/-- STRB Rt, [Rn, Rm] (40_memory_access.md R245). -/
def execStrbReg (rt : LoReg) (rn : LoReg) (rm : LoReg) (s : State) : Result := s.store rt .byte (s.regAddr rn rm)

/-- STR Rt, [Rn, #imm] (40_memory_access.md R234). -/
def execStrImm (rt : LoReg) (rn : LoReg) (imm5 : BitVec 5) (s : State) : Result := s.store rt .word (s.immAddr rn imm5 .word)

/-- STRB Rt, [Rn, #imm] (40_memory_access.md R235). -/
def execStrbImm (rt : LoReg) (rn : LoReg) (imm5 : BitVec 5) (s : State) : Result := s.store rt .byte (s.immAddr rn imm5 .byte)

/-- STRH Rt, [Rn, #imm] (40_memory_access.md R236). -/
def execStrhImm (rt : LoReg) (rn : LoReg) (imm5 : BitVec 5) (s : State) : Result := s.store rt .half (s.immAddr rn imm5 .half)

/-- STR Rt, [SP, #imm] (40_memory_access.md R238). -/
def execStrSp (rt : LoReg) (imm8 : BitVec 8) (s : State) : Result := s.store rt .word (s.spAddr imm8)

end Sys2Proof.Machine
end

