-- ==== Sys2Proof/Machine/System.lean ====
section
/-! DEFINITION. Hints, barriers, system calls, breakpoints, the mask and the special registers (43_misc.md R330 to R346). -/

namespace Sys2Proof.Machine

/-- The value that MRS reads (43_misc.md R336): IPSR bits and the special registers only for privileged software, EPSR bits
as zero, the flags always. -/
def State.mrsValue (s : State) : SpecReg → Word
  | .apsr => s.apsr.toWord
  | .iapsr => s.apsr.toWord ||| (if s.privileged then s.ipsrWord else 0)
  | .eapsr => s.apsr.toWord
  | .psr => s.apsr.toWord ||| (if s.privileged then s.ipsrWord else 0)
  | .ipsr => if s.privileged then s.ipsrWord else 0
  | .epsr => 0
  | .iepsr => if s.privileged then s.ipsrWord else 0
  | .msp => if s.privileged then s.msp else 0
  | .psp => if s.privileged then s.psp else 0
  | .primask => if s.privileged then s.primaskWord else 0
  | .control => if s.privileged then s.controlWord else 0

/-- The state after MSR writes a special register (43_misc.md R337): the flags at any privilege, IPSR and EPSR never, the others
only for privileged software, SPSEL only in Thread mode. -/
def State.msrWrite (s : State) (spec : SpecReg) (x : Word) : State :=
  match spec with
  | .apsr => s.setFlags (Apsr.ofWord x)
  | .iapsr => s.setFlags (Apsr.ofWord x)
  | .eapsr => s.setFlags (Apsr.ofWord x)
  | .psr => s.setFlags (Apsr.ofWord x)
  | .ipsr => s
  | .epsr => s
  | .iepsr => s
  | .msp => if s.privileged then s.setMsp x else s
  | .psp => if s.privileged then s.setPsp x else s
  | .primask => if s.privileged then { s with primask := x.getLsbD 0 } else s
  | .control =>
    if s.privileged then
      { s with nPriv := x.getLsbD 0, spsel := if s.threadMode then x.getLsbD 1 else s.spsel }
    else s

/-- MRS Rd, spec_reg (43_misc.md R336). -/
def execMrs (rd : Reg) (spec : SpecReg) (s : State) : Result :=
  if specMoveRegOk rd then .next ((s.setReg rd (s.mrsValue spec)).advance 4)
  else .refused (.unpredictable .specMoveReg)

/-- MSR spec_reg, Rn (43_misc.md R337). -/
def execMsr (spec : SpecReg) (rn : Reg) (s : State) : Result :=
  if specMoveRegOk rn then .next ((s.msrWrite spec (s.reg rn)).advance 4)
  else .refused (.unpredictable .specMoveReg)

/-- CPSIE i: privileged software clears PRIMASK, else a NOP (43_misc.md R332). -/
def execCpsie (s : State) : Result :=
  .next ((if s.privileged then { s with primask := false } else s).advance 2)

/-- CPSID i: privileged software sets PRIMASK, else a NOP (43_misc.md R331). -/
def execCpsid (s : State) : Result :=
  .next ((if s.privileged then { s with primask := true } else s).advance 2)

/-- BKPT #imm8: Debug state with a debugger attached, else HardFault (43_misc.md R330; D7). The immediate is ignored. -/
def execBkpt (_imm8 : BitVec 8) (s : State) : Result :=
  if s.cfg.debuggerAttached then .fault .debugState else s.raiseHardFault s.pc

/-- SVC #imm8: HardFault where the execution priority is SVCall's or higher, else SVCall becomes pending and is taken at once
with the next instruction's address (43_misc.md R341). The immediate is ignored. -/
def execSvc (_imm8 : BitVec 8) (s : State) : Result :=
  if s.executionPriority ≤ s.prio .svCall then s.raiseHardFault s.pc
  else (s.setPending .svCall).takeBest (s.pc + 2)

/-- UDF #imm8: HardFault as an undefined instruction (43_misc.md R346). -/
def execUdf (_imm8 : BitVec 8) (s : State) : Result := s.raiseHardFault s.pc

/-- UDF.W #imm16: HardFault as an undefined instruction (43_misc.md R346). -/
def execUdfW (_imm16 : BitVec 16) (s : State) : Result := s.raiseHardFault s.pc

/-- NOP (43_misc.md R338). -/
def execNop (s : State) : Result := .next (s.advance 2)

/-- YIELD executes as NOP (43_misc.md R345). -/
def execYield (s : State) : Result := .next (s.advance 2)

/-- WFE: with the event register set it clears it and goes on, else the processor sleeps with the PC past the instruction
(43_misc.md R342; 60_exceptions.md R412). -/
def execWfe (s : State) : Result :=
  if s.eventReg then .next ({ s with eventReg := false }.advance 2)
  else .next ({ s with sleep := .wfe }.advance 2)

/-- WFI: the processor sleeps with the PC past the instruction (43_misc.md R343; 60_exceptions.md R411). -/
def execWfi (s : State) : Result := .next ({ s with sleep := .wfi }.advance 2)

/-- SEV sets the event register (43_misc.md R340); the event output is the platform's (assumption log 27). -/
def execSev (s : State) : Result := .next ({ s with eventReg := true }.advance 2)

/-- DSB: no effect in a model without a write buffer (43_misc.md R334; 20_memory.md R157 case 1, R161). -/
def execDsb (_option : BitVec 4) (s : State) : Result := .next (s.advance 4)

/-- DMB: no effect in a model without reordering (43_misc.md R333; 20_memory.md R157 case 1, R160). -/
def execDmb (_option : BitVec 4) (s : State) : Result := .next (s.advance 4)

/-- ISB: the next instruction is fetched again, from memory as it is now (43_misc.md R335; 20_memory.md R162, R165). -/
def execIsb (_option : BitVec 4) (s : State) : Result := .next ({ s with prefetched := none }.advance 4)

end Sys2Proof.Machine
end

