-- ==== Sys2Proof/Machine/Fetch.lean ====
section
/-! DEFINITION. The parts of one step of the whole machine (60_exceptions.md R425): reset, sampling the inputs, lockup, sleep,
taking an exception, fetching and executing. -/

namespace Sys2Proof.Machine

/-- What the environment does once its list is used up: nothing but the reset that AIRCR.SYSRESETREQ asked for, and spurious
wake-ups (assumption logs 9, 10, 23). -/
def State.quietInput (s : State) : StepInput :=
  { reset := s.scb.resetRequest, irq := 0, nmi := false, event := false, ticks := 0, wake := true, halt := false, dma := []
    midway := none, device := 0, prefetch := false }

/-- The input of this step. -/
def State.currentInput (s : State) : StepInput := s.inputs.headD s.quietInput

/-- A debugger that is attached holds the processor halted at this step (60_exceptions.md R396, R411, R412, R421; assumption log
29). -/
def State.debuggerHalts (s : State) : Bool := s.currentInput.halt && s.cfg.debuggerAttached

/-- The state with the input of this step taken off the list: what concerns the devices and an instruction in progress is kept for the
accesses of this step. -/
def State.takeInput (s : State) : State :=
  { s with inputs := s.inputs.tail, deviceInput := s.currentInput.device, midway := s.currentInput.midway }

/-- Reset (70_reset_and_hazards.md R430): memory stays (assumption log 30), and so does what the devices saw (log 39); a bus error on
one of the two reads is refused (U11). -/
def State.doReset (s : State) : Result :=
  match s.vectorRead 0 with
  | .fault _ => .refused .resetReadBusError
  | .refused r => .refused r
  | .ok (sp, s1) =>
    match s1.vectorRead 4 with
    | .fault _ => .refused .resetReadBusError
    | .refused r => .refused r
    | .ok (v, s2) => .next (State.resetFrom sp v s2.mem s2.devices s2.deviceInput s2.inputs s2.freeCount s2.cfg)

/-- Sampling the external event input (60_exceptions.md R417). -/
def State.sampleEvent (s : State) (level : Bool) : State := if level then s.signalEvent else s

/-- What other bus masters write (60_exceptions.md R420). -/
def State.applyDma (s : State) (cells : List Host.Cell) : State := { s with mem := s.mem.setBytes cells }

/-- Sampling the inputs of a step one after the other, and the ticks of the system timer (60_exceptions.md R425 item 2; assumption log
34). -/
def State.sampleAll (s : State) (i : StepInput) : State :=
  ((((s.applyDma i.dma).sampleIrq i.irq).sampleNmi i.nmi).sampleEvent i.event).sysTickTicks i.ticks

/-- Sampling every input of a step. A processor asleep in WFE is woken by the events among them, however many arrive, and the event
register stays as it was (60_exceptions.md R412, R415). -/
def State.sample (s : State) (i : StepInput) : State :=
  if s.sleep = .wfe then { s.sampleAll i with eventReg := s.eventReg } else s.sampleAll i

/-- A step that the processor spends halted by a debugger: it leaves lockup and sleep, executes nothing, SysTick does not count, and
what was fetched ahead is fetched again (60_exceptions.md R396, R407, R411, R412, R421; assumption log 29). -/
def State.haltedStep (s : State) (i : StepInput) : State :=
  { s.sample { i with ticks := 0 } with lockup := none, sleep := .running, prefetched := none }

/-- A step in lockup: only NMI leaves it, where it was entered at priority -1 (60_exceptions.md R396). -/
def State.lockupStep (s : State) (level : LockupLevel) : Result :=
  if s.isPending .nmi && decide (level = .hardFault) then
    { s with lockup := none }.takeException .nmi 0xFFFFFFFE
  else .next s

/-- The wake condition of a sleeping processor (60_exceptions.md R411 to R413; D17). -/
def State.wakes (s : State) (spurious : Bool) : Bool :=
  match s.sleep with
  | .running => true
  | .wfe => spurious || s.bestCandidate.isSome
  | .wfi => spurious || (s.bestOf s.priorityIgnoringPrimask Exc.all).isSome
  | .onExit => spurious || (s.bestOf s.priorityIgnoringPrimask Exc.all).isSome

/-- The fetch of the instruction at the PC, with its length in bytes: the second halfword only of a 32-bit instruction, both before it is
decoded (20_memory.md R133, R145; 30_encoding.md R191; D15). -/
def State.fetch (s : State) : Acc ((Decoded × Word) × State) :=
  (s.fetchHalf s.pc).bind fun r1 =>
    if isWide r1.1 then (r1.2.fetchHalf (s.pc + 2)).bind fun r2 => .ok ((decodeHalves r1.1 r2.1, 4), r2.2)
    else .ok ((decodeHalves r1.1 0, 2), r1.2)

/-- What the pipeline holds of the instruction after the one at the PC, `len` bytes on: nothing, or its halfwords as memory has them
before the one at the PC executes (20_memory.md R165; assumption log 41). -/
def State.fetchAhead (s : State) (ahead : Bool) (len : Word) : State :=
  { s with
    prefetched :=
      if ahead then some { addr := s.pc + len, hw1 := s.mem.halfAt (s.pc + len), hw2 := s.mem.halfAt (s.pc + len + 2) } else none }

/-- Executing what was decoded: an undefined pattern is HardFault at its own address (30_encoding.md R201, R204), an unpredictable
one is refused (R203). -/
def State.execDecoded (s : State) (d : Decoded) : Result :=
  match d with
  | .instr i => exec i s
  | .undefined => s.raiseHardFault s.pc
  | .unpredictable u => .refused (.unpredictable u)

/-- Fetching and executing one instruction; a fault of the fetch is HardFault at the PC (60_exceptions.md R374, R425 item 6). -/
def State.fetchAndExecute (s : State) (ahead : Bool) : Result :=
  s.afterAccess s.fetch fun r => (r.2.fetchAhead ahead r.1.2).execDecoded r.1.1

/-- A step of a processor that is awake: the best candidate is taken, else one instruction is executed (60_exceptions.md R425 items
5 and 6). -/
def State.runStep (s : State) (ahead : Bool) : Result :=
  match s.bestCandidate with
  | some e => s.takeException e s.pc
  | none => s.fetchAndExecute ahead

/-- A step after its inputs were sampled (60_exceptions.md R425 items 3 to 6). -/
def State.sampledStep (s : State) (i : StepInput) : Result :=
  match s.lockup with
  | some level => s.lockupStep level
  | none => if s.wakes i.wake then State.runStep { s with sleep := .running } i.prefetch else .next s

/-- One step of the whole machine (60_exceptions.md R425). Reset comes between two steps, so an instruction in progress at reset has made
all or none of its accesses, one of the subsets that 70_reset_and_hazards.md R432 leaves open (DESIGN CHOICE, assumption log 38). -/
def State.machineStep (s : State) : Result :=
  if s.currentInput.reset then s.takeInput.doReset
  else if s.debuggerHalts then .next (s.takeInput.haltedStep s.currentInput)
  else (s.takeInput.sample s.currentInput).sampledStep s.currentInput

/-- The halfwords of a table word stored at the PC, with the Thumb bit set and nothing that keeps the next step from fetching
there: no input left, no reset request, nothing pending, nothing fetched ahead, awake and not locked up (assumption log 14). -/
def State.placeInstruction (s : State) (hw1 hw2 : Half) : State :=
  let m0 := s.mem.setByte s.pc.toNat (hw1.extractLsb' 0 8)
  let m1 := m0.setByte (s.pc + 1).toNat (hw1.extractLsb' 8 8)
  let m2 := m1.setByte (s.pc + 2).toNat (hw2.extractLsb' 0 8)
  let m3 := m2.setByte (s.pc + 3).toNat (hw2.extractLsb' 8 8)
  { s with
    mem := m3
    epsrT := true
    lockup := none
    sleep := .running
    prefetched := none
    inputs := []
    scb := { s.scb with resetRequest := false }
    nvic := { s.nvic with pending := 0 } }

end Sys2Proof.Machine
end

