-- ==== Sys2Proof/Machine/Step.lean ====
section
/-! DEFINITION. One step of the machine (60_exceptions.md R425), and the state whose next step runs a given instruction. -/

namespace Sys2Proof.Machine

/-- One step: Step(inputs), the inputs taken from the state's own list (60_exceptions.md R425; assumption log 9). -/
def step (s : State) : Host.Outcome State Fault Refusal := s.machineStep

/-- The state with the instruction whose bits are w, numbered as spec/opcode_table.json numbers them, stored where `step` fetches
next (assumption logs 13 and 14). -/
def State.withFetchWord (s : State) (nbits w : Nat) : State :=
  s.placeInstruction (tableHalf1 nbits w) (tableHalf2 nbits w)

end Sys2Proof.Machine
end

