-- ==== Sys2Proof/Safety.lean ====
section
/-! DEFINITION. The terms in which the statements speak: what an instruction changed and left as it was, when memory can be read
and written, what exception entry did, and the invariant of the states. They are written from the spec's text with natural
numbers and bits, not from the operations of the machine. -/

namespace Sys2Proof.Safety

open Sys2Proof.Machine

/-- A low-register instruction of two bytes completed: one register and the flags hold the given values, every other register,
every byte of memory and every other piece of state is as before, and the PC is past the instruction. -/
def WroteLow (s t : State) (rd : LoReg) (v : Word) (f : Apsr) : Prop :=
  t.lo rd = v ∧ (∀ k : Fin 13, k ≠ LoReg.gpr rd → t.gpr k = s.gpr k) ∧ t.apsr = f ∧ t.pc = s.pc + 2 ∧
    (∀ a, t.mem.byteAt a = s.mem.byteAt a) ∧ t = { s with regs := t.regs, apsr := t.apsr, pc := t.pc }

/-- Any register was written by an instruction of `len` bytes: R0 to R12 hold the value, SP its multiple of 4 below, LR the value;
a write of the PC is a branch that drops bit [0]; everything else is as before (10_state.md R20 to R26). -/
def WroteAny (s t : State) (rd : Reg) (v : Word) (len : Word) : Prop :=
  if h : rd.val < 13 then
    t.gpr ⟨rd.val, h⟩ = v ∧ (∀ k : Fin 13, k.val ≠ rd.val → t.gpr k = s.gpr k) ∧
      t = { s with regs := t.regs, pc := s.pc + len }
  else if rd.val = 13 then
    t = { s with
      msp := if s.ipsr = 0 ∧ s.spsel = true then s.msp else BitVec.ofNat 32 (v.toNat / 4 * 4)
      psp := if s.ipsr = 0 ∧ s.spsel = true then BitVec.ofNat 32 (v.toNat / 4 * 4) else s.psp
      pc := s.pc + len }
  else if rd.val = 14 then t = { s with lr := v, pc := s.pc + len }
  else t = { s with pc := BitVec.ofNat 32 (v.toNat / 2 * 2) }

/-- The flag tests of the conditions (30_encoding.md R206). -/
def CondHolds (f : Apsr) : Cond → Prop
  | .eq => f.z = true
  | .ne => f.z = false
  | .cs => f.c = true
  | .cc => f.c = false
  | .mi => f.n = true
  | .pl => f.n = false
  | .vs => f.v = true
  | .vc => f.v = false
  | .hi => f.c = true ∧ f.z = false
  | .ls => f.c = false ∨ f.z = true
  | .ge => f.n = f.v
  | .lt => f.n ≠ f.v
  | .gt => f.z = false ∧ f.n = f.v
  | .le => f.z = true ∨ f.n ≠ f.v

/-- The N, Z, C and V of the sum x + y + c (30_encoding.md R208): a carry when the sum reaches 2^32, an overflow when both
operands have one sign and the result the other. -/
def sumFlags (x y : Word) (c : Nat) : Apsr :=
  { n := decide (2147483648 ≤ (x.toNat + y.toNat + c) % 4294967296)
    z := decide ((x.toNat + y.toNat + c) % 4294967296 = 0)
    c := decide (4294967296 ≤ x.toNat + y.toNat + c)
    v := (x.getLsbD 31 == y.getLsbD 31) &&
      (x.getLsbD 31 != decide (2147483648 ≤ (x.toNat + y.toNat + c) % 4294967296)) }

/-- The N, Z, C and V of the difference x - y - b (30_encoding.md R208): C is set when the difference is not negative, an overflow
when the operands have different signs and the result has the sign of y. -/
def differenceFlags (x y : Word) (b : Nat) : Apsr :=
  let r := x - y - BitVec.ofNat 32 b
  { n := r.getLsbD 31
    z := decide (x.toNat = (y.toNat + b) % 4294967296)
    c := decide (y.toNat + b ≤ x.toNat)
    v := (x.getLsbD 31 != y.getLsbD 31) && (r.getLsbD 31 == y.getLsbD 31) }

/-- N and Z of a result, C and V as they were (41_data_processing.md R308, R311). -/
def resultFlags (f : Apsr) (v : Word) : Apsr :=
  { n := decide (2147483648 ≤ v.toNat), z := decide (v.toNat = 0), c := f.c, v := f.v }

/-- N and Z of a result, C from a shifter, V as it was (41_data_processing.md R309). -/
def shiftFlags (f : Apsr) (v : Word) (c : Bool) : Apsr :=
  { n := decide (2147483648 ≤ v.toNat), z := decide (v.toNat = 0), c := c, v := f.v }

/-- Bit k of a word, as a number's bit. -/
def bitAt (x : Word) (k : Nat) : Bool := decide (x.toNat / 2 ^ k % 2 = 1)

/-- An address outside the private peripheral bus (20_memory.md R125). -/
abbrev OutsidePpb (a : Word) : Prop := a.toNat < 0xE0000000 ∨ 0xE00FFFFF < a.toNat

/-- An address inside the address blocks of the system registers, the source's Table 24 (10_state.md R50, R52). -/
abbrev InRegisterBlock (a : Word) : Prop :=
  (0xE000E008 ≤ a.toNat ∧ a.toNat ≤ 0xE000E01F) ∨ (0xE000E100 ≤ a.toNat ∧ a.toNat ≤ 0xE000E4EF) ∨
    (0xE000ED00 ≤ a.toNat ∧ a.toNat ≤ 0xE000ED3F) ∨ (0xE000ED90 ≤ a.toNat ∧ a.toNat ≤ 0xE000EDB8) ∨
    (0xE000EF00 ≤ a.toNat ∧ a.toNat ≤ 0xE000EF03)

/-- An access of the running program that reaches storage: aligned, outside the PPB, allowed by the MPU, and answered by RAM or
read-only storage (20_memory.md R140). -/
abbrev ReachesStorage (s : State) (kind : AccessKind) (size : Size) (a : Word) : Prop :=
  a.toNat % size.bytes = 0 ∧ OutsidePpb a ∧ s.mpuCheck a kind s.privileged = .ok () ∧
    (s.kindAt s.privileged kind size a = .ram ∨ s.kindAt s.privileged kind size a = .rom)

/-- An access of the running program that a device answers (20_memory.md R140; 93_implementation_defined.md U26). -/
abbrev ReachesDevice (s : State) (kind : AccessKind) (size : Size) (a : Word) : Prop :=
  a.toNat % size.bytes = 0 ∧ OutsidePpb a ∧ s.mpuCheck a kind s.privileged = .ok () ∧
    s.kindAt s.privileged kind size a = .device

/-- An access that raises HardFault, the first check that fails being a fault: unaligned, unprivileged in the PPB, a bus error of the
PPB outside the register blocks, denied by the MPU, a bus error (20_memory.md R140 to R144, R175). -/
abbrev DeniedAs (s : State) (priv : Bool) (kind : AccessKind) (size : Size) (a : Word) : Prop :=
  a.toNat % size.bytes ≠ 0 ∨ (¬OutsidePpb a ∧ priv = false) ∨
    (¬OutsidePpb a ∧ priv = true ∧ size = .word ∧ ¬InRegisterBlock a ∧ s.kindAt priv kind size a = .busError) ∨
    (OutsidePpb a ∧ ((∃ c, s.mpuCheck a kind priv = .fault c) ∨
      (s.mpuCheck a kind priv = .ok () ∧ s.kindAt priv kind size a = .busError)))

/-- An access of the running program that raises HardFault. -/
abbrev Denied (s : State) (kind : AccessKind) (size : Size) (a : Word) : Prop := DeniedAs s s.privileged kind size a

/-- A fetch that raises HardFault: T = 0, execute-never or denied by the MPU, a bus error (20_memory.md R145). -/
abbrev FetchDenied (s : State) (a : Word) : Prop :=
  s.epsrT = false ∨ (∃ c, s.mpuCheck a .fetch s.privileged = .fault c) ∨
    (s.mpuCheck a .fetch s.privileged = .ok () ∧ s.kindAt s.privileged .fetch .half a = .busError)

/-- The number of the low bytes of a word that an access of a size carries. -/
def carried (size : Size) (v : Word) : Nat := v.toNat % 256 ^ size.bytes

/-- What the platform's device answers to an access of this step, and the list of what it saw with it (93_implementation_defined.md
U26). -/
def deviceAnswer (s : State) (d : DeviceAccess) : Word := BitVec.ofNat 32 (carried d.size (Config.deviceRead s.cfg.deviceModel (d :: s.devices)))

/-- The record that a device keeps of an access of the running program in this step. -/
def accessRecord (s : State) (kind : AccessKind) (size : Size) (a : Word) (v : Nat) : DeviceAccess :=
  { address := a, size := size, access := kind, privileged := s.privileged, value := BitVec.ofNat 32 v, input := s.deviceInput }

/-- The two halfwords of code at the PC: those fetched ahead where they are of this address, else memory's (20_memory.md R133,
R165). -/
def codeAt (s : State) : Half × Half :=
  let now := (s.mem.byteAt (s.pc + 1).toNat ++ s.mem.byteAt s.pc.toNat, s.mem.byteAt (s.pc + 3).toNat ++ s.mem.byteAt (s.pc + 2).toNat)
  match s.prefetched with
  | some p => if p.addr = s.pc then (p.hw1, p.hw2) else now
  | none => now

/-- The fetch of one halfword is done: with T set and allowed, memory or what was fetched ahead gives `code` and nothing changes, or a
device answers and sees it (20_memory.md R145). -/
abbrev FetchedHalf (s : State) (a : Word) (code h : Half) (u : State) : Prop :=
  s.epsrT = true ∧ s.mpuCheck a .fetch s.privileged = .ok () ∧
    (((s.kindAt s.privileged .fetch .half a = .ram ∨ s.kindAt s.privileged .fetch .half a = .rom) ∧ h = code ∧ u = s) ∨
      (s.kindAt s.privileged .fetch .half a = .device ∧ h = (deviceAnswer s (accessRecord s .fetch .half a 0)).setWidth 16 ∧
        u = { s with devices := accessRecord s .fetch .half a 0 :: s.devices }))

/-- The state in which the instruction at the PC, `len` bytes long, is executed: what the pipeline holds of the next one is memory's
halfwords from before, or nothing (20_memory.md R165). -/
def fetchedAhead (s : State) (ahead : Bool) (len : Word) : State :=
  { s with
    prefetched :=
      if ahead then
        some {
          addr := s.pc + len
          hw1 := s.mem.byteAt (s.pc + len + 1).toNat ++ s.mem.byteAt (s.pc + len).toNat
          hw2 := s.mem.byteAt (s.pc + len + 3).toNat ++ s.mem.byteAt (s.pc + len + 2).toNat }
      else none }

/-- The little-endian number in `n` bytes of memory from an address on (20_memory.md R132). -/
def bytesValue (s : State) (a : Word) : Nat → Nat
  | 0 => 0
  | n + 1 => (s.mem.byteAt a.toNat).toNat + 256 * bytesValue s (a + 1) n

/-- A store of two bytes of code completed: the stored bytes hold the value's bytes, the least significant first, every other byte of
memory and every other piece of state is as before. Read-only storage keeps its bytes without a fault, which is the model's choice
(assumption log 3). -/
def Stored (s t : State) (size : Size) (a v : Word) : Prop :=
  (∀ i < size.bytes, t.mem.byteAt (a + BitVec.ofNat 32 i).toNat =
      if s.kindAt s.privileged .write size a = .rom then s.mem.byteAt (a + BitVec.ofNat 32 i).toNat
      else BitVec.ofNat 8 (v.toNat / 256 ^ i)) ∧
    (∀ b, (∀ i < size.bytes, b ≠ (a + BitVec.ofNat 32 i).toNat) → t.mem.byteAt b = s.mem.byteAt b) ∧
    t = { s with mem := t.mem, pc := s.pc + 2 }

/-- The place of a register in a list: the number of lower registers in it (40_memory_access.md R254). -/
def rank (list8 : BitVec 8) (r : LoReg) : Nat := ((List.range r.val).filter (fun k => list8.getLsbD k)).length

/-- BitCount(list) (40_memory_access.md R255). -/
def bitCount (list8 : BitVec 8) : Nat := ((List.range 8).filter (fun k => list8.getLsbD k)).length

/-- Word k of a block of words. -/
abbrev wordAt (a : Word) (k : Nat) : Word := a + BitVec.ofNat 32 (4 * k)

/-- `n` consecutive words that all reach storage. -/
abbrev BlockReachesStorage (s : State) (kind : AccessKind) (a : Word) (n : Nat) : Prop :=
  ∀ k < n, ReachesStorage s kind .word (wordAt a k)

/-- A word stored by the program of the state `s` is in memory where RAM answers. -/
def HoldsWord (s t : State) (a v : Word) : Prop :=
  s.kindAt s.privileged .write .word a = .ram →
    ∀ i < 4, t.mem.byteAt (a + BitVec.ofNat 32 i).toNat = BitVec.ofNat 8 (v.toNat / 256 ^ i)

/-- Every byte outside `n` words from an address on is as before. -/
def SameOutside (s t : State) (a : Word) (n : Nat) : Prop :=
  ∀ b, (∀ k < 4 * n, b ≠ (a + BitVec.ofNat 32 k).toNat) → t.mem.byteAt b = s.mem.byteAt b

/-- A midway arrival makes the exception `e` the one to take, on a platform where an instruction can be abandoned (60_exceptions.md
R384; 92_eei_decisions.md D16). -/
abbrev Interrupted (s : State) (m : Midway) (e : Exc) : Prop :=
  s.cfg.multiAccessAtomic = false ∧ s.midway = some m ∧ (s.sampleMidway m).bestCandidate = some e

/-- Nothing abandons the instruction: MULTI_ACCESS_ATOMIC, or nothing arrives midway that makes an exception a candidate. -/
abbrev Uninterrupted (s : State) : Prop :=
  s.cfg.multiAccessAtomic = true ∨ ∀ m, s.midway = some m → (s.sampleMidway m).bestCandidate = none

/-- One access of one of the load and store instructions. -/
structure Single where
  /-- read or write -/
  kind : AccessKind
  /-- its size -/
  size : Size
  /-- its address -/
  addr : Word
  /-- the register loaded or stored -/
  rt : LoReg
  /-- sign-extended, for a load -/
  signed : Bool

/-- The access of each single load and store (40_memory_access.md R231 to R247). -/
def singleAccess (s : State) : Instr → Option Single
  | .ldrLit rt imm8 => some { kind := .read, size := .word, addr := s.literalAddr imm8, rt := rt, signed := false }
  | .ldrReg rt rn rm => some { kind := .read, size := .word, addr := s.regAddr rn rm, rt := rt, signed := false }
  | .ldrhReg rt rn rm => some { kind := .read, size := .half, addr := s.regAddr rn rm, rt := rt, signed := false }
  | .ldrbReg rt rn rm => some { kind := .read, size := .byte, addr := s.regAddr rn rm, rt := rt, signed := false }
  | .ldrsh rt rn rm => some { kind := .read, size := .half, addr := s.regAddr rn rm, rt := rt, signed := true }
  | .ldrsb rt rn rm => some { kind := .read, size := .byte, addr := s.regAddr rn rm, rt := rt, signed := true }
  | .ldrImm rt rn imm5 => some { kind := .read, size := .word, addr := s.immAddr rn imm5 .word, rt := rt, signed := false }
  | .ldrhImm rt rn imm5 => some { kind := .read, size := .half, addr := s.immAddr rn imm5 .half, rt := rt, signed := false }
  | .ldrbImm rt rn imm5 => some { kind := .read, size := .byte, addr := s.immAddr rn imm5 .byte, rt := rt, signed := false }
  | .ldrSp rt imm8 => some { kind := .read, size := .word, addr := s.spAddr imm8, rt := rt, signed := false }
  | .strReg rt rn rm => some { kind := .write, size := .word, addr := s.regAddr rn rm, rt := rt, signed := false }
  | .strhReg rt rn rm => some { kind := .write, size := .half, addr := s.regAddr rn rm, rt := rt, signed := false }
  | .strbReg rt rn rm => some { kind := .write, size := .byte, addr := s.regAddr rn rm, rt := rt, signed := false }
  | .strImm rt rn imm5 => some { kind := .write, size := .word, addr := s.immAddr rn imm5 .word, rt := rt, signed := false }
  | .strhImm rt rn imm5 => some { kind := .write, size := .half, addr := s.immAddr rn imm5 .half, rt := rt, signed := false }
  | .strbImm rt rn imm5 => some { kind := .write, size := .byte, addr := s.immAddr rn imm5 .byte, rt := rt, signed := false }
  | .strSp rt imm8 => some { kind := .write, size := .word, addr := s.spAddr imm8, rt := rt, signed := false }
  | _ => none

/-- What a load puts in its register: the carried bytes, zero-extended or sign-extended (40_memory_access.md R253). -/
def loaded (size : Size) (signed : Bool) (v : Word) : Word :=
  if signed = true ∧ 256 ^ size.bytes ≤ 2 * carried size v then BitVec.ofNat 32 (carried size v + 4294967296 - 256 ^ size.bytes)
  else BitVec.ofNat 32 (carried size v)

/-- The consecutive words of LDM, STM, PUSH and POP with a list that is not empty: read or write, the first address, how many
(40_memory_access.md R248 to R251, R255). -/
def blockAccess (s : State) : Instr → Option (AccessKind × Word × Nat)
  | .ldm rn list8 => if list8 = 0 then none else some (.read, s.lo rn, bitCount list8)
  | .stm rn list8 => if list8 = 0 then none else some (.write, s.lo rn, bitCount list8)
  | .push m list8 =>
    if m = false ∧ list8 = 0 then none
    else some (.write, s.reg 13 - BitVec.ofNat 32 (4 * (bitCount list8 + m.toNat)), bitCount list8 + m.toNat)
  | .pop p list8 => if p = false ∧ list8 = 0 then none else some (.read, s.reg 13, bitCount list8 + p.toNat)
  | _ => none

/-- Consecutive words read by accesses of their own, in rising order: the words and the state after them, none if one is not done
(40_memory_access.md R254). -/
def readBlock (s : State) (a : Word) : Nat → Option (List Word × State)
  | 0 => some ([], s)
  | n + 1 =>
    match s.memRead .word a with
    | .ok (v, s') => (readBlock s' (a + 4) n).map fun r => (v :: r.1, r.2)
    | _ => none

/-- Consecutive words written by accesses of their own, in rising order (40_memory_access.md R254). -/
def writeBlock (s : State) (a : Word) : List Word → Option State
  | [] => some s
  | v :: rest =>
    match s.memWrite .word a v with
    | .ok s' => writeBlock s' (a + 4) rest
    | _ => none

/-- The words that STM stores, but for the open one: the registers of the list in rising order (40_memory_access.md R249; U1). -/
def StmWords (s : State) (rn : LoReg) (list8 : BitVec 8) (ws : List Word) : Prop :=
  ws.length = bitCount list8 ∧
    ∀ r : LoReg, list8.getLsbD r.val = true → (r = rn → rank list8 rn = 0) → ws[rank list8 r]? = some (s.lo r)

/-- The words that PUSH stores: the registers of the list in rising order, then LR (40_memory_access.md R250). -/
def PushWords (s : State) (m : Bool) (list8 : BitVec 8) (ws : List Word) : Prop :=
  ws.length = bitCount list8 + m.toNat ∧ (∀ r : LoReg, list8.getLsbD r.val = true → ws[rank list8 r]? = some (s.lo r)) ∧
    (m = true → ws[bitCount list8]? = some s.lr)

/-- What loads that were abandoned or stopped after `k` words leave in the registers: those of the list whose word was among them hold
the word loaded or what they held, all others what they held (60_exceptions.md R384). -/
def PartlyLoaded (s u : State) (a : Word) (list8 : BitVec 8) (k : Nat) (base : Option LoReg) : Prop :=
  (∀ r : LoReg, list8.getLsbD r.val = true → rank list8 r < k → base ≠ some r →
      u.lo r = s.lo r ∨ u.lo r = BitVec.ofNat 32 (bytesValue s (wordAt a (rank list8 r)) 4)) ∧
    (∀ r : LoReg, (list8.getLsbD r.val = false ∨ k ≤ rank list8 r ∨ base = some r) → u.lo r = s.lo r) ∧
    ∀ g : Fin 13, 8 ≤ g.val → u.gpr g = s.gpr g

/-- The stack frame of an exception can be written: eight words of RAM below the current stack pointer, aligned down to 8
(60_exceptions.md R371, R372). -/
abbrev FrameWritable (s : State) : Prop :=
  ∀ k < 8, ReachesStorage s .write .word (wordAt ((s.sp - 0x20) &&& 0xFFFFFFF8#32) k) ∧
    s.kindAt s.privileged .write .word (wordAt ((s.sp - 0x20) &&& 0xFFFFFFF8#32) k) = .ram

/-- The address of the vector of exception number `n` (60_exceptions.md R357). -/
abbrev vectorAddress (s : State) (n : Nat) : Word := (s.scb.vtor &&& 0xFFFFFF80#32) + BitVec.ofNat 32 (4 * n)

/-- The vector of exception number `n` lies in storage (60_exceptions.md R358). -/
abbrev VectorReadable (s : State) (n : Nat) : Prop :=
  OutsidePpb (vectorAddress s n) ∧
    (s.kindAt true .read .word (vectorAddress s n) = .ram ∨ s.kindAt true .read .word (vectorAddress s n) = .rom)

/-- The fetch of the vector of exception number `n` is a bus error (60_exceptions.md R390 cause 6). -/
abbrev VectorDenied (s : State) (n : Nat) : Prop :=
  OutsidePpb (vectorAddress s n) ∧ s.kindAt true .read .word (vectorAddress s n) = .busError

/-- The number in the stacked PSR: flags in [31:28], T in [24], the alignment bit in [9], IPSR in [5:0] (60_exceptions.md R371). -/
def psrNumber (s : State) : Nat :=
  s.apsr.n.toNat * 2147483648 + s.apsr.z.toNat * 1073741824 + s.apsr.c.toNat * 536870912 + s.apsr.v.toNat * 268435456
    + s.epsrT.toNat * 16777216 + s.sp.toNat / 4 % 2 * 512 + s.ipsr.toNat

/-- What exception entry does (60_exceptions.md R371 to R376): the words `written` of the frame of eight, the stack pointer that was
current, LR with EXC_RETURN, Handler mode on the main stack, the PC and T from the vector, pending cleared and active set, the event
register, nothing fetched ahead; and every other register, byte and piece of state as before. -/
def EnteredWith (written : Nat → Prop) (s t : State) (e : Exc) (ra : Word) : Prop :=
  let fp := (s.sp - 0x20) &&& 0xFFFFFFF8#32
  let frame := [(s.gpr 0).toNat, (s.gpr 1).toNat, (s.gpr 2).toNat, (s.gpr 3).toNat, (s.gpr 12).toNat, s.lr.toNat, ra.toNat, psrNumber s]
  (∀ k < 8, written k → bytesValue t (wordAt fp k) 4 = frame.getD k 0) ∧
    SameOutside s t fp 8 ∧
    t.msp = (if s.ipsr = 0 ∧ s.spsel = true then s.msp else fp) ∧
    t.psp = (if s.ipsr = 0 ∧ s.spsel = true then fp else s.psp) ∧
    t.lr = (if s.ipsr ≠ 0 then 0xFFFFFFF1 else if s.spsel then 0xFFFFFFFD else 0xFFFFFFF9) ∧
    t.ipsr.toNat = e.num ∧ t.spsel = false ∧
    t.pc.toNat = bytesValue t (vectorAddress s e.num) 4 / 2 * 2 ∧
    t.epsrT = decide (bytesValue t (vectorAddress s e.num) 4 % 2 = 1) ∧
    (∀ e' : Exc, t.isPending e' = (s.isPending e' && decide (e' ≠ e))) ∧
    (∀ e' : Exc, t.isActive e' = (s.isActive e' || decide (e' = e))) ∧
    t.eventReg = true ∧ t.sleep = .running ∧ t.prefetched = none ∧
    t = { s with
      mem := t.mem, msp := t.msp, psp := t.psp, lr := t.lr, ipsr := t.ipsr, spsel := t.spsel, pc := t.pc
      epsrT := t.epsrT, eventReg := t.eventReg, sleep := t.sleep, prefetched := t.prefetched
      nvic := { s.nvic with pending := t.nvic.pending, active := t.nvic.active } }

/-- Exception entry with the whole frame written. -/
def Entered (s t : State) (e : Exc) (ra : Word) : Prop := EnteredWith (fun _ => True) s t e ra

/-- A frame of which each word is written in RAM or denied, at least one of them denied (60_exceptions.md R393 (a)). -/
abbrev FrameFaults (s : State) : Prop :=
  (∀ k < 8, Denied s .write .word (wordAt ((s.sp - 0x20) &&& 0xFFFFFFF8#32) k) ∨
    (ReachesStorage s .write .word (wordAt ((s.sp - 0x20) &&& 0xFFFFFFF8#32) k) ∧
      s.kindAt s.privileged .write .word (wordAt ((s.sp - 0x20) &&& 0xFFFFFFF8#32) k) = .ram)) ∧
    ∃ k < 8, Denied s .write .word (wordAt ((s.sp - 0x20) &&& 0xFFFFFFF8#32) k)

/-- Lockup, its priority that of the state `s` (60_exceptions.md R396). -/
def lockedUp (s : State) : State :=
  { s with lockup := some (if s.executionPriority = -1 then .hardFault else .nmi), pc := 0xFFFFFFFE, sleep := .running }

/-- HardFault entered by tail-chaining: nothing is stacked, LR holds `x`, the handler is entered (60_exceptions.md R393 (b)). -/
def TailChained (s t : State) (x : Word) : Prop :=
  t.pc.toNat = bytesValue s (vectorAddress s 3) 4 / 2 * 2 ∧ t.epsrT = decide (bytesValue s (vectorAddress s 3) 4 % 2 = 1) ∧
    (∀ e : Exc, t.isPending e = (s.isPending e && decide (e ≠ .hardFault))) ∧
    (∀ e : Exc, t.isActive e = (s.isActive e || decide (e = .hardFault))) ∧
    t = { s with
      lr := x, ipsr := 3, spsel := false, pc := t.pc, epsrT := t.epsrT, eventReg := true, sleep := .running, prefetched := none
      nvic := { s.nvic with pending := t.nvic.pending, active := t.nvic.active } }

/-- Nothing pending has sufficient priority: no exception would be taken at this boundary (60_exceptions.md R362). -/
abbrev NothingToTake (s : State) : Prop := s.bestCandidate = none

/-- The words of exception numbers that exist: 2, 3, 11, 14, 15 and 16 to 47 (60_exceptions.md R350). -/
def exceptionBits : BitVec 48 := 0xFFFFFFFFC80C#48

/-- Memory has its canonical form (the model's own). -/
def MemoryCanonical (s : State) : Prop := s.mem.wf = true

/-- Both stack pointers are word aligned (10_state.md R23). -/
def StacksAligned (s : State) : Prop := s.msp.toNat % 4 = 0 ∧ s.psp.toNat % 4 = 0

/-- Bit [0] of the PC is 0 (10_state.md R26). -/
def PcEven (s : State) : Prop := s.pc.toNat % 2 = 0

/-- IPSR is 0 or the number of an exception, and in Handler mode SPSEL reads as zero (10_state.md R32, R37, R38). -/
def ModeLegal (s : State) : Prop :=
  (s.ipsr = 0 ∨ s.ipsr = 2 ∨ s.ipsr = 3 ∨ s.ipsr = 11 ∨ s.ipsr = 14 ∨ s.ipsr = 15 ∨ (16 ≤ s.ipsr.toNat ∧ s.ipsr.toNat < 48)) ∧
    (s.ipsr ≠ 0 → s.spsel = false)

/-- Every reserved bit of a system register reads as zero (10_state.md R53, R58, R66, R69, R71, R72, R85, R86). -/
def ReservedZero (s : State) : Prop :=
  s.scb.vtor &&& 0x0000007F#32 = 0 ∧ s.scb.scr &&& 0xFFFFFFE9#32 = 0 ∧ s.scb.shpr2 &&& 0x3FFFFFFF#32 = 0 ∧
    s.scb.shpr3 &&& 0x3F3FFFFF#32 = 0 ∧ (∀ n : Fin 8, s.nvic.ipr[n] &&& 0x3F3F3F3F#32 = 0) ∧
    (∀ r : Fin 8, s.mpu.regions[r].base &&& 0x000000FF#32 = 0 ∧ s.mpu.regions[r].attr &&& 0xE8F800C0#32 = 0)

/-- Only exceptions that exist are pending or active (10_state.md R41). -/
def ExceptionsExist (s : State) : Prop :=
  s.nvic.pending &&& ~~~exceptionBits = 0 ∧ s.nvic.active &&& ~~~exceptionBits = 0

/-- In lockup the PC is 0xFFFFFFFE and the processor is not asleep (60_exceptions.md R396). -/
def LockupFixed (s : State) : Prop := s.lockup ≠ none → s.pc = 0xFFFFFFFE ∧ s.sleep = .running

/-- The invariant of the states. -/
def Inv (s : State) : Prop :=
  MemoryCanonical s ∧ StacksAligned s ∧ PcEven s ∧ ModeLegal s ∧ ReservedZero s ∧ ExceptionsExist s ∧ LockupFixed s

/-- Unprivileged Thread mode (10_state.md R39). -/
abbrev Unprivileged (s : State) : Prop := s.ipsr = 0 ∧ s.nPriv = true

/-- What unprivileged software cannot change (60_exceptions.md R404): the privilege level, PRIMASK, the NVIC's enable bits
and priorities, the system control block, the timer's settings and the MPU. -/
def ProtectedSame (s t : State) : Prop :=
  t.nPriv = s.nPriv ∧ t.primask = s.primask ∧ t.nvic.enable = s.nvic.enable ∧ t.nvic.ipr = s.nvic.ipr ∧ t.scb = s.scb ∧
    t.stk.ctrl = s.stk.ctrl ∧ t.stk.reload = s.stk.reload ∧ t.stk.current = s.stk.current ∧ t.mpu = s.mpu

end Sys2Proof.Safety
end

