-- ==== Sys2Proof/Certificates/Slice0/Obligations.lean ====
section
/-! DEFINITION. The statements for the provers. A completion statement has the form: the instruction answers a next state `t`, and
`t` is the starting state with exactly the named pieces changed, so every other register, flag, special register and every byte of
memory is as before. -/

open Sys2Proof Sys2Proof.Machine Sys2Proof.Safety

/-- Decode and encode agree on every well-formed instruction, with every operand at every value (30_encoding.md R193 to R199). -/
def Obligations.DecodeEncode : Prop :=
  ∀ i : Instr, WellFormed i = true → decodeList (encode i) = .instr i

/-- The decoder answers only well-formed instructions, and a word that decodes to an instruction is that instruction's encoding, but for
the unallocated hints, which execute as NOP (30_encoding.md R197 to R199, R202, R203). -/
def Obligations.OneWordPerInstruction : Prop :=
  ∀ (h1 h2 : Half) (i : Instr), decodeHalves h1 h2 = .instr i →
    WellFormed i = true ∧ (isWide h1 = true → encode i = [h1, h2]) ∧
      (isWide h1 = false → encode i = [h1] ∨ (i = .nop ∧ h1.toNat / 256 = 0xBF ∧ h1.toNat % 16 = 0 ∧ 5 ≤ h1.toNat / 16 % 16))

/-- Words written out from the encoding tables decode to what they stand for: eleven instructions, one undefined pattern and one
unpredictable pattern (30_encoding.md R197, R198 for the instructions, which are the spec's worked examples; R201 for 0xBA80, R203 for
0x4778, which is BX PC). -/
def Obligations.DecodeExamples : Prop :=
  ∀ h2 : Half,
    decodeHalves 0x4159 h2 = .instr (.adcs 1 3) ∧ decodeHalves 0x1DD1 h2 = .instr (.addsImm3 1 2 7) ∧
      decodeHalves 0x4488 h2 = .instr (.addHigh 8 1) ∧ decodeHalves 0x7FD1 h2 = .instr (.ldrbImm 1 2 31) ∧
      decodeHalves 0x5068 h2 = .instr (.strReg 0 5 1) ∧ decodeHalves 0xC90C h2 = .instr (.ldm 1 0x0C) ∧
      decodeHalves 0xB504 h2 = .instr (.push true 0x04) ∧ decodeHalves 0xD1FC h2 = .instr (.bcond .ne 0xFC) ∧
      decodeHalves 0x4770 h2 = .instr (.bx 14) ∧ decodeHalves 0xF7FF 0xFBFE = .instr (.bl 0xFFFBFE) ∧
      decodeHalves 0xF381 0x8814 = .instr (.msr .control 1) ∧ decodeHalves 0xBA80 h2 = .undefined ∧
      decodeHalves 0x4778 h2 = .unpredictable .branchReg

/-- A step runs the instruction it fetches: after the inputs of the step are sampled, with no reset and no halt by a debugger, a processor
that is not locked up and is awake or woken, and nothing to take, the step is exec of the instruction that the halfwords at the PC decode
to, the second fetched only for a 32-bit instruction; an undefined pattern and a fetch that faults raise HardFault with the PC as the
return address, and an unpredictable pattern is refused by name; the form of what was fetched ahead is the model's choice (assumption log 41),
as are the record that a device keeps of a fetch, its answer, and that a fetch whose second halfword faults leaves no record of the first
(assumption log 39) (60_exceptions.md R390, R425; 20_memory.md R133, R145, R165;
30_encoding.md R201, R203, R204). -/
def Obligations.StepRunsDecoded : Prop :=
  ∀ s s0 s' : State,
    s.currentInput.reset = false → (s.currentInput.halt && s.cfg.debuggerAttached) = false →
    s0 = s.takeInput.sample s.currentInput → s0.lockup = none → s0.wakes s.currentInput.wake = true → NothingToTake s0 →
    s' = { s0 with sleep := .running } →
    let runs := fun (u : State) (len : Word) (d : Decoded) =>
      (∀ i, d = .instr i → step s = exec i (fetchedAhead u s.currentInput.prefetch len)) ∧
        (d = .undefined → step s = (fetchedAhead u s.currentInput.prefetch len).raiseHardFault s'.pc) ∧
        (∀ r, d = .unpredictable r → step s = .refused (.unpredictable r))
    (∀ h1 u1, FetchedHalf s' s'.pc (codeAt s').1 h1 u1 →
      (isWide h1 = false → runs u1 2 (decodeHalves h1 0)) ∧
        (isWide h1 = true →
          (∀ h2 u2, FetchedHalf u1 (s'.pc + 2) (codeAt s').2 h2 u2 → runs u2 4 (decodeHalves h1 h2)) ∧
            (FetchDenied u1 (s'.pc + 2) → step s = s'.raiseHardFault s'.pc))) ∧
      (FetchDenied s' s'.pc → step s = s'.raiseHardFault s'.pc)

/-- A step takes the pending exception before the next instruction, also out of sleep, with the next instruction's address
(60_exceptions.md R362, R363, R425). -/
def Obligations.StepTakesPending : Prop :=
  ∀ (s s' : State) (e : Exc),
    s.currentInput.reset = false → (s.currentInput.halt && s.cfg.debuggerAttached) = false →
    s' = s.takeInput.sample s.currentInput → s'.lockup = none →
    s'.bestCandidate = some e →
    step s = State.takeException { s' with sleep := .running } e s'.pc

/-- What R[n] reads (R0 to R12, the current stack pointer, LR, the instruction's address plus 4), and the addresses of the loads and stores
(10_state.md R22, R24, R27; 40_memory_access.md R231 to R238, R247, R257). -/
def Obligations.OperandReads : Prop :=
  ∀ (s : State) (rn rm : LoReg) (imm5 : BitVec 5) (imm8 : BitVec 8),
    (∀ k : Fin 13, s.reg ⟨k.val, by omega⟩ = s.gpr k) ∧
      s.reg 13 = (if s.ipsr = 0 ∧ s.spsel = true then s.psp else s.msp) ∧ s.reg 14 = s.lr ∧ s.reg 15 = s.pc + 4 ∧
      s.immAddr rn imm5 .word = s.lo rn + BitVec.ofNat 32 (4 * imm5.toNat) ∧
      s.immAddr rn imm5 .half = s.lo rn + BitVec.ofNat 32 (2 * imm5.toNat) ∧
      s.immAddr rn imm5 .byte = s.lo rn + BitVec.ofNat 32 imm5.toNat ∧
      (s.regAddr rn rm).toNat = ((s.lo rn).toNat + (s.lo rm).toNat) % 4294967296 ∧
      s.spAddr imm8 = s.reg 13 + BitVec.ofNat 32 (4 * imm8.toNat) ∧
      s.literalAddr imm8 = BitVec.ofNat 32 ((s.pc + 4).toNat / 4 * 4 + 4 * imm8.toNat)

/-- Privileged = (IPSR != 0) or (CONTROL.nPRIV == 0) (10_state.md R39). -/
def Obligations.PrivilegeLevel : Prop :=
  ∀ s : State, s.privileged = true ↔ (s.ipsr ≠ 0 ∨ s.nPriv = false)

/-- AddWithCarry: the unbounded sums narrowed, and the subtractions x - y and x - y - (1 - C) as its instances (00_scope.md R11). -/
def Obligations.AddWithCarryRule : Prop :=
  ∀ (x y : Word) (c : Bool),
    (addWithCarry x y c).result.toNat = (x.toNat + y.toNat + c.toNat) % 4294967296 ∧
      ((addWithCarry x y c).carry = true ↔ 4294967296 ≤ x.toNat + y.toNat + c.toNat) ∧
      ((addWithCarry x y c).overflow = true ↔
        (x.toInt + y.toInt + (c.toNat : Int) < -2147483648 ∨ x.toInt + y.toInt + (c.toNat : Int) > 2147483647)) ∧
      (addWithCarry x (~~~y) true).result = x - y ∧
      ((addWithCarry x (~~~y) true).carry = true ↔ y.toNat ≤ x.toNat) ∧
      (addWithCarry x (~~~y) c).result = x - y - BitVec.ofNat 32 (1 - c.toNat)

/-- ADDS in its three forms and ADCS: the sum, all four flags, nothing else (41_data_processing.md R265 to R268). -/
def Obligations.AddInstructions : Prop :=
  ∀ (s : State) (rd rn rm : LoReg) (imm3 : BitVec 3) (imm8 : BitVec 8),
    (∃ t, exec (.addsReg rd rn rm) s = .next t ∧
      WroteLow s t rd (s.lo rn + s.lo rm) (sumFlags (s.lo rn) (s.lo rm) 0)) ∧
    (∃ t, exec (.addsImm3 rd rn imm3) s = .next t ∧
      WroteLow s t rd (s.lo rn + BitVec.ofNat 32 imm3.toNat) (sumFlags (s.lo rn) (BitVec.ofNat 32 imm3.toNat) 0)) ∧
    (∃ t, exec (.addsImm8 rd imm8) s = .next t ∧
      WroteLow s t rd (s.lo rd + BitVec.ofNat 32 imm8.toNat) (sumFlags (s.lo rd) (BitVec.ofNat 32 imm8.toNat) 0)) ∧
    (∃ t, exec (.adcs rd rm) s = .next t ∧
      WroteLow s t rd (s.lo rd + s.lo rm + BitVec.ofNat 32 s.apsr.c.toNat) (sumFlags (s.lo rd) (s.lo rm) s.apsr.c.toNat))

/-- SUBS in its three forms, SBCS and RSBS: the difference, all four flags, nothing else (41_data_processing.md R272 to R274, R276,
R277). -/
def Obligations.SubInstructions : Prop :=
  ∀ (s : State) (rd rn rm : LoReg) (imm3 : BitVec 3) (imm8 : BitVec 8),
    (∃ t, exec (.subsReg rd rn rm) s = .next t ∧
      WroteLow s t rd (s.lo rn - s.lo rm) (differenceFlags (s.lo rn) (s.lo rm) 0)) ∧
    (∃ t, exec (.subsImm3 rd rn imm3) s = .next t ∧
      WroteLow s t rd (s.lo rn - BitVec.ofNat 32 imm3.toNat) (differenceFlags (s.lo rn) (BitVec.ofNat 32 imm3.toNat) 0)) ∧
    (∃ t, exec (.subsImm8 rd imm8) s = .next t ∧
      WroteLow s t rd (s.lo rd - BitVec.ofNat 32 imm8.toNat) (differenceFlags (s.lo rd) (BitVec.ofNat 32 imm8.toNat) 0)) ∧
    (∃ t, exec (.sbcs rd rm) s = .next t ∧
      WroteLow s t rd (s.lo rd - s.lo rm - BitVec.ofNat 32 (1 - s.apsr.c.toNat))
        (differenceFlags (s.lo rd) (s.lo rm) (1 - s.apsr.c.toNat))) ∧
    (∃ t, exec (.rsbs rd rn) s = .next t ∧ WroteLow s t rd (0 - s.lo rn) (differenceFlags 0 (s.lo rn) 0))

/-- CMP in its three forms, CMN and TST write the flags and nothing else; the high form of CMP takes any two of R0 to R14 that are
not both low (41_data_processing.md R289 to R292, R305). -/
def Obligations.CompareInstructions : Prop :=
  ∀ (s : State) (rn rm : LoReg) (n m : Reg) (imm8 : BitVec 8),
    exec (.cmpImm rn imm8) s =
        .next { s with apsr := differenceFlags (s.lo rn) (BitVec.ofNat 32 imm8.toNat) 0, pc := s.pc + 2 } ∧
      exec (.cmpLow rn rm) s = .next { s with apsr := differenceFlags (s.lo rn) (s.lo rm) 0, pc := s.pc + 2 } ∧
      (¬(n.val < 8 ∧ m.val < 8) → n.val ≠ 15 → m.val ≠ 15 →
        exec (.cmpHigh n m) s = .next { s with apsr := differenceFlags (s.reg n) (s.reg m) 0, pc := s.pc + 2 }) ∧
      exec (.cmn rn rm) s = .next { s with apsr := sumFlags (s.lo rn) (s.lo rm) 0, pc := s.pc + 2 } ∧
      exec (.tst rn rm) s = .next { s with apsr := resultFlags s.apsr (s.lo rn &&& s.lo rm), pc := s.pc + 2 }

/-- ANDS, ORRS, EORS, BICS, MULS, MVNS and MOVS: the result, N and Z, C and V kept; MULS that an arriving exception abandons has written
nothing, and the exception is taken with the address of the MULS (41_data_processing.md R278 to R281, R294 to R297; 60_exceptions.md
R384; the midway arrival is the model's form of it, assumption log 40). -/
def Obligations.LogicInstructions : Prop :=
  ∀ (s : State) (rd rm : LoReg) (imm8 : BitVec 8),
    (∃ t, exec (.ands rd rm) s = .next t ∧
      WroteLow s t rd (s.lo rd &&& s.lo rm) (resultFlags s.apsr (s.lo rd &&& s.lo rm))) ∧
    (∃ t, exec (.orrs rd rm) s = .next t ∧
      WroteLow s t rd (s.lo rd ||| s.lo rm) (resultFlags s.apsr (s.lo rd ||| s.lo rm))) ∧
    (∃ t, exec (.eors rd rm) s = .next t ∧
      WroteLow s t rd (s.lo rd ^^^ s.lo rm) (resultFlags s.apsr (s.lo rd ^^^ s.lo rm))) ∧
    (∃ t, exec (.bics rd rm) s = .next t ∧
      WroteLow s t rd (s.lo rd &&& ~~~s.lo rm) (resultFlags s.apsr (s.lo rd &&& ~~~s.lo rm))) ∧
    (Uninterrupted s → ∃ t, exec (.muls rd rm) s = .next t ∧
      WroteLow s t rd (BitVec.ofNat 32 ((s.lo rm).toNat * (s.lo rd).toNat))
        (resultFlags s.apsr (BitVec.ofNat 32 ((s.lo rm).toNat * (s.lo rd).toNat)))) ∧
    (∀ m e, Interrupted s m e → exec (.muls rd rm) s = (s.sampleMidway m).takeException e s.pc) ∧
    (∃ t, exec (.mvns rd rm) s = .next t ∧ WroteLow s t rd (~~~s.lo rm) (resultFlags s.apsr (~~~s.lo rm))) ∧
    (∃ t, exec (.movsReg rd rm) s = .next t ∧ WroteLow s t rd (s.lo rm) (resultFlags s.apsr (s.lo rm))) ∧
    (∃ t, exec (.movsImm rd imm8) s = .next t ∧
      WroteLow s t rd (BitVec.ofNat 32 imm8.toNat) (resultFlags s.apsr (BitVec.ofNat 32 imm8.toNat)))

/-- LSLS, LSRS and ASRS by an immediate, whose field 0 means 32 for the two right shifts: the shifted number, N, Z and the last bit
shifted out; LSLS by 0 keeps C, as MOVS does (41_data_processing.md R261 to R263, R282, R284, R286). -/
def Obligations.ShiftImmediate : Prop :=
  ∀ (s : State) (rd rm : LoReg) (imm5 : BitVec 5),
    let x := s.lo rm
    let n := if imm5.toNat = 0 then 32 else imm5.toNat
    (imm5.toNat ≠ 0 → ∃ t, exec (.lslsImm imm5 rm rd) s = .next t ∧
      WroteLow s t rd (BitVec.ofNat 32 (x.toNat * 2 ^ n)) (shiftFlags s.apsr (BitVec.ofNat 32 (x.toNat * 2 ^ n)) (bitAt x (32 - n)))) ∧
    (imm5.toNat = 0 → exec (.lslsImm imm5 rm rd) s = exec (.movsReg rd rm) s) ∧
    (∃ t, exec (.lsrsImm imm5 rm rd) s = .next t ∧
      WroteLow s t rd (BitVec.ofNat 32 (x.toNat / 2 ^ n)) (shiftFlags s.apsr (BitVec.ofNat 32 (x.toNat / 2 ^ n)) (bitAt x (n - 1)))) ∧
    (∃ t, exec (.asrsImm imm5 rm rd) s = .next t ∧
      WroteLow s t rd (BitVec.ofInt 32 (x.toInt / 2 ^ n)) (shiftFlags s.apsr (BitVec.ofInt 32 (x.toInt / 2 ^ n)) (bitAt x (n - 1))))

/-- LSLS, LSRS, ASRS and RORS by the bottom byte of a register, 0 to 255: a length of 0 keeps the value and C; from 33 on LSLS and
LSRS clear C; ASRS fills with the sign; RORS turns the word (41_data_processing.md R261 to R264, R283, R285, R287, R288). -/
def Obligations.ShiftRegister : Prop :=
  ∀ (s : State) (rd rs : LoReg),
    let x := s.lo rd
    let n := (s.lo rs).toNat % 256
    (n = 0 → ∀ i, i = .lslsReg rd rs ∨ i = .lsrsReg rd rs ∨ i = .asrsReg rd rs ∨ i = .rors rd rs →
      ∃ t, exec i s = .next t ∧ WroteLow s t rd x (resultFlags s.apsr x)) ∧
    (n ≠ 0 →
      (∃ t, exec (.lslsReg rd rs) s = .next t ∧
        WroteLow s t rd (BitVec.ofNat 32 (x.toNat * 2 ^ n))
          (shiftFlags s.apsr (BitVec.ofNat 32 (x.toNat * 2 ^ n)) (decide (n ≤ 32) && bitAt x (32 - n)))) ∧
      (∃ t, exec (.lsrsReg rd rs) s = .next t ∧
        WroteLow s t rd (BitVec.ofNat 32 (x.toNat / 2 ^ n)) (shiftFlags s.apsr (BitVec.ofNat 32 (x.toNat / 2 ^ n)) (bitAt x (n - 1)))) ∧
      (∃ t, exec (.asrsReg rd rs) s = .next t ∧
        WroteLow s t rd (BitVec.ofInt 32 (x.toInt / 2 ^ n))
          (shiftFlags s.apsr (BitVec.ofInt 32 (x.toInt / 2 ^ n)) (bitAt x (min n 32 - 1)))) ∧
      (∃ t v, exec (.rors rd rs) s = .next t ∧ (∀ k < 32, bitAt v k = bitAt x ((k + n) % 32)) ∧
        WroteLow s t rd v (shiftFlags s.apsr v (bitAt v 31))))

/-- SXTB, SXTH, UXTB, UXTH, REV, REV16 and REVSH: the extended or reversed number, flags kept (41_data_processing.md R298 to
R304). -/
def Obligations.ExtendAndReverse : Prop :=
  ∀ (s : State) (rd rm : LoReg),
    let x := (s.lo rm).toNat
    let b0 := x % 256
    let b1 := x / 256 % 256
    let b2 := x / 65536 % 256
    let b3 := x / 16777216
    (∃ t, exec (.sxtb rd rm) s = .next t ∧
      WroteLow s t rd (BitVec.ofNat 32 (if b0 < 128 then b0 else b0 + 4294967040)) s.apsr) ∧
    (∃ t, exec (.sxth rd rm) s = .next t ∧
      WroteLow s t rd (BitVec.ofNat 32 (if x % 65536 < 32768 then x % 65536 else x % 65536 + 4294901760)) s.apsr) ∧
    (∃ t, exec (.uxtb rd rm) s = .next t ∧ WroteLow s t rd (BitVec.ofNat 32 b0) s.apsr) ∧
    (∃ t, exec (.uxth rd rm) s = .next t ∧ WroteLow s t rd (BitVec.ofNat 32 (x % 65536)) s.apsr) ∧
    (∃ t, exec (.rev rd rm) s = .next t ∧
      WroteLow s t rd (BitVec.ofNat 32 (b0 * 16777216 + b1 * 65536 + b2 * 256 + b3)) s.apsr) ∧
    (∃ t, exec (.rev16 rd rm) s = .next t ∧
      WroteLow s t rd (BitVec.ofNat 32 (b2 * 16777216 + b3 * 65536 + b0 * 256 + b1)) s.apsr) ∧
    (∃ t, exec (.revsh rd rm) s = .next t ∧
      WroteLow s t rd (BitVec.ofNat 32 (if b0 < 128 then b0 * 256 + b1 else b0 * 256 + b1 + 4294901760)) s.apsr)

/-- MOV and ADD of any registers: every destination, with SP losing its two low bits and the PC its lowest; the flags are kept
(41_data_processing.md R269, R293). -/
def Obligations.AnyRegisterMoves : Prop :=
  ∀ (s : State) (rd rm : Reg),
    (∃ t, exec (.mov rd rm) s = .next t ∧ WroteAny s t rd (s.reg rm) 2) ∧
      (¬(rd.val = 15 ∧ rm.val = 15) → ∃ t, exec (.addHigh rd rm) s = .next t ∧ WroteAny s t rd (s.reg rd + s.reg rm) 2)

/-- ADD Rd, SP; ADD SP; SUB SP; ADR: the sums modulo 2^32, SP a multiple of 4, flags kept (41_data_processing.md R270, R271, R275;
40_memory_access.md R230). -/
def Obligations.AddressArithmetic : Prop :=
  ∀ (s : State) (rd : LoReg) (imm8 : BitVec 8) (imm7 : BitVec 7),
    (∃ t, exec (.addRdSp rd imm8) s = .next t ∧ WroteLow s t rd (s.reg 13 + BitVec.ofNat 32 (4 * imm8.toNat)) s.apsr) ∧
      (∃ t, exec (.addSp imm7) s = .next t ∧ WroteAny s t 13 (s.reg 13 + BitVec.ofNat 32 (4 * imm7.toNat)) 2) ∧
      (∃ t, exec (.subSp imm7) s = .next t ∧ WroteAny s t 13 (s.reg 13 - BitVec.ofNat 32 (4 * imm7.toNat)) 2) ∧
      (∃ t, exec (.adr rd imm8) s = .next t ∧
        WroteLow s t rd (BitVec.ofNat 32 ((s.pc + 4).toNat / 4 * 4 + 4 * imm8.toNat)) s.apsr)

/-- The word loads read the little-endian word at their address into Rt and change nothing else (40_memory_access.md R231, R237,
R239, R247, R253). -/
def Obligations.WordLoads : Prop :=
  ∀ (s : State) (rt rn rm : LoReg) (imm5 : BitVec 5) (imm8 : BitVec 8) (i : Instr) (a : Word),
    (i = .ldrReg rt rn rm ∧ a = s.regAddr rn rm) ∨ (i = .ldrImm rt rn imm5 ∧ a = s.immAddr rn imm5 .word) ∨
        (i = .ldrSp rt imm8 ∧ a = s.spAddr imm8) ∨ (i = .ldrLit rt imm8 ∧ a = s.literalAddr imm8) →
      ReachesStorage s .read .word a →
      ∃ t, exec i s = .next t ∧ WroteLow s t rt (BitVec.ofNat 32 (bytesValue s a 4)) s.apsr

/-- The byte and halfword loads read their bytes, zero-extended or, for LDRSB and LDRSH, sign-extended (40_memory_access.md R232,
R233, R240 to R243, R253). -/
def Obligations.NarrowLoads : Prop :=
  ∀ (s : State) (rt rn rm : LoReg) (imm5 : BitVec 5),
    (∀ (i : Instr) (a : Word), (i = .ldrbReg rt rn rm ∧ a = s.regAddr rn rm) ∨ (i = .ldrbImm rt rn imm5 ∧ a = s.immAddr rn imm5 .byte) →
      ReachesStorage s .read .byte a →
      ∃ t, exec i s = .next t ∧ WroteLow s t rt (BitVec.ofNat 32 (bytesValue s a 1)) s.apsr) ∧
    (∀ (i : Instr) (a : Word), (i = .ldrhReg rt rn rm ∧ a = s.regAddr rn rm) ∨ (i = .ldrhImm rt rn imm5 ∧ a = s.immAddr rn imm5 .half) →
      ReachesStorage s .read .half a →
      ∃ t, exec i s = .next t ∧ WroteLow s t rt (BitVec.ofNat 32 (bytesValue s a 2)) s.apsr) ∧
    (ReachesStorage s .read .byte (s.regAddr rn rm) →
      ∃ t, exec (.ldrsb rt rn rm) s = .next t ∧
        WroteLow s t rt (BitVec.ofNat 32 (if bytesValue s (s.regAddr rn rm) 1 < 128 then bytesValue s (s.regAddr rn rm) 1
          else bytesValue s (s.regAddr rn rm) 1 + 4294967040)) s.apsr) ∧
    (ReachesStorage s .read .half (s.regAddr rn rm) →
      ∃ t, exec (.ldrsh rt rn rm) s = .next t ∧
        WroteLow s t rt (BitVec.ofNat 32 (if bytesValue s (s.regAddr rn rm) 2 < 32768 then bytesValue s (s.regAddr rn rm) 2
          else bytesValue s (s.regAddr rn rm) 2 + 4294901760)) s.apsr)

/-- The stores write the bytes of Rt at their address, the least significant first, and change nothing else (40_memory_access.md R234
to R236, R238, R244 to R246, R253). That read-only storage keeps its bytes without a fault is the model's choice (assumption log 3). -/
def Obligations.SingleStores : Prop :=
  ∀ (s : State) (rt rn rm : LoReg) (imm5 : BitVec 5) (imm8 : BitVec 8) (i : Instr) (size : Size) (a : Word),
    (i = .strReg rt rn rm ∧ size = .word ∧ a = s.regAddr rn rm) ∨ (i = .strhReg rt rn rm ∧ size = .half ∧ a = s.regAddr rn rm) ∨
        (i = .strbReg rt rn rm ∧ size = .byte ∧ a = s.regAddr rn rm) ∨
        (i = .strImm rt rn imm5 ∧ size = .word ∧ a = s.immAddr rn imm5 .word) ∨
        (i = .strhImm rt rn imm5 ∧ size = .half ∧ a = s.immAddr rn imm5 .half) ∨
        (i = .strbImm rt rn imm5 ∧ size = .byte ∧ a = s.immAddr rn imm5 .byte) ∨
        (i = .strSp rt imm8 ∧ size = .word ∧ a = s.spAddr imm8) →
      ReachesStorage s .write size a →
      ∃ t, exec i s = .next t ∧ Stored s t size a (s.lo rt)

/-- A word stored in RAM is the word that a load from the same address then reads (20_memory.md R132, R154). -/
def Obligations.StoreThenLoad : Prop :=
  ∀ (s t : State) (rt rt' rn : LoReg) (imm5 : BitVec 5),
    ReachesStorage s .write .word (s.immAddr rn imm5 .word) → ReachesStorage s .read .word (s.immAddr rn imm5 .word) →
    s.kindAt s.privileged .write .word (s.immAddr rn imm5 .word) = .ram →
    exec (.strImm rt rn imm5) s = .next t →
    ∃ u, exec (.ldrImm rt' rn imm5) t = .next u ∧ u.lo rt' = s.lo rt

/-- A halfword or word access whose address is not a multiple of its size raises HardFault with the instruction's own address, whatever
lies at the address, for every load and store; so do LDM, STM, PUSH and POP with an unaligned base (20_memory.md R135, R136;
60_exceptions.md R374). -/
def Obligations.MisalignedAccessFaults : Prop :=
  ∀ (s : State) (i : Instr),
    (∀ x, singleAccess s i = some x → x.addr.toNat % x.size.bytes ≠ 0 → exec i s = s.raiseHardFault s.pc) ∧
      (∀ k a n, blockAccess s i = some (k, a, n) → a.toNat % 4 ≠ 0 → Uninterrupted s → exec i s = s.raiseHardFault s.pc)

/-- The PPB takes privileged word accesses alone: a load or store by unprivileged software, of any form and size, raises HardFault with
the instruction's own address, and so do LDM, STM, PUSH and POP; a privileged byte or halfword access is outside the specified behaviour
and refused by name (20_memory.md R142; 10_state.md R51; 60_exceptions.md R404). -/
def Obligations.PpbAccessRules : Prop :=
  ∀ (s : State) (i : Instr),
    (∀ x, singleAccess s i = some x → ¬OutsidePpb x.addr →
      (Unprivileged s → exec i s = s.raiseHardFault s.pc) ∧
        (s.privileged = true → x.addr.toNat % x.size.bytes = 0 → x.size ≠ .word → exec i s = .refused .ppbSize)) ∧
      (∀ k a n, blockAccess s i = some (k, a, n) → ¬OutsidePpb a → Unprivileged s → Uninterrupted s →
        exec i s = s.raiseHardFault s.pc)

/-- A privileged word access at a system register's address reads or writes that register, and an address of the register blocks
without a register reads as zero and ignores writes, in every block (20_memory.md R142 (c); 10_state.md R50 to R52). -/
def Obligations.SystemRegisterAccess : Prop :=
  ∀ (s : State) (w : Word),
    s.privileged = true →
    (∀ r : PpbReg, s.memRead .word r.addr = .ok (s.ppbValue r, s.ppbReadEffect r) ∧ s.memWrite .word r.addr w = s.ppbWrite r w) ∧
      (∀ a : Word, a.toNat % 4 = 0 → InRegisterBlock a → (∀ r : PpbReg, r.addr ≠ a) →
        s.memRead .word a = .ok (0, s) ∧ s.memWrite .word a w = .ok s)

/-- LDM loads the words at 4-byte intervals into the registers of the list in rising order, and writes the base back where it is not
in the list; abandoned by an arriving exception it leaves the base as it was and each loaded register with the loaded word or its old
value, and the exception is taken with the address of the LDM (40_memory_access.md R248, R254, R258; 60_exceptions.md R384; the midway
arrival is the model's form of it, assumption log 40). -/
def Obligations.LoadMultiple : Prop :=
  ∀ (s : State) (rn : LoReg) (list8 : BitVec 8),
    list8 ≠ 0 → BlockReachesStorage s .read (s.lo rn) (bitCount list8) →
    (Uninterrupted s → ∃ t, exec (.ldm rn list8) s = .next t ∧
      (∀ r : LoReg, list8.getLsbD r.val = true → t.lo r = BitVec.ofNat 32 (bytesValue s (wordAt (s.lo rn) (rank list8 r)) 4)) ∧
      (list8.getLsbD rn.val = false → t.lo rn = s.lo rn + BitVec.ofNat 32 (4 * bitCount list8)) ∧
      (∀ k : Fin 13, (8 ≤ k.val ∨ list8.getLsbD k.val = false) → k.val ≠ rn.val → t.gpr k = s.gpr k) ∧
      (∀ b, t.mem.byteAt b = s.mem.byteAt b) ∧ t = { s with regs := t.regs, pc := s.pc + 2 }) ∧
    (∀ m e, Interrupted s m e → ∃ u, exec (.ldm rn list8) s = u.takeException e s.pc ∧
      PartlyLoaded s u (s.lo rn) list8 (min m.after (bitCount list8)) (some rn) ∧
      u = { s.sampleMidway m with regs := u.regs, freeCount := u.freeCount })

/-- STM stores the registers of the list in rising order at 4-byte intervals and advances the base (40_memory_access.md R249, R254,
R258); abandoned by an arriving exception it has stored the first words and left the base as it was, and the exception is taken with the
address of the STM (60_exceptions.md R384; the midway arrival is the model's form of it, assumption log 40). Where the base is in the list
and not its lowest register, R203 and R249 refuse the instruction and 93_implementation_defined.md U1 allows that only the word stored for
it is open: that it completes then is the model's choice (assumption log 11), as is that read-only storage keeps its bytes (assumption
log 3). -/
def Obligations.StoreMultiple : Prop :=
  ∀ (s : State) (rn : LoReg) (list8 : BitVec 8),
    list8 ≠ 0 → BlockReachesStorage s .write (s.lo rn) (bitCount list8) →
    (Uninterrupted s → ∃ t, exec (.stm rn list8) s = .next t ∧
      (∀ r : LoReg, list8.getLsbD r.val = true → (r = rn → rank list8 rn = 0) →
        HoldsWord s t (wordAt (s.lo rn) (rank list8 r)) (s.lo r)) ∧
      SameOutside s t (s.lo rn) (bitCount list8) ∧
      t.lo rn = s.lo rn + BitVec.ofNat 32 (4 * bitCount list8) ∧ (∀ k : Fin 13, k.val ≠ rn.val → t.gpr k = s.gpr k) ∧
      t = { s with regs := t.regs, mem := t.mem, pc := s.pc + 2, freeCount := t.freeCount }) ∧
    (∀ m e, Interrupted s m e → ∃ u, exec (.stm rn list8) s = u.takeException e s.pc ∧
      (∀ r : LoReg, list8.getLsbD r.val = true → (r = rn → rank list8 rn = 0) → rank list8 r < m.after →
        HoldsWord s u (wordAt (s.lo rn) (rank list8 r)) (s.lo r)) ∧
      SameOutside s u (s.lo rn) (min m.after (bitCount list8)) ∧
      u = { s.sampleMidway m with mem := u.mem, freeCount := u.freeCount })

/-- PUSH stores the registers of the list, then LR, below SP and lowers SP; abandoned by an arriving exception it has stored the first
words and left SP as it was, and the exception is taken with the address of the PUSH (40_memory_access.md R250, R254, R259;
60_exceptions.md R384; the midway arrival is the model's form of it, assumption log 40). That it completes on read-only storage, which
keeps its bytes without a fault, is the model's choice (assumption log 3). -/
def Obligations.PushRegisters : Prop :=
  ∀ (s : State) (m : Bool) (list8 : BitVec 8),
    let n := bitCount list8 + m.toNat
    let base := s.reg 13 - BitVec.ofNat 32 (4 * n)
    n ≠ 0 → BlockReachesStorage s .write base n →
    (Uninterrupted s → ∃ t, exec (.push m list8) s = .next t ∧
      (∀ r : LoReg, list8.getLsbD r.val = true → HoldsWord s t (wordAt base (rank list8 r)) (s.lo r)) ∧
      (m = true → HoldsWord s t (wordAt base (bitCount list8)) s.lr) ∧
      SameOutside s t base n ∧
      t = { s with
        mem := t.mem
        msp := if s.ipsr = 0 ∧ s.spsel = true then s.msp else base
        psp := if s.ipsr = 0 ∧ s.spsel = true then base else s.psp
        pc := s.pc + 2 }) ∧
    (∀ x e, Interrupted s x e → ∃ u, exec (.push m list8) s = u.takeException e s.pc ∧
      (∀ r : LoReg, list8.getLsbD r.val = true → rank list8 r < x.after → HoldsWord s u (wordAt base (rank list8 r)) (s.lo r)) ∧
      (m = true → bitCount list8 < x.after → HoldsWord s u (wordAt base (bitCount list8)) s.lr) ∧
      SameOutside s u base (min x.after n) ∧
      u = { s.sampleMidway x with mem := u.mem })

/-- POP loads the registers of the list from SP on and raises SP; with PC in the list the last word is branched to with its bit 0 as
T; in Handler mode an EXC_RETURN pattern there is an exception return, whatever the list, with the registers loaded and SP already past
the popped words; abandoned by an arriving exception it leaves SP as it was and each loaded register with the loaded word or its old
value, and the exception is taken with the address of the POP (40_memory_access.md R251, R254, R259; 42_branch.md R325; 60_exceptions.md
R384, R386; the midway arrival is the model's form of it, assumption log 40). -/
def Obligations.PopRegisters : Prop :=
  ∀ (s : State) (p : Bool) (list8 : BitVec 8),
    let n := bitCount list8 + p.toNat
    let target := bytesValue s (wordAt (s.reg 13) (bitCount list8)) 4
    let popped := fun t : State =>
      (∀ r : LoReg, list8.getLsbD r.val = true → t.lo r = BitVec.ofNat 32 (bytesValue s (wordAt (s.reg 13) (rank list8 r)) 4)) ∧
        (∀ k : Fin 13, (8 ≤ k.val ∨ list8.getLsbD k.val = false) → t.gpr k = s.gpr k)
    let raised := fun sp : Word => sp + BitVec.ofNat 32 (4 * n)
    n ≠ 0 → BlockReachesStorage s .read (s.reg 13) n →
    (Uninterrupted s → p = true → s.ipsr ≠ 0 → target / 268435456 = 15 →
      ∃ u, exec (.pop p list8) s = u.exceptionReturn (BitVec.ofNat 32 target) ∧ popped u ∧
        u = { s with regs := u.regs, msp := raised (s.reg 13) }) ∧
    (Uninterrupted s → ¬(p = true ∧ s.ipsr ≠ 0 ∧ target / 268435456 = 15) →
      ∃ t, exec (.pop p list8) s = .next t ∧ popped t ∧
        (∀ b, t.mem.byteAt b = s.mem.byteAt b) ∧
        t = { s with
          regs := t.regs
          msp := if s.ipsr = 0 ∧ s.spsel = true then s.msp else raised (s.reg 13)
          psp := if s.ipsr = 0 ∧ s.spsel = true then raised (s.reg 13) else s.psp
          pc := if p then BitVec.ofNat 32 (target / 2 * 2) else s.pc + 2
          epsrT := if p then decide (target % 2 = 1) else s.epsrT }) ∧
    (∀ m e, Interrupted s m e → ∃ u, exec (.pop p list8) s = u.takeException e s.pc ∧
      PartlyLoaded s u (s.reg 13) list8 (min m.after n) none ∧
      u = { s.sampleMidway m with regs := u.regs, freeCount := u.freeCount })

/-- B, B{cond} and BL: the target is the PC value plus the signed offset, modulo 2^32; a condition that fails goes on; BL puts the next
address with bit 0 set in LR (42_branch.md R320 to R322; 30_encoding.md R206). -/
def Obligations.RelativeBranches : Prop :=
  ∀ (s : State) (imm11 : BitVec 11) (imm8 : BitVec 8) (imm24 : BitVec 24) (c : Cond),
    exec (.b imm11) s = .next { s with pc := BitVec.ofInt 32 (s.pc.toNat + 4 + 2 * imm11.toInt) } ∧
      (CondHolds s.apsr c → exec (.bcond c imm8) s = .next { s with pc := BitVec.ofInt 32 (s.pc.toNat + 4 + 2 * imm8.toInt) }) ∧
      (¬CondHolds s.apsr c → exec (.bcond c imm8) s = .next { s with pc := s.pc + 2 }) ∧
      exec (.bl imm24) s =
        .next { s with
          pc := BitVec.ofInt 32 (s.pc.toNat + 4 + 2 * imm24.toInt), lr := BitVec.ofNat 32 ((s.pc + 4).toNat / 2 * 2 + 1) }

/-- BX and BLX of R0 to R12 and LR: bit 0 goes to T and is dropped from the PC; BLX links, its target read first; BX of an
EXC_RETURN pattern in Handler mode is an exception return, BLX never is (42_branch.md R323 to R325; 60_exceptions.md R386). -/
def Obligations.RegisterBranches : Prop :=
  ∀ (s : State) (rm : Reg),
    rm.val ≠ 13 → rm.val ≠ 15 →
    let v := (s.reg rm).toNat
    (s.ipsr = 0 ∨ v / 268435456 ≠ 15 →
      exec (.bx rm) s = .next { s with pc := BitVec.ofNat 32 (v / 2 * 2), epsrT := decide (v % 2 = 1) }) ∧
      (s.ipsr ≠ 0 → v / 268435456 = 15 → exec (.bx rm) s = s.exceptionReturn (s.reg rm)) ∧
      exec (.blx rm) s =
        .next { s with
          pc := BitVec.ofNat 32 (v / 2 * 2), epsrT := decide (v % 2 = 1), lr := BitVec.ofNat 32 ((s.pc + 2).toNat / 2 * 2 + 1) }

/-- Operands that no encoding admits are refused as unpredictable, and nothing else is said of them; LSLS by 0 is MOVS
(30_encoding.md R199 item 1, R203). -/
def Obligations.IllFormedRefused : Prop :=
  ∀ (i : Instr) (s : State), WellFormed i = false →
    (∃ u, exec i s = .refused (.unpredictable u)) ∨ (∃ rm rd, i = .lslsImm 0 rm rd ∧ exec i s = exec (.movsReg rd rm) s)

/-- MRS to R0 to R12 or LR: the PSR parts, the stack pointers, PRIMASK and CONTROL for privileged software; EPSR reads as zero;
unprivileged software reads the flags and zero for the rest (43_misc.md R336; 10_state.md R30 to R37). -/
def Obligations.MrsReads : Prop :=
  ∀ (s : State) (rd : Reg),
    rd.val ≠ 13 → rd.val ≠ 15 →
    let flags := s.apsr.n.toNat * 2147483648 + s.apsr.z.toNat * 1073741824 + s.apsr.c.toNat * 536870912 + s.apsr.v.toNat * 268435456
    let priv := s.ipsr ≠ 0 ∨ s.nPriv = false
    let number := if s.ipsr = 0 then 0 else s.ipsr.toNat
    (∀ r, r = .apsr ∨ r = .eapsr → ∃ t, exec (.mrs rd r) s = .next t ∧ WroteAny s t rd (BitVec.ofNat 32 flags) 4) ∧
      (∀ r, r = .iapsr ∨ r = .psr → ∃ t, exec (.mrs rd r) s = .next t ∧ WroteAny s t rd (BitVec.ofNat 32 (flags + number)) 4) ∧
      (∀ r, r = .ipsr ∨ r = .iepsr → ∃ t, exec (.mrs rd r) s = .next t ∧ WroteAny s t rd (BitVec.ofNat 32 number) 4) ∧
      (∃ t, exec (.mrs rd .epsr) s = .next t ∧ WroteAny s t rd 0 4) ∧
      (priv → (∃ t, exec (.mrs rd .msp) s = .next t ∧ WroteAny s t rd s.msp 4) ∧
        (∃ t, exec (.mrs rd .psp) s = .next t ∧ WroteAny s t rd s.psp 4) ∧
        (∃ t, exec (.mrs rd .primask) s = .next t ∧ WroteAny s t rd (BitVec.ofNat 32 s.primask.toNat) 4) ∧
        (∃ t, exec (.mrs rd .control) s = .next t ∧ WroteAny s t rd (BitVec.ofNat 32 (2 * s.spsel.toNat + s.nPriv.toNat)) 4)) ∧
      (¬priv → ∀ r, r = .msp ∨ r = .psp ∨ r = .primask ∨ r = .control →
        ∃ t, exec (.mrs rd r) s = .next t ∧ WroteAny s t rd 0 4)

/-- MSR from R0 to R12 or LR: a name with the APSR writes the four flags at any privilege; IPSR and EPSR are never written; MSP, PSP,
PRIMASK and CONTROL only by privileged software, SPSEL only in Thread mode (43_misc.md R337; 10_state.md R23, R37). -/
def Obligations.MsrWrites : Prop :=
  ∀ (s : State) (rn : Reg),
    rn.val ≠ 13 → rn.val ≠ 15 →
    let x := s.reg rn
    let priv := s.ipsr ≠ 0 ∨ s.nPriv = false
    (∀ r, r = .apsr ∨ r = .iapsr ∨ r = .eapsr ∨ r = .psr →
      exec (.msr r rn) s =
        .next { s with apsr := { n := bitAt x 31, z := bitAt x 30, c := bitAt x 29, v := bitAt x 28 }, pc := s.pc + 4 }) ∧
      (∀ r, r = .ipsr ∨ r = .epsr ∨ r = .iepsr → exec (.msr r rn) s = .next { s with pc := s.pc + 4 }) ∧
      (priv → exec (.msr .msp rn) s = .next { s with msp := BitVec.ofNat 32 (x.toNat / 4 * 4), pc := s.pc + 4 } ∧
        exec (.msr .psp rn) s = .next { s with psp := BitVec.ofNat 32 (x.toNat / 4 * 4), pc := s.pc + 4 } ∧
        exec (.msr .primask rn) s = .next { s with primask := bitAt x 0, pc := s.pc + 4 } ∧
        exec (.msr .control rn) s =
          .next { s with nPriv := bitAt x 0, spsel := if s.ipsr = 0 then bitAt x 1 else s.spsel, pc := s.pc + 4 }) ∧
      (¬priv → ∀ r, r = .msp ∨ r = .psp ∨ r = .primask ∨ r = .control → exec (.msr r rn) s = .next { s with pc := s.pc + 4 })

/-- CPSID and CPSIE write PRIMASK for privileged software alone; NOP, YIELD, DSB and DMB only advance the PC, and ISB
also drops what was fetched ahead; SEV sets the event
register; WFE clears it where it is set, else sleeps; WFI sleeps (43_misc.md R331 to R335, R338, R340, R342, R343, R345; 20_memory.md R165). -/
def Obligations.HintsMasksAndBarriers : Prop :=
  ∀ (s : State) (o : BitVec 4),
    exec .cpsid s = .next { s with primask := s.primask || decide (s.ipsr ≠ 0 ∨ s.nPriv = false), pc := s.pc + 2 } ∧
      exec .cpsie s = .next { s with primask := s.primask && decide (s.ipsr = 0 ∧ s.nPriv = true), pc := s.pc + 2 } ∧
      (∀ i, i = .nop ∨ i = .yield → exec i s = .next { s with pc := s.pc + 2 }) ∧
      (∀ i, i = .dsb o ∨ i = .dmb o → exec i s = .next { s with pc := s.pc + 4 }) ∧
      exec (.isb o) s = .next { s with pc := s.pc + 4, prefetched := none } ∧
      exec .sev s = .next { s with eventReg := true, pc := s.pc + 2 } ∧
      (s.eventReg = true → exec .wfe s = .next { s with eventReg := false, pc := s.pc + 2 }) ∧
      (s.eventReg = false → exec .wfe s = .next { s with sleep := .wfe, pc := s.pc + 2 }) ∧
      exec .wfi s = .next { s with sleep := .wfi, pc := s.pc + 2 }

/-- SVC at an execution priority below SVCall's takes SVCall with the address of the next instruction; at SVCall's priority or above it
is a HardFault with its own address (43_misc.md R341; 60_exceptions.md R374, R375). -/
def Obligations.SupervisorCall : Prop :=
  ∀ (s : State) (imm8 : BitVec 8),
    (s.prio .svCall < s.executionPriority → NothingToTake s → FrameWritable s → VectorReadable s 11 →
      ∃ t, exec (.svc imm8) s = .next t ∧ Entered s t .svCall (s.pc + 2)) ∧
      (s.executionPriority ≤ s.prio .svCall → exec (.svc imm8) s = s.raiseHardFault s.pc)

/-- UDF, UDF.W and BKPT without a debugger take HardFault with their own address; BKPT with a debugger attached stops the model by name,
Debug state being outside the spec (43_misc.md R330, R346; 60_exceptions.md R374, R390; D7). -/
def Obligations.UndefinedAndBreakpoint : Prop :=
  ∀ (s : State) (imm8 : BitVec 8) (imm16 : BitVec 16),
    (∀ i, i = .udf imm8 ∨ i = .udfW imm16 ∨ (i = .bkpt imm8 ∧ s.cfg.debuggerAttached = false) →
      -1 < s.executionPriority → NothingToTake s → FrameWritable s → VectorReadable s 3 →
      ∃ t, exec i s = .next t ∧ Entered s t .hardFault s.pc) ∧
      (s.cfg.debuggerAttached = true → exec (.bkpt imm8) s = .fault .debugState)

/-- raise HardFault: below priority -1 HardFault is taken; at -1 or -2 the processor locks up with the PC at 0xFFFFFFFE and nothing
else changed (60_exceptions.md R390, R396). -/
def Obligations.RaiseHardFault : Prop :=
  ∀ (s : State) (ra : Word),
    (-1 < s.executionPriority → NothingToTake s → FrameWritable s → VectorReadable s 3 →
      ∃ t, s.raiseHardFault ra = .next t ∧ Entered s t .hardFault ra) ∧
      (s.executionPriority ≤ -1 →
        s.raiseHardFault ra =
          .next { s with
            lockup := some (if s.executionPriority = -1 then .hardFault else .nmi), pc := 0xFFFFFFFE, sleep := .running })

/-- Taking an exception writes the frame of eight words on the current stack, aligned to 8, and LR with EXC_RETURN, and enters the
handler; nothing else changes. Where a stacking store or the vector fetch faults, the exception stays as pending as it was, the stack
pointer is lowered, and HardFault is entered on that frame, or, from priority -1 or -2, the processor locks up (60_exceptions.md R371 to
R376, R393; that a faulting stacking store leaves the other ones done and SP lowered is the model's choice, assumption log 16; so is
that the exception stays pending where the result is lockup, assumption log 37, and that HardFault is entered on the frame whatever else
is pending is the model's reading, assumption log 18). -/
def Obligations.ExceptionEntry : Prop :=
  ∀ (s : State) (e : Exc) (ra : Word),
    let fp := (s.sp - 0x20) &&& 0xFFFFFFF8#32
    let lowered := fun t : State => lockedUp { s with
      mem := t.mem
      msp := if s.ipsr = 0 ∧ s.spsel = true then s.msp else fp
      psp := if s.ipsr = 0 ∧ s.spsel = true then fp else s.psp }
    (FrameWritable s → VectorReadable s e.num → ∃ t, s.takeException e ra = .next t ∧ Entered s t e ra) ∧
      (FrameFaults s ∨ (FrameWritable s ∧ VectorDenied s e.num) →
        (-1 < s.executionPriority → VectorReadable s 3 →
          ∃ t, s.takeException e ra = .next t ∧
            EnteredWith (fun k => ¬Denied s .write .word (wordAt fp k)) s t .hardFault ra) ∧
          (s.executionPriority ≤ -1 →
            ∃ t, s.takeException e ra = .next t ∧ SameOutside s t fp 8 ∧ t = lowered t))

/-- Exception return reads the frame on the stack that EXC_RETURN names and restores the registers, the PSR, the PC and the stack
pointer; the exception is no longer active. Where a read of the frame faults, HardFault is entered by tail-chaining with the frame left
in place, or, where the remaining priority is -1 or -2, the processor locks up (60_exceptions.md R373, R387, R388, R393, R413; that the
registers keep their values and LR holds the EXC_RETURN value after such a fault is the model's choice, assumption log 17). -/
def Obligations.ExceptionReturn : Prop :=
  ∀ (s : State) (e : Exc) (x : Word),
    let fp := if x = 0xFFFFFFFD#32 then s.psp else s.msp
    let w := fun k => bytesValue s (wordAt fp k) 4
    let toThread := x = 0xFFFFFFF9#32 ∨ x = 0xFFFFFFFD#32
    let s1 := s.clearActive e
    let priv := decide (x = 0xFFFFFFF1#32) || !s.nPriv
    let readable := fun k => (wordAt fp k).toNat % 4 = 0 ∧ OutsidePpb (wordAt fp k) ∧ s1.mpuCheck (wordAt fp k) .read priv = .ok () ∧
      (s.kindAt priv .read .word (wordAt fp k) = .ram ∨ s.kindAt priv .read .word (wordAt fp k) = .rom)
    (toThread ∧ s.activeCount = 1) ∨ (x = 0xFFFFFFF1#32 ∧ 1 < s.activeCount) →
    s.ipsr.toNat = e.num → s.isActive e = true →
    ((∀ k < 8, readable k) → w 6 % 2 = 0 → (toThread → w 7 % 64 = 0) → (¬toThread → ∃ e' : Exc, w 7 % 64 = e'.num) →
    ∃ t, s.exceptionReturn x = .next t ∧
      (t.gpr 0).toNat = w 0 ∧ (t.gpr 1).toNat = w 1 ∧ (t.gpr 2).toNat = w 2 ∧ (t.gpr 3).toNat = w 3 ∧ (t.gpr 12).toNat = w 4 ∧
      (∀ k : Fin 13, 4 ≤ k.val → k.val ≠ 12 → t.gpr k = s.gpr k) ∧
      t.lr.toNat = w 5 ∧ t.pc.toNat = w 6 ∧ t.ipsr.toNat = w 7 % 64 ∧
      t.epsrT = decide (w 7 / 16777216 % 2 = 1) ∧
      t.apsr = { n := decide (w 7 / 2147483648 = 1), z := decide (w 7 / 1073741824 % 2 = 1), c := decide (w 7 / 536870912 % 2 = 1),
                 v := decide (w 7 / 268435456 % 2 = 1) } ∧
      t.spsel = decide (x = 0xFFFFFFFD#32) ∧
      (if x = 0xFFFFFFFD#32 then t.msp = s.msp ∧ t.psp = (fp + 0x20) ||| BitVec.ofNat 32 (4 * (w 7 / 512 % 2))
        else t.psp = s.psp ∧ t.msp = (fp + 0x20) ||| BitVec.ofNat 32 (4 * (w 7 / 512 % 2))) ∧
      (∀ e' : Exc, t.isActive e' = (s.isActive e' && decide (e' ≠ e))) ∧
      t.eventReg = true ∧ (toThread ∧ s.scb.scr.getLsbD 1 = true → t.sleep = .onExit) ∧
      (¬(toThread ∧ s.scb.scr.getLsbD 1 = true) → t.sleep = s.sleep) ∧
      t = { s with
        regs := t.regs, lr := t.lr, pc := t.pc, ipsr := t.ipsr, epsrT := t.epsrT, apsr := t.apsr, spsel := t.spsel, msp := t.msp
        psp := t.psp, eventReg := t.eventReg, sleep := t.sleep, prefetched := none
        nvic := { s.nvic with active := t.nvic.active } }) ∧
    ((∀ k < 8, DeniedAs s1 priv .read .word (wordAt fp k) ∨ readable k) → (∃ k < 8, DeniedAs s1 priv .read .word (wordAt fp k)) →
      (s1.executionPriority ≤ -1 → s.exceptionReturn x = .next (lockedUp s1)) ∧
        (-1 < s1.executionPriority → VectorReadable s 3 → ∃ t, s.exceptionReturn x = .next t ∧ TailChained s1 t x))

/-- Entry and then return give the interrupted program back: every register, the flags, both stack pointers, the mode and the PC at
the return address; only the frame's bytes, the event register and the taken exception's pending bit differ (60_exceptions.md R371
to R376, R388). Stated with the MPU off and a state whose mode and active bits agree. -/
def Obligations.EntryThenReturn : Prop :=
  ∀ (s t : State) (e : Exc) (ra : Word),
    FrameWritable s → VectorReadable s e.num →
    (∀ k < 8, s.kindAt s.privileged .read .word (wordAt ((s.sp - 0x20) &&& 0xFFFFFFF8#32) k) = .ram) → s.mpu.enabled = false → s.msp.toNat % 4 = 0 → s.psp.toNat % 4 = 0 →
    ra.toNat % 2 = 0 → s.isActive e = false → s.scb.scr.getLsbD 1 = false →
    (s.ipsr = 0 ∧ s.activeCount = 0) ∨ (s.spsel = false ∧ 0 < s.activeCount ∧ ∃ e' : Exc, s.ipsr.toNat = e'.num) →
    s.takeException e ra = .next t →
    ∃ u, t.exceptionReturn t.lr = .next u ∧
      u = { s with
        pc := ra, mem := t.mem, eventReg := true, sleep := .running, prefetched := none
        nvic := { s.nvic with pending := s.nvic.pending &&& ~~~e.mask } } ∧
      SameOutside s u ((s.sp - 0x20) &&& 0xFFFFFFF8#32) 8

/-- An exception return with a reserved EXC_RETURN value, with the wrong nesting, from an exception that is not active, with an odd return
address in the frame, or with an IPSR in the frame that does not fit the mode returned to, is refused by name (60_exceptions.md R387, R388;
93_implementation_defined.md U2, U6, U18). -/
def Obligations.IllegalReturnRefused : Prop :=
  ∀ (s : State) (x : Word),
    let toThread := x = 0xFFFFFFF9#32 ∨ x = 0xFFFFFFFD#32
    let fp := if x = 0xFFFFFFFD#32 then s.psp else s.msp
    let w := fun k => bytesValue s (wordAt fp k) 4
    let priv := decide (x = 0xFFFFFFF1#32) || !s.nPriv
    (x ≠ 0xFFFFFFF1#32 → x ≠ 0xFFFFFFF9#32 → x ≠ 0xFFFFFFFD#32 → s.exceptionReturn x = .refused .excReturnValue) ∧
      (∀ e : Exc, s.ipsr.toNat = e.num →
        (x = 0xFFFFFFF1#32 → s.activeCount ≤ 1 → s.exceptionReturn x = .refused .excReturnNesting) ∧
          (toThread → s.activeCount ≠ 1 → s.exceptionReturn x = .refused .excReturnNesting) ∧
          ((toThread ∧ s.activeCount = 1) ∨ (x = 0xFFFFFFF1#32 ∧ 1 < s.activeCount) →
            (s.isActive e = false → s.exceptionReturn x = .refused .excReturnNotActive) ∧
              (s.isActive e = true →
                (∀ k < 8, (wordAt fp k).toNat % 4 = 0 ∧ OutsidePpb (wordAt fp k) ∧
                  (s.clearActive e).mpuCheck (wordAt fp k) .read priv = .ok () ∧
                  (s.kindAt priv .read .word (wordAt fp k) = .ram ∨ s.kindAt priv .read .word (wordAt fp k) = .rom)) →
                (w 6 % 2 = 1 → s.exceptionReturn x = .refused .excReturnOddAddress) ∧
                  (w 6 % 2 = 0 → (toThread ∧ w 7 % 64 ≠ 0) ∨ (¬toThread ∧ ∀ e' : Exc, w 7 % 64 ≠ e'.num) →
                    s.exceptionReturn x = .refused .excReturnIpsr))))

/-- The execution priority is the smallest priority value of the active exceptions, 256 where none is active, and 0 where PRIMASK is set
and it would be greater; so with PRIMASK set only NMI and HardFault are taken (60_exceptions.md R361; 10_state.md R36). -/
def Obligations.ExecutionPriorityRule : Prop :=
  ∀ s : State,
    (∀ e : Exc, s.isActive e = true → s.executionPriority ≤ s.prio e) ∧ (s.primask = true → s.executionPriority ≤ 0) ∧
      s.executionPriority ≤ 256 ∧
      (s.executionPriority = 256 ∨ (s.primask = true ∧ s.executionPriority = 0) ∨
        ∃ e : Exc, s.isActive e = true ∧ s.executionPriority = s.prio e) ∧
      (∀ e : Exc, s.primask = true → s.bestCandidate = some e → e = .nmi ∨ e = .hardFault)

/-- The exception taken is the pending, enabled one of sufficient priority with the smallest (priority, number) (60_exceptions.md R360,
R362). -/
def Obligations.CandidateChoice : Prop :=
  ∀ (s : State) (e : Exc),
    s.bestCandidate = some e ↔
      (s.isPending e = true ∧ s.isEnabled e = true ∧ s.prio e < s.executionPriority ∧
        ∀ e' : Exc, s.isPending e' = true → s.isEnabled e' = true → s.prio e' < s.executionPriority →
          s.prio e < s.prio e' ∨ (s.prio e = s.prio e' ∧ e.num ≤ e'.num))

/-- A processor in lockup stays there and executes nothing, whatever its inputs but reset: the step only samples them. NMI pending leaves
it where it was entered at priority -1, and a debugger that is attached and halts the processor leaves it in any case
(60_exceptions.md R396, R407, R421; the form of the halted step is the model's, assumption log 29). -/
def Obligations.LockupStays : Prop :=
  ∀ (s s' : State) (l : LockupLevel),
    s.lockup = some l → s.currentInput.reset = false → s' = s.takeInput.sample s.currentInput →
    ((s.currentInput.halt && s.cfg.debuggerAttached) = true →
      step s = .next { s.takeInput.sample { s.currentInput with ticks := 0 } with
        lockup := none, sleep := .running, prefetched := none }) ∧
      ((s.currentInput.halt && s.cfg.debuggerAttached) = false →
        (¬(l = .hardFault ∧ s'.isPending .nmi = true) → step s = .next s') ∧
          (l = .hardFault → s'.isPending .nmi = true →
            step s = State.takeException { s' with lockup := none } .nmi 0xFFFFFFFE))

/-- A sleeping processor wakes for a pending, enabled exception of sufficient priority, after WFI and sleep-on-exit also where PRIMASK
holds it off, or spuriously; until then a step only samples the inputs. A halt by an attached debugger wakes it too, and while it is
halted SysTick does not count (60_exceptions.md R407, R411 to R413, R418, R421; the spurious wake-up as an input and the form of the
halted step are the model's, assumption logs 10 and 29). -/
def Obligations.SleepAndWake : Prop :=
  ∀ (s s' : State),
    s.currentInput.reset = false → s' = s.takeInput.sample s.currentInput → s'.lockup = none →
    ((s.currentInput.halt && s.cfg.debuggerAttached) = true →
      ∃ t, step s = .next t ∧ t.sleep = .running ∧ t.pc = s.pc ∧ t.stk = s.stk ∧
        t = { s.takeInput.sample { s.currentInput with ticks := 0 } with lockup := none, sleep := .running, prefetched := none }) ∧
      ((s.currentInput.halt && s.cfg.debuggerAttached) = false → s'.wakes s.currentInput.wake = false → step s = .next s') ∧
      (s'.sleep = .wfi ∨ s'.sleep = .onExit →
        (s'.wakes s.currentInput.wake = true ↔ (s.currentInput.wake = true ∨
          ∃ e : Exc, s'.isPending e = true ∧ s'.isEnabled e = true ∧
            ∀ e' : Exc, s'.isActive e' = true → s'.prio e < s'.prio e'))) ∧
      (s'.sleep = .wfe →
        (s'.wakes s.currentInput.wake = true ↔ (s.currentInput.wake = true ∨
          ∃ e : Exc, s'.isPending e = true ∧ s'.isEnabled e = true ∧ s'.prio e < s'.executionPriority)))

/-- An interrupt line makes its interrupt pending where it is high and the interrupt not active, or rises; the NMI input by its rising
edge; nothing else becomes pending (60_exceptions.md R366, R367). -/
def Obligations.InterruptSampling : Prop :=
  ∀ (s : State) (l : BitVec 32) (h : Bool),
    (∀ n : Fin 32, (s.sampleIrq l).isPending (.irq n) =
        (s.isPending (.irq n) || (l.getLsbD n.val && (!s.isActive (.irq n) || !s.nvic.irqPrev.getLsbD n.val)))) ∧
      (∀ e : Exc, (∀ n, e ≠ .irq n) → (s.sampleIrq l).isPending e = s.isPending e) ∧ (s.sampleIrq l).nvic.irqPrev = l ∧
      (∀ e : Exc, (s.sampleNmi h).isPending e = (s.isPending e || (decide (e = .nmi) && h && !s.nvic.nmiPrev))) ∧
      (s.sampleNmi h).nvic.nmiPrev = h

/-- With SEVONPEND an exception that becomes pending is an event, and so is the external event input: an event wakes a processor asleep in
WFE, else it sets the event register; an exception already pending, or SEVONPEND clear, makes no event. However many events one step
brings, a processor asleep in WFE keeps the event register as it was (60_exceptions.md R412, R415 to R417). -/
def Obligations.SendEventOnPend : Prop :=
  ∀ (s : State) (e : Exc) (i : StepInput),
    (∀ e' : Exc, (s.setPending e).isPending e' = (s.isPending e' || decide (e' = e))) ∧
      (s.scb.scr.getLsbD 4 = true → s.isPending e = false →
        (s.sleep = .wfe → (s.setPending e).sleep = .running ∧ (s.setPending e).eventReg = s.eventReg) ∧
          (s.sleep ≠ .wfe → (s.setPending e).sleep = s.sleep ∧ (s.setPending e).eventReg = true)) ∧
      (s.scb.scr.getLsbD 4 = false ∨ s.isPending e = true →
        (s.setPending e).sleep = s.sleep ∧ (s.setPending e).eventReg = s.eventReg) ∧
      s.sampleEvent false = s ∧ (s.sleep = .wfe → s.sampleEvent true = { s with sleep := .running }) ∧
      (s.sleep ≠ .wfe → s.sampleEvent true = { s with eventReg := true }) ∧
      (s.sleep = .wfe → (s.sample i).eventReg = s.eventReg ∧ (i.event = true → (s.sample i).sleep = .running)) ∧
      (s.sleep ≠ .wfe → (s.sample i).sleep = s.sleep ∧ (i.event = true → (s.sample i).eventReg = true))

/-- The set and clear registers of the NVIC act on the bits written as 1 and on nothing else, but that with SEVONPEND an interrupt that
becomes pending is an event; a write to NVIC_IPRn keeps the two highest bits of each byte as the priorities of the interrupts 4n to
4n + 3; a read gives the enable bits, the pending bits or the priority word (10_state.md R54 to R59; 60_exceptions.md R416). -/
def Obligations.NvicSetAndClear : Prop :=
  ∀ (s : State) (w : Word) (k : Fin 8),
    let event := s.scb.scr.getLsbD 4 = true ∧ ∃ n : Fin 32, w.getLsbD n.val = true ∧ s.isPending (.irq n) = false
    (∃ t, s.ppbWrite .nvicIser w = .ok t ∧ (∀ n, t.isEnabled (.irq n) = (s.isEnabled (.irq n) || w.getLsbD n.val)) ∧
        t = { s with nvic := { s.nvic with enable := t.nvic.enable } }) ∧
      (∃ t, s.ppbWrite .nvicIcer w = .ok t ∧ (∀ n, t.isEnabled (.irq n) = (s.isEnabled (.irq n) && !w.getLsbD n.val)) ∧
        t = { s with nvic := { s.nvic with enable := t.nvic.enable } }) ∧
      (∃ t, s.ppbWrite .nvicIspr w = .ok t ∧ (∀ n, t.isPending (.irq n) = (s.isPending (.irq n) || w.getLsbD n.val)) ∧
        (∀ j < 16, t.nvic.pending.getLsbD j = s.nvic.pending.getLsbD j) ∧
        t.sleep = (if event ∧ s.sleep = .wfe then .running else s.sleep) ∧
        t.eventReg = (if event ∧ s.sleep ≠ .wfe then true else s.eventReg) ∧
        t = { s with nvic := { s.nvic with pending := t.nvic.pending }, sleep := t.sleep, eventReg := t.eventReg }) ∧
      (∃ t, s.ppbWrite .nvicIcpr w = .ok t ∧ (∀ n, t.isPending (.irq n) = (s.isPending (.irq n) && !w.getLsbD n.val)) ∧
        (∀ j < 16, t.nvic.pending.getLsbD j = s.nvic.pending.getLsbD j) ∧
        t = { s with nvic := { s.nvic with pending := t.nvic.pending } }) ∧
      (∀ n : Fin 32, (s.ppbValue .nvicIser).getLsbD n.val = s.isEnabled (.irq n) ∧
        (s.ppbValue .nvicIcer).getLsbD n.val = s.isEnabled (.irq n) ∧
        (s.ppbValue .nvicIspr).getLsbD n.val = s.isPending (.irq n) ∧ (s.ppbValue .nvicIcpr).getLsbD n.val = s.isPending (.irq n)) ∧
      s.ppbValue (.nvicIpr k) = s.nvic.ipr[k] ∧
      (∃ t, s.ppbWrite (.nvicIpr k) w = .ok t ∧ t.ppbValue (.nvicIpr k) = w &&& 0xC0C0C0C0#32 ∧
        (∀ n : Fin 32, t.prio (.irq n) =
          if n.val / 4 = k.val then ((w.toNat / 2 ^ (8 * (n.val % 4)) % 256 / 64 * 64 : Nat) : Int) else s.prio (.irq n)) ∧
        t = { s with nvic := { s.nvic with ipr := t.nvic.ipr } })

/-- CPUID, CCR, STK_CALIB and MPU_TYPE read their fixed values and ignore writes (10_state.md R62, R70, R79, R82). -/
def Obligations.ReadOnlyRegisters : Prop :=
  ∀ (s : State) (w : Word),
    s.ppbValue .cpuid = 0x410CC601 ∧ s.ppbValue .ccr = 0x00000208 ∧
      (s.ppbValue .stkCalib).toNat = 0x40000000 + s.cfg.tenms.toNat ∧
      s.ppbValue .mpuType = (if s.cfg.hasMpu then 0x00000800 else 0) ∧
      ∀ r, r = .cpuid ∨ r = .ccr ∨ r = .stkCalib ∨ r = .mpuType → s.ppbWrite r w = .ok s

/-- VTOR, SCR, SHPR2 and SHPR3 read as the word they hold, and AIRCR[15:0] as zero. The writes of VTOR, SCR, SHPR2, SHPR3, STK_CSR and
STK_RVR keep the implemented bits and change nothing else, and are refused where they set a reserved bit that must be kept cleared, which
bits these are being the reading of assumption log 24; AIRCR acts only with its key, where SYSRESETREQ asks for a reset and VECTCLRACTIVE
is refused (10_state.md R53, R66, R67, R69, R71, R72, R76, R77; 93_implementation_defined.md U5). -/
def Obligations.SystemControlWrites : Prop :=
  ∀ (s : State) (w : Word),
    s.ppbValue .vtor = s.scb.vtor ∧ s.ppbValue .scr = s.scb.scr ∧ s.ppbValue .shpr2 = s.scb.shpr2 ∧
      s.ppbValue .shpr3 = s.scb.shpr3 ∧ (s.ppbValue .aircr).toNat % 65536 = 0 ∧
      (∃ t, s.ppbWrite .vtor w = .ok t ∧ t = { s with scb := { s.scb with vtor := BitVec.ofNat 32 (w.toNat / 128 * 128) } }) ∧
      (w.getLsbD 3 = false → w.getLsbD 0 = false →
        s.ppbWrite .scr w = .ok { s with scb := { s.scb with scr := w &&& 0x00000016#32 } }) ∧
      (w.getLsbD 3 = true ∨ w.getLsbD 0 = true → s.ppbWrite .scr w = .refused .reservedBitWrite) ∧
      (w.toNat % 16777216 = 0 →
        ∃ t, s.ppbWrite .shpr2 w = .ok t ∧ t.prio .svCall = ((w.toNat / 1073741824 * 64 : Nat) : Int) ∧
          t = { s with scb := { s.scb with shpr2 := w &&& 0xC0000000#32 } }) ∧
      (w.toNat % 16777216 ≠ 0 → s.ppbWrite .shpr2 w = .refused .reservedBitWrite) ∧
      (w.toNat % 65536 = 0 →
        ∃ t, s.ppbWrite .shpr3 w = .ok t ∧ t.prio .sysTick = ((w.toNat / 1073741824 * 64 : Nat) : Int) ∧
          t.prio .pendSV = ((w.toNat / 65536 % 256 / 64 * 64 : Nat) : Int) ∧
          t = { s with scb := { s.scb with shpr3 := w &&& 0xC0C00000#32 } }) ∧
      (w.toNat % 65536 ≠ 0 → s.ppbWrite .shpr3 w = .refused .reservedBitWrite) ∧
      (w.toNat / 65536 ≠ 0x05FA → s.ppbWrite .aircr w = .ok s) ∧
      (w.toNat / 65536 = 0x05FA → w.getLsbD 1 = true → s.ppbWrite .aircr w = .refused .aircrVectClrActive) ∧
      (w.toNat / 65536 = 0x05FA → w.getLsbD 1 = false →
        s.ppbWrite .aircr w = .ok { s with scb := { s.scb with resetRequest := s.scb.resetRequest || w.getLsbD 2 } }) ∧
      (w &&& 0xFFFEFFF8#32 = 0 →
        s.ppbWrite .stkCsr w = .ok { s with stk := { s.stk with ctrl := BitVec.ofNat 3 (w.toNat % 8) } }) ∧
      (w &&& 0xFFFEFFF8#32 ≠ 0 → s.ppbWrite .stkCsr w = .refused .reservedBitWrite) ∧
      (w.toNat < 16777216 → s.ppbWrite .stkRvr w = .ok { s with stk := { s.stk with reload := BitVec.ofNat 24 w.toNat } }) ∧
      (16777216 ≤ w.toNat → s.ppbWrite .stkRvr w = .refused .reservedBitWrite)

/-- ICSR: the set bits make NMI, PendSV and SysTick pending, which with SEVONPEND is an event where one of them was not pending; the clear
bits take the pending state away; both together are refused; nothing else changes; a read shows the three pending bits and, in VECTPENDING, the number of the pending enabled exception with the smallest (priority, number),
0 if there is none (10_state.md R63, R64; 60_exceptions.md R360, R415, R416). -/
def Obligations.InterruptControlState : Prop :=
  ∀ (s : State) (w : Word),
    let ready := fun e : Exc => s.isPending e = true ∧ s.isEnabled e = true
    let event := s.scb.scr.getLsbD 4 = true ∧
      ((w.getLsbD 31 = true ∧ s.isPending .nmi = false) ∨ (w.getLsbD 28 = true ∧ s.isPending .pendSV = false) ∨
        (w.getLsbD 26 = true ∧ s.isPending .sysTick = false))
    ((w.getLsbD 28 = true ∧ w.getLsbD 27 = true) ∨ (w.getLsbD 26 = true ∧ w.getLsbD 25 = true) →
      s.ppbWrite .icsr w = .refused .icsrSetClear) ∧
      (¬(w.getLsbD 28 = true ∧ w.getLsbD 27 = true) → ¬(w.getLsbD 26 = true ∧ w.getLsbD 25 = true) →
        ∃ t, s.ppbWrite .icsr w = .ok t ∧ t.isPending .nmi = (s.isPending .nmi || w.getLsbD 31) ∧
          t.isPending .pendSV = ((s.isPending .pendSV && !w.getLsbD 27) || w.getLsbD 28) ∧
          t.isPending .sysTick = ((s.isPending .sysTick && !w.getLsbD 25) || w.getLsbD 26) ∧
          (∀ e : Exc, e ≠ .nmi → e ≠ .pendSV → e ≠ .sysTick → t.isPending e = s.isPending e) ∧
          t.sleep = (if event ∧ s.sleep = .wfe then .running else s.sleep) ∧
          t.eventReg = (if event ∧ s.sleep ≠ .wfe then true else s.eventReg) ∧
          t = { s with nvic := { s.nvic with pending := t.nvic.pending }, sleep := t.sleep, eventReg := t.eventReg }) ∧
      (s.ppbValue .icsr).getLsbD 31 = s.isPending .nmi ∧ (s.ppbValue .icsr).getLsbD 28 = s.isPending .pendSV ∧
      (s.ppbValue .icsr).getLsbD 26 = s.isPending .sysTick ∧ (s.ppbValue .icsr).getLsbD 27 = false ∧
      (∀ e : Exc, ready e → (∀ e' : Exc, ready e' → s.prio e < s.prio e' ∨ (s.prio e = s.prio e' ∧ e.num ≤ e'.num)) →
        (s.ppbValue .icsr).toNat / 4096 % 64 = e.num) ∧
      ((∀ e : Exc, ¬ready e) → (s.ppbValue .icsr).toNat / 4096 % 64 = 0)

/-- SysTick: enabled, it counts down to zero in as many ticks as its value, then and only then sets COUNTFLAG and, with TICKINT, makes
SysTick pending; at zero it reloads without either; disabled, it keeps its value; reading STK_CSR shows its three control bits and
COUNTFLAG and clears COUNTFLAG, a read of STK_RVR gives the reload value, one of STK_CVR the count, and a write of it clears the count and COUNTFLAG and makes nothing pending (60_exceptions.md R406; 10_state.md R76 to R78). -/
def Obligations.SysTickCounts : Prop :=
  ∀ (s : State) (n : Nat),
    (s.stk.ctrl.getLsbD 0 = true → n < s.stk.current.toNat →
      (s.sysTickTicks n).stk.current.toNat = s.stk.current.toNat - n ∧ (s.sysTickTicks n).stk.countFlag = s.stk.countFlag ∧
        (s.sysTickTicks n).isPending .sysTick = s.isPending .sysTick) ∧
      (s.stk.ctrl.getLsbD 0 = true → n = s.stk.current.toNat → n ≠ 0 →
        (s.sysTickTicks n).stk.current = 0 ∧ (s.sysTickTicks n).stk.countFlag = true ∧
          (s.sysTickTicks n).isPending .sysTick = (s.isPending .sysTick || s.stk.ctrl.getLsbD 1)) ∧
      (s.stk.ctrl.getLsbD 0 = true → s.stk.current = 0 → s.sysTickTick = { s with stk := { s.stk with current := s.stk.reload } }) ∧
      (s.stk.ctrl.getLsbD 0 = false → s.sysTickTicks n = s) ∧
      s.ppbReadEffect .stkCsr = { s with stk := { s.stk with countFlag := false } } ∧
      (∀ w, s.ppbWrite .stkCvr w = .ok { s with stk := { s.stk with current := 0, countFlag := false } }) ∧
      (s.ppbValue .stkCvr).toNat = s.stk.current.toNat ∧ (s.ppbValue .stkRvr).toNat = s.stk.reload.toNat ∧
      (s.ppbValue .stkCsr).toNat = s.stk.ctrl.toNat + 65536 * s.stk.countFlag.toNat

/-- The region that decides is the highest-numbered one that matches: enabled, the address in its naturally aligned range of 2^(SIZE+1)
bytes, its eighth of the range not disabled (20_memory.md R172, R173). Stated where every enabled region has a permitted size. -/
def Obligations.MpuHighestRegionWins : Prop :=
  ∀ (m : Mpu) (a : Word),
    let hits := fun r : Fin 8 =>
      let n := (m.regions[r].attr.toNat / 2 % 32) + 1
      m.regions[r].attr.toNat % 2 = 1 ∧ a.toNat / 2 ^ n = m.regions[r].base.toNat / 2 ^ n ∧
        m.regions[r].attr.toNat / 2 ^ (8 + a.toNat / 2 ^ (n - 3) % 8) % 2 = 0
    (∀ r : Fin 8, m.regions[r].attr.toNat % 2 = 1 → 7 ≤ m.regions[r].attr.toNat / 2 % 32) →
    (∀ r : Fin 8, hits r → (∀ q : Fin 8, r < q → ¬hits q) → m.lookup a = .hit m.regions[r]) ∧
      ((∀ r : Fin 8, ¬hits r) → m.lookup a = .miss)

/-- The MPU is active where it is present and enabled, at priority -1 or -2 only with HFNMIENA. Inactive, it allows every data access, and
a fetch as the default map's execute-never has it. Active, it allows the data accesses of the PPB and no fetch there; outside the PPB a
region that is hit decides by AP and, for a fetch, XN; where none is hit privileged software with PRIVDEFENA goes on by the default map,
and nothing else is allowed. What is not allowed faults, but for AP = 100, which is refused (20_memory.md R121, R145, R171, R174, R175,
R176, R180; 10_state.md R88). -/
def Obligations.MpuDecision : Prop :=
  ∀ (s : State) (a : Word) (priv : Bool),
    let executable := a.toNat < 0x40000000 ∨ (0x60000000 ≤ a.toNat ∧ a.toNat < 0xA0000000)
    let byDefault := s.mpuCheck a .read priv = .ok () ∧ s.mpuCheck a .write priv = .ok () ∧
      s.mpuCheck a .fetch priv = if executable then .ok () else .fault .executeNever
    (s.mpuActive = true ↔
      (s.cfg.hasMpu = true ∧ s.mpu.ctrl.getLsbD 0 = true ∧ (s.mpu.ctrl.getLsbD 1 = true ∨ 0 ≤ s.executionPriority))) ∧
    (s.mpuActive = false → byDefault) ∧
    (s.mpuActive = true → ¬OutsidePpb a →
      s.mpuCheck a .read priv = .ok () ∧ s.mpuCheck a .write priv = .ok () ∧ s.mpuCheck a .fetch priv = .fault .executeNever) ∧
    (s.mpuActive = true → OutsidePpb a →
      (∀ r, s.mpu.lookup a = .hit r →
        let ap := r.attr.toNat / 16777216 % 8
        let writable := ap = 3 ∨ (priv = true ∧ (ap = 1 ∨ ap = 2))
        let readable := ap = 2 ∨ ap = 3 ∨ ap = 6 ∨ ap = 7 ∨ (priv = true ∧ (ap = 1 ∨ ap = 5))
        (ap = 4 → ∀ k, s.mpuCheck a k priv = .refused .mpuAp100) ∧
          (ap ≠ 4 →
            s.mpuCheck a .write priv = (if writable then .ok () else .fault .mpu) ∧
            s.mpuCheck a .read priv = (if readable then .ok () else .fault .mpu) ∧
            s.mpuCheck a .fetch priv =
              if readable then (if r.attr.toNat / 268435456 % 2 = 0 then .ok () else .fault .executeNever) else .fault .mpu)) ∧
      (s.mpu.lookup a = .miss →
        (priv = true ∧ s.mpu.ctrl.getLsbD 2 = true → byDefault) ∧
          (¬(priv = true ∧ s.mpu.ctrl.getLsbD 2 = true) → ∀ k, s.mpuCheck a k priv = .fault .mpu)))

/-- The registers of the MPU: MPU_CTRL keeps its three bits, and HFNMIENA without ENABLE is refused; MPU_RNR takes the numbers 0 to 7; a
write of MPU_RBAR with VALID selects the region it names and sets its base, without VALID it sets the base of the selected region;
MPU_RASR sets the selected region's attributes; other regions keep theirs. MPU_RBAR reads as the base above the size of the
region and the region number, the reserved bits between them zero, MPU_RASR as the selected region's attributes. That the base bits from 8
up to the size are stored and only read as zero is the model's reading (assumption log 36). Without an MPU the four read as zero and ignore writes
(10_state.md R83 to R86, R90, R91; 93_implementation_defined.md U7, U9). -/
def Obligations.MpuRegionWrites : Prop :=
  ∀ (s : State) (w : Word),
    (s.cfg.hasMpu = true →
      (w.getLsbD 1 = true ∧ w.getLsbD 0 = false → s.ppbWrite .mpuCtrl w = .refused .mpuHfnmienaWithoutEnable) ∧
        (¬(w.getLsbD 1 = true ∧ w.getLsbD 0 = false) →
          s.ppbWrite .mpuCtrl w = .ok { s with mpu := { s.mpu with ctrl := BitVec.ofNat 3 (w.toNat % 8) } }) ∧
        (s.ppbValue .mpuCtrl).toNat = s.mpu.ctrl.toNat ∧ (s.ppbValue .mpuRnr).toNat = s.mpu.rnr.val ∧
        (let n := max 8 (s.mpu.regions[s.mpu.rnr].attr.toNat / 2 % 32 + 1)
        (s.ppbValue .mpuRbar).toNat = s.mpu.regions[s.mpu.rnr].base.toNat / 2 ^ n * 2 ^ n + s.mpu.rnr.val) ∧
        s.ppbValue .mpuRasr = s.mpu.regions[s.mpu.rnr].attr ∧
        (∀ r : Fin 8, w.toNat = r.val → s.ppbWrite .mpuRnr w = .ok { s with mpu := { s.mpu with rnr := r } }) ∧
        (8 ≤ w.toNat → w.toNat < 256 → s.ppbWrite .mpuRnr w = .refused .mpuRegionNumber) ∧
        (256 ≤ w.toNat → s.ppbWrite .mpuRnr w = .refused .reservedBitWrite) ∧
        (w.getLsbD 4 = true → w.toNat % 16 < 8 → ∃ t, s.ppbWrite .mpuRbar w = .ok t ∧ t.mpu.rnr.val = w.toNat % 16 ∧
          (∀ r : Fin 8, t.mpu.regions[r].base = if r.val = w.toNat % 16 then BitVec.ofNat 32 (w.toNat / 256 * 256) else s.mpu.regions[r].base) ∧
          (∀ r : Fin 8, t.mpu.regions[r].attr = s.mpu.regions[r].attr) ∧
          t = { s with mpu := { s.mpu with rnr := t.mpu.rnr, regions := t.mpu.regions } }) ∧
        (w.getLsbD 4 = true → 8 ≤ w.toNat % 16 → s.ppbWrite .mpuRbar w = .refused .mpuRegionNumber) ∧
        (w.getLsbD 4 = false → ∃ t, s.ppbWrite .mpuRbar w = .ok t ∧
          (∀ r : Fin 8, t.mpu.regions[r].base = if r = s.mpu.rnr then BitVec.ofNat 32 (w.toNat / 256 * 256) else s.mpu.regions[r].base) ∧
          (∀ r : Fin 8, t.mpu.regions[r].attr = s.mpu.regions[r].attr) ∧
          t = { s with mpu := { s.mpu with regions := t.mpu.regions } }) ∧
        (∃ t, s.ppbWrite .mpuRasr w = .ok t ∧
          (∀ r : Fin 8, t.mpu.regions[r].attr = if r = s.mpu.rnr then w &&& 0x1707FF3F#32 else s.mpu.regions[r].attr) ∧
          (∀ r : Fin 8, t.mpu.regions[r].base = s.mpu.regions[r].base) ∧
          t = { s with mpu := { s.mpu with regions := t.mpu.regions } })) ∧
      (s.cfg.hasMpu = false → ∀ r, r = .mpuCtrl ∨ r = .mpuRnr ∨ r = .mpuRbar ∨ r = .mpuRasr →
        s.ppbValue r = 0 ∧ s.ppbWrite r w = .ok s)

/-- Reset, from any state: MSP and the PC from the words at addresses 0 and 4, T from bit 0 of the second; privileged Thread mode on the
main stack, no mask, nothing pending, active, enabled or prioritised, VTOR, SCR, SHPR, STK_CSR and MPU_CTRL 0, every region
disabled; memory stays (70_reset_and_hazards.md R430, R433; 10_state.md R100; that memory stays is the model's choice, assumption
log 30). -/
def Obligations.ResetState : Prop :=
  ∀ s : State, s.currentInput.reset = true → (∀ a : Word, a = 0 ∨ a = 4 → s.kindAt true .read .word a = .ram ∨ s.kindAt true .read .word a = .rom) →
    ∃ t, step s = .next t ∧ t.msp.toNat = bytesValue s 0 4 / 4 * 4 ∧ t.pc.toNat = bytesValue s 4 4 / 2 * 2 ∧
      t.epsrT = decide (bytesValue s 4 4 % 2 = 1) ∧ t.ipsr = 0 ∧ t.primask = false ∧ t.nPriv = false ∧ t.spsel = false ∧
      t.lockup = none ∧ t.sleep = .running ∧ t.prefetched = none ∧ (∀ e : Exc, t.isPending e = false ∧ t.isActive e = false) ∧
      (∀ n : Fin 32, t.isEnabled (.irq n) = false ∧ t.prio (.irq n) = 0) ∧ t.scb.vtor = 0 ∧ t.scb.scr = 0 ∧ t.prio .svCall = 0 ∧
      t.prio .pendSV = 0 ∧ t.prio .sysTick = 0 ∧ t.stk.ctrl = 0 ∧ t.stk.countFlag = false ∧ t.mpu.ctrl = 0 ∧
      (∀ r : Fin 8, t.mpu.regions[r].attr.getLsbD 0 = false) ∧ t.mem = s.mem

/-- The state after reset meets the invariant: canonical memory, aligned stack pointers, an even PC, a legal mode, reserved bits zero
(10_state.md R23, R26, R32, R53, R100; that empty memory gives MSP and PC is the model's choice, assumption log 5). -/
def Obligations.ResetInvariant : Prop := Safety.Inv State.reset

/-- Every step keeps the invariant, from every state that meets it, whatever its inputs (10_state.md R23, R26, R32, R37, R38, R41, R53). -/
def Obligations.StepKeepsInvariant : Prop :=
  ∀ s t : State, Safety.Inv s → step s = .next t → Safety.Inv t

/-- What unprivileged software cannot do: whatever instruction it executes, and whatever exception that raises or that abandons it, its
privilege level, PRIMASK, the interrupt enables and priorities, the system control block, the timer's settings and the MPU stay as they
were (60_exceptions.md R401, R404). Stated for an instruction in the middle of which the timer does not count. -/
def Obligations.UnprivilegedCannotReconfigure : Prop :=
  ∀ (s t : State) (i : Instr), Unprivileged s → (∀ m, s.midway = some m → m.ticks = 0) → exec i s = .next t → ProtectedSame s t

/-- What a load or store does with what answers it. A single one that is denied, by its alignment, the PPB's rules, the MPU or a bus
error, raises HardFault with its own address and has no effect; one that is done is its one access: a device sees it and its model gives
the value loaded. LDM, STM, PUSH and POP make one access per word in rising order; the first word that is denied raises HardFault with the
instruction's own address, base and SP as they were; with MULTI_ACCESS_ATOMIC no word is transferred then, without it the earlier ones
are (20_memory.md R140, R144, R148, R149, R175; 40_memory_access.md R253, R254; 60_exceptions.md R390; 93_implementation_defined.md U26;
the record that a device model sees is the model's own, assumption log 39). -/
def Obligations.BusOutcomes : Prop :=
  ∀ s : State,
    (∀ (i : Instr) (x : Single), singleAccess s i = some x →
      (Denied s x.kind x.size x.addr → exec i s = s.raiseHardFault s.pc) ∧
        (x.kind = .read → ReachesDevice s .read x.size x.addr →
          ∃ t, exec i s = .next t ∧
            t.lo x.rt = loaded x.size x.signed (deviceAnswer s (accessRecord s .read x.size x.addr 0)) ∧
            (∀ g : Fin 13, g.val ≠ x.rt.val → t.gpr g = s.gpr g) ∧
            t = { s with regs := t.regs, devices := accessRecord s .read x.size x.addr 0 :: s.devices, pc := s.pc + 2 }) ∧
        (x.kind = .write → ReachesDevice s .write x.size x.addr →
          exec i s = .next { s with
            devices := accessRecord s .write x.size x.addr (carried x.size (s.lo x.rt)) :: s.devices, pc := s.pc + 2 }) ∧
        (x.kind = .read → ∀ v u, s.memRead x.size x.addr = .ok (v, u) →
          ∃ t, exec i s = .next t ∧ t.lo x.rt = loaded x.size x.signed v ∧
            (∀ g : Fin 13, g.val ≠ x.rt.val → t.gpr g = s.gpr g) ∧ t = { u with regs := t.regs, pc := s.pc + 2 }) ∧
        (x.kind = .write → (∀ u, s.memWrite x.size x.addr (s.lo x.rt) = .ok u → exec i s = .next { u with pc := s.pc + 2 }) ∧
          ∀ r, s.memWrite x.size x.addr (s.lo x.rt) = .refused r → exec i s = .refused r)) ∧
    (∀ (i : Instr) (k : AccessKind) (a : Word) (n j : Nat), blockAccess s i = some (k, a, n) → Uninterrupted s → j < n →
      Denied s k .word (wordAt a j) → (∀ l < j, ReachesStorage s k .word (wordAt a l)) →
      (s.cfg.multiAccessAtomic = true → exec i s = s.raiseHardFault s.pc) ∧
        ∃ u, exec i s = u.raiseHardFault s.pc ∧
          (∀ rn list8, i = .ldm rn list8 → PartlyLoaded s u a list8 j (some rn) ∧ u = { s with regs := u.regs, freeCount := u.freeCount }) ∧
          (∀ p list8, i = .pop p list8 → PartlyLoaded s u a list8 j none ∧ u = { s with regs := u.regs, freeCount := u.freeCount }) ∧
          (∀ rn list8, i = .stm rn list8 → SameOutside s u a j ∧ u = { s with mem := u.mem, freeCount := u.freeCount } ∧
            (s.cfg.multiAccessAtomic = false → ∀ r : LoReg, list8.getLsbD r.val = true → (r = rn → rank list8 rn = 0) →
              rank list8 r < j → HoldsWord s u (wordAt a (rank list8 r)) (s.lo r))) ∧
          (∀ m list8, i = .push m list8 → SameOutside s u a j ∧ u = { s with mem := u.mem } ∧
            (s.cfg.multiAccessAtomic = false → ∀ r : LoReg, list8.getLsbD r.val = true →
              rank list8 r < j → HoldsWord s u (wordAt a (rank list8 r)) (s.lo r)))) ∧
    (∀ (a : Word) (n : Nat) (ws : List Word) (u : State), readBlock s a n = some (ws, u) → Uninterrupted s →
      (∀ rn list8, blockAccess s (.ldm rn list8) = some (.read, a, n) →
        ∃ t, exec (.ldm rn list8) s = .next t ∧
          (∀ r : LoReg, list8.getLsbD r.val = true → ws[rank list8 r]? = some (t.lo r)) ∧
          (list8.getLsbD rn.val = false → t.lo rn = s.lo rn + BitVec.ofNat 32 (4 * n)) ∧
          (∀ g : Fin 13, (8 ≤ g.val ∨ list8.getLsbD g.val = false) → g.val ≠ rn.val → t.gpr g = s.gpr g) ∧
          t = { u with regs := t.regs, pc := s.pc + 2 }) ∧
      (∀ p list8, blockAccess s (.pop p list8) = some (.read, a, n) →
        ∃ t : State, exec (.pop p list8) s = (if p then t.bxWritePc (ws.getD (bitCount list8) 0) else .next { t with pc := s.pc + 2 }) ∧
          (∀ r : LoReg, list8.getLsbD r.val = true → ws[rank list8 r]? = some (t.lo r)) ∧
          (∀ g : Fin 13, (8 ≤ g.val ∨ list8.getLsbD g.val = false) → t.gpr g = s.gpr g) ∧
          t = { u with
            regs := t.regs
            msp := if s.ipsr = 0 ∧ s.spsel = true then s.msp else a + BitVec.ofNat 32 (4 * n)
            psp := if s.ipsr = 0 ∧ s.spsel = true then a + BitVec.ofNat 32 (4 * n) else s.psp })) ∧
    (∀ (a : Word) (n : Nat),
      (Uninterrupted s ∧ ∀ j < n, OutsidePpb (wordAt a j)) ∨ (s.cfg.multiAccessAtomic = false ∧ s.midway = none) →
      (∀ rn list8, blockAccess s (.stm rn list8) = some (.write, a, n) →
        ∃ ws, StmWords s rn list8 ws ∧ ∀ u, writeBlock s a ws = some u →
          ∃ t, exec (.stm rn list8) s = .next t ∧ t.lo rn = s.lo rn + BitVec.ofNat 32 (4 * n) ∧
            (∀ g : Fin 13, g.val ≠ rn.val → t.gpr g = s.gpr g) ∧
            t = { u with regs := t.regs, freeCount := t.freeCount, pc := s.pc + 2 }) ∧
      (∀ m list8, blockAccess s (.push m list8) = some (.write, a, n) →
        ∃ ws, PushWords s m list8 ws ∧ ∀ u, writeBlock s a ws = some u →
          exec (.push m list8) s = .next { u with
            msp := if s.ipsr = 0 ∧ s.spsel = true then s.msp else a
            psp := if s.ipsr = 0 ∧ s.spsel = true then a else s.psp
            pc := s.pc + 2 }))
end

