-- ==== Sys2Proof/Laws/Memory.lean ====
section
/-! SUPPORT. The laws of memory: a read after a write, and the canonical form, which every operation keeps. -/

namespace Sys2Proof.Machine

theorem Memory.byteAt_insert (m : Memory) (a : Nat) (v : Byte) (b : Nat) :
    (m.insert a v).byteAt b = if a = b then v else m.byteAt b := by
  induction m with
  | nil => simp [Memory.insert, Memory.byteAt]
  | cons c rest ih =>
    obtain ⟨k, w⟩ := c
    simp only [Memory.insert]
    split
    · simp [Memory.byteAt]
    · split
      · subst_vars; simp only [Memory.byteAt]; split <;> rfl
      · simp only [Memory.byteAt, ih]
        split
        · subst_vars; simp_all
        · rfl

theorem Memory.byteAt_erase (m : Memory) (a b : Nat) :
    (m.erase a).byteAt b = if a = b then Memory.background else m.byteAt b := by
  induction m with
  | nil => simp [Memory.erase, Memory.byteAt]
  | cons c rest ih =>
    obtain ⟨k, w⟩ := c
    simp only [Memory.erase]
    split
    · subst_vars; rw [ih]; split
      · rfl
      · simp [Memory.byteAt, *]
    · rename_i hk
      simp only [Memory.byteAt, ih]
      by_cases hkb : k = b
      · subst hkb; simp [Ne.symm hk]
      · simp [hkb]

/-- A read after a write: the byte written at its address, every other byte as before. -/
theorem Memory.byteAt_setByte (m : Memory) (a : Nat) (v : Byte) (b : Nat) :
    (m.setByte a v).byteAt b = if a = b then v else m.byteAt b := by
  unfold Memory.setByte
  split
  · subst_vars; rw [Memory.byteAt_erase]
  · rw [Memory.byteAt_insert]

@[simp] theorem Memory.byteAt_setByte_same (m : Memory) (a : Nat) (v : Byte) : (m.setByte a v).byteAt a = v := by
  simp [Memory.byteAt_setByte]

theorem Memory.byteAt_setByte_ne {a b : Nat} (m : Memory) (v : Byte) (h : a ≠ b) :
    (m.setByte a v).byteAt b = m.byteAt b := by
  simp [Memory.byteAt_setByte, h]

theorem Memory.wfFrom_mono {m : Memory} {lo hi : Nat} (h : Memory.wfFrom hi m = true) (hlo : lo ≤ hi) :
    Memory.wfFrom lo m = true := by
  cases m with
  | nil => rfl
  | cons c rest =>
    obtain ⟨k, w⟩ := c
    simp only [Memory.wfFrom, Bool.and_eq_true, decide_eq_true_eq] at h ⊢
    obtain ⟨⟨⟨h1, h2⟩, h3⟩, h4⟩ := h
    exact ⟨⟨⟨by omega, h2⟩, h3⟩, h4⟩

theorem Memory.wfFrom_insert {m : Memory} {lo a : Nat} {v : Byte} (h : Memory.wfFrom lo m = true) (hlo : lo ≤ a)
    (ha : a < 4294967296) (hv : v ≠ Memory.background) : Memory.wfFrom lo (m.insert a v) = true := by
  induction m generalizing lo with
  | nil => simp [Memory.insert, Memory.wfFrom, *]
  | cons c rest ih =>
    obtain ⟨k, w⟩ := c
    simp only [Memory.wfFrom, Bool.and_eq_true, decide_eq_true_eq] at h
    obtain ⟨⟨⟨h1, h2⟩, h3⟩, h4⟩ := h
    simp only [Memory.insert]
    split
    · simp only [Memory.wfFrom, Bool.and_eq_true, decide_eq_true_eq]
      exact ⟨⟨⟨hlo, ha⟩, hv⟩, ⟨⟨by omega, h2⟩, h3⟩, h4⟩
    · split
      · subst_vars
        simp only [Memory.wfFrom, Bool.and_eq_true, decide_eq_true_eq]
        exact ⟨⟨⟨hlo, ha⟩, hv⟩, h4⟩
      · simp only [Memory.wfFrom, Bool.and_eq_true, decide_eq_true_eq]
        exact ⟨⟨⟨h1, h2⟩, h3⟩, ih h4 (by omega)⟩

theorem Memory.wfFrom_erase {m : Memory} {lo a : Nat} (h : Memory.wfFrom lo m = true) :
    Memory.wfFrom lo (m.erase a) = true := by
  induction m generalizing lo with
  | nil => rfl
  | cons c rest ih =>
    obtain ⟨k, w⟩ := c
    simp only [Memory.wfFrom, Bool.and_eq_true, decide_eq_true_eq] at h
    obtain ⟨⟨⟨h1, h2⟩, h3⟩, h4⟩ := h
    simp only [Memory.erase]
    split
    · exact Memory.wfFrom_mono (ih h4) (by omega)
    · simp only [Memory.wfFrom, Bool.and_eq_true, decide_eq_true_eq]
      exact ⟨⟨⟨h1, h2⟩, h3⟩, ih h4⟩

/-- Writing a byte of the address space keeps the canonical form. -/
theorem Memory.wf_setByte {m : Memory} {a : Nat} {v : Byte} (h : m.wf = true) (ha : a < 4294967296) :
    (m.setByte a v).wf = true := by
  unfold Memory.setByte
  split
  · exact Memory.wfFrom_erase h
  · exact Memory.wfFrom_insert h (Nat.zero_le _) ha (by assumption)

/-- What another bus master writes keeps the canonical form. -/
theorem Memory.wf_setBytes {m : Memory} {cells : List Host.Cell} (h : m.wf = true) : (m.setBytes cells).wf = true := by
  induction cells generalizing m with
  | nil => exact h
  | cons c rest ih => exact ih (Memory.wf_setByte h (Nat.mod_lt _ (by decide)))

end Sys2Proof.Machine
end

