-- ==== Sys2Proof/Laws/State.lean ====
section
/-! SUPPORT. What every update of the state leaves as it was, one lemma per field: no later proof unfolds a record update. -/

namespace Sys2Proof.Machine

@[simp] theorem State.setMsp_regs (s : State) (v : Word) : (s.setMsp v).regs = s.regs := rfl
@[simp] theorem State.setMsp_msp (s : State) (v : Word) : (s.setMsp v).msp = alignSp v := rfl
@[simp] theorem State.setMsp_psp (s : State) (v : Word) : (s.setMsp v).psp = s.psp := rfl
@[simp] theorem State.setMsp_lr (s : State) (v : Word) : (s.setMsp v).lr = s.lr := rfl
@[simp] theorem State.setMsp_pc (s : State) (v : Word) : (s.setMsp v).pc = s.pc := rfl
@[simp] theorem State.setMsp_apsr (s : State) (v : Word) : (s.setMsp v).apsr = s.apsr := rfl
@[simp] theorem State.setMsp_ipsr (s : State) (v : Word) : (s.setMsp v).ipsr = s.ipsr := rfl
@[simp] theorem State.setMsp_epsrT (s : State) (v : Word) : (s.setMsp v).epsrT = s.epsrT := rfl
@[simp] theorem State.setMsp_primask (s : State) (v : Word) : (s.setMsp v).primask = s.primask := rfl
@[simp] theorem State.setMsp_nPriv (s : State) (v : Word) : (s.setMsp v).nPriv = s.nPriv := rfl
@[simp] theorem State.setMsp_spsel (s : State) (v : Word) : (s.setMsp v).spsel = s.spsel := rfl
@[simp] theorem State.setMsp_eventReg (s : State) (v : Word) : (s.setMsp v).eventReg = s.eventReg := rfl
@[simp] theorem State.setMsp_lockup (s : State) (v : Word) : (s.setMsp v).lockup = s.lockup := rfl
@[simp] theorem State.setMsp_sleep (s : State) (v : Word) : (s.setMsp v).sleep = s.sleep := rfl
@[simp] theorem State.setMsp_nvic (s : State) (v : Word) : (s.setMsp v).nvic = s.nvic := rfl
@[simp] theorem State.setMsp_scb (s : State) (v : Word) : (s.setMsp v).scb = s.scb := rfl
@[simp] theorem State.setMsp_stk (s : State) (v : Word) : (s.setMsp v).stk = s.stk := rfl
@[simp] theorem State.setMsp_mpu (s : State) (v : Word) : (s.setMsp v).mpu = s.mpu := rfl
@[simp] theorem State.setMsp_mem (s : State) (v : Word) : (s.setMsp v).mem = s.mem := rfl
@[simp] theorem State.setMsp_prefetched (s : State) (v : Word) : (s.setMsp v).prefetched = s.prefetched := rfl
@[simp] theorem State.setMsp_devices (s : State) (v : Word) : (s.setMsp v).devices = s.devices := rfl
@[simp] theorem State.setMsp_deviceInput (s : State) (v : Word) : (s.setMsp v).deviceInput = s.deviceInput := rfl
@[simp] theorem State.setMsp_midway (s : State) (v : Word) : (s.setMsp v).midway = s.midway := rfl
@[simp] theorem State.setMsp_inputs (s : State) (v : Word) : (s.setMsp v).inputs = s.inputs := rfl
@[simp] theorem State.setMsp_freeCount (s : State) (v : Word) : (s.setMsp v).freeCount = s.freeCount := rfl
@[simp] theorem State.setMsp_cfg (s : State) (v : Word) : (s.setMsp v).cfg = s.cfg := rfl

@[simp] theorem State.setPsp_regs (s : State) (v : Word) : (s.setPsp v).regs = s.regs := rfl
@[simp] theorem State.setPsp_msp (s : State) (v : Word) : (s.setPsp v).msp = s.msp := rfl
@[simp] theorem State.setPsp_psp (s : State) (v : Word) : (s.setPsp v).psp = alignSp v := rfl
@[simp] theorem State.setPsp_lr (s : State) (v : Word) : (s.setPsp v).lr = s.lr := rfl
@[simp] theorem State.setPsp_pc (s : State) (v : Word) : (s.setPsp v).pc = s.pc := rfl
@[simp] theorem State.setPsp_apsr (s : State) (v : Word) : (s.setPsp v).apsr = s.apsr := rfl
@[simp] theorem State.setPsp_ipsr (s : State) (v : Word) : (s.setPsp v).ipsr = s.ipsr := rfl
@[simp] theorem State.setPsp_epsrT (s : State) (v : Word) : (s.setPsp v).epsrT = s.epsrT := rfl
@[simp] theorem State.setPsp_primask (s : State) (v : Word) : (s.setPsp v).primask = s.primask := rfl
@[simp] theorem State.setPsp_nPriv (s : State) (v : Word) : (s.setPsp v).nPriv = s.nPriv := rfl
@[simp] theorem State.setPsp_spsel (s : State) (v : Word) : (s.setPsp v).spsel = s.spsel := rfl
@[simp] theorem State.setPsp_eventReg (s : State) (v : Word) : (s.setPsp v).eventReg = s.eventReg := rfl
@[simp] theorem State.setPsp_lockup (s : State) (v : Word) : (s.setPsp v).lockup = s.lockup := rfl
@[simp] theorem State.setPsp_sleep (s : State) (v : Word) : (s.setPsp v).sleep = s.sleep := rfl
@[simp] theorem State.setPsp_nvic (s : State) (v : Word) : (s.setPsp v).nvic = s.nvic := rfl
@[simp] theorem State.setPsp_scb (s : State) (v : Word) : (s.setPsp v).scb = s.scb := rfl
@[simp] theorem State.setPsp_stk (s : State) (v : Word) : (s.setPsp v).stk = s.stk := rfl
@[simp] theorem State.setPsp_mpu (s : State) (v : Word) : (s.setPsp v).mpu = s.mpu := rfl
@[simp] theorem State.setPsp_mem (s : State) (v : Word) : (s.setPsp v).mem = s.mem := rfl
@[simp] theorem State.setPsp_prefetched (s : State) (v : Word) : (s.setPsp v).prefetched = s.prefetched := rfl
@[simp] theorem State.setPsp_devices (s : State) (v : Word) : (s.setPsp v).devices = s.devices := rfl
@[simp] theorem State.setPsp_deviceInput (s : State) (v : Word) : (s.setPsp v).deviceInput = s.deviceInput := rfl
@[simp] theorem State.setPsp_midway (s : State) (v : Word) : (s.setPsp v).midway = s.midway := rfl
@[simp] theorem State.setPsp_inputs (s : State) (v : Word) : (s.setPsp v).inputs = s.inputs := rfl
@[simp] theorem State.setPsp_freeCount (s : State) (v : Word) : (s.setPsp v).freeCount = s.freeCount := rfl
@[simp] theorem State.setPsp_cfg (s : State) (v : Word) : (s.setPsp v).cfg = s.cfg := rfl

@[simp] theorem State.setGpr_regs (s : State) (n : Fin 13) (v : Word) : (s.setGpr n v).regs = s.regs.set n v := rfl
@[simp] theorem State.setGpr_msp (s : State) (n : Fin 13) (v : Word) : (s.setGpr n v).msp = s.msp := rfl
@[simp] theorem State.setGpr_psp (s : State) (n : Fin 13) (v : Word) : (s.setGpr n v).psp = s.psp := rfl
@[simp] theorem State.setGpr_lr (s : State) (n : Fin 13) (v : Word) : (s.setGpr n v).lr = s.lr := rfl
@[simp] theorem State.setGpr_pc (s : State) (n : Fin 13) (v : Word) : (s.setGpr n v).pc = s.pc := rfl
@[simp] theorem State.setGpr_apsr (s : State) (n : Fin 13) (v : Word) : (s.setGpr n v).apsr = s.apsr := rfl
@[simp] theorem State.setGpr_ipsr (s : State) (n : Fin 13) (v : Word) : (s.setGpr n v).ipsr = s.ipsr := rfl
@[simp] theorem State.setGpr_epsrT (s : State) (n : Fin 13) (v : Word) : (s.setGpr n v).epsrT = s.epsrT := rfl
@[simp] theorem State.setGpr_primask (s : State) (n : Fin 13) (v : Word) : (s.setGpr n v).primask = s.primask := rfl
@[simp] theorem State.setGpr_nPriv (s : State) (n : Fin 13) (v : Word) : (s.setGpr n v).nPriv = s.nPriv := rfl
@[simp] theorem State.setGpr_spsel (s : State) (n : Fin 13) (v : Word) : (s.setGpr n v).spsel = s.spsel := rfl
@[simp] theorem State.setGpr_eventReg (s : State) (n : Fin 13) (v : Word) : (s.setGpr n v).eventReg = s.eventReg := rfl
@[simp] theorem State.setGpr_lockup (s : State) (n : Fin 13) (v : Word) : (s.setGpr n v).lockup = s.lockup := rfl
@[simp] theorem State.setGpr_sleep (s : State) (n : Fin 13) (v : Word) : (s.setGpr n v).sleep = s.sleep := rfl
@[simp] theorem State.setGpr_nvic (s : State) (n : Fin 13) (v : Word) : (s.setGpr n v).nvic = s.nvic := rfl
@[simp] theorem State.setGpr_scb (s : State) (n : Fin 13) (v : Word) : (s.setGpr n v).scb = s.scb := rfl
@[simp] theorem State.setGpr_stk (s : State) (n : Fin 13) (v : Word) : (s.setGpr n v).stk = s.stk := rfl
@[simp] theorem State.setGpr_mpu (s : State) (n : Fin 13) (v : Word) : (s.setGpr n v).mpu = s.mpu := rfl
@[simp] theorem State.setGpr_mem (s : State) (n : Fin 13) (v : Word) : (s.setGpr n v).mem = s.mem := rfl
@[simp] theorem State.setGpr_prefetched (s : State) (n : Fin 13) (v : Word) : (s.setGpr n v).prefetched = s.prefetched := rfl
@[simp] theorem State.setGpr_devices (s : State) (n : Fin 13) (v : Word) : (s.setGpr n v).devices = s.devices := rfl
@[simp] theorem State.setGpr_deviceInput (s : State) (n : Fin 13) (v : Word) : (s.setGpr n v).deviceInput = s.deviceInput := rfl
@[simp] theorem State.setGpr_midway (s : State) (n : Fin 13) (v : Word) : (s.setGpr n v).midway = s.midway := rfl
@[simp] theorem State.setGpr_inputs (s : State) (n : Fin 13) (v : Word) : (s.setGpr n v).inputs = s.inputs := rfl
@[simp] theorem State.setGpr_freeCount (s : State) (n : Fin 13) (v : Word) : (s.setGpr n v).freeCount = s.freeCount := rfl
@[simp] theorem State.setGpr_cfg (s : State) (n : Fin 13) (v : Word) : (s.setGpr n v).cfg = s.cfg := rfl

@[simp] theorem State.setLo_regs (s : State) (r : LoReg) (v : Word) : (s.setLo r v).regs = s.regs.set (LoReg.gpr r) v := rfl
@[simp] theorem State.setLo_msp (s : State) (r : LoReg) (v : Word) : (s.setLo r v).msp = s.msp := rfl
@[simp] theorem State.setLo_psp (s : State) (r : LoReg) (v : Word) : (s.setLo r v).psp = s.psp := rfl
@[simp] theorem State.setLo_lr (s : State) (r : LoReg) (v : Word) : (s.setLo r v).lr = s.lr := rfl
@[simp] theorem State.setLo_pc (s : State) (r : LoReg) (v : Word) : (s.setLo r v).pc = s.pc := rfl
@[simp] theorem State.setLo_apsr (s : State) (r : LoReg) (v : Word) : (s.setLo r v).apsr = s.apsr := rfl
@[simp] theorem State.setLo_ipsr (s : State) (r : LoReg) (v : Word) : (s.setLo r v).ipsr = s.ipsr := rfl
@[simp] theorem State.setLo_epsrT (s : State) (r : LoReg) (v : Word) : (s.setLo r v).epsrT = s.epsrT := rfl
@[simp] theorem State.setLo_primask (s : State) (r : LoReg) (v : Word) : (s.setLo r v).primask = s.primask := rfl
@[simp] theorem State.setLo_nPriv (s : State) (r : LoReg) (v : Word) : (s.setLo r v).nPriv = s.nPriv := rfl
@[simp] theorem State.setLo_spsel (s : State) (r : LoReg) (v : Word) : (s.setLo r v).spsel = s.spsel := rfl
@[simp] theorem State.setLo_eventReg (s : State) (r : LoReg) (v : Word) : (s.setLo r v).eventReg = s.eventReg := rfl
@[simp] theorem State.setLo_lockup (s : State) (r : LoReg) (v : Word) : (s.setLo r v).lockup = s.lockup := rfl
@[simp] theorem State.setLo_sleep (s : State) (r : LoReg) (v : Word) : (s.setLo r v).sleep = s.sleep := rfl
@[simp] theorem State.setLo_nvic (s : State) (r : LoReg) (v : Word) : (s.setLo r v).nvic = s.nvic := rfl
@[simp] theorem State.setLo_scb (s : State) (r : LoReg) (v : Word) : (s.setLo r v).scb = s.scb := rfl
@[simp] theorem State.setLo_stk (s : State) (r : LoReg) (v : Word) : (s.setLo r v).stk = s.stk := rfl
@[simp] theorem State.setLo_mpu (s : State) (r : LoReg) (v : Word) : (s.setLo r v).mpu = s.mpu := rfl
@[simp] theorem State.setLo_mem (s : State) (r : LoReg) (v : Word) : (s.setLo r v).mem = s.mem := rfl
@[simp] theorem State.setLo_prefetched (s : State) (r : LoReg) (v : Word) : (s.setLo r v).prefetched = s.prefetched := rfl
@[simp] theorem State.setLo_devices (s : State) (r : LoReg) (v : Word) : (s.setLo r v).devices = s.devices := rfl
@[simp] theorem State.setLo_deviceInput (s : State) (r : LoReg) (v : Word) : (s.setLo r v).deviceInput = s.deviceInput := rfl
@[simp] theorem State.setLo_midway (s : State) (r : LoReg) (v : Word) : (s.setLo r v).midway = s.midway := rfl
@[simp] theorem State.setLo_inputs (s : State) (r : LoReg) (v : Word) : (s.setLo r v).inputs = s.inputs := rfl
@[simp] theorem State.setLo_freeCount (s : State) (r : LoReg) (v : Word) : (s.setLo r v).freeCount = s.freeCount := rfl
@[simp] theorem State.setLo_cfg (s : State) (r : LoReg) (v : Word) : (s.setLo r v).cfg = s.cfg := rfl

@[simp] theorem State.setPc_regs (s : State) (v : Word) : (s.setPc v).regs = s.regs := rfl
@[simp] theorem State.setPc_msp (s : State) (v : Word) : (s.setPc v).msp = s.msp := rfl
@[simp] theorem State.setPc_psp (s : State) (v : Word) : (s.setPc v).psp = s.psp := rfl
@[simp] theorem State.setPc_lr (s : State) (v : Word) : (s.setPc v).lr = s.lr := rfl
@[simp] theorem State.setPc_pc (s : State) (v : Word) : (s.setPc v).pc = v &&& 0xFFFFFFFE#32 := rfl
@[simp] theorem State.setPc_apsr (s : State) (v : Word) : (s.setPc v).apsr = s.apsr := rfl
@[simp] theorem State.setPc_ipsr (s : State) (v : Word) : (s.setPc v).ipsr = s.ipsr := rfl
@[simp] theorem State.setPc_epsrT (s : State) (v : Word) : (s.setPc v).epsrT = s.epsrT := rfl
@[simp] theorem State.setPc_primask (s : State) (v : Word) : (s.setPc v).primask = s.primask := rfl
@[simp] theorem State.setPc_nPriv (s : State) (v : Word) : (s.setPc v).nPriv = s.nPriv := rfl
@[simp] theorem State.setPc_spsel (s : State) (v : Word) : (s.setPc v).spsel = s.spsel := rfl
@[simp] theorem State.setPc_eventReg (s : State) (v : Word) : (s.setPc v).eventReg = s.eventReg := rfl
@[simp] theorem State.setPc_lockup (s : State) (v : Word) : (s.setPc v).lockup = s.lockup := rfl
@[simp] theorem State.setPc_sleep (s : State) (v : Word) : (s.setPc v).sleep = s.sleep := rfl
@[simp] theorem State.setPc_nvic (s : State) (v : Word) : (s.setPc v).nvic = s.nvic := rfl
@[simp] theorem State.setPc_scb (s : State) (v : Word) : (s.setPc v).scb = s.scb := rfl
@[simp] theorem State.setPc_stk (s : State) (v : Word) : (s.setPc v).stk = s.stk := rfl
@[simp] theorem State.setPc_mpu (s : State) (v : Word) : (s.setPc v).mpu = s.mpu := rfl
@[simp] theorem State.setPc_mem (s : State) (v : Word) : (s.setPc v).mem = s.mem := rfl
@[simp] theorem State.setPc_prefetched (s : State) (v : Word) : (s.setPc v).prefetched = s.prefetched := rfl
@[simp] theorem State.setPc_devices (s : State) (v : Word) : (s.setPc v).devices = s.devices := rfl
@[simp] theorem State.setPc_deviceInput (s : State) (v : Word) : (s.setPc v).deviceInput = s.deviceInput := rfl
@[simp] theorem State.setPc_midway (s : State) (v : Word) : (s.setPc v).midway = s.midway := rfl
@[simp] theorem State.setPc_inputs (s : State) (v : Word) : (s.setPc v).inputs = s.inputs := rfl
@[simp] theorem State.setPc_freeCount (s : State) (v : Word) : (s.setPc v).freeCount = s.freeCount := rfl
@[simp] theorem State.setPc_cfg (s : State) (v : Word) : (s.setPc v).cfg = s.cfg := rfl

@[simp] theorem State.advance_regs (s : State) (n : Word) : (s.advance n).regs = s.regs := rfl
@[simp] theorem State.advance_msp (s : State) (n : Word) : (s.advance n).msp = s.msp := rfl
@[simp] theorem State.advance_psp (s : State) (n : Word) : (s.advance n).psp = s.psp := rfl
@[simp] theorem State.advance_lr (s : State) (n : Word) : (s.advance n).lr = s.lr := rfl
@[simp] theorem State.advance_pc (s : State) (n : Word) : (s.advance n).pc = s.pc + n := rfl
@[simp] theorem State.advance_apsr (s : State) (n : Word) : (s.advance n).apsr = s.apsr := rfl
@[simp] theorem State.advance_ipsr (s : State) (n : Word) : (s.advance n).ipsr = s.ipsr := rfl
@[simp] theorem State.advance_epsrT (s : State) (n : Word) : (s.advance n).epsrT = s.epsrT := rfl
@[simp] theorem State.advance_primask (s : State) (n : Word) : (s.advance n).primask = s.primask := rfl
@[simp] theorem State.advance_nPriv (s : State) (n : Word) : (s.advance n).nPriv = s.nPriv := rfl
@[simp] theorem State.advance_spsel (s : State) (n : Word) : (s.advance n).spsel = s.spsel := rfl
@[simp] theorem State.advance_eventReg (s : State) (n : Word) : (s.advance n).eventReg = s.eventReg := rfl
@[simp] theorem State.advance_lockup (s : State) (n : Word) : (s.advance n).lockup = s.lockup := rfl
@[simp] theorem State.advance_sleep (s : State) (n : Word) : (s.advance n).sleep = s.sleep := rfl
@[simp] theorem State.advance_nvic (s : State) (n : Word) : (s.advance n).nvic = s.nvic := rfl
@[simp] theorem State.advance_scb (s : State) (n : Word) : (s.advance n).scb = s.scb := rfl
@[simp] theorem State.advance_stk (s : State) (n : Word) : (s.advance n).stk = s.stk := rfl
@[simp] theorem State.advance_mpu (s : State) (n : Word) : (s.advance n).mpu = s.mpu := rfl
@[simp] theorem State.advance_mem (s : State) (n : Word) : (s.advance n).mem = s.mem := rfl
@[simp] theorem State.advance_prefetched (s : State) (n : Word) : (s.advance n).prefetched = s.prefetched := rfl
@[simp] theorem State.advance_devices (s : State) (n : Word) : (s.advance n).devices = s.devices := rfl
@[simp] theorem State.advance_deviceInput (s : State) (n : Word) : (s.advance n).deviceInput = s.deviceInput := rfl
@[simp] theorem State.advance_midway (s : State) (n : Word) : (s.advance n).midway = s.midway := rfl
@[simp] theorem State.advance_inputs (s : State) (n : Word) : (s.advance n).inputs = s.inputs := rfl
@[simp] theorem State.advance_freeCount (s : State) (n : Word) : (s.advance n).freeCount = s.freeCount := rfl
@[simp] theorem State.advance_cfg (s : State) (n : Word) : (s.advance n).cfg = s.cfg := rfl

@[simp] theorem State.setFlags_regs (s : State) (f : Apsr) : (s.setFlags f).regs = s.regs := rfl
@[simp] theorem State.setFlags_msp (s : State) (f : Apsr) : (s.setFlags f).msp = s.msp := rfl
@[simp] theorem State.setFlags_psp (s : State) (f : Apsr) : (s.setFlags f).psp = s.psp := rfl
@[simp] theorem State.setFlags_lr (s : State) (f : Apsr) : (s.setFlags f).lr = s.lr := rfl
@[simp] theorem State.setFlags_pc (s : State) (f : Apsr) : (s.setFlags f).pc = s.pc := rfl
@[simp] theorem State.setFlags_apsr (s : State) (f : Apsr) : (s.setFlags f).apsr = f := rfl
@[simp] theorem State.setFlags_ipsr (s : State) (f : Apsr) : (s.setFlags f).ipsr = s.ipsr := rfl
@[simp] theorem State.setFlags_epsrT (s : State) (f : Apsr) : (s.setFlags f).epsrT = s.epsrT := rfl
@[simp] theorem State.setFlags_primask (s : State) (f : Apsr) : (s.setFlags f).primask = s.primask := rfl
@[simp] theorem State.setFlags_nPriv (s : State) (f : Apsr) : (s.setFlags f).nPriv = s.nPriv := rfl
@[simp] theorem State.setFlags_spsel (s : State) (f : Apsr) : (s.setFlags f).spsel = s.spsel := rfl
@[simp] theorem State.setFlags_eventReg (s : State) (f : Apsr) : (s.setFlags f).eventReg = s.eventReg := rfl
@[simp] theorem State.setFlags_lockup (s : State) (f : Apsr) : (s.setFlags f).lockup = s.lockup := rfl
@[simp] theorem State.setFlags_sleep (s : State) (f : Apsr) : (s.setFlags f).sleep = s.sleep := rfl
@[simp] theorem State.setFlags_nvic (s : State) (f : Apsr) : (s.setFlags f).nvic = s.nvic := rfl
@[simp] theorem State.setFlags_scb (s : State) (f : Apsr) : (s.setFlags f).scb = s.scb := rfl
@[simp] theorem State.setFlags_stk (s : State) (f : Apsr) : (s.setFlags f).stk = s.stk := rfl
@[simp] theorem State.setFlags_mpu (s : State) (f : Apsr) : (s.setFlags f).mpu = s.mpu := rfl
@[simp] theorem State.setFlags_mem (s : State) (f : Apsr) : (s.setFlags f).mem = s.mem := rfl
@[simp] theorem State.setFlags_prefetched (s : State) (f : Apsr) : (s.setFlags f).prefetched = s.prefetched := rfl
@[simp] theorem State.setFlags_devices (s : State) (f : Apsr) : (s.setFlags f).devices = s.devices := rfl
@[simp] theorem State.setFlags_deviceInput (s : State) (f : Apsr) : (s.setFlags f).deviceInput = s.deviceInput := rfl
@[simp] theorem State.setFlags_midway (s : State) (f : Apsr) : (s.setFlags f).midway = s.midway := rfl
@[simp] theorem State.setFlags_inputs (s : State) (f : Apsr) : (s.setFlags f).inputs = s.inputs := rfl
@[simp] theorem State.setFlags_freeCount (s : State) (f : Apsr) : (s.setFlags f).freeCount = s.freeCount := rfl
@[simp] theorem State.setFlags_cfg (s : State) (f : Apsr) : (s.setFlags f).cfg = s.cfg := rfl

@[simp] theorem State.drewFree_regs (s : State) : (s.drewFree).regs = s.regs := rfl
@[simp] theorem State.drewFree_msp (s : State) : (s.drewFree).msp = s.msp := rfl
@[simp] theorem State.drewFree_psp (s : State) : (s.drewFree).psp = s.psp := rfl
@[simp] theorem State.drewFree_lr (s : State) : (s.drewFree).lr = s.lr := rfl
@[simp] theorem State.drewFree_pc (s : State) : (s.drewFree).pc = s.pc := rfl
@[simp] theorem State.drewFree_apsr (s : State) : (s.drewFree).apsr = s.apsr := rfl
@[simp] theorem State.drewFree_ipsr (s : State) : (s.drewFree).ipsr = s.ipsr := rfl
@[simp] theorem State.drewFree_epsrT (s : State) : (s.drewFree).epsrT = s.epsrT := rfl
@[simp] theorem State.drewFree_primask (s : State) : (s.drewFree).primask = s.primask := rfl
@[simp] theorem State.drewFree_nPriv (s : State) : (s.drewFree).nPriv = s.nPriv := rfl
@[simp] theorem State.drewFree_spsel (s : State) : (s.drewFree).spsel = s.spsel := rfl
@[simp] theorem State.drewFree_eventReg (s : State) : (s.drewFree).eventReg = s.eventReg := rfl
@[simp] theorem State.drewFree_lockup (s : State) : (s.drewFree).lockup = s.lockup := rfl
@[simp] theorem State.drewFree_sleep (s : State) : (s.drewFree).sleep = s.sleep := rfl
@[simp] theorem State.drewFree_nvic (s : State) : (s.drewFree).nvic = s.nvic := rfl
@[simp] theorem State.drewFree_scb (s : State) : (s.drewFree).scb = s.scb := rfl
@[simp] theorem State.drewFree_stk (s : State) : (s.drewFree).stk = s.stk := rfl
@[simp] theorem State.drewFree_mpu (s : State) : (s.drewFree).mpu = s.mpu := rfl
@[simp] theorem State.drewFree_mem (s : State) : (s.drewFree).mem = s.mem := rfl
@[simp] theorem State.drewFree_prefetched (s : State) : (s.drewFree).prefetched = s.prefetched := rfl
@[simp] theorem State.drewFree_devices (s : State) : (s.drewFree).devices = s.devices := rfl
@[simp] theorem State.drewFree_deviceInput (s : State) : (s.drewFree).deviceInput = s.deviceInput := rfl
@[simp] theorem State.drewFree_midway (s : State) : (s.drewFree).midway = s.midway := rfl
@[simp] theorem State.drewFree_inputs (s : State) : (s.drewFree).inputs = s.inputs := rfl
@[simp] theorem State.drewFree_freeCount (s : State) : (s.drewFree).freeCount = s.freeCount + 1 := rfl
@[simp] theorem State.drewFree_cfg (s : State) : (s.drewFree).cfg = s.cfg := rfl

@[simp] theorem State.withPending_regs (s : State) (p : BitVec 48) : (s.withPending p).regs = s.regs := rfl
@[simp] theorem State.withPending_msp (s : State) (p : BitVec 48) : (s.withPending p).msp = s.msp := rfl
@[simp] theorem State.withPending_psp (s : State) (p : BitVec 48) : (s.withPending p).psp = s.psp := rfl
@[simp] theorem State.withPending_lr (s : State) (p : BitVec 48) : (s.withPending p).lr = s.lr := rfl
@[simp] theorem State.withPending_pc (s : State) (p : BitVec 48) : (s.withPending p).pc = s.pc := rfl
@[simp] theorem State.withPending_apsr (s : State) (p : BitVec 48) : (s.withPending p).apsr = s.apsr := rfl
@[simp] theorem State.withPending_ipsr (s : State) (p : BitVec 48) : (s.withPending p).ipsr = s.ipsr := rfl
@[simp] theorem State.withPending_epsrT (s : State) (p : BitVec 48) : (s.withPending p).epsrT = s.epsrT := rfl
@[simp] theorem State.withPending_primask (s : State) (p : BitVec 48) : (s.withPending p).primask = s.primask := rfl
@[simp] theorem State.withPending_nPriv (s : State) (p : BitVec 48) : (s.withPending p).nPriv = s.nPriv := rfl
@[simp] theorem State.withPending_spsel (s : State) (p : BitVec 48) : (s.withPending p).spsel = s.spsel := rfl
@[simp] theorem State.withPending_eventReg (s : State) (p : BitVec 48) : (s.withPending p).eventReg = s.eventReg := rfl
@[simp] theorem State.withPending_lockup (s : State) (p : BitVec 48) : (s.withPending p).lockup = s.lockup := rfl
@[simp] theorem State.withPending_sleep (s : State) (p : BitVec 48) : (s.withPending p).sleep = s.sleep := rfl
@[simp] theorem State.withPending_nvic (s : State) (p : BitVec 48) : (s.withPending p).nvic = { s.nvic with pending := p } := rfl
@[simp] theorem State.withPending_scb (s : State) (p : BitVec 48) : (s.withPending p).scb = s.scb := rfl
@[simp] theorem State.withPending_stk (s : State) (p : BitVec 48) : (s.withPending p).stk = s.stk := rfl
@[simp] theorem State.withPending_mpu (s : State) (p : BitVec 48) : (s.withPending p).mpu = s.mpu := rfl
@[simp] theorem State.withPending_mem (s : State) (p : BitVec 48) : (s.withPending p).mem = s.mem := rfl
@[simp] theorem State.withPending_prefetched (s : State) (p : BitVec 48) : (s.withPending p).prefetched = s.prefetched := rfl
@[simp] theorem State.withPending_devices (s : State) (p : BitVec 48) : (s.withPending p).devices = s.devices := rfl
@[simp] theorem State.withPending_deviceInput (s : State) (p : BitVec 48) : (s.withPending p).deviceInput = s.deviceInput := rfl
@[simp] theorem State.withPending_midway (s : State) (p : BitVec 48) : (s.withPending p).midway = s.midway := rfl
@[simp] theorem State.withPending_inputs (s : State) (p : BitVec 48) : (s.withPending p).inputs = s.inputs := rfl
@[simp] theorem State.withPending_freeCount (s : State) (p : BitVec 48) : (s.withPending p).freeCount = s.freeCount := rfl
@[simp] theorem State.withPending_cfg (s : State) (p : BitVec 48) : (s.withPending p).cfg = s.cfg := rfl

@[simp] theorem State.withActive_regs (s : State) (p : BitVec 48) : (s.withActive p).regs = s.regs := rfl
@[simp] theorem State.withActive_msp (s : State) (p : BitVec 48) : (s.withActive p).msp = s.msp := rfl
@[simp] theorem State.withActive_psp (s : State) (p : BitVec 48) : (s.withActive p).psp = s.psp := rfl
@[simp] theorem State.withActive_lr (s : State) (p : BitVec 48) : (s.withActive p).lr = s.lr := rfl
@[simp] theorem State.withActive_pc (s : State) (p : BitVec 48) : (s.withActive p).pc = s.pc := rfl
@[simp] theorem State.withActive_apsr (s : State) (p : BitVec 48) : (s.withActive p).apsr = s.apsr := rfl
@[simp] theorem State.withActive_ipsr (s : State) (p : BitVec 48) : (s.withActive p).ipsr = s.ipsr := rfl
@[simp] theorem State.withActive_epsrT (s : State) (p : BitVec 48) : (s.withActive p).epsrT = s.epsrT := rfl
@[simp] theorem State.withActive_primask (s : State) (p : BitVec 48) : (s.withActive p).primask = s.primask := rfl
@[simp] theorem State.withActive_nPriv (s : State) (p : BitVec 48) : (s.withActive p).nPriv = s.nPriv := rfl
@[simp] theorem State.withActive_spsel (s : State) (p : BitVec 48) : (s.withActive p).spsel = s.spsel := rfl
@[simp] theorem State.withActive_eventReg (s : State) (p : BitVec 48) : (s.withActive p).eventReg = s.eventReg := rfl
@[simp] theorem State.withActive_lockup (s : State) (p : BitVec 48) : (s.withActive p).lockup = s.lockup := rfl
@[simp] theorem State.withActive_sleep (s : State) (p : BitVec 48) : (s.withActive p).sleep = s.sleep := rfl
@[simp] theorem State.withActive_nvic (s : State) (p : BitVec 48) : (s.withActive p).nvic = { s.nvic with active := p } := rfl
@[simp] theorem State.withActive_scb (s : State) (p : BitVec 48) : (s.withActive p).scb = s.scb := rfl
@[simp] theorem State.withActive_stk (s : State) (p : BitVec 48) : (s.withActive p).stk = s.stk := rfl
@[simp] theorem State.withActive_mpu (s : State) (p : BitVec 48) : (s.withActive p).mpu = s.mpu := rfl
@[simp] theorem State.withActive_mem (s : State) (p : BitVec 48) : (s.withActive p).mem = s.mem := rfl
@[simp] theorem State.withActive_prefetched (s : State) (p : BitVec 48) : (s.withActive p).prefetched = s.prefetched := rfl
@[simp] theorem State.withActive_devices (s : State) (p : BitVec 48) : (s.withActive p).devices = s.devices := rfl
@[simp] theorem State.withActive_deviceInput (s : State) (p : BitVec 48) : (s.withActive p).deviceInput = s.deviceInput := rfl
@[simp] theorem State.withActive_midway (s : State) (p : BitVec 48) : (s.withActive p).midway = s.midway := rfl
@[simp] theorem State.withActive_inputs (s : State) (p : BitVec 48) : (s.withActive p).inputs = s.inputs := rfl
@[simp] theorem State.withActive_freeCount (s : State) (p : BitVec 48) : (s.withActive p).freeCount = s.freeCount := rfl
@[simp] theorem State.withActive_cfg (s : State) (p : BitVec 48) : (s.withActive p).cfg = s.cfg := rfl

@[simp] theorem State.clearPendingMask_regs (s : State) (m : BitVec 48) : (s.clearPendingMask m).regs = s.regs := rfl
@[simp] theorem State.clearPendingMask_msp (s : State) (m : BitVec 48) : (s.clearPendingMask m).msp = s.msp := rfl
@[simp] theorem State.clearPendingMask_psp (s : State) (m : BitVec 48) : (s.clearPendingMask m).psp = s.psp := rfl
@[simp] theorem State.clearPendingMask_lr (s : State) (m : BitVec 48) : (s.clearPendingMask m).lr = s.lr := rfl
@[simp] theorem State.clearPendingMask_pc (s : State) (m : BitVec 48) : (s.clearPendingMask m).pc = s.pc := rfl
@[simp] theorem State.clearPendingMask_apsr (s : State) (m : BitVec 48) : (s.clearPendingMask m).apsr = s.apsr := rfl
@[simp] theorem State.clearPendingMask_ipsr (s : State) (m : BitVec 48) : (s.clearPendingMask m).ipsr = s.ipsr := rfl
@[simp] theorem State.clearPendingMask_epsrT (s : State) (m : BitVec 48) : (s.clearPendingMask m).epsrT = s.epsrT := rfl
@[simp] theorem State.clearPendingMask_primask (s : State) (m : BitVec 48) : (s.clearPendingMask m).primask = s.primask := rfl
@[simp] theorem State.clearPendingMask_nPriv (s : State) (m : BitVec 48) : (s.clearPendingMask m).nPriv = s.nPriv := rfl
@[simp] theorem State.clearPendingMask_spsel (s : State) (m : BitVec 48) : (s.clearPendingMask m).spsel = s.spsel := rfl
@[simp] theorem State.clearPendingMask_eventReg (s : State) (m : BitVec 48) : (s.clearPendingMask m).eventReg = s.eventReg := rfl
@[simp] theorem State.clearPendingMask_lockup (s : State) (m : BitVec 48) : (s.clearPendingMask m).lockup = s.lockup := rfl
@[simp] theorem State.clearPendingMask_sleep (s : State) (m : BitVec 48) : (s.clearPendingMask m).sleep = s.sleep := rfl
@[simp] theorem State.clearPendingMask_nvic (s : State) (m : BitVec 48) : (s.clearPendingMask m).nvic = { s.nvic with pending := s.nvic.pending &&& ~~~m } := rfl
@[simp] theorem State.clearPendingMask_scb (s : State) (m : BitVec 48) : (s.clearPendingMask m).scb = s.scb := rfl
@[simp] theorem State.clearPendingMask_stk (s : State) (m : BitVec 48) : (s.clearPendingMask m).stk = s.stk := rfl
@[simp] theorem State.clearPendingMask_mpu (s : State) (m : BitVec 48) : (s.clearPendingMask m).mpu = s.mpu := rfl
@[simp] theorem State.clearPendingMask_mem (s : State) (m : BitVec 48) : (s.clearPendingMask m).mem = s.mem := rfl
@[simp] theorem State.clearPendingMask_prefetched (s : State) (m : BitVec 48) : (s.clearPendingMask m).prefetched = s.prefetched := rfl
@[simp] theorem State.clearPendingMask_devices (s : State) (m : BitVec 48) : (s.clearPendingMask m).devices = s.devices := rfl
@[simp] theorem State.clearPendingMask_deviceInput (s : State) (m : BitVec 48) : (s.clearPendingMask m).deviceInput = s.deviceInput := rfl
@[simp] theorem State.clearPendingMask_midway (s : State) (m : BitVec 48) : (s.clearPendingMask m).midway = s.midway := rfl
@[simp] theorem State.clearPendingMask_inputs (s : State) (m : BitVec 48) : (s.clearPendingMask m).inputs = s.inputs := rfl
@[simp] theorem State.clearPendingMask_freeCount (s : State) (m : BitVec 48) : (s.clearPendingMask m).freeCount = s.freeCount := rfl
@[simp] theorem State.clearPendingMask_cfg (s : State) (m : BitVec 48) : (s.clearPendingMask m).cfg = s.cfg := rfl

@[simp] theorem State.clearActive_regs (s : State) (e : Exc) : (s.clearActive e).regs = s.regs := rfl
@[simp] theorem State.clearActive_msp (s : State) (e : Exc) : (s.clearActive e).msp = s.msp := rfl
@[simp] theorem State.clearActive_psp (s : State) (e : Exc) : (s.clearActive e).psp = s.psp := rfl
@[simp] theorem State.clearActive_lr (s : State) (e : Exc) : (s.clearActive e).lr = s.lr := rfl
@[simp] theorem State.clearActive_pc (s : State) (e : Exc) : (s.clearActive e).pc = s.pc := rfl
@[simp] theorem State.clearActive_apsr (s : State) (e : Exc) : (s.clearActive e).apsr = s.apsr := rfl
@[simp] theorem State.clearActive_ipsr (s : State) (e : Exc) : (s.clearActive e).ipsr = s.ipsr := rfl
@[simp] theorem State.clearActive_epsrT (s : State) (e : Exc) : (s.clearActive e).epsrT = s.epsrT := rfl
@[simp] theorem State.clearActive_primask (s : State) (e : Exc) : (s.clearActive e).primask = s.primask := rfl
@[simp] theorem State.clearActive_nPriv (s : State) (e : Exc) : (s.clearActive e).nPriv = s.nPriv := rfl
@[simp] theorem State.clearActive_spsel (s : State) (e : Exc) : (s.clearActive e).spsel = s.spsel := rfl
@[simp] theorem State.clearActive_eventReg (s : State) (e : Exc) : (s.clearActive e).eventReg = s.eventReg := rfl
@[simp] theorem State.clearActive_lockup (s : State) (e : Exc) : (s.clearActive e).lockup = s.lockup := rfl
@[simp] theorem State.clearActive_sleep (s : State) (e : Exc) : (s.clearActive e).sleep = s.sleep := rfl
@[simp] theorem State.clearActive_nvic (s : State) (e : Exc) : (s.clearActive e).nvic = { s.nvic with active := s.nvic.active &&& ~~~e.mask } := rfl
@[simp] theorem State.clearActive_scb (s : State) (e : Exc) : (s.clearActive e).scb = s.scb := rfl
@[simp] theorem State.clearActive_stk (s : State) (e : Exc) : (s.clearActive e).stk = s.stk := rfl
@[simp] theorem State.clearActive_mpu (s : State) (e : Exc) : (s.clearActive e).mpu = s.mpu := rfl
@[simp] theorem State.clearActive_mem (s : State) (e : Exc) : (s.clearActive e).mem = s.mem := rfl
@[simp] theorem State.clearActive_prefetched (s : State) (e : Exc) : (s.clearActive e).prefetched = s.prefetched := rfl
@[simp] theorem State.clearActive_devices (s : State) (e : Exc) : (s.clearActive e).devices = s.devices := rfl
@[simp] theorem State.clearActive_deviceInput (s : State) (e : Exc) : (s.clearActive e).deviceInput = s.deviceInput := rfl
@[simp] theorem State.clearActive_midway (s : State) (e : Exc) : (s.clearActive e).midway = s.midway := rfl
@[simp] theorem State.clearActive_inputs (s : State) (e : Exc) : (s.clearActive e).inputs = s.inputs := rfl
@[simp] theorem State.clearActive_freeCount (s : State) (e : Exc) : (s.clearActive e).freeCount = s.freeCount := rfl
@[simp] theorem State.clearActive_cfg (s : State) (e : Exc) : (s.clearActive e).cfg = s.cfg := rfl

@[simp] theorem State.activate_regs (s : State) (e : Exc) : (s.activate e).regs = s.regs := rfl
@[simp] theorem State.activate_msp (s : State) (e : Exc) : (s.activate e).msp = s.msp := rfl
@[simp] theorem State.activate_psp (s : State) (e : Exc) : (s.activate e).psp = s.psp := rfl
@[simp] theorem State.activate_lr (s : State) (e : Exc) : (s.activate e).lr = s.lr := rfl
@[simp] theorem State.activate_pc (s : State) (e : Exc) : (s.activate e).pc = s.pc := rfl
@[simp] theorem State.activate_apsr (s : State) (e : Exc) : (s.activate e).apsr = s.apsr := rfl
@[simp] theorem State.activate_ipsr (s : State) (e : Exc) : (s.activate e).ipsr = s.ipsr := rfl
@[simp] theorem State.activate_epsrT (s : State) (e : Exc) : (s.activate e).epsrT = s.epsrT := rfl
@[simp] theorem State.activate_primask (s : State) (e : Exc) : (s.activate e).primask = s.primask := rfl
@[simp] theorem State.activate_nPriv (s : State) (e : Exc) : (s.activate e).nPriv = s.nPriv := rfl
@[simp] theorem State.activate_spsel (s : State) (e : Exc) : (s.activate e).spsel = s.spsel := rfl
@[simp] theorem State.activate_eventReg (s : State) (e : Exc) : (s.activate e).eventReg = s.eventReg := rfl
@[simp] theorem State.activate_lockup (s : State) (e : Exc) : (s.activate e).lockup = s.lockup := rfl
@[simp] theorem State.activate_sleep (s : State) (e : Exc) : (s.activate e).sleep = s.sleep := rfl
@[simp] theorem State.activate_nvic (s : State) (e : Exc) : (s.activate e).nvic = { s.nvic with pending := s.nvic.pending &&& ~~~e.mask, active := s.nvic.active ||| e.mask } := rfl
@[simp] theorem State.activate_scb (s : State) (e : Exc) : (s.activate e).scb = s.scb := rfl
@[simp] theorem State.activate_stk (s : State) (e : Exc) : (s.activate e).stk = s.stk := rfl
@[simp] theorem State.activate_mpu (s : State) (e : Exc) : (s.activate e).mpu = s.mpu := rfl
@[simp] theorem State.activate_mem (s : State) (e : Exc) : (s.activate e).mem = s.mem := rfl
@[simp] theorem State.activate_prefetched (s : State) (e : Exc) : (s.activate e).prefetched = s.prefetched := rfl
@[simp] theorem State.activate_devices (s : State) (e : Exc) : (s.activate e).devices = s.devices := rfl
@[simp] theorem State.activate_deviceInput (s : State) (e : Exc) : (s.activate e).deviceInput = s.deviceInput := rfl
@[simp] theorem State.activate_midway (s : State) (e : Exc) : (s.activate e).midway = s.midway := rfl
@[simp] theorem State.activate_inputs (s : State) (e : Exc) : (s.activate e).inputs = s.inputs := rfl
@[simp] theorem State.activate_freeCount (s : State) (e : Exc) : (s.activate e).freeCount = s.freeCount := rfl
@[simp] theorem State.activate_cfg (s : State) (e : Exc) : (s.activate e).cfg = s.cfg := rfl

@[simp] theorem State.setSp_regs (s : State) (v : Word) : (s.setSp v).regs = s.regs := by
  unfold State.setSp; split <;> rfl
@[simp] theorem State.setSp_msp (s : State) (v : Word) : (s.setSp v).msp = if s.usesPsp then s.msp else alignSp v := by
  unfold State.setSp; split <;> rfl
@[simp] theorem State.setSp_psp (s : State) (v : Word) : (s.setSp v).psp = if s.usesPsp then alignSp v else s.psp := by
  unfold State.setSp; split <;> rfl
@[simp] theorem State.setSp_lr (s : State) (v : Word) : (s.setSp v).lr = s.lr := by
  unfold State.setSp; split <;> rfl
@[simp] theorem State.setSp_pc (s : State) (v : Word) : (s.setSp v).pc = s.pc := by
  unfold State.setSp; split <;> rfl
@[simp] theorem State.setSp_apsr (s : State) (v : Word) : (s.setSp v).apsr = s.apsr := by
  unfold State.setSp; split <;> rfl
@[simp] theorem State.setSp_ipsr (s : State) (v : Word) : (s.setSp v).ipsr = s.ipsr := by
  unfold State.setSp; split <;> rfl
@[simp] theorem State.setSp_epsrT (s : State) (v : Word) : (s.setSp v).epsrT = s.epsrT := by
  unfold State.setSp; split <;> rfl
@[simp] theorem State.setSp_primask (s : State) (v : Word) : (s.setSp v).primask = s.primask := by
  unfold State.setSp; split <;> rfl
@[simp] theorem State.setSp_nPriv (s : State) (v : Word) : (s.setSp v).nPriv = s.nPriv := by
  unfold State.setSp; split <;> rfl
@[simp] theorem State.setSp_spsel (s : State) (v : Word) : (s.setSp v).spsel = s.spsel := by
  unfold State.setSp; split <;> rfl
@[simp] theorem State.setSp_eventReg (s : State) (v : Word) : (s.setSp v).eventReg = s.eventReg := by
  unfold State.setSp; split <;> rfl
@[simp] theorem State.setSp_lockup (s : State) (v : Word) : (s.setSp v).lockup = s.lockup := by
  unfold State.setSp; split <;> rfl
@[simp] theorem State.setSp_sleep (s : State) (v : Word) : (s.setSp v).sleep = s.sleep := by
  unfold State.setSp; split <;> rfl
@[simp] theorem State.setSp_nvic (s : State) (v : Word) : (s.setSp v).nvic = s.nvic := by
  unfold State.setSp; split <;> rfl
@[simp] theorem State.setSp_scb (s : State) (v : Word) : (s.setSp v).scb = s.scb := by
  unfold State.setSp; split <;> rfl
@[simp] theorem State.setSp_stk (s : State) (v : Word) : (s.setSp v).stk = s.stk := by
  unfold State.setSp; split <;> rfl
@[simp] theorem State.setSp_mpu (s : State) (v : Word) : (s.setSp v).mpu = s.mpu := by
  unfold State.setSp; split <;> rfl
@[simp] theorem State.setSp_mem (s : State) (v : Word) : (s.setSp v).mem = s.mem := by
  unfold State.setSp; split <;> rfl
@[simp] theorem State.setSp_prefetched (s : State) (v : Word) : (s.setSp v).prefetched = s.prefetched := by
  unfold State.setSp; split <;> rfl
@[simp] theorem State.setSp_devices (s : State) (v : Word) : (s.setSp v).devices = s.devices := by
  unfold State.setSp; split <;> rfl
@[simp] theorem State.setSp_deviceInput (s : State) (v : Word) : (s.setSp v).deviceInput = s.deviceInput := by
  unfold State.setSp; split <;> rfl
@[simp] theorem State.setSp_midway (s : State) (v : Word) : (s.setSp v).midway = s.midway := by
  unfold State.setSp; split <;> rfl
@[simp] theorem State.setSp_inputs (s : State) (v : Word) : (s.setSp v).inputs = s.inputs := by
  unfold State.setSp; split <;> rfl
@[simp] theorem State.setSp_freeCount (s : State) (v : Word) : (s.setSp v).freeCount = s.freeCount := by
  unfold State.setSp; split <;> rfl
@[simp] theorem State.setSp_cfg (s : State) (v : Word) : (s.setSp v).cfg = s.cfg := by
  unfold State.setSp; split <;> rfl

@[simp] theorem State.signalEvent_regs (s : State) : (s.signalEvent).regs = s.regs := by
  unfold State.signalEvent; split <;> rfl
@[simp] theorem State.signalEvent_msp (s : State) : (s.signalEvent).msp = s.msp := by
  unfold State.signalEvent; split <;> rfl
@[simp] theorem State.signalEvent_psp (s : State) : (s.signalEvent).psp = s.psp := by
  unfold State.signalEvent; split <;> rfl
@[simp] theorem State.signalEvent_lr (s : State) : (s.signalEvent).lr = s.lr := by
  unfold State.signalEvent; split <;> rfl
@[simp] theorem State.signalEvent_pc (s : State) : (s.signalEvent).pc = s.pc := by
  unfold State.signalEvent; split <;> rfl
@[simp] theorem State.signalEvent_apsr (s : State) : (s.signalEvent).apsr = s.apsr := by
  unfold State.signalEvent; split <;> rfl
@[simp] theorem State.signalEvent_ipsr (s : State) : (s.signalEvent).ipsr = s.ipsr := by
  unfold State.signalEvent; split <;> rfl
@[simp] theorem State.signalEvent_epsrT (s : State) : (s.signalEvent).epsrT = s.epsrT := by
  unfold State.signalEvent; split <;> rfl
@[simp] theorem State.signalEvent_primask (s : State) : (s.signalEvent).primask = s.primask := by
  unfold State.signalEvent; split <;> rfl
@[simp] theorem State.signalEvent_nPriv (s : State) : (s.signalEvent).nPriv = s.nPriv := by
  unfold State.signalEvent; split <;> rfl
@[simp] theorem State.signalEvent_spsel (s : State) : (s.signalEvent).spsel = s.spsel := by
  unfold State.signalEvent; split <;> rfl
@[simp] theorem State.signalEvent_eventReg (s : State) : (s.signalEvent).eventReg = if s.sleep = .wfe then s.eventReg else true := by
  unfold State.signalEvent; split <;> rfl
@[simp] theorem State.signalEvent_lockup (s : State) : (s.signalEvent).lockup = s.lockup := by
  unfold State.signalEvent; split <;> rfl
@[simp] theorem State.signalEvent_sleep (s : State) : (s.signalEvent).sleep = if s.sleep = .wfe then .running else s.sleep := by
  unfold State.signalEvent; split <;> rfl
@[simp] theorem State.signalEvent_nvic (s : State) : (s.signalEvent).nvic = s.nvic := by
  unfold State.signalEvent; split <;> rfl
@[simp] theorem State.signalEvent_scb (s : State) : (s.signalEvent).scb = s.scb := by
  unfold State.signalEvent; split <;> rfl
@[simp] theorem State.signalEvent_stk (s : State) : (s.signalEvent).stk = s.stk := by
  unfold State.signalEvent; split <;> rfl
@[simp] theorem State.signalEvent_mpu (s : State) : (s.signalEvent).mpu = s.mpu := by
  unfold State.signalEvent; split <;> rfl
@[simp] theorem State.signalEvent_mem (s : State) : (s.signalEvent).mem = s.mem := by
  unfold State.signalEvent; split <;> rfl
@[simp] theorem State.signalEvent_prefetched (s : State) : (s.signalEvent).prefetched = s.prefetched := by
  unfold State.signalEvent; split <;> rfl
@[simp] theorem State.signalEvent_devices (s : State) : (s.signalEvent).devices = s.devices := by
  unfold State.signalEvent; split <;> rfl
@[simp] theorem State.signalEvent_deviceInput (s : State) : (s.signalEvent).deviceInput = s.deviceInput := by
  unfold State.signalEvent; split <;> rfl
@[simp] theorem State.signalEvent_midway (s : State) : (s.signalEvent).midway = s.midway := by
  unfold State.signalEvent; split <;> rfl
@[simp] theorem State.signalEvent_inputs (s : State) : (s.signalEvent).inputs = s.inputs := by
  unfold State.signalEvent; split <;> rfl
@[simp] theorem State.signalEvent_freeCount (s : State) : (s.signalEvent).freeCount = s.freeCount := by
  unfold State.signalEvent; split <;> rfl
@[simp] theorem State.signalEvent_cfg (s : State) : (s.signalEvent).cfg = s.cfg := by
  unfold State.signalEvent; split <;> rfl

@[simp] theorem State.setPendingMask_regs (s : State) (m : BitVec 48) : (s.setPendingMask m).regs = s.regs := by
  unfold State.setPendingMask; simp only; split <;> simp
@[simp] theorem State.setPendingMask_msp (s : State) (m : BitVec 48) : (s.setPendingMask m).msp = s.msp := by
  unfold State.setPendingMask; simp only; split <;> simp
@[simp] theorem State.setPendingMask_psp (s : State) (m : BitVec 48) : (s.setPendingMask m).psp = s.psp := by
  unfold State.setPendingMask; simp only; split <;> simp
@[simp] theorem State.setPendingMask_lr (s : State) (m : BitVec 48) : (s.setPendingMask m).lr = s.lr := by
  unfold State.setPendingMask; simp only; split <;> simp
@[simp] theorem State.setPendingMask_pc (s : State) (m : BitVec 48) : (s.setPendingMask m).pc = s.pc := by
  unfold State.setPendingMask; simp only; split <;> simp
@[simp] theorem State.setPendingMask_apsr (s : State) (m : BitVec 48) : (s.setPendingMask m).apsr = s.apsr := by
  unfold State.setPendingMask; simp only; split <;> simp
@[simp] theorem State.setPendingMask_ipsr (s : State) (m : BitVec 48) : (s.setPendingMask m).ipsr = s.ipsr := by
  unfold State.setPendingMask; simp only; split <;> simp
@[simp] theorem State.setPendingMask_epsrT (s : State) (m : BitVec 48) : (s.setPendingMask m).epsrT = s.epsrT := by
  unfold State.setPendingMask; simp only; split <;> simp
@[simp] theorem State.setPendingMask_primask (s : State) (m : BitVec 48) : (s.setPendingMask m).primask = s.primask := by
  unfold State.setPendingMask; simp only; split <;> simp
@[simp] theorem State.setPendingMask_nPriv (s : State) (m : BitVec 48) : (s.setPendingMask m).nPriv = s.nPriv := by
  unfold State.setPendingMask; simp only; split <;> simp
@[simp] theorem State.setPendingMask_spsel (s : State) (m : BitVec 48) : (s.setPendingMask m).spsel = s.spsel := by
  unfold State.setPendingMask; simp only; split <;> simp
@[simp] theorem State.setPendingMask_lockup (s : State) (m : BitVec 48) : (s.setPendingMask m).lockup = s.lockup := by
  unfold State.setPendingMask; simp only; split <;> simp
@[simp] theorem State.setPendingMask_nvic (s : State) (m : BitVec 48) : (s.setPendingMask m).nvic = { s.nvic with pending := s.nvic.pending ||| m } := by
  unfold State.setPendingMask; simp only; split <;> simp
@[simp] theorem State.setPendingMask_scb (s : State) (m : BitVec 48) : (s.setPendingMask m).scb = s.scb := by
  unfold State.setPendingMask; simp only; split <;> simp
@[simp] theorem State.setPendingMask_stk (s : State) (m : BitVec 48) : (s.setPendingMask m).stk = s.stk := by
  unfold State.setPendingMask; simp only; split <;> simp
@[simp] theorem State.setPendingMask_mpu (s : State) (m : BitVec 48) : (s.setPendingMask m).mpu = s.mpu := by
  unfold State.setPendingMask; simp only; split <;> simp
@[simp] theorem State.setPendingMask_mem (s : State) (m : BitVec 48) : (s.setPendingMask m).mem = s.mem := by
  unfold State.setPendingMask; simp only; split <;> simp
@[simp] theorem State.setPendingMask_prefetched (s : State) (m : BitVec 48) : (s.setPendingMask m).prefetched = s.prefetched := by
  unfold State.setPendingMask; simp only; split <;> simp
@[simp] theorem State.setPendingMask_devices (s : State) (m : BitVec 48) : (s.setPendingMask m).devices = s.devices := by
  unfold State.setPendingMask; simp only; split <;> simp
@[simp] theorem State.setPendingMask_deviceInput (s : State) (m : BitVec 48) : (s.setPendingMask m).deviceInput = s.deviceInput := by
  unfold State.setPendingMask; simp only; split <;> simp
@[simp] theorem State.setPendingMask_midway (s : State) (m : BitVec 48) : (s.setPendingMask m).midway = s.midway := by
  unfold State.setPendingMask; simp only; split <;> simp
@[simp] theorem State.setPendingMask_inputs (s : State) (m : BitVec 48) : (s.setPendingMask m).inputs = s.inputs := by
  unfold State.setPendingMask; simp only; split <;> simp
@[simp] theorem State.setPendingMask_freeCount (s : State) (m : BitVec 48) : (s.setPendingMask m).freeCount = s.freeCount := by
  unfold State.setPendingMask; simp only; split <;> simp
@[simp] theorem State.setPendingMask_cfg (s : State) (m : BitVec 48) : (s.setPendingMask m).cfg = s.cfg := by
  unfold State.setPendingMask; simp only; split <;> simp

@[simp] theorem State.setPending_regs (s : State) (e : Exc) : (s.setPending e).regs = s.regs := by
  unfold State.setPending; simp
@[simp] theorem State.setPending_msp (s : State) (e : Exc) : (s.setPending e).msp = s.msp := by
  unfold State.setPending; simp
@[simp] theorem State.setPending_psp (s : State) (e : Exc) : (s.setPending e).psp = s.psp := by
  unfold State.setPending; simp
@[simp] theorem State.setPending_lr (s : State) (e : Exc) : (s.setPending e).lr = s.lr := by
  unfold State.setPending; simp
@[simp] theorem State.setPending_pc (s : State) (e : Exc) : (s.setPending e).pc = s.pc := by
  unfold State.setPending; simp
@[simp] theorem State.setPending_apsr (s : State) (e : Exc) : (s.setPending e).apsr = s.apsr := by
  unfold State.setPending; simp
@[simp] theorem State.setPending_ipsr (s : State) (e : Exc) : (s.setPending e).ipsr = s.ipsr := by
  unfold State.setPending; simp
@[simp] theorem State.setPending_epsrT (s : State) (e : Exc) : (s.setPending e).epsrT = s.epsrT := by
  unfold State.setPending; simp
@[simp] theorem State.setPending_primask (s : State) (e : Exc) : (s.setPending e).primask = s.primask := by
  unfold State.setPending; simp
@[simp] theorem State.setPending_nPriv (s : State) (e : Exc) : (s.setPending e).nPriv = s.nPriv := by
  unfold State.setPending; simp
@[simp] theorem State.setPending_spsel (s : State) (e : Exc) : (s.setPending e).spsel = s.spsel := by
  unfold State.setPending; simp
@[simp] theorem State.setPending_lockup (s : State) (e : Exc) : (s.setPending e).lockup = s.lockup := by
  unfold State.setPending; simp
@[simp] theorem State.setPending_nvic (s : State) (e : Exc) : (s.setPending e).nvic = { s.nvic with pending := s.nvic.pending ||| e.mask } := by
  unfold State.setPending; simp
@[simp] theorem State.setPending_scb (s : State) (e : Exc) : (s.setPending e).scb = s.scb := by
  unfold State.setPending; simp
@[simp] theorem State.setPending_stk (s : State) (e : Exc) : (s.setPending e).stk = s.stk := by
  unfold State.setPending; simp
@[simp] theorem State.setPending_mpu (s : State) (e : Exc) : (s.setPending e).mpu = s.mpu := by
  unfold State.setPending; simp
@[simp] theorem State.setPending_mem (s : State) (e : Exc) : (s.setPending e).mem = s.mem := by
  unfold State.setPending; simp
@[simp] theorem State.setPending_prefetched (s : State) (e : Exc) : (s.setPending e).prefetched = s.prefetched := by
  unfold State.setPending; simp
@[simp] theorem State.setPending_devices (s : State) (e : Exc) : (s.setPending e).devices = s.devices := by
  unfold State.setPending; simp
@[simp] theorem State.setPending_deviceInput (s : State) (e : Exc) : (s.setPending e).deviceInput = s.deviceInput := by
  unfold State.setPending; simp
@[simp] theorem State.setPending_midway (s : State) (e : Exc) : (s.setPending e).midway = s.midway := by
  unfold State.setPending; simp
@[simp] theorem State.setPending_inputs (s : State) (e : Exc) : (s.setPending e).inputs = s.inputs := by
  unfold State.setPending; simp
@[simp] theorem State.setPending_freeCount (s : State) (e : Exc) : (s.setPending e).freeCount = s.freeCount := by
  unfold State.setPending; simp
@[simp] theorem State.setPending_cfg (s : State) (e : Exc) : (s.setPending e).cfg = s.cfg := by
  unfold State.setPending; simp

@[simp] theorem State.jumpVector_regs (s : State) (v : Word) : (s.jumpVector v).regs = s.regs := rfl
@[simp] theorem State.jumpVector_msp (s : State) (v : Word) : (s.jumpVector v).msp = s.msp := rfl
@[simp] theorem State.jumpVector_psp (s : State) (v : Word) : (s.jumpVector v).psp = s.psp := rfl
@[simp] theorem State.jumpVector_lr (s : State) (v : Word) : (s.jumpVector v).lr = s.lr := rfl
@[simp] theorem State.jumpVector_pc (s : State) (v : Word) : (s.jumpVector v).pc = v &&& 0xFFFFFFFE#32 := rfl
@[simp] theorem State.jumpVector_apsr (s : State) (v : Word) : (s.jumpVector v).apsr = s.apsr := rfl
@[simp] theorem State.jumpVector_ipsr (s : State) (v : Word) : (s.jumpVector v).ipsr = s.ipsr := rfl
@[simp] theorem State.jumpVector_epsrT (s : State) (v : Word) : (s.jumpVector v).epsrT = v.getLsbD 0 := rfl
@[simp] theorem State.jumpVector_primask (s : State) (v : Word) : (s.jumpVector v).primask = s.primask := rfl
@[simp] theorem State.jumpVector_nPriv (s : State) (v : Word) : (s.jumpVector v).nPriv = s.nPriv := rfl
@[simp] theorem State.jumpVector_spsel (s : State) (v : Word) : (s.jumpVector v).spsel = s.spsel := rfl
@[simp] theorem State.jumpVector_eventReg (s : State) (v : Word) : (s.jumpVector v).eventReg = s.eventReg := rfl
@[simp] theorem State.jumpVector_lockup (s : State) (v : Word) : (s.jumpVector v).lockup = s.lockup := rfl
@[simp] theorem State.jumpVector_sleep (s : State) (v : Word) : (s.jumpVector v).sleep = s.sleep := rfl
@[simp] theorem State.jumpVector_nvic (s : State) (v : Word) : (s.jumpVector v).nvic = s.nvic := rfl
@[simp] theorem State.jumpVector_scb (s : State) (v : Word) : (s.jumpVector v).scb = s.scb := rfl
@[simp] theorem State.jumpVector_stk (s : State) (v : Word) : (s.jumpVector v).stk = s.stk := rfl
@[simp] theorem State.jumpVector_mpu (s : State) (v : Word) : (s.jumpVector v).mpu = s.mpu := rfl
@[simp] theorem State.jumpVector_mem (s : State) (v : Word) : (s.jumpVector v).mem = s.mem := rfl
@[simp] theorem State.jumpVector_prefetched (s : State) (v : Word) : (s.jumpVector v).prefetched = s.prefetched := rfl
@[simp] theorem State.jumpVector_devices (s : State) (v : Word) : (s.jumpVector v).devices = s.devices := rfl
@[simp] theorem State.jumpVector_deviceInput (s : State) (v : Word) : (s.jumpVector v).deviceInput = s.deviceInput := rfl
@[simp] theorem State.jumpVector_midway (s : State) (v : Word) : (s.jumpVector v).midway = s.midway := rfl
@[simp] theorem State.jumpVector_inputs (s : State) (v : Word) : (s.jumpVector v).inputs = s.inputs := rfl
@[simp] theorem State.jumpVector_freeCount (s : State) (v : Word) : (s.jumpVector v).freeCount = s.freeCount := rfl
@[simp] theorem State.jumpVector_cfg (s : State) (v : Word) : (s.jumpVector v).cfg = s.cfg := rfl

@[simp] theorem State.interwork_regs (s : State) (v : Word) : (s.interwork v).regs = s.regs := rfl
@[simp] theorem State.interwork_msp (s : State) (v : Word) : (s.interwork v).msp = s.msp := rfl
@[simp] theorem State.interwork_psp (s : State) (v : Word) : (s.interwork v).psp = s.psp := rfl
@[simp] theorem State.interwork_lr (s : State) (v : Word) : (s.interwork v).lr = s.lr := rfl
@[simp] theorem State.interwork_pc (s : State) (v : Word) : (s.interwork v).pc = v &&& 0xFFFFFFFE#32 := rfl
@[simp] theorem State.interwork_apsr (s : State) (v : Word) : (s.interwork v).apsr = s.apsr := rfl
@[simp] theorem State.interwork_ipsr (s : State) (v : Word) : (s.interwork v).ipsr = s.ipsr := rfl
@[simp] theorem State.interwork_epsrT (s : State) (v : Word) : (s.interwork v).epsrT = v.getLsbD 0 := rfl
@[simp] theorem State.interwork_primask (s : State) (v : Word) : (s.interwork v).primask = s.primask := rfl
@[simp] theorem State.interwork_nPriv (s : State) (v : Word) : (s.interwork v).nPriv = s.nPriv := rfl
@[simp] theorem State.interwork_spsel (s : State) (v : Word) : (s.interwork v).spsel = s.spsel := rfl
@[simp] theorem State.interwork_eventReg (s : State) (v : Word) : (s.interwork v).eventReg = s.eventReg := rfl
@[simp] theorem State.interwork_lockup (s : State) (v : Word) : (s.interwork v).lockup = s.lockup := rfl
@[simp] theorem State.interwork_sleep (s : State) (v : Word) : (s.interwork v).sleep = s.sleep := rfl
@[simp] theorem State.interwork_nvic (s : State) (v : Word) : (s.interwork v).nvic = s.nvic := rfl
@[simp] theorem State.interwork_scb (s : State) (v : Word) : (s.interwork v).scb = s.scb := rfl
@[simp] theorem State.interwork_stk (s : State) (v : Word) : (s.interwork v).stk = s.stk := rfl
@[simp] theorem State.interwork_mpu (s : State) (v : Word) : (s.interwork v).mpu = s.mpu := rfl
@[simp] theorem State.interwork_mem (s : State) (v : Word) : (s.interwork v).mem = s.mem := rfl
@[simp] theorem State.interwork_prefetched (s : State) (v : Word) : (s.interwork v).prefetched = s.prefetched := rfl
@[simp] theorem State.interwork_devices (s : State) (v : Word) : (s.interwork v).devices = s.devices := rfl
@[simp] theorem State.interwork_deviceInput (s : State) (v : Word) : (s.interwork v).deviceInput = s.deviceInput := rfl
@[simp] theorem State.interwork_midway (s : State) (v : Word) : (s.interwork v).midway = s.midway := rfl
@[simp] theorem State.interwork_inputs (s : State) (v : Word) : (s.interwork v).inputs = s.inputs := rfl
@[simp] theorem State.interwork_freeCount (s : State) (v : Word) : (s.interwork v).freeCount = s.freeCount := rfl
@[simp] theorem State.interwork_cfg (s : State) (v : Word) : (s.interwork v).cfg = s.cfg := rfl

@[simp] theorem State.enterHandlerMode_regs (s : State) (e : Exc) (lr : Word) : (s.enterHandlerMode e lr).regs = s.regs := rfl
@[simp] theorem State.enterHandlerMode_msp (s : State) (e : Exc) (lr : Word) : (s.enterHandlerMode e lr).msp = s.msp := rfl
@[simp] theorem State.enterHandlerMode_psp (s : State) (e : Exc) (lr : Word) : (s.enterHandlerMode e lr).psp = s.psp := rfl
@[simp] theorem State.enterHandlerMode_lr (s : State) (e : Exc) (lr : Word) : (s.enterHandlerMode e lr).lr = lr := rfl
@[simp] theorem State.enterHandlerMode_pc (s : State) (e : Exc) (lr : Word) : (s.enterHandlerMode e lr).pc = s.pc := rfl
@[simp] theorem State.enterHandlerMode_apsr (s : State) (e : Exc) (lr : Word) : (s.enterHandlerMode e lr).apsr = s.apsr := rfl
@[simp] theorem State.enterHandlerMode_ipsr (s : State) (e : Exc) (lr : Word) : (s.enterHandlerMode e lr).ipsr = BitVec.ofNat 6 e.num := rfl
@[simp] theorem State.enterHandlerMode_epsrT (s : State) (e : Exc) (lr : Word) : (s.enterHandlerMode e lr).epsrT = s.epsrT := rfl
@[simp] theorem State.enterHandlerMode_primask (s : State) (e : Exc) (lr : Word) : (s.enterHandlerMode e lr).primask = s.primask := rfl
@[simp] theorem State.enterHandlerMode_nPriv (s : State) (e : Exc) (lr : Word) : (s.enterHandlerMode e lr).nPriv = s.nPriv := rfl
@[simp] theorem State.enterHandlerMode_spsel (s : State) (e : Exc) (lr : Word) : (s.enterHandlerMode e lr).spsel = false := rfl
@[simp] theorem State.enterHandlerMode_eventReg (s : State) (e : Exc) (lr : Word) : (s.enterHandlerMode e lr).eventReg = true := rfl
@[simp] theorem State.enterHandlerMode_lockup (s : State) (e : Exc) (lr : Word) : (s.enterHandlerMode e lr).lockup = s.lockup := rfl
@[simp] theorem State.enterHandlerMode_sleep (s : State) (e : Exc) (lr : Word) : (s.enterHandlerMode e lr).sleep = .running := rfl
@[simp] theorem State.enterHandlerMode_nvic (s : State) (e : Exc) (lr : Word) : (s.enterHandlerMode e lr).nvic = (s.activate e).nvic := rfl
@[simp] theorem State.enterHandlerMode_scb (s : State) (e : Exc) (lr : Word) : (s.enterHandlerMode e lr).scb = s.scb := rfl
@[simp] theorem State.enterHandlerMode_stk (s : State) (e : Exc) (lr : Word) : (s.enterHandlerMode e lr).stk = s.stk := rfl
@[simp] theorem State.enterHandlerMode_mpu (s : State) (e : Exc) (lr : Word) : (s.enterHandlerMode e lr).mpu = s.mpu := rfl
@[simp] theorem State.enterHandlerMode_mem (s : State) (e : Exc) (lr : Word) : (s.enterHandlerMode e lr).mem = s.mem := rfl
@[simp] theorem State.enterHandlerMode_prefetched (s : State) (e : Exc) (lr : Word) : (s.enterHandlerMode e lr).prefetched = none := rfl
@[simp] theorem State.enterHandlerMode_devices (s : State) (e : Exc) (lr : Word) : (s.enterHandlerMode e lr).devices = s.devices := rfl
@[simp] theorem State.enterHandlerMode_deviceInput (s : State) (e : Exc) (lr : Word) : (s.enterHandlerMode e lr).deviceInput = s.deviceInput := rfl
@[simp] theorem State.enterHandlerMode_midway (s : State) (e : Exc) (lr : Word) : (s.enterHandlerMode e lr).midway = s.midway := rfl
@[simp] theorem State.enterHandlerMode_inputs (s : State) (e : Exc) (lr : Word) : (s.enterHandlerMode e lr).inputs = s.inputs := rfl
@[simp] theorem State.enterHandlerMode_freeCount (s : State) (e : Exc) (lr : Word) : (s.enterHandlerMode e lr).freeCount = s.freeCount := rfl
@[simp] theorem State.enterHandlerMode_cfg (s : State) (e : Exc) (lr : Word) : (s.enterHandlerMode e lr).cfg = s.cfg := rfl

@[simp] theorem State.enterLockup_regs (s : State) : (s.enterLockup).regs = s.regs := rfl
@[simp] theorem State.enterLockup_msp (s : State) : (s.enterLockup).msp = s.msp := rfl
@[simp] theorem State.enterLockup_psp (s : State) : (s.enterLockup).psp = s.psp := rfl
@[simp] theorem State.enterLockup_lr (s : State) : (s.enterLockup).lr = s.lr := rfl
@[simp] theorem State.enterLockup_pc (s : State) : (s.enterLockup).pc = 0xFFFFFFFE := rfl
@[simp] theorem State.enterLockup_apsr (s : State) : (s.enterLockup).apsr = s.apsr := rfl
@[simp] theorem State.enterLockup_ipsr (s : State) : (s.enterLockup).ipsr = s.ipsr := rfl
@[simp] theorem State.enterLockup_epsrT (s : State) : (s.enterLockup).epsrT = s.epsrT := rfl
@[simp] theorem State.enterLockup_primask (s : State) : (s.enterLockup).primask = s.primask := rfl
@[simp] theorem State.enterLockup_nPriv (s : State) : (s.enterLockup).nPriv = s.nPriv := rfl
@[simp] theorem State.enterLockup_spsel (s : State) : (s.enterLockup).spsel = s.spsel := rfl
@[simp] theorem State.enterLockup_eventReg (s : State) : (s.enterLockup).eventReg = s.eventReg := rfl
@[simp] theorem State.enterLockup_lockup (s : State) : (s.enterLockup).lockup = some (if s.executionPriority ≤ -2 then .nmi else .hardFault) := rfl
@[simp] theorem State.enterLockup_sleep (s : State) : (s.enterLockup).sleep = .running := rfl
@[simp] theorem State.enterLockup_nvic (s : State) : (s.enterLockup).nvic = s.nvic := rfl
@[simp] theorem State.enterLockup_scb (s : State) : (s.enterLockup).scb = s.scb := rfl
@[simp] theorem State.enterLockup_stk (s : State) : (s.enterLockup).stk = s.stk := rfl
@[simp] theorem State.enterLockup_mpu (s : State) : (s.enterLockup).mpu = s.mpu := rfl
@[simp] theorem State.enterLockup_mem (s : State) : (s.enterLockup).mem = s.mem := rfl
@[simp] theorem State.enterLockup_prefetched (s : State) : (s.enterLockup).prefetched = s.prefetched := rfl
@[simp] theorem State.enterLockup_devices (s : State) : (s.enterLockup).devices = s.devices := rfl
@[simp] theorem State.enterLockup_deviceInput (s : State) : (s.enterLockup).deviceInput = s.deviceInput := rfl
@[simp] theorem State.enterLockup_midway (s : State) : (s.enterLockup).midway = s.midway := rfl
@[simp] theorem State.enterLockup_inputs (s : State) : (s.enterLockup).inputs = s.inputs := rfl
@[simp] theorem State.enterLockup_freeCount (s : State) : (s.enterLockup).freeCount = s.freeCount := rfl
@[simp] theorem State.enterLockup_cfg (s : State) : (s.enterLockup).cfg = s.cfg := rfl

@[simp] theorem State.takeInput_regs (s : State) : (s.takeInput).regs = s.regs := rfl
@[simp] theorem State.takeInput_msp (s : State) : (s.takeInput).msp = s.msp := rfl
@[simp] theorem State.takeInput_psp (s : State) : (s.takeInput).psp = s.psp := rfl
@[simp] theorem State.takeInput_lr (s : State) : (s.takeInput).lr = s.lr := rfl
@[simp] theorem State.takeInput_pc (s : State) : (s.takeInput).pc = s.pc := rfl
@[simp] theorem State.takeInput_apsr (s : State) : (s.takeInput).apsr = s.apsr := rfl
@[simp] theorem State.takeInput_ipsr (s : State) : (s.takeInput).ipsr = s.ipsr := rfl
@[simp] theorem State.takeInput_epsrT (s : State) : (s.takeInput).epsrT = s.epsrT := rfl
@[simp] theorem State.takeInput_primask (s : State) : (s.takeInput).primask = s.primask := rfl
@[simp] theorem State.takeInput_nPriv (s : State) : (s.takeInput).nPriv = s.nPriv := rfl
@[simp] theorem State.takeInput_spsel (s : State) : (s.takeInput).spsel = s.spsel := rfl
@[simp] theorem State.takeInput_eventReg (s : State) : (s.takeInput).eventReg = s.eventReg := rfl
@[simp] theorem State.takeInput_lockup (s : State) : (s.takeInput).lockup = s.lockup := rfl
@[simp] theorem State.takeInput_sleep (s : State) : (s.takeInput).sleep = s.sleep := rfl
@[simp] theorem State.takeInput_nvic (s : State) : (s.takeInput).nvic = s.nvic := rfl
@[simp] theorem State.takeInput_scb (s : State) : (s.takeInput).scb = s.scb := rfl
@[simp] theorem State.takeInput_stk (s : State) : (s.takeInput).stk = s.stk := rfl
@[simp] theorem State.takeInput_mpu (s : State) : (s.takeInput).mpu = s.mpu := rfl
@[simp] theorem State.takeInput_mem (s : State) : (s.takeInput).mem = s.mem := rfl
@[simp] theorem State.takeInput_prefetched (s : State) : (s.takeInput).prefetched = s.prefetched := rfl
@[simp] theorem State.takeInput_devices (s : State) : (s.takeInput).devices = s.devices := rfl
@[simp] theorem State.takeInput_deviceInput (s : State) : (s.takeInput).deviceInput = s.currentInput.device := rfl
@[simp] theorem State.takeInput_midway (s : State) : (s.takeInput).midway = s.currentInput.midway := rfl
@[simp] theorem State.takeInput_inputs (s : State) : (s.takeInput).inputs = s.inputs.tail := rfl
@[simp] theorem State.takeInput_freeCount (s : State) : (s.takeInput).freeCount = s.freeCount := rfl
@[simp] theorem State.takeInput_cfg (s : State) : (s.takeInput).cfg = s.cfg := rfl

@[simp] theorem State.sawAccess_regs (s : State) (d : DeviceAccess) : (s.sawAccess d).regs = s.regs := rfl
@[simp] theorem State.sawAccess_msp (s : State) (d : DeviceAccess) : (s.sawAccess d).msp = s.msp := rfl
@[simp] theorem State.sawAccess_psp (s : State) (d : DeviceAccess) : (s.sawAccess d).psp = s.psp := rfl
@[simp] theorem State.sawAccess_lr (s : State) (d : DeviceAccess) : (s.sawAccess d).lr = s.lr := rfl
@[simp] theorem State.sawAccess_pc (s : State) (d : DeviceAccess) : (s.sawAccess d).pc = s.pc := rfl
@[simp] theorem State.sawAccess_apsr (s : State) (d : DeviceAccess) : (s.sawAccess d).apsr = s.apsr := rfl
@[simp] theorem State.sawAccess_ipsr (s : State) (d : DeviceAccess) : (s.sawAccess d).ipsr = s.ipsr := rfl
@[simp] theorem State.sawAccess_epsrT (s : State) (d : DeviceAccess) : (s.sawAccess d).epsrT = s.epsrT := rfl
@[simp] theorem State.sawAccess_primask (s : State) (d : DeviceAccess) : (s.sawAccess d).primask = s.primask := rfl
@[simp] theorem State.sawAccess_nPriv (s : State) (d : DeviceAccess) : (s.sawAccess d).nPriv = s.nPriv := rfl
@[simp] theorem State.sawAccess_spsel (s : State) (d : DeviceAccess) : (s.sawAccess d).spsel = s.spsel := rfl
@[simp] theorem State.sawAccess_eventReg (s : State) (d : DeviceAccess) : (s.sawAccess d).eventReg = s.eventReg := rfl
@[simp] theorem State.sawAccess_lockup (s : State) (d : DeviceAccess) : (s.sawAccess d).lockup = s.lockup := rfl
@[simp] theorem State.sawAccess_sleep (s : State) (d : DeviceAccess) : (s.sawAccess d).sleep = s.sleep := rfl
@[simp] theorem State.sawAccess_nvic (s : State) (d : DeviceAccess) : (s.sawAccess d).nvic = s.nvic := rfl
@[simp] theorem State.sawAccess_scb (s : State) (d : DeviceAccess) : (s.sawAccess d).scb = s.scb := rfl
@[simp] theorem State.sawAccess_stk (s : State) (d : DeviceAccess) : (s.sawAccess d).stk = s.stk := rfl
@[simp] theorem State.sawAccess_mpu (s : State) (d : DeviceAccess) : (s.sawAccess d).mpu = s.mpu := rfl
@[simp] theorem State.sawAccess_mem (s : State) (d : DeviceAccess) : (s.sawAccess d).mem = s.mem := rfl
@[simp] theorem State.sawAccess_prefetched (s : State) (d : DeviceAccess) : (s.sawAccess d).prefetched = s.prefetched := rfl
@[simp] theorem State.sawAccess_devices (s : State) (d : DeviceAccess) : (s.sawAccess d).devices = d :: s.devices := rfl
@[simp] theorem State.sawAccess_deviceInput (s : State) (d : DeviceAccess) : (s.sawAccess d).deviceInput = s.deviceInput := rfl
@[simp] theorem State.sawAccess_midway (s : State) (d : DeviceAccess) : (s.sawAccess d).midway = s.midway := rfl
@[simp] theorem State.sawAccess_inputs (s : State) (d : DeviceAccess) : (s.sawAccess d).inputs = s.inputs := rfl
@[simp] theorem State.sawAccess_freeCount (s : State) (d : DeviceAccess) : (s.sawAccess d).freeCount = s.freeCount := rfl
@[simp] theorem State.sawAccess_cfg (s : State) (d : DeviceAccess) : (s.sawAccess d).cfg = s.cfg := rfl

@[simp] theorem State.fetchAhead_regs (s : State) (b : Bool) (n : Word) : (s.fetchAhead b n).regs = s.regs := rfl
@[simp] theorem State.fetchAhead_msp (s : State) (b : Bool) (n : Word) : (s.fetchAhead b n).msp = s.msp := rfl
@[simp] theorem State.fetchAhead_psp (s : State) (b : Bool) (n : Word) : (s.fetchAhead b n).psp = s.psp := rfl
@[simp] theorem State.fetchAhead_lr (s : State) (b : Bool) (n : Word) : (s.fetchAhead b n).lr = s.lr := rfl
@[simp] theorem State.fetchAhead_pc (s : State) (b : Bool) (n : Word) : (s.fetchAhead b n).pc = s.pc := rfl
@[simp] theorem State.fetchAhead_apsr (s : State) (b : Bool) (n : Word) : (s.fetchAhead b n).apsr = s.apsr := rfl
@[simp] theorem State.fetchAhead_ipsr (s : State) (b : Bool) (n : Word) : (s.fetchAhead b n).ipsr = s.ipsr := rfl
@[simp] theorem State.fetchAhead_epsrT (s : State) (b : Bool) (n : Word) : (s.fetchAhead b n).epsrT = s.epsrT := rfl
@[simp] theorem State.fetchAhead_primask (s : State) (b : Bool) (n : Word) : (s.fetchAhead b n).primask = s.primask := rfl
@[simp] theorem State.fetchAhead_nPriv (s : State) (b : Bool) (n : Word) : (s.fetchAhead b n).nPriv = s.nPriv := rfl
@[simp] theorem State.fetchAhead_spsel (s : State) (b : Bool) (n : Word) : (s.fetchAhead b n).spsel = s.spsel := rfl
@[simp] theorem State.fetchAhead_eventReg (s : State) (b : Bool) (n : Word) : (s.fetchAhead b n).eventReg = s.eventReg := rfl
@[simp] theorem State.fetchAhead_lockup (s : State) (b : Bool) (n : Word) : (s.fetchAhead b n).lockup = s.lockup := rfl
@[simp] theorem State.fetchAhead_sleep (s : State) (b : Bool) (n : Word) : (s.fetchAhead b n).sleep = s.sleep := rfl
@[simp] theorem State.fetchAhead_nvic (s : State) (b : Bool) (n : Word) : (s.fetchAhead b n).nvic = s.nvic := rfl
@[simp] theorem State.fetchAhead_scb (s : State) (b : Bool) (n : Word) : (s.fetchAhead b n).scb = s.scb := rfl
@[simp] theorem State.fetchAhead_stk (s : State) (b : Bool) (n : Word) : (s.fetchAhead b n).stk = s.stk := rfl
@[simp] theorem State.fetchAhead_mpu (s : State) (b : Bool) (n : Word) : (s.fetchAhead b n).mpu = s.mpu := rfl
@[simp] theorem State.fetchAhead_mem (s : State) (b : Bool) (n : Word) : (s.fetchAhead b n).mem = s.mem := rfl
@[simp] theorem State.fetchAhead_devices (s : State) (b : Bool) (n : Word) : (s.fetchAhead b n).devices = s.devices := rfl
@[simp] theorem State.fetchAhead_deviceInput (s : State) (b : Bool) (n : Word) : (s.fetchAhead b n).deviceInput = s.deviceInput := rfl
@[simp] theorem State.fetchAhead_midway (s : State) (b : Bool) (n : Word) : (s.fetchAhead b n).midway = s.midway := rfl
@[simp] theorem State.fetchAhead_inputs (s : State) (b : Bool) (n : Word) : (s.fetchAhead b n).inputs = s.inputs := rfl
@[simp] theorem State.fetchAhead_freeCount (s : State) (b : Bool) (n : Word) : (s.fetchAhead b n).freeCount = s.freeCount := rfl
@[simp] theorem State.fetchAhead_cfg (s : State) (b : Bool) (n : Word) : (s.fetchAhead b n).cfg = s.cfg := rfl

@[simp] theorem State.applyDma_regs (s : State) (c : List Host.Cell) : (s.applyDma c).regs = s.regs := rfl
@[simp] theorem State.applyDma_msp (s : State) (c : List Host.Cell) : (s.applyDma c).msp = s.msp := rfl
@[simp] theorem State.applyDma_psp (s : State) (c : List Host.Cell) : (s.applyDma c).psp = s.psp := rfl
@[simp] theorem State.applyDma_lr (s : State) (c : List Host.Cell) : (s.applyDma c).lr = s.lr := rfl
@[simp] theorem State.applyDma_pc (s : State) (c : List Host.Cell) : (s.applyDma c).pc = s.pc := rfl
@[simp] theorem State.applyDma_apsr (s : State) (c : List Host.Cell) : (s.applyDma c).apsr = s.apsr := rfl
@[simp] theorem State.applyDma_ipsr (s : State) (c : List Host.Cell) : (s.applyDma c).ipsr = s.ipsr := rfl
@[simp] theorem State.applyDma_epsrT (s : State) (c : List Host.Cell) : (s.applyDma c).epsrT = s.epsrT := rfl
@[simp] theorem State.applyDma_primask (s : State) (c : List Host.Cell) : (s.applyDma c).primask = s.primask := rfl
@[simp] theorem State.applyDma_nPriv (s : State) (c : List Host.Cell) : (s.applyDma c).nPriv = s.nPriv := rfl
@[simp] theorem State.applyDma_spsel (s : State) (c : List Host.Cell) : (s.applyDma c).spsel = s.spsel := rfl
@[simp] theorem State.applyDma_eventReg (s : State) (c : List Host.Cell) : (s.applyDma c).eventReg = s.eventReg := rfl
@[simp] theorem State.applyDma_lockup (s : State) (c : List Host.Cell) : (s.applyDma c).lockup = s.lockup := rfl
@[simp] theorem State.applyDma_sleep (s : State) (c : List Host.Cell) : (s.applyDma c).sleep = s.sleep := rfl
@[simp] theorem State.applyDma_nvic (s : State) (c : List Host.Cell) : (s.applyDma c).nvic = s.nvic := rfl
@[simp] theorem State.applyDma_scb (s : State) (c : List Host.Cell) : (s.applyDma c).scb = s.scb := rfl
@[simp] theorem State.applyDma_stk (s : State) (c : List Host.Cell) : (s.applyDma c).stk = s.stk := rfl
@[simp] theorem State.applyDma_mpu (s : State) (c : List Host.Cell) : (s.applyDma c).mpu = s.mpu := rfl
@[simp] theorem State.applyDma_mem (s : State) (c : List Host.Cell) : (s.applyDma c).mem = s.mem.setBytes c := rfl
@[simp] theorem State.applyDma_prefetched (s : State) (c : List Host.Cell) : (s.applyDma c).prefetched = s.prefetched := rfl
@[simp] theorem State.applyDma_devices (s : State) (c : List Host.Cell) : (s.applyDma c).devices = s.devices := rfl
@[simp] theorem State.applyDma_deviceInput (s : State) (c : List Host.Cell) : (s.applyDma c).deviceInput = s.deviceInput := rfl
@[simp] theorem State.applyDma_midway (s : State) (c : List Host.Cell) : (s.applyDma c).midway = s.midway := rfl
@[simp] theorem State.applyDma_inputs (s : State) (c : List Host.Cell) : (s.applyDma c).inputs = s.inputs := rfl
@[simp] theorem State.applyDma_freeCount (s : State) (c : List Host.Cell) : (s.applyDma c).freeCount = s.freeCount := rfl
@[simp] theorem State.applyDma_cfg (s : State) (c : List Host.Cell) : (s.applyDma c).cfg = s.cfg := rfl

@[simp] theorem State.storeByte_regs (s : State) (a : Word) (v : Byte) : (s.storeByte a v).regs = s.regs := rfl
@[simp] theorem State.storeByte_msp (s : State) (a : Word) (v : Byte) : (s.storeByte a v).msp = s.msp := rfl
@[simp] theorem State.storeByte_psp (s : State) (a : Word) (v : Byte) : (s.storeByte a v).psp = s.psp := rfl
@[simp] theorem State.storeByte_lr (s : State) (a : Word) (v : Byte) : (s.storeByte a v).lr = s.lr := rfl
@[simp] theorem State.storeByte_pc (s : State) (a : Word) (v : Byte) : (s.storeByte a v).pc = s.pc := rfl
@[simp] theorem State.storeByte_apsr (s : State) (a : Word) (v : Byte) : (s.storeByte a v).apsr = s.apsr := rfl
@[simp] theorem State.storeByte_ipsr (s : State) (a : Word) (v : Byte) : (s.storeByte a v).ipsr = s.ipsr := rfl
@[simp] theorem State.storeByte_epsrT (s : State) (a : Word) (v : Byte) : (s.storeByte a v).epsrT = s.epsrT := rfl
@[simp] theorem State.storeByte_primask (s : State) (a : Word) (v : Byte) : (s.storeByte a v).primask = s.primask := rfl
@[simp] theorem State.storeByte_nPriv (s : State) (a : Word) (v : Byte) : (s.storeByte a v).nPriv = s.nPriv := rfl
@[simp] theorem State.storeByte_spsel (s : State) (a : Word) (v : Byte) : (s.storeByte a v).spsel = s.spsel := rfl
@[simp] theorem State.storeByte_eventReg (s : State) (a : Word) (v : Byte) : (s.storeByte a v).eventReg = s.eventReg := rfl
@[simp] theorem State.storeByte_lockup (s : State) (a : Word) (v : Byte) : (s.storeByte a v).lockup = s.lockup := rfl
@[simp] theorem State.storeByte_sleep (s : State) (a : Word) (v : Byte) : (s.storeByte a v).sleep = s.sleep := rfl
@[simp] theorem State.storeByte_nvic (s : State) (a : Word) (v : Byte) : (s.storeByte a v).nvic = s.nvic := rfl
@[simp] theorem State.storeByte_scb (s : State) (a : Word) (v : Byte) : (s.storeByte a v).scb = s.scb := rfl
@[simp] theorem State.storeByte_stk (s : State) (a : Word) (v : Byte) : (s.storeByte a v).stk = s.stk := rfl
@[simp] theorem State.storeByte_mpu (s : State) (a : Word) (v : Byte) : (s.storeByte a v).mpu = s.mpu := rfl
@[simp] theorem State.storeByte_mem (s : State) (a : Word) (v : Byte) : (s.storeByte a v).mem = s.mem.setByte a.toNat v := rfl
@[simp] theorem State.storeByte_prefetched (s : State) (a : Word) (v : Byte) : (s.storeByte a v).prefetched = s.prefetched := rfl
@[simp] theorem State.storeByte_devices (s : State) (a : Word) (v : Byte) : (s.storeByte a v).devices = s.devices := rfl
@[simp] theorem State.storeByte_deviceInput (s : State) (a : Word) (v : Byte) : (s.storeByte a v).deviceInput = s.deviceInput := rfl
@[simp] theorem State.storeByte_midway (s : State) (a : Word) (v : Byte) : (s.storeByte a v).midway = s.midway := rfl
@[simp] theorem State.storeByte_inputs (s : State) (a : Word) (v : Byte) : (s.storeByte a v).inputs = s.inputs := rfl
@[simp] theorem State.storeByte_freeCount (s : State) (a : Word) (v : Byte) : (s.storeByte a v).freeCount = s.freeCount := rfl
@[simp] theorem State.storeByte_cfg (s : State) (a : Word) (v : Byte) : (s.storeByte a v).cfg = s.cfg := rfl

@[simp] theorem State.ppbReadEffect_regs (s : State) (r : PpbReg) : (s.ppbReadEffect r).regs = s.regs := by
  cases r <;> rfl
@[simp] theorem State.ppbReadEffect_msp (s : State) (r : PpbReg) : (s.ppbReadEffect r).msp = s.msp := by
  cases r <;> rfl
@[simp] theorem State.ppbReadEffect_psp (s : State) (r : PpbReg) : (s.ppbReadEffect r).psp = s.psp := by
  cases r <;> rfl
@[simp] theorem State.ppbReadEffect_lr (s : State) (r : PpbReg) : (s.ppbReadEffect r).lr = s.lr := by
  cases r <;> rfl
@[simp] theorem State.ppbReadEffect_pc (s : State) (r : PpbReg) : (s.ppbReadEffect r).pc = s.pc := by
  cases r <;> rfl
@[simp] theorem State.ppbReadEffect_apsr (s : State) (r : PpbReg) : (s.ppbReadEffect r).apsr = s.apsr := by
  cases r <;> rfl
@[simp] theorem State.ppbReadEffect_ipsr (s : State) (r : PpbReg) : (s.ppbReadEffect r).ipsr = s.ipsr := by
  cases r <;> rfl
@[simp] theorem State.ppbReadEffect_epsrT (s : State) (r : PpbReg) : (s.ppbReadEffect r).epsrT = s.epsrT := by
  cases r <;> rfl
@[simp] theorem State.ppbReadEffect_primask (s : State) (r : PpbReg) : (s.ppbReadEffect r).primask = s.primask := by
  cases r <;> rfl
@[simp] theorem State.ppbReadEffect_nPriv (s : State) (r : PpbReg) : (s.ppbReadEffect r).nPriv = s.nPriv := by
  cases r <;> rfl
@[simp] theorem State.ppbReadEffect_spsel (s : State) (r : PpbReg) : (s.ppbReadEffect r).spsel = s.spsel := by
  cases r <;> rfl
@[simp] theorem State.ppbReadEffect_eventReg (s : State) (r : PpbReg) : (s.ppbReadEffect r).eventReg = s.eventReg := by
  cases r <;> rfl
@[simp] theorem State.ppbReadEffect_lockup (s : State) (r : PpbReg) : (s.ppbReadEffect r).lockup = s.lockup := by
  cases r <;> rfl
@[simp] theorem State.ppbReadEffect_sleep (s : State) (r : PpbReg) : (s.ppbReadEffect r).sleep = s.sleep := by
  cases r <;> rfl
@[simp] theorem State.ppbReadEffect_nvic (s : State) (r : PpbReg) : (s.ppbReadEffect r).nvic = s.nvic := by
  cases r <;> rfl
@[simp] theorem State.ppbReadEffect_scb (s : State) (r : PpbReg) : (s.ppbReadEffect r).scb = s.scb := by
  cases r <;> rfl
@[simp] theorem State.ppbReadEffect_mpu (s : State) (r : PpbReg) : (s.ppbReadEffect r).mpu = s.mpu := by
  cases r <;> rfl
@[simp] theorem State.ppbReadEffect_mem (s : State) (r : PpbReg) : (s.ppbReadEffect r).mem = s.mem := by
  cases r <;> rfl
@[simp] theorem State.ppbReadEffect_prefetched (s : State) (r : PpbReg) : (s.ppbReadEffect r).prefetched = s.prefetched := by
  cases r <;> rfl
@[simp] theorem State.ppbReadEffect_devices (s : State) (r : PpbReg) : (s.ppbReadEffect r).devices = s.devices := by
  cases r <;> rfl
@[simp] theorem State.ppbReadEffect_deviceInput (s : State) (r : PpbReg) : (s.ppbReadEffect r).deviceInput = s.deviceInput := by
  cases r <;> rfl
@[simp] theorem State.ppbReadEffect_midway (s : State) (r : PpbReg) : (s.ppbReadEffect r).midway = s.midway := by
  cases r <;> rfl
@[simp] theorem State.ppbReadEffect_inputs (s : State) (r : PpbReg) : (s.ppbReadEffect r).inputs = s.inputs := by
  cases r <;> rfl
@[simp] theorem State.ppbReadEffect_cfg (s : State) (r : PpbReg) : (s.ppbReadEffect r).cfg = s.cfg := by
  cases r <;> rfl

@[simp] theorem State.busReadEffect_regs (s : State) (p : Bool) (k : AccessKind) (z : Size) (a : Word) : (s.busReadEffect p k z a).regs = s.regs := by
  unfold State.busReadEffect; split <;> (try split) <;> (try split) <;> simp
@[simp] theorem State.busReadEffect_msp (s : State) (p : Bool) (k : AccessKind) (z : Size) (a : Word) : (s.busReadEffect p k z a).msp = s.msp := by
  unfold State.busReadEffect; split <;> (try split) <;> (try split) <;> simp
@[simp] theorem State.busReadEffect_psp (s : State) (p : Bool) (k : AccessKind) (z : Size) (a : Word) : (s.busReadEffect p k z a).psp = s.psp := by
  unfold State.busReadEffect; split <;> (try split) <;> (try split) <;> simp
@[simp] theorem State.busReadEffect_lr (s : State) (p : Bool) (k : AccessKind) (z : Size) (a : Word) : (s.busReadEffect p k z a).lr = s.lr := by
  unfold State.busReadEffect; split <;> (try split) <;> (try split) <;> simp
@[simp] theorem State.busReadEffect_pc (s : State) (p : Bool) (k : AccessKind) (z : Size) (a : Word) : (s.busReadEffect p k z a).pc = s.pc := by
  unfold State.busReadEffect; split <;> (try split) <;> (try split) <;> simp
@[simp] theorem State.busReadEffect_apsr (s : State) (p : Bool) (k : AccessKind) (z : Size) (a : Word) : (s.busReadEffect p k z a).apsr = s.apsr := by
  unfold State.busReadEffect; split <;> (try split) <;> (try split) <;> simp
@[simp] theorem State.busReadEffect_ipsr (s : State) (p : Bool) (k : AccessKind) (z : Size) (a : Word) : (s.busReadEffect p k z a).ipsr = s.ipsr := by
  unfold State.busReadEffect; split <;> (try split) <;> (try split) <;> simp
@[simp] theorem State.busReadEffect_epsrT (s : State) (p : Bool) (k : AccessKind) (z : Size) (a : Word) : (s.busReadEffect p k z a).epsrT = s.epsrT := by
  unfold State.busReadEffect; split <;> (try split) <;> (try split) <;> simp
@[simp] theorem State.busReadEffect_primask (s : State) (p : Bool) (k : AccessKind) (z : Size) (a : Word) : (s.busReadEffect p k z a).primask = s.primask := by
  unfold State.busReadEffect; split <;> (try split) <;> (try split) <;> simp
@[simp] theorem State.busReadEffect_nPriv (s : State) (p : Bool) (k : AccessKind) (z : Size) (a : Word) : (s.busReadEffect p k z a).nPriv = s.nPriv := by
  unfold State.busReadEffect; split <;> (try split) <;> (try split) <;> simp
@[simp] theorem State.busReadEffect_spsel (s : State) (p : Bool) (k : AccessKind) (z : Size) (a : Word) : (s.busReadEffect p k z a).spsel = s.spsel := by
  unfold State.busReadEffect; split <;> (try split) <;> (try split) <;> simp
@[simp] theorem State.busReadEffect_eventReg (s : State) (p : Bool) (k : AccessKind) (z : Size) (a : Word) : (s.busReadEffect p k z a).eventReg = s.eventReg := by
  unfold State.busReadEffect; split <;> (try split) <;> (try split) <;> simp
@[simp] theorem State.busReadEffect_lockup (s : State) (p : Bool) (k : AccessKind) (z : Size) (a : Word) : (s.busReadEffect p k z a).lockup = s.lockup := by
  unfold State.busReadEffect; split <;> (try split) <;> (try split) <;> simp
@[simp] theorem State.busReadEffect_sleep (s : State) (p : Bool) (k : AccessKind) (z : Size) (a : Word) : (s.busReadEffect p k z a).sleep = s.sleep := by
  unfold State.busReadEffect; split <;> (try split) <;> (try split) <;> simp
@[simp] theorem State.busReadEffect_nvic (s : State) (p : Bool) (k : AccessKind) (z : Size) (a : Word) : (s.busReadEffect p k z a).nvic = s.nvic := by
  unfold State.busReadEffect; split <;> (try split) <;> (try split) <;> simp
@[simp] theorem State.busReadEffect_scb (s : State) (p : Bool) (k : AccessKind) (z : Size) (a : Word) : (s.busReadEffect p k z a).scb = s.scb := by
  unfold State.busReadEffect; split <;> (try split) <;> (try split) <;> simp
@[simp] theorem State.busReadEffect_mpu (s : State) (p : Bool) (k : AccessKind) (z : Size) (a : Word) : (s.busReadEffect p k z a).mpu = s.mpu := by
  unfold State.busReadEffect; split <;> (try split) <;> (try split) <;> simp
@[simp] theorem State.busReadEffect_mem (s : State) (p : Bool) (k : AccessKind) (z : Size) (a : Word) : (s.busReadEffect p k z a).mem = s.mem := by
  unfold State.busReadEffect; split <;> (try split) <;> (try split) <;> simp
@[simp] theorem State.busReadEffect_prefetched (s : State) (p : Bool) (k : AccessKind) (z : Size) (a : Word) : (s.busReadEffect p k z a).prefetched = s.prefetched := by
  unfold State.busReadEffect; split <;> (try split) <;> (try split) <;> simp
@[simp] theorem State.busReadEffect_deviceInput (s : State) (p : Bool) (k : AccessKind) (z : Size) (a : Word) : (s.busReadEffect p k z a).deviceInput = s.deviceInput := by
  unfold State.busReadEffect; split <;> (try split) <;> (try split) <;> simp
@[simp] theorem State.busReadEffect_midway (s : State) (p : Bool) (k : AccessKind) (z : Size) (a : Word) : (s.busReadEffect p k z a).midway = s.midway := by
  unfold State.busReadEffect; split <;> (try split) <;> (try split) <;> simp
@[simp] theorem State.busReadEffect_inputs (s : State) (p : Bool) (k : AccessKind) (z : Size) (a : Word) : (s.busReadEffect p k z a).inputs = s.inputs := by
  unfold State.busReadEffect; split <;> (try split) <;> (try split) <;> simp
@[simp] theorem State.busReadEffect_cfg (s : State) (p : Bool) (k : AccessKind) (z : Size) (a : Word) : (s.busReadEffect p k z a).cfg = s.cfg := by
  unfold State.busReadEffect; split <;> (try split) <;> (try split) <;> simp

@[simp] theorem State.sampleIrq_regs (s : State) (l : BitVec 32) : (s.sampleIrq l).regs = s.regs := by
  unfold State.sampleIrq; simp
@[simp] theorem State.sampleIrq_msp (s : State) (l : BitVec 32) : (s.sampleIrq l).msp = s.msp := by
  unfold State.sampleIrq; simp
@[simp] theorem State.sampleIrq_psp (s : State) (l : BitVec 32) : (s.sampleIrq l).psp = s.psp := by
  unfold State.sampleIrq; simp
@[simp] theorem State.sampleIrq_lr (s : State) (l : BitVec 32) : (s.sampleIrq l).lr = s.lr := by
  unfold State.sampleIrq; simp
@[simp] theorem State.sampleIrq_pc (s : State) (l : BitVec 32) : (s.sampleIrq l).pc = s.pc := by
  unfold State.sampleIrq; simp
@[simp] theorem State.sampleIrq_apsr (s : State) (l : BitVec 32) : (s.sampleIrq l).apsr = s.apsr := by
  unfold State.sampleIrq; simp
@[simp] theorem State.sampleIrq_ipsr (s : State) (l : BitVec 32) : (s.sampleIrq l).ipsr = s.ipsr := by
  unfold State.sampleIrq; simp
@[simp] theorem State.sampleIrq_epsrT (s : State) (l : BitVec 32) : (s.sampleIrq l).epsrT = s.epsrT := by
  unfold State.sampleIrq; simp
@[simp] theorem State.sampleIrq_primask (s : State) (l : BitVec 32) : (s.sampleIrq l).primask = s.primask := by
  unfold State.sampleIrq; simp
@[simp] theorem State.sampleIrq_nPriv (s : State) (l : BitVec 32) : (s.sampleIrq l).nPriv = s.nPriv := by
  unfold State.sampleIrq; simp
@[simp] theorem State.sampleIrq_spsel (s : State) (l : BitVec 32) : (s.sampleIrq l).spsel = s.spsel := by
  unfold State.sampleIrq; simp
@[simp] theorem State.sampleIrq_lockup (s : State) (l : BitVec 32) : (s.sampleIrq l).lockup = s.lockup := by
  unfold State.sampleIrq; simp
@[simp] theorem State.sampleIrq_scb (s : State) (l : BitVec 32) : (s.sampleIrq l).scb = s.scb := by
  unfold State.sampleIrq; simp
@[simp] theorem State.sampleIrq_stk (s : State) (l : BitVec 32) : (s.sampleIrq l).stk = s.stk := by
  unfold State.sampleIrq; simp
@[simp] theorem State.sampleIrq_mpu (s : State) (l : BitVec 32) : (s.sampleIrq l).mpu = s.mpu := by
  unfold State.sampleIrq; simp
@[simp] theorem State.sampleIrq_mem (s : State) (l : BitVec 32) : (s.sampleIrq l).mem = s.mem := by
  unfold State.sampleIrq; simp
@[simp] theorem State.sampleIrq_prefetched (s : State) (l : BitVec 32) : (s.sampleIrq l).prefetched = s.prefetched := by
  unfold State.sampleIrq; simp
@[simp] theorem State.sampleIrq_devices (s : State) (l : BitVec 32) : (s.sampleIrq l).devices = s.devices := by
  unfold State.sampleIrq; simp
@[simp] theorem State.sampleIrq_deviceInput (s : State) (l : BitVec 32) : (s.sampleIrq l).deviceInput = s.deviceInput := by
  unfold State.sampleIrq; simp
@[simp] theorem State.sampleIrq_midway (s : State) (l : BitVec 32) : (s.sampleIrq l).midway = s.midway := by
  unfold State.sampleIrq; simp
@[simp] theorem State.sampleIrq_inputs (s : State) (l : BitVec 32) : (s.sampleIrq l).inputs = s.inputs := by
  unfold State.sampleIrq; simp
@[simp] theorem State.sampleIrq_freeCount (s : State) (l : BitVec 32) : (s.sampleIrq l).freeCount = s.freeCount := by
  unfold State.sampleIrq; simp
@[simp] theorem State.sampleIrq_cfg (s : State) (l : BitVec 32) : (s.sampleIrq l).cfg = s.cfg := by
  unfold State.sampleIrq; simp

@[simp] theorem State.sampleNmi_regs (s : State) (l : Bool) : (s.sampleNmi l).regs = s.regs := by
  unfold State.sampleNmi; simp only; split <;> simp
@[simp] theorem State.sampleNmi_msp (s : State) (l : Bool) : (s.sampleNmi l).msp = s.msp := by
  unfold State.sampleNmi; simp only; split <;> simp
@[simp] theorem State.sampleNmi_psp (s : State) (l : Bool) : (s.sampleNmi l).psp = s.psp := by
  unfold State.sampleNmi; simp only; split <;> simp
@[simp] theorem State.sampleNmi_lr (s : State) (l : Bool) : (s.sampleNmi l).lr = s.lr := by
  unfold State.sampleNmi; simp only; split <;> simp
@[simp] theorem State.sampleNmi_pc (s : State) (l : Bool) : (s.sampleNmi l).pc = s.pc := by
  unfold State.sampleNmi; simp only; split <;> simp
@[simp] theorem State.sampleNmi_apsr (s : State) (l : Bool) : (s.sampleNmi l).apsr = s.apsr := by
  unfold State.sampleNmi; simp only; split <;> simp
@[simp] theorem State.sampleNmi_ipsr (s : State) (l : Bool) : (s.sampleNmi l).ipsr = s.ipsr := by
  unfold State.sampleNmi; simp only; split <;> simp
@[simp] theorem State.sampleNmi_epsrT (s : State) (l : Bool) : (s.sampleNmi l).epsrT = s.epsrT := by
  unfold State.sampleNmi; simp only; split <;> simp
@[simp] theorem State.sampleNmi_primask (s : State) (l : Bool) : (s.sampleNmi l).primask = s.primask := by
  unfold State.sampleNmi; simp only; split <;> simp
@[simp] theorem State.sampleNmi_nPriv (s : State) (l : Bool) : (s.sampleNmi l).nPriv = s.nPriv := by
  unfold State.sampleNmi; simp only; split <;> simp
@[simp] theorem State.sampleNmi_spsel (s : State) (l : Bool) : (s.sampleNmi l).spsel = s.spsel := by
  unfold State.sampleNmi; simp only; split <;> simp
@[simp] theorem State.sampleNmi_lockup (s : State) (l : Bool) : (s.sampleNmi l).lockup = s.lockup := by
  unfold State.sampleNmi; simp only; split <;> simp
@[simp] theorem State.sampleNmi_scb (s : State) (l : Bool) : (s.sampleNmi l).scb = s.scb := by
  unfold State.sampleNmi; simp only; split <;> simp
@[simp] theorem State.sampleNmi_stk (s : State) (l : Bool) : (s.sampleNmi l).stk = s.stk := by
  unfold State.sampleNmi; simp only; split <;> simp
@[simp] theorem State.sampleNmi_mpu (s : State) (l : Bool) : (s.sampleNmi l).mpu = s.mpu := by
  unfold State.sampleNmi; simp only; split <;> simp
@[simp] theorem State.sampleNmi_mem (s : State) (l : Bool) : (s.sampleNmi l).mem = s.mem := by
  unfold State.sampleNmi; simp only; split <;> simp
@[simp] theorem State.sampleNmi_prefetched (s : State) (l : Bool) : (s.sampleNmi l).prefetched = s.prefetched := by
  unfold State.sampleNmi; simp only; split <;> simp
@[simp] theorem State.sampleNmi_devices (s : State) (l : Bool) : (s.sampleNmi l).devices = s.devices := by
  unfold State.sampleNmi; simp only; split <;> simp
@[simp] theorem State.sampleNmi_deviceInput (s : State) (l : Bool) : (s.sampleNmi l).deviceInput = s.deviceInput := by
  unfold State.sampleNmi; simp only; split <;> simp
@[simp] theorem State.sampleNmi_midway (s : State) (l : Bool) : (s.sampleNmi l).midway = s.midway := by
  unfold State.sampleNmi; simp only; split <;> simp
@[simp] theorem State.sampleNmi_inputs (s : State) (l : Bool) : (s.sampleNmi l).inputs = s.inputs := by
  unfold State.sampleNmi; simp only; split <;> simp
@[simp] theorem State.sampleNmi_freeCount (s : State) (l : Bool) : (s.sampleNmi l).freeCount = s.freeCount := by
  unfold State.sampleNmi; simp only; split <;> simp
@[simp] theorem State.sampleNmi_cfg (s : State) (l : Bool) : (s.sampleNmi l).cfg = s.cfg := by
  unfold State.sampleNmi; simp only; split <;> simp

@[simp] theorem State.sampleEvent_regs (s : State) (l : Bool) : (s.sampleEvent l).regs = s.regs := by
  unfold State.sampleEvent; split <;> simp
@[simp] theorem State.sampleEvent_msp (s : State) (l : Bool) : (s.sampleEvent l).msp = s.msp := by
  unfold State.sampleEvent; split <;> simp
@[simp] theorem State.sampleEvent_psp (s : State) (l : Bool) : (s.sampleEvent l).psp = s.psp := by
  unfold State.sampleEvent; split <;> simp
@[simp] theorem State.sampleEvent_lr (s : State) (l : Bool) : (s.sampleEvent l).lr = s.lr := by
  unfold State.sampleEvent; split <;> simp
@[simp] theorem State.sampleEvent_pc (s : State) (l : Bool) : (s.sampleEvent l).pc = s.pc := by
  unfold State.sampleEvent; split <;> simp
@[simp] theorem State.sampleEvent_apsr (s : State) (l : Bool) : (s.sampleEvent l).apsr = s.apsr := by
  unfold State.sampleEvent; split <;> simp
@[simp] theorem State.sampleEvent_ipsr (s : State) (l : Bool) : (s.sampleEvent l).ipsr = s.ipsr := by
  unfold State.sampleEvent; split <;> simp
@[simp] theorem State.sampleEvent_epsrT (s : State) (l : Bool) : (s.sampleEvent l).epsrT = s.epsrT := by
  unfold State.sampleEvent; split <;> simp
@[simp] theorem State.sampleEvent_primask (s : State) (l : Bool) : (s.sampleEvent l).primask = s.primask := by
  unfold State.sampleEvent; split <;> simp
@[simp] theorem State.sampleEvent_nPriv (s : State) (l : Bool) : (s.sampleEvent l).nPriv = s.nPriv := by
  unfold State.sampleEvent; split <;> simp
@[simp] theorem State.sampleEvent_spsel (s : State) (l : Bool) : (s.sampleEvent l).spsel = s.spsel := by
  unfold State.sampleEvent; split <;> simp
@[simp] theorem State.sampleEvent_lockup (s : State) (l : Bool) : (s.sampleEvent l).lockup = s.lockup := by
  unfold State.sampleEvent; split <;> simp
@[simp] theorem State.sampleEvent_nvic (s : State) (l : Bool) : (s.sampleEvent l).nvic = s.nvic := by
  unfold State.sampleEvent; split <;> simp
@[simp] theorem State.sampleEvent_scb (s : State) (l : Bool) : (s.sampleEvent l).scb = s.scb := by
  unfold State.sampleEvent; split <;> simp
@[simp] theorem State.sampleEvent_stk (s : State) (l : Bool) : (s.sampleEvent l).stk = s.stk := by
  unfold State.sampleEvent; split <;> simp
@[simp] theorem State.sampleEvent_mpu (s : State) (l : Bool) : (s.sampleEvent l).mpu = s.mpu := by
  unfold State.sampleEvent; split <;> simp
@[simp] theorem State.sampleEvent_mem (s : State) (l : Bool) : (s.sampleEvent l).mem = s.mem := by
  unfold State.sampleEvent; split <;> simp
@[simp] theorem State.sampleEvent_prefetched (s : State) (l : Bool) : (s.sampleEvent l).prefetched = s.prefetched := by
  unfold State.sampleEvent; split <;> simp
@[simp] theorem State.sampleEvent_devices (s : State) (l : Bool) : (s.sampleEvent l).devices = s.devices := by
  unfold State.sampleEvent; split <;> simp
@[simp] theorem State.sampleEvent_deviceInput (s : State) (l : Bool) : (s.sampleEvent l).deviceInput = s.deviceInput := by
  unfold State.sampleEvent; split <;> simp
@[simp] theorem State.sampleEvent_midway (s : State) (l : Bool) : (s.sampleEvent l).midway = s.midway := by
  unfold State.sampleEvent; split <;> simp
@[simp] theorem State.sampleEvent_inputs (s : State) (l : Bool) : (s.sampleEvent l).inputs = s.inputs := by
  unfold State.sampleEvent; split <;> simp
@[simp] theorem State.sampleEvent_freeCount (s : State) (l : Bool) : (s.sampleEvent l).freeCount = s.freeCount := by
  unfold State.sampleEvent; split <;> simp
@[simp] theorem State.sampleEvent_cfg (s : State) (l : Bool) : (s.sampleEvent l).cfg = s.cfg := by
  unfold State.sampleEvent; split <;> simp

@[simp] theorem State.sysTickTick_regs (s : State) : (s.sysTickTick).regs = s.regs := by
  unfold State.sysTickTick; simp only; split <;> (try split) <;> (try split) <;> (try split) <;> simp
@[simp] theorem State.sysTickTick_msp (s : State) : (s.sysTickTick).msp = s.msp := by
  unfold State.sysTickTick; simp only; split <;> (try split) <;> (try split) <;> (try split) <;> simp
@[simp] theorem State.sysTickTick_psp (s : State) : (s.sysTickTick).psp = s.psp := by
  unfold State.sysTickTick; simp only; split <;> (try split) <;> (try split) <;> (try split) <;> simp
@[simp] theorem State.sysTickTick_lr (s : State) : (s.sysTickTick).lr = s.lr := by
  unfold State.sysTickTick; simp only; split <;> (try split) <;> (try split) <;> (try split) <;> simp
@[simp] theorem State.sysTickTick_pc (s : State) : (s.sysTickTick).pc = s.pc := by
  unfold State.sysTickTick; simp only; split <;> (try split) <;> (try split) <;> (try split) <;> simp
@[simp] theorem State.sysTickTick_apsr (s : State) : (s.sysTickTick).apsr = s.apsr := by
  unfold State.sysTickTick; simp only; split <;> (try split) <;> (try split) <;> (try split) <;> simp
@[simp] theorem State.sysTickTick_ipsr (s : State) : (s.sysTickTick).ipsr = s.ipsr := by
  unfold State.sysTickTick; simp only; split <;> (try split) <;> (try split) <;> (try split) <;> simp
@[simp] theorem State.sysTickTick_epsrT (s : State) : (s.sysTickTick).epsrT = s.epsrT := by
  unfold State.sysTickTick; simp only; split <;> (try split) <;> (try split) <;> (try split) <;> simp
@[simp] theorem State.sysTickTick_primask (s : State) : (s.sysTickTick).primask = s.primask := by
  unfold State.sysTickTick; simp only; split <;> (try split) <;> (try split) <;> (try split) <;> simp
@[simp] theorem State.sysTickTick_nPriv (s : State) : (s.sysTickTick).nPriv = s.nPriv := by
  unfold State.sysTickTick; simp only; split <;> (try split) <;> (try split) <;> (try split) <;> simp
@[simp] theorem State.sysTickTick_spsel (s : State) : (s.sysTickTick).spsel = s.spsel := by
  unfold State.sysTickTick; simp only; split <;> (try split) <;> (try split) <;> (try split) <;> simp
@[simp] theorem State.sysTickTick_lockup (s : State) : (s.sysTickTick).lockup = s.lockup := by
  unfold State.sysTickTick; simp only; split <;> (try split) <;> (try split) <;> (try split) <;> simp
@[simp] theorem State.sysTickTick_scb (s : State) : (s.sysTickTick).scb = s.scb := by
  unfold State.sysTickTick; simp only; split <;> (try split) <;> (try split) <;> (try split) <;> simp
@[simp] theorem State.sysTickTick_mpu (s : State) : (s.sysTickTick).mpu = s.mpu := by
  unfold State.sysTickTick; simp only; split <;> (try split) <;> (try split) <;> (try split) <;> simp
@[simp] theorem State.sysTickTick_mem (s : State) : (s.sysTickTick).mem = s.mem := by
  unfold State.sysTickTick; simp only; split <;> (try split) <;> (try split) <;> (try split) <;> simp
@[simp] theorem State.sysTickTick_prefetched (s : State) : (s.sysTickTick).prefetched = s.prefetched := by
  unfold State.sysTickTick; simp only; split <;> (try split) <;> (try split) <;> (try split) <;> simp
@[simp] theorem State.sysTickTick_devices (s : State) : (s.sysTickTick).devices = s.devices := by
  unfold State.sysTickTick; simp only; split <;> (try split) <;> (try split) <;> (try split) <;> simp
@[simp] theorem State.sysTickTick_deviceInput (s : State) : (s.sysTickTick).deviceInput = s.deviceInput := by
  unfold State.sysTickTick; simp only; split <;> (try split) <;> (try split) <;> (try split) <;> simp
@[simp] theorem State.sysTickTick_midway (s : State) : (s.sysTickTick).midway = s.midway := by
  unfold State.sysTickTick; simp only; split <;> (try split) <;> (try split) <;> (try split) <;> simp
@[simp] theorem State.sysTickTick_inputs (s : State) : (s.sysTickTick).inputs = s.inputs := by
  unfold State.sysTickTick; simp only; split <;> (try split) <;> (try split) <;> (try split) <;> simp
@[simp] theorem State.sysTickTick_freeCount (s : State) : (s.sysTickTick).freeCount = s.freeCount := by
  unfold State.sysTickTick; simp only; split <;> (try split) <;> (try split) <;> (try split) <;> simp
@[simp] theorem State.sysTickTick_cfg (s : State) : (s.sysTickTick).cfg = s.cfg := by
  unfold State.sysTickTick; simp only; split <;> (try split) <;> (try split) <;> (try split) <;> simp

@[simp] theorem State.afterReturn_regs (s : State) (b : Bool) : (s.afterReturn b).regs = s.regs := by
  unfold State.afterReturn; split <;> simp [*]
@[simp] theorem State.afterReturn_msp (s : State) (b : Bool) : (s.afterReturn b).msp = s.msp := by
  unfold State.afterReturn; split <;> simp [*]
@[simp] theorem State.afterReturn_psp (s : State) (b : Bool) : (s.afterReturn b).psp = s.psp := by
  unfold State.afterReturn; split <;> simp [*]
@[simp] theorem State.afterReturn_lr (s : State) (b : Bool) : (s.afterReturn b).lr = s.lr := by
  unfold State.afterReturn; split <;> simp [*]
@[simp] theorem State.afterReturn_pc (s : State) (b : Bool) : (s.afterReturn b).pc = s.pc := by
  unfold State.afterReturn; split <;> simp [*]
@[simp] theorem State.afterReturn_apsr (s : State) (b : Bool) : (s.afterReturn b).apsr = s.apsr := by
  unfold State.afterReturn; split <;> simp [*]
@[simp] theorem State.afterReturn_ipsr (s : State) (b : Bool) : (s.afterReturn b).ipsr = s.ipsr := by
  unfold State.afterReturn; split <;> simp [*]
@[simp] theorem State.afterReturn_epsrT (s : State) (b : Bool) : (s.afterReturn b).epsrT = s.epsrT := by
  unfold State.afterReturn; split <;> simp [*]
@[simp] theorem State.afterReturn_primask (s : State) (b : Bool) : (s.afterReturn b).primask = s.primask := by
  unfold State.afterReturn; split <;> simp [*]
@[simp] theorem State.afterReturn_nPriv (s : State) (b : Bool) : (s.afterReturn b).nPriv = s.nPriv := by
  unfold State.afterReturn; split <;> simp [*]
@[simp] theorem State.afterReturn_spsel (s : State) (b : Bool) : (s.afterReturn b).spsel = s.spsel := by
  unfold State.afterReturn; split <;> simp [*]
@[simp] theorem State.afterReturn_eventReg (s : State) (b : Bool) : (s.afterReturn b).eventReg = s.eventReg := by
  unfold State.afterReturn; split <;> simp [*]
@[simp] theorem State.afterReturn_lockup (s : State) (b : Bool) : (s.afterReturn b).lockup = s.lockup := by
  unfold State.afterReturn; split <;> simp [*]
@[simp] theorem State.afterReturn_sleep (s : State) (b : Bool) : (s.afterReturn b).sleep = if b && s.sleepOnExit then .onExit else s.sleep := by
  unfold State.afterReturn; split <;> simp [*]
@[simp] theorem State.afterReturn_nvic (s : State) (b : Bool) : (s.afterReturn b).nvic = s.nvic := by
  unfold State.afterReturn; split <;> simp [*]
@[simp] theorem State.afterReturn_scb (s : State) (b : Bool) : (s.afterReturn b).scb = s.scb := by
  unfold State.afterReturn; split <;> simp [*]
@[simp] theorem State.afterReturn_stk (s : State) (b : Bool) : (s.afterReturn b).stk = s.stk := by
  unfold State.afterReturn; split <;> simp [*]
@[simp] theorem State.afterReturn_mpu (s : State) (b : Bool) : (s.afterReturn b).mpu = s.mpu := by
  unfold State.afterReturn; split <;> simp [*]
@[simp] theorem State.afterReturn_mem (s : State) (b : Bool) : (s.afterReturn b).mem = s.mem := by
  unfold State.afterReturn; split <;> simp [*]
@[simp] theorem State.afterReturn_prefetched (s : State) (b : Bool) : (s.afterReturn b).prefetched = s.prefetched := by
  unfold State.afterReturn; split <;> simp [*]
@[simp] theorem State.afterReturn_devices (s : State) (b : Bool) : (s.afterReturn b).devices = s.devices := by
  unfold State.afterReturn; split <;> simp [*]
@[simp] theorem State.afterReturn_deviceInput (s : State) (b : Bool) : (s.afterReturn b).deviceInput = s.deviceInput := by
  unfold State.afterReturn; split <;> simp [*]
@[simp] theorem State.afterReturn_midway (s : State) (b : Bool) : (s.afterReturn b).midway = s.midway := by
  unfold State.afterReturn; split <;> simp [*]
@[simp] theorem State.afterReturn_inputs (s : State) (b : Bool) : (s.afterReturn b).inputs = s.inputs := by
  unfold State.afterReturn; split <;> simp [*]
@[simp] theorem State.afterReturn_freeCount (s : State) (b : Bool) : (s.afterReturn b).freeCount = s.freeCount := by
  unfold State.afterReturn; split <;> simp [*]
@[simp] theorem State.afterReturn_cfg (s : State) (b : Bool) : (s.afterReturn b).cfg = s.cfg := by
  unfold State.afterReturn; split <;> simp [*]

@[simp] theorem State.storeBytes_regs (s : State) (v : Word) (i : Nat) (l : List Word) : (s.storeBytes v i l).regs = s.regs := by
  induction l generalizing s i with
  | nil => rfl
  | cons a rest ih => simp [State.storeBytes, ih]
@[simp] theorem State.storeBytes_msp (s : State) (v : Word) (i : Nat) (l : List Word) : (s.storeBytes v i l).msp = s.msp := by
  induction l generalizing s i with
  | nil => rfl
  | cons a rest ih => simp [State.storeBytes, ih]
@[simp] theorem State.storeBytes_psp (s : State) (v : Word) (i : Nat) (l : List Word) : (s.storeBytes v i l).psp = s.psp := by
  induction l generalizing s i with
  | nil => rfl
  | cons a rest ih => simp [State.storeBytes, ih]
@[simp] theorem State.storeBytes_lr (s : State) (v : Word) (i : Nat) (l : List Word) : (s.storeBytes v i l).lr = s.lr := by
  induction l generalizing s i with
  | nil => rfl
  | cons a rest ih => simp [State.storeBytes, ih]
@[simp] theorem State.storeBytes_pc (s : State) (v : Word) (i : Nat) (l : List Word) : (s.storeBytes v i l).pc = s.pc := by
  induction l generalizing s i with
  | nil => rfl
  | cons a rest ih => simp [State.storeBytes, ih]
@[simp] theorem State.storeBytes_apsr (s : State) (v : Word) (i : Nat) (l : List Word) : (s.storeBytes v i l).apsr = s.apsr := by
  induction l generalizing s i with
  | nil => rfl
  | cons a rest ih => simp [State.storeBytes, ih]
@[simp] theorem State.storeBytes_ipsr (s : State) (v : Word) (i : Nat) (l : List Word) : (s.storeBytes v i l).ipsr = s.ipsr := by
  induction l generalizing s i with
  | nil => rfl
  | cons a rest ih => simp [State.storeBytes, ih]
@[simp] theorem State.storeBytes_epsrT (s : State) (v : Word) (i : Nat) (l : List Word) : (s.storeBytes v i l).epsrT = s.epsrT := by
  induction l generalizing s i with
  | nil => rfl
  | cons a rest ih => simp [State.storeBytes, ih]
@[simp] theorem State.storeBytes_primask (s : State) (v : Word) (i : Nat) (l : List Word) : (s.storeBytes v i l).primask = s.primask := by
  induction l generalizing s i with
  | nil => rfl
  | cons a rest ih => simp [State.storeBytes, ih]
@[simp] theorem State.storeBytes_nPriv (s : State) (v : Word) (i : Nat) (l : List Word) : (s.storeBytes v i l).nPriv = s.nPriv := by
  induction l generalizing s i with
  | nil => rfl
  | cons a rest ih => simp [State.storeBytes, ih]
@[simp] theorem State.storeBytes_spsel (s : State) (v : Word) (i : Nat) (l : List Word) : (s.storeBytes v i l).spsel = s.spsel := by
  induction l generalizing s i with
  | nil => rfl
  | cons a rest ih => simp [State.storeBytes, ih]
@[simp] theorem State.storeBytes_eventReg (s : State) (v : Word) (i : Nat) (l : List Word) : (s.storeBytes v i l).eventReg = s.eventReg := by
  induction l generalizing s i with
  | nil => rfl
  | cons a rest ih => simp [State.storeBytes, ih]
@[simp] theorem State.storeBytes_lockup (s : State) (v : Word) (i : Nat) (l : List Word) : (s.storeBytes v i l).lockup = s.lockup := by
  induction l generalizing s i with
  | nil => rfl
  | cons a rest ih => simp [State.storeBytes, ih]
@[simp] theorem State.storeBytes_sleep (s : State) (v : Word) (i : Nat) (l : List Word) : (s.storeBytes v i l).sleep = s.sleep := by
  induction l generalizing s i with
  | nil => rfl
  | cons a rest ih => simp [State.storeBytes, ih]
@[simp] theorem State.storeBytes_nvic (s : State) (v : Word) (i : Nat) (l : List Word) : (s.storeBytes v i l).nvic = s.nvic := by
  induction l generalizing s i with
  | nil => rfl
  | cons a rest ih => simp [State.storeBytes, ih]
@[simp] theorem State.storeBytes_scb (s : State) (v : Word) (i : Nat) (l : List Word) : (s.storeBytes v i l).scb = s.scb := by
  induction l generalizing s i with
  | nil => rfl
  | cons a rest ih => simp [State.storeBytes, ih]
@[simp] theorem State.storeBytes_stk (s : State) (v : Word) (i : Nat) (l : List Word) : (s.storeBytes v i l).stk = s.stk := by
  induction l generalizing s i with
  | nil => rfl
  | cons a rest ih => simp [State.storeBytes, ih]
@[simp] theorem State.storeBytes_mpu (s : State) (v : Word) (i : Nat) (l : List Word) : (s.storeBytes v i l).mpu = s.mpu := by
  induction l generalizing s i with
  | nil => rfl
  | cons a rest ih => simp [State.storeBytes, ih]
@[simp] theorem State.storeBytes_prefetched (s : State) (v : Word) (i : Nat) (l : List Word) : (s.storeBytes v i l).prefetched = s.prefetched := by
  induction l generalizing s i with
  | nil => rfl
  | cons a rest ih => simp [State.storeBytes, ih]
@[simp] theorem State.storeBytes_devices (s : State) (v : Word) (i : Nat) (l : List Word) : (s.storeBytes v i l).devices = s.devices := by
  induction l generalizing s i with
  | nil => rfl
  | cons a rest ih => simp [State.storeBytes, ih]
@[simp] theorem State.storeBytes_deviceInput (s : State) (v : Word) (i : Nat) (l : List Word) : (s.storeBytes v i l).deviceInput = s.deviceInput := by
  induction l generalizing s i with
  | nil => rfl
  | cons a rest ih => simp [State.storeBytes, ih]
@[simp] theorem State.storeBytes_midway (s : State) (v : Word) (i : Nat) (l : List Word) : (s.storeBytes v i l).midway = s.midway := by
  induction l generalizing s i with
  | nil => rfl
  | cons a rest ih => simp [State.storeBytes, ih]
@[simp] theorem State.storeBytes_inputs (s : State) (v : Word) (i : Nat) (l : List Word) : (s.storeBytes v i l).inputs = s.inputs := by
  induction l generalizing s i with
  | nil => rfl
  | cons a rest ih => simp [State.storeBytes, ih]
@[simp] theorem State.storeBytes_freeCount (s : State) (v : Word) (i : Nat) (l : List Word) : (s.storeBytes v i l).freeCount = s.freeCount := by
  induction l generalizing s i with
  | nil => rfl
  | cons a rest ih => simp [State.storeBytes, ih]
@[simp] theorem State.storeBytes_cfg (s : State) (v : Word) (i : Nat) (l : List Word) : (s.storeBytes v i l).cfg = s.cfg := by
  induction l generalizing s i with
  | nil => rfl
  | cons a rest ih => simp [State.storeBytes, ih]

@[simp] theorem State.setLos_msp (s : State) (rs : List LoReg) (vs : List Word) : (s.setLos rs vs).msp = s.msp := by
  induction rs generalizing s vs with
  | nil => rfl
  | cons r rest ih => cases vs <;> simp [State.setLos, ih]
@[simp] theorem State.setLos_psp (s : State) (rs : List LoReg) (vs : List Word) : (s.setLos rs vs).psp = s.psp := by
  induction rs generalizing s vs with
  | nil => rfl
  | cons r rest ih => cases vs <;> simp [State.setLos, ih]
@[simp] theorem State.setLos_lr (s : State) (rs : List LoReg) (vs : List Word) : (s.setLos rs vs).lr = s.lr := by
  induction rs generalizing s vs with
  | nil => rfl
  | cons r rest ih => cases vs <;> simp [State.setLos, ih]
@[simp] theorem State.setLos_pc (s : State) (rs : List LoReg) (vs : List Word) : (s.setLos rs vs).pc = s.pc := by
  induction rs generalizing s vs with
  | nil => rfl
  | cons r rest ih => cases vs <;> simp [State.setLos, ih]
@[simp] theorem State.setLos_apsr (s : State) (rs : List LoReg) (vs : List Word) : (s.setLos rs vs).apsr = s.apsr := by
  induction rs generalizing s vs with
  | nil => rfl
  | cons r rest ih => cases vs <;> simp [State.setLos, ih]
@[simp] theorem State.setLos_ipsr (s : State) (rs : List LoReg) (vs : List Word) : (s.setLos rs vs).ipsr = s.ipsr := by
  induction rs generalizing s vs with
  | nil => rfl
  | cons r rest ih => cases vs <;> simp [State.setLos, ih]
@[simp] theorem State.setLos_epsrT (s : State) (rs : List LoReg) (vs : List Word) : (s.setLos rs vs).epsrT = s.epsrT := by
  induction rs generalizing s vs with
  | nil => rfl
  | cons r rest ih => cases vs <;> simp [State.setLos, ih]
@[simp] theorem State.setLos_primask (s : State) (rs : List LoReg) (vs : List Word) : (s.setLos rs vs).primask = s.primask := by
  induction rs generalizing s vs with
  | nil => rfl
  | cons r rest ih => cases vs <;> simp [State.setLos, ih]
@[simp] theorem State.setLos_nPriv (s : State) (rs : List LoReg) (vs : List Word) : (s.setLos rs vs).nPriv = s.nPriv := by
  induction rs generalizing s vs with
  | nil => rfl
  | cons r rest ih => cases vs <;> simp [State.setLos, ih]
@[simp] theorem State.setLos_spsel (s : State) (rs : List LoReg) (vs : List Word) : (s.setLos rs vs).spsel = s.spsel := by
  induction rs generalizing s vs with
  | nil => rfl
  | cons r rest ih => cases vs <;> simp [State.setLos, ih]
@[simp] theorem State.setLos_eventReg (s : State) (rs : List LoReg) (vs : List Word) : (s.setLos rs vs).eventReg = s.eventReg := by
  induction rs generalizing s vs with
  | nil => rfl
  | cons r rest ih => cases vs <;> simp [State.setLos, ih]
@[simp] theorem State.setLos_lockup (s : State) (rs : List LoReg) (vs : List Word) : (s.setLos rs vs).lockup = s.lockup := by
  induction rs generalizing s vs with
  | nil => rfl
  | cons r rest ih => cases vs <;> simp [State.setLos, ih]
@[simp] theorem State.setLos_sleep (s : State) (rs : List LoReg) (vs : List Word) : (s.setLos rs vs).sleep = s.sleep := by
  induction rs generalizing s vs with
  | nil => rfl
  | cons r rest ih => cases vs <;> simp [State.setLos, ih]
@[simp] theorem State.setLos_nvic (s : State) (rs : List LoReg) (vs : List Word) : (s.setLos rs vs).nvic = s.nvic := by
  induction rs generalizing s vs with
  | nil => rfl
  | cons r rest ih => cases vs <;> simp [State.setLos, ih]
@[simp] theorem State.setLos_scb (s : State) (rs : List LoReg) (vs : List Word) : (s.setLos rs vs).scb = s.scb := by
  induction rs generalizing s vs with
  | nil => rfl
  | cons r rest ih => cases vs <;> simp [State.setLos, ih]
@[simp] theorem State.setLos_stk (s : State) (rs : List LoReg) (vs : List Word) : (s.setLos rs vs).stk = s.stk := by
  induction rs generalizing s vs with
  | nil => rfl
  | cons r rest ih => cases vs <;> simp [State.setLos, ih]
@[simp] theorem State.setLos_mpu (s : State) (rs : List LoReg) (vs : List Word) : (s.setLos rs vs).mpu = s.mpu := by
  induction rs generalizing s vs with
  | nil => rfl
  | cons r rest ih => cases vs <;> simp [State.setLos, ih]
@[simp] theorem State.setLos_mem (s : State) (rs : List LoReg) (vs : List Word) : (s.setLos rs vs).mem = s.mem := by
  induction rs generalizing s vs with
  | nil => rfl
  | cons r rest ih => cases vs <;> simp [State.setLos, ih]
@[simp] theorem State.setLos_prefetched (s : State) (rs : List LoReg) (vs : List Word) : (s.setLos rs vs).prefetched = s.prefetched := by
  induction rs generalizing s vs with
  | nil => rfl
  | cons r rest ih => cases vs <;> simp [State.setLos, ih]
@[simp] theorem State.setLos_devices (s : State) (rs : List LoReg) (vs : List Word) : (s.setLos rs vs).devices = s.devices := by
  induction rs generalizing s vs with
  | nil => rfl
  | cons r rest ih => cases vs <;> simp [State.setLos, ih]
@[simp] theorem State.setLos_deviceInput (s : State) (rs : List LoReg) (vs : List Word) : (s.setLos rs vs).deviceInput = s.deviceInput := by
  induction rs generalizing s vs with
  | nil => rfl
  | cons r rest ih => cases vs <;> simp [State.setLos, ih]
@[simp] theorem State.setLos_midway (s : State) (rs : List LoReg) (vs : List Word) : (s.setLos rs vs).midway = s.midway := by
  induction rs generalizing s vs with
  | nil => rfl
  | cons r rest ih => cases vs <;> simp [State.setLos, ih]
@[simp] theorem State.setLos_inputs (s : State) (rs : List LoReg) (vs : List Word) : (s.setLos rs vs).inputs = s.inputs := by
  induction rs generalizing s vs with
  | nil => rfl
  | cons r rest ih => cases vs <;> simp [State.setLos, ih]
@[simp] theorem State.setLos_freeCount (s : State) (rs : List LoReg) (vs : List Word) : (s.setLos rs vs).freeCount = s.freeCount := by
  induction rs generalizing s vs with
  | nil => rfl
  | cons r rest ih => cases vs <;> simp [State.setLos, ih]
@[simp] theorem State.setLos_cfg (s : State) (rs : List LoReg) (vs : List Word) : (s.setLos rs vs).cfg = s.cfg := by
  induction rs generalizing s vs with
  | nil => rfl
  | cons r rest ih => cases vs <;> simp [State.setLos, ih]

@[simp] theorem State.readWords_regs (s : State) (p : Bool) (a : Word) (n : Nat) : ((s.readWords p a n).2).regs = s.regs := by
  induction n generalizing s a with
  | zero => rfl
  | succ k ih => simp [State.readWords, ih]
@[simp] theorem State.readWords_msp (s : State) (p : Bool) (a : Word) (n : Nat) : ((s.readWords p a n).2).msp = s.msp := by
  induction n generalizing s a with
  | zero => rfl
  | succ k ih => simp [State.readWords, ih]
@[simp] theorem State.readWords_psp (s : State) (p : Bool) (a : Word) (n : Nat) : ((s.readWords p a n).2).psp = s.psp := by
  induction n generalizing s a with
  | zero => rfl
  | succ k ih => simp [State.readWords, ih]
@[simp] theorem State.readWords_lr (s : State) (p : Bool) (a : Word) (n : Nat) : ((s.readWords p a n).2).lr = s.lr := by
  induction n generalizing s a with
  | zero => rfl
  | succ k ih => simp [State.readWords, ih]
@[simp] theorem State.readWords_pc (s : State) (p : Bool) (a : Word) (n : Nat) : ((s.readWords p a n).2).pc = s.pc := by
  induction n generalizing s a with
  | zero => rfl
  | succ k ih => simp [State.readWords, ih]
@[simp] theorem State.readWords_apsr (s : State) (p : Bool) (a : Word) (n : Nat) : ((s.readWords p a n).2).apsr = s.apsr := by
  induction n generalizing s a with
  | zero => rfl
  | succ k ih => simp [State.readWords, ih]
@[simp] theorem State.readWords_ipsr (s : State) (p : Bool) (a : Word) (n : Nat) : ((s.readWords p a n).2).ipsr = s.ipsr := by
  induction n generalizing s a with
  | zero => rfl
  | succ k ih => simp [State.readWords, ih]
@[simp] theorem State.readWords_epsrT (s : State) (p : Bool) (a : Word) (n : Nat) : ((s.readWords p a n).2).epsrT = s.epsrT := by
  induction n generalizing s a with
  | zero => rfl
  | succ k ih => simp [State.readWords, ih]
@[simp] theorem State.readWords_primask (s : State) (p : Bool) (a : Word) (n : Nat) : ((s.readWords p a n).2).primask = s.primask := by
  induction n generalizing s a with
  | zero => rfl
  | succ k ih => simp [State.readWords, ih]
@[simp] theorem State.readWords_nPriv (s : State) (p : Bool) (a : Word) (n : Nat) : ((s.readWords p a n).2).nPriv = s.nPriv := by
  induction n generalizing s a with
  | zero => rfl
  | succ k ih => simp [State.readWords, ih]
@[simp] theorem State.readWords_spsel (s : State) (p : Bool) (a : Word) (n : Nat) : ((s.readWords p a n).2).spsel = s.spsel := by
  induction n generalizing s a with
  | zero => rfl
  | succ k ih => simp [State.readWords, ih]
@[simp] theorem State.readWords_eventReg (s : State) (p : Bool) (a : Word) (n : Nat) : ((s.readWords p a n).2).eventReg = s.eventReg := by
  induction n generalizing s a with
  | zero => rfl
  | succ k ih => simp [State.readWords, ih]
@[simp] theorem State.readWords_lockup (s : State) (p : Bool) (a : Word) (n : Nat) : ((s.readWords p a n).2).lockup = s.lockup := by
  induction n generalizing s a with
  | zero => rfl
  | succ k ih => simp [State.readWords, ih]
@[simp] theorem State.readWords_sleep (s : State) (p : Bool) (a : Word) (n : Nat) : ((s.readWords p a n).2).sleep = s.sleep := by
  induction n generalizing s a with
  | zero => rfl
  | succ k ih => simp [State.readWords, ih]
@[simp] theorem State.readWords_nvic (s : State) (p : Bool) (a : Word) (n : Nat) : ((s.readWords p a n).2).nvic = s.nvic := by
  induction n generalizing s a with
  | zero => rfl
  | succ k ih => simp [State.readWords, ih]
@[simp] theorem State.readWords_scb (s : State) (p : Bool) (a : Word) (n : Nat) : ((s.readWords p a n).2).scb = s.scb := by
  induction n generalizing s a with
  | zero => rfl
  | succ k ih => simp [State.readWords, ih]
@[simp] theorem State.readWords_mpu (s : State) (p : Bool) (a : Word) (n : Nat) : ((s.readWords p a n).2).mpu = s.mpu := by
  induction n generalizing s a with
  | zero => rfl
  | succ k ih => simp [State.readWords, ih]
@[simp] theorem State.readWords_mem (s : State) (p : Bool) (a : Word) (n : Nat) : ((s.readWords p a n).2).mem = s.mem := by
  induction n generalizing s a with
  | zero => rfl
  | succ k ih => simp [State.readWords, ih]
@[simp] theorem State.readWords_prefetched (s : State) (p : Bool) (a : Word) (n : Nat) : ((s.readWords p a n).2).prefetched = s.prefetched := by
  induction n generalizing s a with
  | zero => rfl
  | succ k ih => simp [State.readWords, ih]
@[simp] theorem State.readWords_deviceInput (s : State) (p : Bool) (a : Word) (n : Nat) : ((s.readWords p a n).2).deviceInput = s.deviceInput := by
  induction n generalizing s a with
  | zero => rfl
  | succ k ih => simp [State.readWords, ih]
@[simp] theorem State.readWords_midway (s : State) (p : Bool) (a : Word) (n : Nat) : ((s.readWords p a n).2).midway = s.midway := by
  induction n generalizing s a with
  | zero => rfl
  | succ k ih => simp [State.readWords, ih]
@[simp] theorem State.readWords_inputs (s : State) (p : Bool) (a : Word) (n : Nat) : ((s.readWords p a n).2).inputs = s.inputs := by
  induction n generalizing s a with
  | zero => rfl
  | succ k ih => simp [State.readWords, ih]
@[simp] theorem State.readWords_cfg (s : State) (p : Bool) (a : Word) (n : Nat) : ((s.readWords p a n).2).cfg = s.cfg := by
  induction n generalizing s a with
  | zero => rfl
  | succ k ih => simp [State.readWords, ih]

@[simp] theorem State.sysTickTicks_regs (s : State) (n : Nat) : (s.sysTickTicks n).regs = s.regs := by
  induction n generalizing s with
  | zero => rfl
  | succ k ih => simp [State.sysTickTicks, ih]
@[simp] theorem State.sysTickTicks_msp (s : State) (n : Nat) : (s.sysTickTicks n).msp = s.msp := by
  induction n generalizing s with
  | zero => rfl
  | succ k ih => simp [State.sysTickTicks, ih]
@[simp] theorem State.sysTickTicks_psp (s : State) (n : Nat) : (s.sysTickTicks n).psp = s.psp := by
  induction n generalizing s with
  | zero => rfl
  | succ k ih => simp [State.sysTickTicks, ih]
@[simp] theorem State.sysTickTicks_lr (s : State) (n : Nat) : (s.sysTickTicks n).lr = s.lr := by
  induction n generalizing s with
  | zero => rfl
  | succ k ih => simp [State.sysTickTicks, ih]
@[simp] theorem State.sysTickTicks_pc (s : State) (n : Nat) : (s.sysTickTicks n).pc = s.pc := by
  induction n generalizing s with
  | zero => rfl
  | succ k ih => simp [State.sysTickTicks, ih]
@[simp] theorem State.sysTickTicks_apsr (s : State) (n : Nat) : (s.sysTickTicks n).apsr = s.apsr := by
  induction n generalizing s with
  | zero => rfl
  | succ k ih => simp [State.sysTickTicks, ih]
@[simp] theorem State.sysTickTicks_ipsr (s : State) (n : Nat) : (s.sysTickTicks n).ipsr = s.ipsr := by
  induction n generalizing s with
  | zero => rfl
  | succ k ih => simp [State.sysTickTicks, ih]
@[simp] theorem State.sysTickTicks_epsrT (s : State) (n : Nat) : (s.sysTickTicks n).epsrT = s.epsrT := by
  induction n generalizing s with
  | zero => rfl
  | succ k ih => simp [State.sysTickTicks, ih]
@[simp] theorem State.sysTickTicks_primask (s : State) (n : Nat) : (s.sysTickTicks n).primask = s.primask := by
  induction n generalizing s with
  | zero => rfl
  | succ k ih => simp [State.sysTickTicks, ih]
@[simp] theorem State.sysTickTicks_nPriv (s : State) (n : Nat) : (s.sysTickTicks n).nPriv = s.nPriv := by
  induction n generalizing s with
  | zero => rfl
  | succ k ih => simp [State.sysTickTicks, ih]
@[simp] theorem State.sysTickTicks_spsel (s : State) (n : Nat) : (s.sysTickTicks n).spsel = s.spsel := by
  induction n generalizing s with
  | zero => rfl
  | succ k ih => simp [State.sysTickTicks, ih]
@[simp] theorem State.sysTickTicks_lockup (s : State) (n : Nat) : (s.sysTickTicks n).lockup = s.lockup := by
  induction n generalizing s with
  | zero => rfl
  | succ k ih => simp [State.sysTickTicks, ih]
@[simp] theorem State.sysTickTicks_scb (s : State) (n : Nat) : (s.sysTickTicks n).scb = s.scb := by
  induction n generalizing s with
  | zero => rfl
  | succ k ih => simp [State.sysTickTicks, ih]
@[simp] theorem State.sysTickTicks_mpu (s : State) (n : Nat) : (s.sysTickTicks n).mpu = s.mpu := by
  induction n generalizing s with
  | zero => rfl
  | succ k ih => simp [State.sysTickTicks, ih]
@[simp] theorem State.sysTickTicks_mem (s : State) (n : Nat) : (s.sysTickTicks n).mem = s.mem := by
  induction n generalizing s with
  | zero => rfl
  | succ k ih => simp [State.sysTickTicks, ih]
@[simp] theorem State.sysTickTicks_prefetched (s : State) (n : Nat) : (s.sysTickTicks n).prefetched = s.prefetched := by
  induction n generalizing s with
  | zero => rfl
  | succ k ih => simp [State.sysTickTicks, ih]
@[simp] theorem State.sysTickTicks_devices (s : State) (n : Nat) : (s.sysTickTicks n).devices = s.devices := by
  induction n generalizing s with
  | zero => rfl
  | succ k ih => simp [State.sysTickTicks, ih]
@[simp] theorem State.sysTickTicks_deviceInput (s : State) (n : Nat) : (s.sysTickTicks n).deviceInput = s.deviceInput := by
  induction n generalizing s with
  | zero => rfl
  | succ k ih => simp [State.sysTickTicks, ih]
@[simp] theorem State.sysTickTicks_midway (s : State) (n : Nat) : (s.sysTickTicks n).midway = s.midway := by
  induction n generalizing s with
  | zero => rfl
  | succ k ih => simp [State.sysTickTicks, ih]
@[simp] theorem State.sysTickTicks_inputs (s : State) (n : Nat) : (s.sysTickTicks n).inputs = s.inputs := by
  induction n generalizing s with
  | zero => rfl
  | succ k ih => simp [State.sysTickTicks, ih]
@[simp] theorem State.sysTickTicks_freeCount (s : State) (n : Nat) : (s.sysTickTicks n).freeCount = s.freeCount := by
  induction n generalizing s with
  | zero => rfl
  | succ k ih => simp [State.sysTickTicks, ih]
@[simp] theorem State.sysTickTicks_cfg (s : State) (n : Nat) : (s.sysTickTicks n).cfg = s.cfg := by
  induction n generalizing s with
  | zero => rfl
  | succ k ih => simp [State.sysTickTicks, ih]

@[simp] theorem State.keepLoaded_msp (s : State) (w : Word) (b : Option LoReg) (rs : List LoReg) (vs : List Word) : (s.keepLoaded w b rs vs).msp = s.msp := by
  induction rs generalizing s vs with
  | nil => rfl
  | cons r rest ih =>
    cases vs with
    | nil => rfl
    | cons v vs => rw [State.keepLoaded, ih]; split <;> simp
@[simp] theorem State.keepLoaded_psp (s : State) (w : Word) (b : Option LoReg) (rs : List LoReg) (vs : List Word) : (s.keepLoaded w b rs vs).psp = s.psp := by
  induction rs generalizing s vs with
  | nil => rfl
  | cons r rest ih =>
    cases vs with
    | nil => rfl
    | cons v vs => rw [State.keepLoaded, ih]; split <;> simp
@[simp] theorem State.keepLoaded_lr (s : State) (w : Word) (b : Option LoReg) (rs : List LoReg) (vs : List Word) : (s.keepLoaded w b rs vs).lr = s.lr := by
  induction rs generalizing s vs with
  | nil => rfl
  | cons r rest ih =>
    cases vs with
    | nil => rfl
    | cons v vs => rw [State.keepLoaded, ih]; split <;> simp
@[simp] theorem State.keepLoaded_pc (s : State) (w : Word) (b : Option LoReg) (rs : List LoReg) (vs : List Word) : (s.keepLoaded w b rs vs).pc = s.pc := by
  induction rs generalizing s vs with
  | nil => rfl
  | cons r rest ih =>
    cases vs with
    | nil => rfl
    | cons v vs => rw [State.keepLoaded, ih]; split <;> simp
@[simp] theorem State.keepLoaded_apsr (s : State) (w : Word) (b : Option LoReg) (rs : List LoReg) (vs : List Word) : (s.keepLoaded w b rs vs).apsr = s.apsr := by
  induction rs generalizing s vs with
  | nil => rfl
  | cons r rest ih =>
    cases vs with
    | nil => rfl
    | cons v vs => rw [State.keepLoaded, ih]; split <;> simp
@[simp] theorem State.keepLoaded_ipsr (s : State) (w : Word) (b : Option LoReg) (rs : List LoReg) (vs : List Word) : (s.keepLoaded w b rs vs).ipsr = s.ipsr := by
  induction rs generalizing s vs with
  | nil => rfl
  | cons r rest ih =>
    cases vs with
    | nil => rfl
    | cons v vs => rw [State.keepLoaded, ih]; split <;> simp
@[simp] theorem State.keepLoaded_epsrT (s : State) (w : Word) (b : Option LoReg) (rs : List LoReg) (vs : List Word) : (s.keepLoaded w b rs vs).epsrT = s.epsrT := by
  induction rs generalizing s vs with
  | nil => rfl
  | cons r rest ih =>
    cases vs with
    | nil => rfl
    | cons v vs => rw [State.keepLoaded, ih]; split <;> simp
@[simp] theorem State.keepLoaded_primask (s : State) (w : Word) (b : Option LoReg) (rs : List LoReg) (vs : List Word) : (s.keepLoaded w b rs vs).primask = s.primask := by
  induction rs generalizing s vs with
  | nil => rfl
  | cons r rest ih =>
    cases vs with
    | nil => rfl
    | cons v vs => rw [State.keepLoaded, ih]; split <;> simp
@[simp] theorem State.keepLoaded_nPriv (s : State) (w : Word) (b : Option LoReg) (rs : List LoReg) (vs : List Word) : (s.keepLoaded w b rs vs).nPriv = s.nPriv := by
  induction rs generalizing s vs with
  | nil => rfl
  | cons r rest ih =>
    cases vs with
    | nil => rfl
    | cons v vs => rw [State.keepLoaded, ih]; split <;> simp
@[simp] theorem State.keepLoaded_spsel (s : State) (w : Word) (b : Option LoReg) (rs : List LoReg) (vs : List Word) : (s.keepLoaded w b rs vs).spsel = s.spsel := by
  induction rs generalizing s vs with
  | nil => rfl
  | cons r rest ih =>
    cases vs with
    | nil => rfl
    | cons v vs => rw [State.keepLoaded, ih]; split <;> simp
@[simp] theorem State.keepLoaded_eventReg (s : State) (w : Word) (b : Option LoReg) (rs : List LoReg) (vs : List Word) : (s.keepLoaded w b rs vs).eventReg = s.eventReg := by
  induction rs generalizing s vs with
  | nil => rfl
  | cons r rest ih =>
    cases vs with
    | nil => rfl
    | cons v vs => rw [State.keepLoaded, ih]; split <;> simp
@[simp] theorem State.keepLoaded_lockup (s : State) (w : Word) (b : Option LoReg) (rs : List LoReg) (vs : List Word) : (s.keepLoaded w b rs vs).lockup = s.lockup := by
  induction rs generalizing s vs with
  | nil => rfl
  | cons r rest ih =>
    cases vs with
    | nil => rfl
    | cons v vs => rw [State.keepLoaded, ih]; split <;> simp
@[simp] theorem State.keepLoaded_sleep (s : State) (w : Word) (b : Option LoReg) (rs : List LoReg) (vs : List Word) : (s.keepLoaded w b rs vs).sleep = s.sleep := by
  induction rs generalizing s vs with
  | nil => rfl
  | cons r rest ih =>
    cases vs with
    | nil => rfl
    | cons v vs => rw [State.keepLoaded, ih]; split <;> simp
@[simp] theorem State.keepLoaded_nvic (s : State) (w : Word) (b : Option LoReg) (rs : List LoReg) (vs : List Word) : (s.keepLoaded w b rs vs).nvic = s.nvic := by
  induction rs generalizing s vs with
  | nil => rfl
  | cons r rest ih =>
    cases vs with
    | nil => rfl
    | cons v vs => rw [State.keepLoaded, ih]; split <;> simp
@[simp] theorem State.keepLoaded_scb (s : State) (w : Word) (b : Option LoReg) (rs : List LoReg) (vs : List Word) : (s.keepLoaded w b rs vs).scb = s.scb := by
  induction rs generalizing s vs with
  | nil => rfl
  | cons r rest ih =>
    cases vs with
    | nil => rfl
    | cons v vs => rw [State.keepLoaded, ih]; split <;> simp
@[simp] theorem State.keepLoaded_stk (s : State) (w : Word) (b : Option LoReg) (rs : List LoReg) (vs : List Word) : (s.keepLoaded w b rs vs).stk = s.stk := by
  induction rs generalizing s vs with
  | nil => rfl
  | cons r rest ih =>
    cases vs with
    | nil => rfl
    | cons v vs => rw [State.keepLoaded, ih]; split <;> simp
@[simp] theorem State.keepLoaded_mpu (s : State) (w : Word) (b : Option LoReg) (rs : List LoReg) (vs : List Word) : (s.keepLoaded w b rs vs).mpu = s.mpu := by
  induction rs generalizing s vs with
  | nil => rfl
  | cons r rest ih =>
    cases vs with
    | nil => rfl
    | cons v vs => rw [State.keepLoaded, ih]; split <;> simp
@[simp] theorem State.keepLoaded_mem (s : State) (w : Word) (b : Option LoReg) (rs : List LoReg) (vs : List Word) : (s.keepLoaded w b rs vs).mem = s.mem := by
  induction rs generalizing s vs with
  | nil => rfl
  | cons r rest ih =>
    cases vs with
    | nil => rfl
    | cons v vs => rw [State.keepLoaded, ih]; split <;> simp
@[simp] theorem State.keepLoaded_prefetched (s : State) (w : Word) (b : Option LoReg) (rs : List LoReg) (vs : List Word) : (s.keepLoaded w b rs vs).prefetched = s.prefetched := by
  induction rs generalizing s vs with
  | nil => rfl
  | cons r rest ih =>
    cases vs with
    | nil => rfl
    | cons v vs => rw [State.keepLoaded, ih]; split <;> simp
@[simp] theorem State.keepLoaded_devices (s : State) (w : Word) (b : Option LoReg) (rs : List LoReg) (vs : List Word) : (s.keepLoaded w b rs vs).devices = s.devices := by
  induction rs generalizing s vs with
  | nil => rfl
  | cons r rest ih =>
    cases vs with
    | nil => rfl
    | cons v vs => rw [State.keepLoaded, ih]; split <;> simp
@[simp] theorem State.keepLoaded_deviceInput (s : State) (w : Word) (b : Option LoReg) (rs : List LoReg) (vs : List Word) : (s.keepLoaded w b rs vs).deviceInput = s.deviceInput := by
  induction rs generalizing s vs with
  | nil => rfl
  | cons r rest ih =>
    cases vs with
    | nil => rfl
    | cons v vs => rw [State.keepLoaded, ih]; split <;> simp
@[simp] theorem State.keepLoaded_midway (s : State) (w : Word) (b : Option LoReg) (rs : List LoReg) (vs : List Word) : (s.keepLoaded w b rs vs).midway = s.midway := by
  induction rs generalizing s vs with
  | nil => rfl
  | cons r rest ih =>
    cases vs with
    | nil => rfl
    | cons v vs => rw [State.keepLoaded, ih]; split <;> simp
@[simp] theorem State.keepLoaded_inputs (s : State) (w : Word) (b : Option LoReg) (rs : List LoReg) (vs : List Word) : (s.keepLoaded w b rs vs).inputs = s.inputs := by
  induction rs generalizing s vs with
  | nil => rfl
  | cons r rest ih =>
    cases vs with
    | nil => rfl
    | cons v vs => rw [State.keepLoaded, ih]; split <;> simp
@[simp] theorem State.keepLoaded_freeCount (s : State) (w : Word) (b : Option LoReg) (rs : List LoReg) (vs : List Word) : (s.keepLoaded w b rs vs).freeCount = s.freeCount := by
  induction rs generalizing s vs with
  | nil => rfl
  | cons r rest ih =>
    cases vs with
    | nil => rfl
    | cons v vs => rw [State.keepLoaded, ih]; split <;> simp
@[simp] theorem State.keepLoaded_cfg (s : State) (w : Word) (b : Option LoReg) (rs : List LoReg) (vs : List Word) : (s.keepLoaded w b rs vs).cfg = s.cfg := by
  induction rs generalizing s vs with
  | nil => rfl
  | cons r rest ih =>
    cases vs with
    | nil => rfl
    | cons v vs => rw [State.keepLoaded, ih]; split <;> simp

@[simp] theorem State.sampleMidway_regs (s : State) (m : Midway) : (s.sampleMidway m).regs = s.regs := by simp [State.sampleMidway]
@[simp] theorem State.sampleMidway_msp (s : State) (m : Midway) : (s.sampleMidway m).msp = s.msp := by simp [State.sampleMidway]
@[simp] theorem State.sampleMidway_psp (s : State) (m : Midway) : (s.sampleMidway m).psp = s.psp := by simp [State.sampleMidway]
@[simp] theorem State.sampleMidway_lr (s : State) (m : Midway) : (s.sampleMidway m).lr = s.lr := by simp [State.sampleMidway]
@[simp] theorem State.sampleMidway_pc (s : State) (m : Midway) : (s.sampleMidway m).pc = s.pc := by simp [State.sampleMidway]
@[simp] theorem State.sampleMidway_apsr (s : State) (m : Midway) : (s.sampleMidway m).apsr = s.apsr := by simp [State.sampleMidway]
@[simp] theorem State.sampleMidway_ipsr (s : State) (m : Midway) : (s.sampleMidway m).ipsr = s.ipsr := by simp [State.sampleMidway]
@[simp] theorem State.sampleMidway_epsrT (s : State) (m : Midway) : (s.sampleMidway m).epsrT = s.epsrT := by simp [State.sampleMidway]
@[simp] theorem State.sampleMidway_primask (s : State) (m : Midway) : (s.sampleMidway m).primask = s.primask := by simp [State.sampleMidway]
@[simp] theorem State.sampleMidway_nPriv (s : State) (m : Midway) : (s.sampleMidway m).nPriv = s.nPriv := by simp [State.sampleMidway]
@[simp] theorem State.sampleMidway_spsel (s : State) (m : Midway) : (s.sampleMidway m).spsel = s.spsel := by simp [State.sampleMidway]
@[simp] theorem State.sampleMidway_lockup (s : State) (m : Midway) : (s.sampleMidway m).lockup = s.lockup := by simp [State.sampleMidway]
@[simp] theorem State.sampleMidway_scb (s : State) (m : Midway) : (s.sampleMidway m).scb = s.scb := by simp [State.sampleMidway]
@[simp] theorem State.sampleMidway_mpu (s : State) (m : Midway) : (s.sampleMidway m).mpu = s.mpu := by simp [State.sampleMidway]
@[simp] theorem State.sampleMidway_mem (s : State) (m : Midway) : (s.sampleMidway m).mem = s.mem := by simp [State.sampleMidway]
@[simp] theorem State.sampleMidway_prefetched (s : State) (m : Midway) : (s.sampleMidway m).prefetched = s.prefetched := by simp [State.sampleMidway]
@[simp] theorem State.sampleMidway_devices (s : State) (m : Midway) : (s.sampleMidway m).devices = s.devices := by simp [State.sampleMidway]
@[simp] theorem State.sampleMidway_deviceInput (s : State) (m : Midway) : (s.sampleMidway m).deviceInput = s.deviceInput := by simp [State.sampleMidway]
@[simp] theorem State.sampleMidway_midway (s : State) (m : Midway) : (s.sampleMidway m).midway = s.midway := by simp [State.sampleMidway]
@[simp] theorem State.sampleMidway_inputs (s : State) (m : Midway) : (s.sampleMidway m).inputs = s.inputs := by simp [State.sampleMidway]
@[simp] theorem State.sampleMidway_freeCount (s : State) (m : Midway) : (s.sampleMidway m).freeCount = s.freeCount := by simp [State.sampleMidway]
@[simp] theorem State.sampleMidway_cfg (s : State) (m : Midway) : (s.sampleMidway m).cfg = s.cfg := by simp [State.sampleMidway]

@[simp] theorem State.sampleAll_regs (s : State) (i : StepInput) : (s.sampleAll i).regs = s.regs := by simp [State.sampleAll]
@[simp] theorem State.sampleAll_msp (s : State) (i : StepInput) : (s.sampleAll i).msp = s.msp := by simp [State.sampleAll]
@[simp] theorem State.sampleAll_psp (s : State) (i : StepInput) : (s.sampleAll i).psp = s.psp := by simp [State.sampleAll]
@[simp] theorem State.sampleAll_lr (s : State) (i : StepInput) : (s.sampleAll i).lr = s.lr := by simp [State.sampleAll]
@[simp] theorem State.sampleAll_pc (s : State) (i : StepInput) : (s.sampleAll i).pc = s.pc := by simp [State.sampleAll]
@[simp] theorem State.sampleAll_apsr (s : State) (i : StepInput) : (s.sampleAll i).apsr = s.apsr := by simp [State.sampleAll]
@[simp] theorem State.sampleAll_ipsr (s : State) (i : StepInput) : (s.sampleAll i).ipsr = s.ipsr := by simp [State.sampleAll]
@[simp] theorem State.sampleAll_epsrT (s : State) (i : StepInput) : (s.sampleAll i).epsrT = s.epsrT := by simp [State.sampleAll]
@[simp] theorem State.sampleAll_primask (s : State) (i : StepInput) : (s.sampleAll i).primask = s.primask := by simp [State.sampleAll]
@[simp] theorem State.sampleAll_nPriv (s : State) (i : StepInput) : (s.sampleAll i).nPriv = s.nPriv := by simp [State.sampleAll]
@[simp] theorem State.sampleAll_spsel (s : State) (i : StepInput) : (s.sampleAll i).spsel = s.spsel := by simp [State.sampleAll]
@[simp] theorem State.sampleAll_lockup (s : State) (i : StepInput) : (s.sampleAll i).lockup = s.lockup := by simp [State.sampleAll]
@[simp] theorem State.sampleAll_scb (s : State) (i : StepInput) : (s.sampleAll i).scb = s.scb := by simp [State.sampleAll]
@[simp] theorem State.sampleAll_mpu (s : State) (i : StepInput) : (s.sampleAll i).mpu = s.mpu := by simp [State.sampleAll]
@[simp] theorem State.sampleAll_prefetched (s : State) (i : StepInput) : (s.sampleAll i).prefetched = s.prefetched := by simp [State.sampleAll]
@[simp] theorem State.sampleAll_devices (s : State) (i : StepInput) : (s.sampleAll i).devices = s.devices := by simp [State.sampleAll]
@[simp] theorem State.sampleAll_deviceInput (s : State) (i : StepInput) : (s.sampleAll i).deviceInput = s.deviceInput := by simp [State.sampleAll]
@[simp] theorem State.sampleAll_midway (s : State) (i : StepInput) : (s.sampleAll i).midway = s.midway := by simp [State.sampleAll]
@[simp] theorem State.sampleAll_inputs (s : State) (i : StepInput) : (s.sampleAll i).inputs = s.inputs := by simp [State.sampleAll]
@[simp] theorem State.sampleAll_freeCount (s : State) (i : StepInput) : (s.sampleAll i).freeCount = s.freeCount := by simp [State.sampleAll]
@[simp] theorem State.sampleAll_cfg (s : State) (i : StepInput) : (s.sampleAll i).cfg = s.cfg := by simp [State.sampleAll]

@[simp] theorem State.sample_regs (s : State) (i : StepInput) : (s.sample i).regs = s.regs := by
  unfold State.sample; split <;> simp
@[simp] theorem State.sample_msp (s : State) (i : StepInput) : (s.sample i).msp = s.msp := by
  unfold State.sample; split <;> simp
@[simp] theorem State.sample_psp (s : State) (i : StepInput) : (s.sample i).psp = s.psp := by
  unfold State.sample; split <;> simp
@[simp] theorem State.sample_lr (s : State) (i : StepInput) : (s.sample i).lr = s.lr := by
  unfold State.sample; split <;> simp
@[simp] theorem State.sample_pc (s : State) (i : StepInput) : (s.sample i).pc = s.pc := by
  unfold State.sample; split <;> simp
@[simp] theorem State.sample_apsr (s : State) (i : StepInput) : (s.sample i).apsr = s.apsr := by
  unfold State.sample; split <;> simp
@[simp] theorem State.sample_ipsr (s : State) (i : StepInput) : (s.sample i).ipsr = s.ipsr := by
  unfold State.sample; split <;> simp
@[simp] theorem State.sample_epsrT (s : State) (i : StepInput) : (s.sample i).epsrT = s.epsrT := by
  unfold State.sample; split <;> simp
@[simp] theorem State.sample_primask (s : State) (i : StepInput) : (s.sample i).primask = s.primask := by
  unfold State.sample; split <;> simp
@[simp] theorem State.sample_nPriv (s : State) (i : StepInput) : (s.sample i).nPriv = s.nPriv := by
  unfold State.sample; split <;> simp
@[simp] theorem State.sample_spsel (s : State) (i : StepInput) : (s.sample i).spsel = s.spsel := by
  unfold State.sample; split <;> simp
@[simp] theorem State.sample_lockup (s : State) (i : StepInput) : (s.sample i).lockup = s.lockup := by
  unfold State.sample; split <;> simp
@[simp] theorem State.sample_scb (s : State) (i : StepInput) : (s.sample i).scb = s.scb := by
  unfold State.sample; split <;> simp
@[simp] theorem State.sample_mpu (s : State) (i : StepInput) : (s.sample i).mpu = s.mpu := by
  unfold State.sample; split <;> simp
@[simp] theorem State.sample_prefetched (s : State) (i : StepInput) : (s.sample i).prefetched = s.prefetched := by
  unfold State.sample; split <;> simp
@[simp] theorem State.sample_devices (s : State) (i : StepInput) : (s.sample i).devices = s.devices := by
  unfold State.sample; split <;> simp
@[simp] theorem State.sample_deviceInput (s : State) (i : StepInput) : (s.sample i).deviceInput = s.deviceInput := by
  unfold State.sample; split <;> simp
@[simp] theorem State.sample_midway (s : State) (i : StepInput) : (s.sample i).midway = s.midway := by
  unfold State.sample; split <;> simp
@[simp] theorem State.sample_inputs (s : State) (i : StepInput) : (s.sample i).inputs = s.inputs := by
  unfold State.sample; split <;> simp
@[simp] theorem State.sample_freeCount (s : State) (i : StepInput) : (s.sample i).freeCount = s.freeCount := by
  unfold State.sample; split <;> simp
@[simp] theorem State.sample_cfg (s : State) (i : StepInput) : (s.sample i).cfg = s.cfg := by
  unfold State.sample; split <;> simp

end Sys2Proof.Machine
end

