-- ==== Sys2Proof/Laws/Access.lean ====
section
/-! SUPPORT. What the access operations can do, once each: the provers cite these instead of unfolding the operations. -/

namespace Sys2Proof.Machine

/-- Memory after reset has its canonical form. -/
theorem State.reset_mem_wf : State.reset.mem.wf = true := rfl

theorem Acc.bind_eq_ok {α β : Type} {x : Acc α} {f : α → Acc β} {b : β} (h : x.bind f = .ok b) :
    ∃ a, x = .ok a ∧ f a = .ok b := by
  cases x with
  | ok a => exact ⟨a, rfl, h⟩
  | fault c => cases h
  | refused r => cases h

@[simp] theorem Acc.bind_ok {α β : Type} (a : α) (f : α → Acc β) : (Acc.ok a).bind f = f a := rfl

@[simp] theorem Acc.bind_fault {α β : Type} (c : FaultCause) (f : α → Acc β) : (Acc.fault c).bind f = .fault c := rfl

@[simp] theorem Acc.bind_refused {α β : Type} (r : Refusal) (f : α → Acc β) : (Acc.refused r).bind f = .refused r := rfl

@[simp] theorem State.afterAccess_ok {α : Type} (s : State) (a : α) (k : α → Result) : s.afterAccess (.ok a) k = k a := rfl

@[simp] theorem State.afterAccess_fault {α : Type} (s : State) (c : FaultCause) (k : α → Result) :
    s.afterAccess (.fault c) k = s.raiseHardFault s.pc := rfl

@[simp] theorem State.afterAccess_refused {α : Type} (s : State) (r : Refusal) (k : α → Result) :
    s.afterAccess (.refused r) k = .refused r := rfl

/-- A meaning that answers a next state after its accesses: they passed, or HardFault was raised. -/
theorem State.afterAccess_next {α : Type} {s t : State} {r : Acc α} {k : α → Result} (h : s.afterAccess r k = .next t) :
    (∃ a, r = .ok a ∧ k a = .next t) ∨ (∃ c, r = .fault c ∧ s.raiseHardFault s.pc = .next t) := by
  cases r with
  | ok a => exact .inl ⟨a, rfl, h⟩
  | fault c => exact .inr ⟨c, rfl, h⟩
  | refused r => cases h

/-- A system register write changes only the core peripherals, the sleep state and the event register. -/
theorem State.ppbWrite_frame {s t : State} {r : PpbReg} {w : Word} (h : s.ppbWrite r w = .ok t) :
    t = { s with nvic := t.nvic, scb := t.scb, stk := t.stk, mpu := t.mpu, sleep := t.sleep, eventReg := t.eventReg } := by
  cases r <;>
    simp only [State.ppbWrite, keepCleared, State.writeIcsr, State.writeAircr, State.writeMpuCtrl, State.writeMpuRnr,
      State.writeMpuRbar] at h <;>
    (repeat' split at h) <;>
    first
    | (cases h; rfl)
    | (cases h; rw [State.mk.injEq]; simp)
    | cases h

/-- A bus write changes memory or what the devices saw outside the PPB, and only what a system register write changes inside. -/
theorem State.busWrite_frame {s t : State} {priv : Bool} {size : Size} {a v : Word} (h : s.busWrite priv size a v = .ok t) :
    t = { s with
      mem := t.mem, devices := t.devices, nvic := t.nvic, scb := t.scb, stk := t.stk, mpu := t.mpu, sleep := t.sleep
      eventReg := t.eventReg } := by
  unfold State.busWrite at h
  split at h
  · split at h
    · have hf := State.ppbWrite_frame h
      rw [hf]
    · cases h; rfl
  · split at h <;> cases h
    · rfl
    · rfl
    · rw [State.mk.injEq]; simp

/-- Outside the PPB a write stores bytes, is ignored by read-only storage, or is seen by a device. -/
theorem State.busWrite_cases {s t : State} {priv : Bool} {size : Size} {a v : Word} (ha : inPpb a = false)
    (h : s.busWrite priv size a v = .ok t) :
    (s.kindAt priv .write size a = .rom ∧ t = s) ∨
      (s.kindAt priv .write size a = .device ∧ t = s.sawAccess (s.deviceAccess priv .write size a (narrowTo size v))) ∨
      (s.kindAt priv .write size a ≠ .rom ∧ s.kindAt priv .write size a ≠ .device ∧
        t = s.storeBytes v 0 (accessBytes size a)) := by
  unfold State.busWrite at h
  rw [ha] at h
  simp only [Bool.false_eq_true, if_false] at h
  split at h <;> cases h
  · exact .inl ⟨by assumption, rfl⟩
  · exact .inr (.inl ⟨by assumption, rfl⟩)
  · exact .inr (.inr ⟨by assumption, by assumption, rfl⟩)

theorem State.storeBytes_wf {s : State} {v : Word} {i : Nat} {l : List Word} (h : s.mem.wf = true) :
    (s.storeBytes v i l).mem.wf = true := by
  induction l generalizing s i with
  | nil => exact h
  | cons a rest ih =>
    refine ih ?_
    rw [State.storeByte_mem]
    exact Memory.wf_setByte h a.isLt

/-- A bus write keeps the canonical form of memory. -/
theorem State.busWrite_wf {s t : State} {priv : Bool} {size : Size} {a v : Word} (hw : s.mem.wf = true)
    (h : s.busWrite priv size a v = .ok t) : t.mem.wf = true := by
  cases ha : inPpb a with
  | true =>
    unfold State.busWrite at h
    rw [ha] at h
    simp only [if_true] at h
    split at h
    · rw [State.ppbWrite_frame h]; exact hw
    · cases h; exact hw
  | false =>
    obtain ⟨_, rfl⟩ | ⟨_, rfl⟩ | ⟨_, _, rfl⟩ := State.busWrite_cases ha h
    · exact hw
    · exact hw
    · exact State.storeBytes_wf hw

/-- Stored bytes leave every byte at another address as it was. -/
theorem State.storeBytes_byteAt_ne {s : State} {v : Word} {i : Nat} {l : List Word} {b : Nat}
    (h : ∀ a ∈ l, a.toNat ≠ b) : (s.storeBytes v i l).mem.byteAt b = s.mem.byteAt b := by
  induction l generalizing s i with
  | nil => rfl
  | cons a rest ih =>
    rw [State.storeBytes, ih (fun x hx => h x (List.mem_cons_of_mem _ hx)), State.storeByte_mem]
    exact Memory.byteAt_setByte_ne _ _ (h a (List.mem_cons_self ..))

/-- Consecutive word writes change only what bus writes change. -/
theorem State.writeWords_frame {s t : State} {priv : Bool} {a : Word} {l : List Word} (h : s.writeWords priv a l = .ok t) :
    t = { s with
      mem := t.mem, devices := t.devices, nvic := t.nvic, scb := t.scb, stk := t.stk, mpu := t.mpu, sleep := t.sleep
      eventReg := t.eventReg } := by
  induction l generalizing s a with
  | nil => cases h; rfl
  | cons v rest ih =>
    obtain ⟨s', h1, h2⟩ := Acc.bind_eq_ok h
    have hf := State.busWrite_frame h1
    have hg := ih h2
    rw [hg, hf]

/-- Consecutive word writes keep the canonical form of memory. -/
theorem State.writeWords_wf {s t : State} {priv : Bool} {a : Word} {l : List Word} (hw : s.mem.wf = true)
    (h : s.writeWords priv a l = .ok t) : t.mem.wf = true := by
  induction l generalizing s a with
  | nil => cases h; exact hw
  | cons v rest ih =>
    obtain ⟨s', h1, h2⟩ := Acc.bind_eq_ok h
    exact ih (State.busWrite_wf hw h1) h2

/-- A data read: its checks passed, the value is the bus value, and the state changes by the read's side effect alone. -/
theorem State.memRead_ok {s : State} {size : Size} {a : Word} {r : Word × State} (h : s.memRead size a = .ok r) :
    s.checkAccess s.privileged .read size a = .ok () ∧
      r = (s.busValue s.privileged .read size a, s.busReadEffect s.privileged .read size a) := by
  obtain ⟨u, h1, h2⟩ := Acc.bind_eq_ok h
  cases u
  cases h2
  exact ⟨h1, rfl⟩

/-- A data write: its checks passed, and it is a bus write. -/
theorem State.memWrite_ok {s t : State} {size : Size} {a v : Word} (h : s.memWrite size a v = .ok t) :
    s.checkAccess s.privileged .write size a = .ok () ∧ s.busWrite s.privileged size a v = .ok t := by
  obtain ⟨u, h1, h2⟩ := Acc.bind_eq_ok h
  cases u
  exact ⟨h1, h2⟩

/-- A vector fetch: the bus value, and the state after the read's side effect. -/
theorem State.vectorRead_ok {s : State} {a : Word} {r : Word × State} (h : s.vectorRead a = .ok r) :
    r = (s.busValue true .read .word a, s.busReadEffect true .read .word a) := by
  obtain ⟨u, _, h2⟩ := Acc.bind_eq_ok h
  cases h2
  rfl

/-- A read outside the PPB that no device answers has no side effect. -/
theorem State.busReadEffect_outside {s : State} {priv : Bool} {kind : AccessKind} {size : Size} {a : Word} (h : inPpb a = false)
    (hd : s.kindAt priv kind size a ≠ .device) : s.busReadEffect priv kind size a = s := by
  simp [State.busReadEffect, h, hd]

/-- A read outside the PPB that no device answers gives memory's value. -/
theorem State.busValue_outside {s : State} {priv : Bool} {kind : AccessKind} {size : Size} {a : Word} (h : inPpb a = false)
    (hd : s.kindAt priv kind size a ≠ .device) : s.busValue priv kind size a = s.mem.load size a := by
  simp [State.busValue, h, hd]

/-- The fetch of a halfword: memory's (or the one fetched ahead) with no effect, or what a device answers. -/
theorem State.fetchHalf_ok {s t : State} {a : Word} {h : Half} (hf : s.fetchHalf a = .ok (h, t)) :
    s.epsrT = true ∧ s.mpuCheck a .fetch s.privileged = .ok () ∧ t = { s with devices := t.devices } ∧
      (s.kindAt s.privileged .fetch .half a ≠ .device → h = s.codeHalf a ∧ t = s) := by
  unfold State.fetchHalf at hf
  split at hf
  · cases hf
  · obtain ⟨u, h1, h2⟩ := Acc.bind_eq_ok hf
    obtain ⟨w, _, h3⟩ := Acc.bind_eq_ok h2
    cases u
    refine ⟨by simpa using ‹¬(!s.epsrT) = true›, h1, ?_⟩
    split at h3 <;> cases h3
    · exact ⟨rfl, fun hd => absurd ‹_› hd⟩
    · exact ⟨rfl, fun _ => ⟨rfl, rfl⟩⟩

end Sys2Proof.Machine
end

