-- ==== Sys2Proof/Laws/Ops.lean ====
section
/-! SUPPORT. What taking an exception, raising HardFault and returning from an exception can do, once each. -/

namespace Sys2Proof.Machine

/-- A write with reserved bits that is done writes what it was to write, and its reserved bits are clear. -/
theorem keepCleared_ok {reserved w : Word} {s t : State} (h : keepCleared reserved w s = .ok t) :
    w &&& reserved = 0 ∧ t = s := by
  unfold keepCleared at h
  split at h
  · injection h with h; exact ⟨by assumption, h.symm⟩
  · cases h

/-- A read changes COUNTFLAG, the count of free values and what the devices saw at most. -/
theorem State.busReadEffect_frame (s : State) (priv : Bool) (kind : AccessKind) (size : Size) (a : Word) :
    s.busReadEffect priv kind size a =
      { s with
        stk := { s.stk with countFlag := (s.busReadEffect priv kind size a).stk.countFlag }
        freeCount := (s.busReadEffect priv kind size a).freeCount
        devices := (s.busReadEffect priv kind size a).devices } := by
  unfold State.busReadEffect
  split
  · split
    · rename_i r _; cases r <;> rfl
    · split <;> rfl
  · split <;> rfl

/-- A vector fetch changes COUNTFLAG, the count of free values and what the devices saw at most. -/
theorem State.vectorRead_frame {s t : State} {a v : Word} (h : s.vectorRead a = .ok (v, t)) :
    t = { s with stk := { s.stk with countFlag := t.stk.countFlag }, freeCount := t.freeCount, devices := t.devices } := by
  have h' := State.vectorRead_ok h
  injection h' with _ ht
  subst ht
  exact State.busReadEffect_frame s true .read .word a

/-- Reading consecutive words gives as many values, and changes COUNTFLAG, the count of free values and what the devices saw at
most. -/
theorem State.readWords_frame (s : State) (priv : Bool) (a : Word) (n : Nat) :
    (s.readWords priv a n).1.length = n ∧
      (s.readWords priv a n).2 =
        { s with
          stk := { s.stk with countFlag := (s.readWords priv a n).2.stk.countFlag }
          freeCount := (s.readWords priv a n).2.freeCount
          devices := (s.readWords priv a n).2.devices } := by
  induction n generalizing s a with
  | zero => exact ⟨rfl, rfl⟩
  | succ n ih =>
    obtain ⟨h1, h2⟩ := ih (s.busReadEffect priv .read .word a) (a + 4)
    refine ⟨by simp only [State.readWords, List.length_cons, h1], ?_⟩
    simp only [State.readWords]
    rw [h2, State.busReadEffect_frame s priv .read .word a]

/-- A system register write is never a HardFault. -/
theorem State.ppbWrite_no_fault (s : State) (r : PpbReg) (w : Word) (c : FaultCause) : s.ppbWrite r w ≠ .fault c := by
  intro h
  cases r <;>
    simp only [State.ppbWrite, keepCleared, State.writeIcsr, State.writeAircr, State.writeMpuCtrl, State.writeMpuRnr,
      State.writeMpuRbar] at h <;>
    (repeat' split at h) <;> cases h

/-- A write whose checks have passed is never a HardFault. -/
theorem State.busWrite_no_fault (s : State) (priv : Bool) (size : Size) (a v : Word) (c : FaultCause) :
    s.busWrite priv size a v ≠ .fault c := by
  intro h
  unfold State.busWrite at h
  split at h
  · split at h
    · exact State.ppbWrite_no_fault _ _ _ _ h
    · cases h
  · split at h <;> cases h

/-- Stacking changes what bus writes change. -/
theorem State.stackWords_frame {s t : State} {priv b : Bool} {a : Word} {l : List Word}
    (h : s.stackWords priv a l = .ok (b, t)) :
    t = { s with
      mem := t.mem, devices := t.devices, nvic := t.nvic, scb := t.scb, stk := t.stk, mpu := t.mpu, sleep := t.sleep
      eventReg := t.eventReg } := by
  induction l generalizing s a b with
  | nil => cases h; rfl
  | cons v rest ih =>
    simp only [State.stackWords] at h
    split at h
    · cases h
    · obtain ⟨r, h1, h2⟩ := Acc.bind_eq_ok h
      cases h2
      exact ih h1
    · obtain ⟨s', h1, h2⟩ := Acc.bind_eq_ok h
      have hf := State.busWrite_frame h1
      have hg := ih h2
      rw [hg, hf]

/-- Stacking keeps the canonical form of memory. -/
theorem State.stackWords_wf {s t : State} {priv b : Bool} {a : Word} {l : List Word} (hw : s.mem.wf = true)
    (h : s.stackWords priv a l = .ok (b, t)) : t.mem.wf = true := by
  induction l generalizing s a b with
  | nil => cases h; exact hw
  | cons v rest ih =>
    simp only [State.stackWords] at h
    split at h
    · cases h
    · obtain ⟨r, h1, h2⟩ := Acc.bind_eq_ok h
      cases h2
      exact ih hw h1
    · obtain ⟨s', h1, h2⟩ := Acc.bind_eq_ok h
      exact ih (State.busWrite_wf hw h1) h2

/-- Stacking is never a HardFault of its own: a store that faults is only reported. -/
theorem State.stackWords_no_fault (s : State) (priv : Bool) (a : Word) (l : List Word) (c : FaultCause) :
    s.stackWords priv a l ≠ .fault c := by
  induction l generalizing s a with
  | nil => intro h; cases h
  | cons v rest ih =>
    intro h
    simp only [State.stackWords] at h
    split at h
    · cases h
    · cases hr : s.stackWords priv (a + 4) rest with
      | ok r => rw [hr] at h; cases h
      | fault c' => rw [hr] at h; cases h; exact ih _ _ hr
      | refused r => rw [hr] at h; cases h
    · cases hb : s.busWrite priv .word a v with
      | ok s' => rw [hb] at h; exact ih _ _ h
      | fault c' => exact State.busWrite_no_fault _ _ _ _ _ _ hb
      | refused r => rw [hb] at h; cases h

/-- An unprivileged access that passes its checks lies outside the PPB. -/
theorem State.checkAccess_unprivileged {s : State} {kind : AccessKind} {size : Size} {a : Word}
    (h : s.checkAccess false kind size a = .ok ()) : inPpb a = false := by
  unfold State.checkAccess at h
  split at h
  · cases h
  · split at h
    · cases h
    · simpa using ‹¬inPpb a = true›

/-- A write outside the PPB changes memory, or what the devices saw. -/
theorem State.busWrite_outside {s t : State} {priv : Bool} {size : Size} {a v : Word} (ha : inPpb a = false)
    (h : s.busWrite priv size a v = .ok t) : t = { s with mem := t.mem, devices := t.devices } := by
  obtain ⟨_, rfl⟩ | ⟨_, rfl⟩ | ⟨_, _, rfl⟩ := State.busWrite_cases ha h
  · rfl
  · rfl
  · rw [State.mk.injEq]; simp

/-- Stacking with the privilege of unprivileged code changes memory and what the devices saw at most. -/
theorem State.stackWords_unprivileged {s t : State} {b : Bool} {a : Word} {l : List Word}
    (h : s.stackWords false a l = .ok (b, t)) : t = { s with mem := t.mem, devices := t.devices } := by
  induction l generalizing s a b with
  | nil => cases h; rfl
  | cons v rest ih =>
    simp only [State.stackWords] at h
    split at h
    · cases h
    · obtain ⟨r, h1, h2⟩ := Acc.bind_eq_ok h
      cases h2
      exact ih h1
    · rename_i hc
      obtain ⟨s', h1, h2⟩ := Acc.bind_eq_ok h
      have hf := State.busWrite_outside (State.checkAccess_unprivileged hc) h1
      have hg := ih h2
      rw [hg, hf]

/-- Entering HardFault by tail-chaining: its vector was read and its handler entered, or the processor locked up. -/
theorem State.enterHardFault_next {s t : State} {lr : Word} (h : s.enterHardFault lr = .next t) :
    (∃ v s', s.vectorRead (s.vectorAddr .hardFault) = .ok (v, s') ∧ t = (s'.enterHandlerMode .hardFault lr).jumpVector v) ∨
      t = (s.enterHandlerMode .hardFault lr).enterLockup := by
  unfold State.enterHardFault at h
  split at h
  · rename_i v s' hv; cases h; exact .inl ⟨v, s', hv, rfl⟩
  · cases h; exact .inr rfl
  · cases h

/-- A fault during exception entry: lockup, or HardFault made pending and entered by tail-chaining. -/
theorem State.entryFault_next {s t : State} {p : Int} {lr : Word} (h : s.entryFault p lr = .next t) :
    (p ≤ -1 ∧ t = s.enterLockup) ∨ (-1 < p ∧ (s.setPending .hardFault).enterHardFault lr = .next t) := by
  unfold State.entryFault at h
  split at h
  · cases h; exact .inl ⟨by assumption, rfl⟩
  · exact .inr ⟨by omega, h⟩

/-- Entering a handler: its vector was read, or the fetch of the vector faulted. -/
theorem State.enterHandler_next {s t : State} {e : Exc} {p : Int} {lr : Word} (h : s.enterHandler e p lr = .next t) :
    (∃ v s', s.vectorRead (s.vectorAddr e) = .ok (v, s') ∧ t = (s'.enterHandlerMode e lr).jumpVector v) ∨
      s.entryFault p lr = .next t := by
  unfold State.enterHandler at h
  split at h
  · rename_i v s' hv; cases h; exact .inl ⟨v, s', hv, rfl⟩
  · exact .inr h
  · cases h

/-- Taking an exception: the frame was stacked without a fault and the handler entered, or a stacking store faulted. -/
theorem State.takeException_next {s t : State} {e : Exc} {ra : Word} (h : s.takeException e ra = .next t) :
    ∃ b s', s.stackWords s.privileged (framePtr s.sp) (s.frameWords ra) = .ok (b, s') ∧
      (if b then (s'.setSp (framePtr s.sp)).entryFault s.executionPriority s.excReturn
        else (s'.setSp (framePtr s.sp)).enterHandler e s.executionPriority s.excReturn) = .next t := by
  unfold State.takeException at h
  split at h
  · cases h
  · exact absurd ‹_› (State.stackWords_no_fault _ _ _ _ _)
  · rename_i b s' hs; exact ⟨b, s', hs, h⟩

/-- Taking the best candidate: an exception is taken, or there is none and nothing happens. -/
theorem State.takeBest_next {s t : State} {ra : Word} (h : s.takeBest ra = .next t) :
    (∃ e, s.bestCandidate = some e ∧ s.takeException e ra = .next t) ∨ (s.bestCandidate = none ∧ t = s) := by
  unfold State.takeBest at h
  split at h
  · rename_i e he; exact .inl ⟨e, he, h⟩
  · cases h; exact .inr ⟨by assumption, rfl⟩

/-- Raising HardFault: lockup at priority -1 or -2, else HardFault becomes pending and the best candidate is taken. -/
theorem State.raiseHardFault_next {s t : State} {ra : Word} (h : s.raiseHardFault ra = .next t) :
    (s.executionPriority ≤ -1 ∧ t = s.enterLockup) ∨
      (-1 < s.executionPriority ∧ (s.setPending .hardFault).takeBest ra = .next t) := by
  unfold State.raiseHardFault at h
  split at h
  · cases h; exact .inl ⟨by assumption, rfl⟩
  · exact .inr ⟨by omega, h⟩

/-- The return once the frame was checked: its return address is even, its IPSR fits the mode, and it was read. -/
theorem State.popFrame_next {s t : State} {toThread toPsp : Bool} {frame : Word}
    (h : s.popFrame toThread toPsp frame = .next t) :
    ((s.readWords (s.unstackPriv toThread) frame 8).1.getD 6 0).getLsbD 0 = false ∧
      returnIpsrOk toThread ((s.readWords (s.unstackPriv toThread) frame 8).1.getD 7 0) = true ∧
      t = ((s.readWords (s.unstackPriv toThread) frame 8).2.unstacked toPsp frame (s.readWords (s.unstackPriv toThread) frame 8).1).afterReturn toThread := by
  unfold State.popFrame at h
  dsimp only at h
  split at h
  · cases h
  · split at h
    · cases h
    · cases h
      exact ⟨by simpa using ‹¬_ = true›, by simpa using ‹¬(!_) = true›, rfl⟩

/-- A fault while unstacking: lockup, or HardFault made pending and entered by tail-chaining. -/
theorem State.unstackFault_next {s t : State} {x : Word} (h : s.unstackFault x = .next t) :
    (s.executionPriority ≤ -1 ∧ t = s.enterLockup) ∨
      (-1 < s.executionPriority ∧ (s.setPending .hardFault).enterHardFault x = .next t) := by
  unfold State.unstackFault at h
  split at h
  · cases h; exact .inl ⟨by assumption, rfl⟩
  · exact .inr ⟨by omega, h⟩

/-- The return sequence: the frame was popped, or a read of the frame faulted. -/
theorem State.unstack_next {s t : State} {x : Word} {toThread toPsp : Bool} (h : s.unstack x toThread toPsp = .next t) :
    s.popFrame toThread toPsp (if toPsp then s.psp else s.msp) = .next t ∨ s.unstackFault x = .next t := by
  unfold State.unstack at h
  dsimp only at h
  split at h
  · exact .inl h
  · exact .inr h
  · cases h

/-- An exception return: a legal EXC_RETURN value, an active exception, the nesting that the value asks for. -/
theorem State.exceptionReturn_next {s t : State} {x : Word} (h : s.exceptionReturn x = .next t) :
    ∃ toThread toPsp e, excReturnTarget x = some (toThread, toPsp) ∧ Exc.ofNum? s.ipsr.toNat = some e ∧
      (if toThread then s.activeCount = 1 else 1 < s.activeCount) ∧ s.isActive e = true ∧
      (s.clearActive e).unstack x toThread toPsp = .next t := by
  unfold State.exceptionReturn at h
  split at h
  · cases h
  · cases h
  · rename_i toThread toPsp e hx he
    split at h
    · cases h
    · split at h
      · cases h
      · refine ⟨toThread, toPsp, e, hx, he, ?_, by simpa using ‹¬(!_) = true›, h⟩
        rename_i hn _
        cases toThread <;> simp_all

/-- A write of the PC by BX or POP: an exception return in Handler mode on an EXC_RETURN pattern, else a branch. -/
theorem State.bxWritePc_next {s t : State} {v : Word} (h : s.bxWritePc v = .next t) :
    (s.ipsr ≠ 0 ∧ v.toNat / 268435456 = 15 ∧ s.exceptionReturn v = .next t) ∨
      (¬(s.ipsr ≠ 0 ∧ v.toNat / 268435456 = 15) ∧ t = s.interwork v) := by
  unfold State.bxWritePc at h
  split at h
  · rename_i hc
    simp only [Bool.and_eq_true, bne_iff_ne, decide_eq_true_eq] at hc
    exact .inl ⟨hc.1, hc.2, h⟩
  · rename_i hc
    simp only [Bool.and_eq_true, bne_iff_ne, decide_eq_true_eq] at hc
    cases h
    exact .inr ⟨hc, rfl⟩

end Sys2Proof.Machine
end

