-- ==== Sys2Proof/Laws/Stores.lean ====
section
/-! SUPPORT. What the bytes of memory are after stores: the stored bytes at their addresses, every other byte as before. -/

namespace Sys2Proof.Machine

/-- The addresses of an access as offsets from the first. -/
theorem accessBytes_eq (size : Size) (a : Word) :
    accessBytes size a = (List.range' 0 size.bytes).map fun i => a + BitVec.ofNat 32 i := by
  cases size <;> simp [accessBytes, Size.bytes, List.range']

/-- Offsets below 2^32 from one address give different addresses. -/
theorem offset_ne {a : Word} {i j : Nat} (hi : i < 4294967296) (hj : j < 4294967296) (h : i ≠ j) :
    (a + BitVec.ofNat 32 i).toNat ≠ (a + BitVec.ofNat 32 j).toNat := by
  have := a.isLt
  simp only [BitVec.toNat_add, BitVec.toNat_ofNat]
  omega

/-- A stored byte holds the value's byte. -/
theorem State.storeBytes_byteAt {s : State} {v a : Word} {n i j : Nat} (hn : i + n ≤ 4294967296) (h1 : i ≤ j) (h2 : j < i + n) :
    (s.storeBytes v i ((List.range' i n).map fun k => a + BitVec.ofNat 32 k)).mem.byteAt (a + BitVec.ofNat 32 j).toNat =
      byteOf v j := by
  induction n generalizing s i with
  | zero => omega
  | succ n ih =>
    simp only [List.range', List.map_cons, State.storeBytes]
    by_cases hij : i = j
    · subst hij
      rw [State.storeBytes_byteAt_ne]
      · rw [State.storeByte_mem]
        exact Memory.byteAt_setByte_same _ _ _
      · intro b hb
        obtain ⟨k, hk1, rfl⟩ := List.mem_map.mp hb
        have := List.mem_range'_1.mp hk1
        exact offset_ne (by omega) (by omega) (by omega)
    · exact ih (by omega) (by omega) (by omega)

/-- A word stored outside the PPB: its four bytes where RAM answers, and every other byte as before. -/
theorem State.busWrite_word_byteAt {s t : State} {priv : Bool} {a v : Word} (ha : inPpb a = false)
    (h : s.busWrite priv .word a v = .ok t) :
    (s.kindAt priv .write .word a = .ram → ∀ i < 4, t.mem.byteAt (a + BitVec.ofNat 32 i).toNat = byteOf v i) ∧
      (s.kindAt priv .write .word a = .rom ∨ s.kindAt priv .write .word a = .device → t.mem = s.mem) ∧
      ∀ b, (∀ i < 4, b ≠ (a + BitVec.ofNat 32 i).toNat) → t.mem.byteAt b = s.mem.byteAt b := by
  obtain ⟨hk, rfl⟩ | ⟨hk, rfl⟩ | ⟨h1, h2, rfl⟩ := State.busWrite_cases ha h
  · exact ⟨fun hr => absurd (hk.symm.trans hr) (by decide), fun _ => rfl, fun _ _ => rfl⟩
  · exact ⟨fun hr => absurd (hk.symm.trans hr) (by decide), fun _ => rfl, fun _ _ => rfl⟩
  · rw [accessBytes_eq]
    refine ⟨fun _ i hi => ?_, fun hr => ?_, fun b hb => ?_⟩
    · exact State.storeBytes_byteAt (by decide) (Nat.zero_le i) (by simpa [Size.bytes] using hi)
    · exact absurd hr (by simp [h1, h2])
    · apply State.storeBytes_byteAt_ne
      intro x hx
      obtain ⟨k, hk, rfl⟩ := List.mem_map.mp hx
      have := List.mem_range'_1.mp hk
      simp only [Size.bytes] at this
      exact fun he => hb k (by omega) he.symm

/-- The little-endian value of four bytes is the word they make. -/
theorem Memory.load_word_of_bytes {m : Memory} {a v : Word}
    (h : ∀ i < 4, m.byteAt (a + BitVec.ofNat 32 i).toNat = byteOf v i) : m.load .word a = v := by
  have h0 : m.byteAt a.toNat = byteOf v 0 := by simpa using h 0 (by decide)
  have h1 : m.byteAt (a + 1).toNat = byteOf v 1 := h 1 (by decide)
  have h2 : m.byteAt (a + 2).toNat = byteOf v 2 := h 2 (by decide)
  have h3 : m.byteAt (a + 3).toNat = byteOf v 3 := h 3 (by decide)
  unfold Memory.load
  rw [h0, h1, h2, h3]
  simp only [byteOf]
  apply BitVec.eq_of_getLsbD_eq
  intro i hi
  simp only [BitVec.getLsbD_append, BitVec.getLsbD_extractLsb']
  by_cases c0 : i < 8
  · simp [c0]
  · by_cases c1 : i - 8 < 8
    · simp [c0, c1, show 8 + (i - 8) = i by omega]
    · by_cases c2 : i - 8 - 8 < 8
      · simp [c0, c1, c2, show 16 + (i - 8 - 8) = i by omega]
      · simp [c0, c1, c2, show i - 8 - 8 - 8 < 8 by omega, show 24 + (i - 8 - 8 - 8) = i by omega]

end Sys2Proof.Machine
end

