-- ==== Sys2Proof/Laws/Checks.lean ====
section
/-! SUPPORT. What the priorities and the access checks depend on, and what a block of words written outside the PPB leaves in memory. -/

namespace Sys2Proof.Machine

theorem State.prio_congr {s t : State} (hn : t.nvic = s.nvic) (hs : t.scb = s.scb) (e : Exc) : t.prio e = s.prio e := by
  cases e <;> simp only [State.prio, State.irqPriority, hn, hs]

theorem State.isActive_congr {s t : State} (hn : t.nvic = s.nvic) (e : Exc) : t.isActive e = s.isActive e := by
  simp only [State.isActive, hn]

theorem State.activePriority_congr {s t : State} (hn : t.nvic = s.nvic) (hs : t.scb = s.scb) (l : List Exc) :
    t.activePriority l = s.activePriority l := by
  induction l with
  | nil => rfl
  | cons e rest ih => simp only [State.activePriority, ih, State.isActive_congr hn, State.prio_congr hn hs]

/-- The execution priority depends on the interrupt controller, the system control block and PRIMASK. -/
theorem State.executionPriority_congr {s t : State} (hn : t.nvic = s.nvic) (hs : t.scb = s.scb) (hp : t.primask = s.primask) :
    t.executionPriority = s.executionPriority := by
  unfold State.executionPriority State.priorityIgnoringPrimask
  rw [State.activePriority_congr hn hs, hp]

/-- The candidates depend on the interrupt controller and the system control block. -/
theorem State.bestOf_congr {s t : State} (hn : t.nvic = s.nvic) (hs : t.scb = s.scb) (limit : Int) (l : List Exc) :
    t.bestOf limit l = s.bestOf limit l := by
  have hc : ∀ e, t.isCandidate limit e = s.isCandidate limit e := by
    intro e
    simp only [State.isCandidate, State.isPending, hn, State.prio_congr hn hs]
    cases e <;> simp only [State.isEnabled, hn]
  induction l with
  | nil => rfl
  | cons e rest ih => simp only [State.bestOf, ih, hc, State.prio_congr hn hs]

theorem State.bestCandidate_congr {s t : State} (hn : t.nvic = s.nvic) (hs : t.scb = s.scb) (hp : t.primask = s.primask) :
    t.bestCandidate = s.bestCandidate := by
  simp only [State.bestCandidate, State.executionPriority_congr hn hs hp, State.bestOf_congr hn hs]

theorem State.kindAt_congr {s t : State} (hc : t.cfg = s.cfg) (priv : Bool) (kind : AccessKind) (size : Size) (a : Word) :
    t.kindAt priv kind size a = s.kindAt priv kind size a := by
  have hm : t.mapKind priv kind size a = s.mapKind priv kind size a := by unfold State.mapKind; rw [hc]
  unfold State.kindAt State.isIoPort
  rw [hm, hc]

/-- The MPU's decision depends on the execution priority, the MPU and the platform. -/
theorem State.mpuCheck_congr {s t : State} (hn : t.nvic = s.nvic) (hs : t.scb = s.scb) (hp : t.primask = s.primask)
    (hm : t.mpu = s.mpu) (hc : t.cfg = s.cfg) (a : Word) (kind : AccessKind) (priv : Bool) :
    t.mpuCheck a kind priv = s.mpuCheck a kind priv := by
  unfold State.mpuCheck State.mpuActive
  rw [State.executionPriority_congr hn hs hp, hm, hc]

theorem State.checkBus_congr {s t : State} (hc : t.cfg = s.cfg) (priv : Bool) (kind : AccessKind) (size : Size) (a : Word) :
    t.checkBus priv kind size a = s.checkBus priv kind size a := by
  simp only [State.checkBus, State.kindAt_congr hc]

/-- The checks of an access depend on the execution priority, the MPU and the platform. -/
theorem State.checkAccess_congr {s t : State} (hn : t.nvic = s.nvic) (hs : t.scb = s.scb) (hp : t.primask = s.primask)
    (hm : t.mpu = s.mpu) (hc : t.cfg = s.cfg) (priv : Bool) (kind : AccessKind) (size : Size) (a : Word) :
    t.checkAccess priv kind size a = s.checkAccess priv kind size a := by
  simp only [State.checkAccess, State.checkPpb, State.checkBus_congr hc, State.mpuCheck_congr hn hs hp hm hc]

theorem State.checkWords_congr {s t : State} (hn : t.nvic = s.nvic) (hs : t.scb = s.scb) (hp : t.primask = s.primask)
    (hm : t.mpu = s.mpu) (hc : t.cfg = s.cfg) (priv : Bool) (kind : AccessKind) (a : Word) (n : Nat) :
    t.checkWords priv kind a n = s.checkWords priv kind a n := by
  induction n generalizing a with
  | zero => rfl
  | succ n ih => simp only [State.checkWords, State.checkAccess_congr hn hs hp hm hc, ih]

/-- What MPU_RBAR shows of a base: the multiple of the region's size, of 256 at least, below it. -/
theorem MpuRegion.addrField_toNat (r : MpuRegion) :
    r.addrField.toNat = r.base.toNat / 2 ^ max 8 (r.size + 1) * 2 ^ max 8 (r.size + 1) := by
  have hb := r.base.isLt
  have hle := Nat.div_mul_le_self r.base.toNat (2 ^ max 8 (r.size + 1))
  simp only [MpuRegion.addrField, BitVec.toNat_ofNat]
  exact Nat.mod_eq_of_lt (by omega)

/-- A block of words written outside the PPB: memory and what the devices saw change alone, each word where RAM answers holds its value,
and every byte outside the block is as before. -/
theorem State.writeWords_bytes {s t : State} {priv : Bool} {a : Word} {l : List Word} (hn : 4 * l.length ≤ 4294967296)
    (ho : ∀ k < l.length, inPpb (a + BitVec.ofNat 32 (4 * k)) = false) (h : s.writeWords priv a l = .ok t) :
    t = { s with mem := t.mem, devices := t.devices } ∧
      (∀ k i, (hk : k < l.length) → i < 4 → s.kindAt priv .write .word (a + BitVec.ofNat 32 (4 * k)) = .ram →
        t.mem.byteAt (a + BitVec.ofNat 32 (4 * k + i)).toNat = byteOf l[k] i) ∧
      ∀ b, (∀ k < 4 * l.length, b ≠ (a + BitVec.ofNat 32 k).toNat) → t.mem.byteAt b = s.mem.byteAt b := by
  induction l generalizing s a with
  | nil => cases h; exact ⟨rfl, fun k i hk => absurd hk (by simp), fun b _ => rfl⟩
  | cons v rest ih =>
    simp only [List.length_cons] at hn ho ⊢
    obtain ⟨s', h1, h2⟩ := Acc.bind_eq_ok h
    have ha : inPpb a = false := by simpa using ho 0 (by omega)
    have hshift : ∀ k, a + 4 + BitVec.ofNat 32 k = a + BitVec.ofNat 32 (4 + k) := by
      intro k; rw [BitVec.add_assoc, BitVec.ofNat_add]; rfl
    have hf := State.busWrite_outside ha h1
    obtain ⟨b1, _, b2⟩ := State.busWrite_word_byteAt ha h1
    obtain ⟨g0, g1, g2⟩ := ih (a := a + 4) (by omega) (by
      intro k hk
      rw [hshift, show 4 + 4 * k = 4 * (k + 1) by omega]
      exact ho (k + 1) (by omega)) h2
    have hc : s'.cfg = s.cfg := by rw [hf]
    refine ⟨by rw [g0, hf], fun k i hk hi hr => ?_, fun b hb => ?_⟩
    · cases k with
      | zero =>
        rw [g2]
        · simp only [Nat.mul_zero, Nat.zero_add, BitVec.add_zero] at hr ⊢
          exact b1 hr i hi
        · intro k hk'
          rw [hshift]
          exact offset_ne (by omega) (by omega) (by omega)
      | succ k =>
        have := g1 k i (by omega) hi (by
          rw [hshift, State.kindAt_congr hc, show 4 + 4 * k = 4 * (k + 1) by omega]; exact hr)
        rw [hshift, show 4 + (4 * k + i) = 4 * (k + 1) + i by omega] at this
        exact this
    · rw [g2, b2]
      · exact fun i hi => hb i (by omega)
      · intro k hk
        rw [hshift]
        exact hb (4 + k) (by omega)

/-- Stacking whose stores all pass their checks outside the PPB is a block write, and no store faults. -/
theorem State.stackWords_eq_writeWords {s : State} {priv : Bool} {a : Word} {l : List Word}
    (hc : ∀ k < l.length, s.checkAccess priv .write .word (a + BitVec.ofNat 32 (4 * k)) = .ok ())
    (ho : ∀ k < l.length, inPpb (a + BitVec.ofNat 32 (4 * k)) = false) :
    s.stackWords priv a l = (s.writeWords priv a l).bind fun t => .ok (false, t) := by
  induction l generalizing s a with
  | nil => rfl
  | cons v rest ih =>
    simp only [List.length_cons] at hc ho
    have h0 : s.checkAccess priv .write .word a = .ok () := by simpa using hc 0 (by omega)
    have ha : inPpb a = false := by simpa using ho 0 (by omega)
    have hshift : ∀ k, a + 4 + BitVec.ofNat 32 (4 * k) = a + BitVec.ofNat 32 (4 * (k + 1)) := by
      intro k; rw [BitVec.add_assoc, show 4 * (k + 1) = 4 + 4 * k by omega, BitVec.ofNat_add]; rfl
    simp only [State.stackWords, State.writeWords, h0]
    cases hb : s.busWrite priv .word a v with
    | fault c => rfl
    | refused r => rfl
    | ok s' =>
      have hf := State.busWrite_outside ha hb
      simp only [Acc.bind_ok]
      refine ih (fun k hk => ?_) (fun k hk => ?_)
      · rw [hshift, State.checkAccess_congr (s := s) (t := s') (by rw [hf]) (by rw [hf]) (by rw [hf]) (by rw [hf]) (by rw [hf])]
        exact hc (k + 1) (by omega)
      · rw [hshift]; exact ho (k + 1) (by omega)

/-- A write outside the PPB is always done. -/
theorem State.busWrite_done {s : State} {priv : Bool} {size : Size} {a v : Word} (ha : inPpb a = false) :
    ∃ t, s.busWrite priv size a v = .ok t := by
  unfold State.busWrite
  rw [ha]
  simp only [Bool.false_eq_true, if_false]
  split <;> exact ⟨_, rfl⟩

/-- A block of words outside the PPB is always written. -/
theorem State.writeWords_outside {s : State} {priv : Bool} {a : Word} {l : List Word}
    (ho : ∀ k < l.length, inPpb (a + BitVec.ofNat 32 (4 * k)) = false) : ∃ t, s.writeWords priv a l = .ok t := by
  induction l generalizing s a with
  | nil => exact ⟨s, rfl⟩
  | cons v rest ih =>
    simp only [List.length_cons] at ho
    have ha : inPpb a = false := by simpa using ho 0 (by omega)
    have hshift : ∀ k, a + 4 + BitVec.ofNat 32 (4 * k) = a + BitVec.ofNat 32 (4 * (k + 1)) := by
      intro k; rw [BitVec.add_assoc, show 4 * (k + 1) = 4 + 4 * k by omega, BitVec.ofNat_add]; rfl
    obtain ⟨s', hs⟩ := State.busWrite_done (s := s) (priv := priv) (size := .word) (v := v) ha
    obtain ⟨t, ht⟩ := ih (s := s') (a := a + 4) (fun k hk => by rw [hshift]; exact ho (k + 1) (by omega))
    exact ⟨t, by simp only [State.writeWords, hs, Acc.bind_ok, ht]⟩

/-- Reading a block of words outside the PPB that no device answers gives memory's words and changes nothing. -/
theorem State.readWords_outside {s : State} {priv : Bool} {a : Word} {n : Nat}
    (ho : ∀ k < n, inPpb (a + BitVec.ofNat 32 (4 * k)) = false)
    (hd : ∀ k < n, s.kindAt priv .read .word (a + BitVec.ofNat 32 (4 * k)) ≠ .device) :
    s.readWords priv a n = ((List.range n).map fun k => s.mem.load .word (a + BitVec.ofNat 32 (4 * k)), s) := by
  induction n generalizing a with
  | zero => rfl
  | succ n ih =>
    have ha : inPpb a = false := by simpa using ho 0 (by omega)
    have hk : s.kindAt priv .read .word a ≠ .device := by simpa using hd 0 (by omega)
    have hshift : ∀ k, a + 4 + BitVec.ofNat 32 (4 * k) = a + BitVec.ofNat 32 (4 * (k + 1)) := by
      intro k; rw [BitVec.add_assoc, show 4 * (k + 1) = 4 + 4 * k by omega, BitVec.ofNat_add]; rfl
    simp only [State.readWords, State.busReadEffect_outside ha hk, State.busValue_outside ha hk]
    rw [ih (fun k hk => by rw [hshift]; exact ho (k + 1) (by omega)) (fun k hk => by rw [hshift]; exact hd (k + 1) (by omega)),
      List.range_succ_eq_map]
    simp only [List.map_cons, List.map_map, Nat.mul_zero, BitVec.ofNat_eq_ofNat, BitVec.add_zero, Function.comp_def]
    congr 3
    funext k
    exact congrArg _ (hshift k)

end Sys2Proof.Machine
end

