-- ==== Sys2Proof/Laws/PerInstr.lean ====
section
/-! SUPPORT. One lemma per instruction: its encoding is one halfword that begins no 32-bit instruction, or two halfwords of which the
first begins one (30_encoding.md R191), so a decoder that reads halfwords knows where each instruction ends. -/

namespace Sys2Proof.Laws

/-- A list of halfwords that is one encoding by its own first halfword. -/
def SelfDelimiting : List Half → Prop
  | [h] => isWide h = false
  | [h1, _] => isWide h1 = true
  | _ => False

/-- The encoding of an instruction says where it ends. -/
def Encoding.Statement (i : Instr) : Prop := SelfDelimiting (encode i)

theorem selfDelimiting_oneHalf {w : Nat} (h : w < 59392) : SelfDelimiting (oneHalf w) := by
  simp only [SelfDelimiting, oneHalf, isWide, BitVec.toNat_ofNat, decide_eq_false_iff_not]
  omega

theorem selfDelimiting_two {base : Nat} (h : base + 63 < 59392) (hi lo : LoReg) : SelfDelimiting (encodeTwo base hi lo) :=
  selfDelimiting_oneHalf (by have := hi.isLt; have := lo.isLt; omega)

theorem selfDelimiting_three {base x k : Nat} (hx : x < k) (h : base + k * 64 < 59392) (mid lo : LoReg) :
    SelfDelimiting (encodeThree base x mid lo) :=
  selfDelimiting_oneHalf (by have := mid.isLt; have := lo.isLt; omega)

theorem selfDelimiting_imm8 {base : Nat} (h : base + 2047 < 59392) (r : LoReg) (imm8 : BitVec 8) :
    SelfDelimiting (encodeImm8 base r imm8) :=
  selfDelimiting_oneHalf (by have := r.isLt; have := imm8.isLt; omega)

theorem selfDelimiting_high {base : Nat} (h : base + 255 < 59392) (d m : Reg) : SelfDelimiting (encodeHigh base d m) :=
  selfDelimiting_oneHalf (by have := d.isLt; have := m.isLt; omega)

theorem selfDelimiting_pair {w : Nat} (h1 : 59392 ≤ w) (h2 : w < 65536) (h : Half) : SelfDelimiting [BitVec.ofNat 16 w, h] := by
  simp only [SelfDelimiting, isWide, BitVec.toNat_ofNat, decide_eq_true_eq]
  omega

theorem Encoding.movsReg (rd : LoReg) (rm : LoReg) : Encoding.Statement (.movsReg rd rm) := selfDelimiting_two (by decide) rm rd

theorem Encoding.lslsImm (imm5 : BitVec 5) (rm : LoReg) (rd : LoReg) : Encoding.Statement (.lslsImm imm5 rm rd) :=
  selfDelimiting_three imm5.isLt (by decide) rm rd

theorem Encoding.lsrsImm (imm5 : BitVec 5) (rm : LoReg) (rd : LoReg) : Encoding.Statement (.lsrsImm imm5 rm rd) :=
  selfDelimiting_three imm5.isLt (by decide) rm rd

theorem Encoding.asrsImm (imm5 : BitVec 5) (rm : LoReg) (rd : LoReg) : Encoding.Statement (.asrsImm imm5 rm rd) :=
  selfDelimiting_three imm5.isLt (by decide) rm rd

theorem Encoding.addsReg (rd : LoReg) (rn : LoReg) (rm : LoReg) : Encoding.Statement (.addsReg rd rn rm) :=
  selfDelimiting_three rm.isLt (by decide) rn rd

theorem Encoding.subsReg (rd : LoReg) (rn : LoReg) (rm : LoReg) : Encoding.Statement (.subsReg rd rn rm) :=
  selfDelimiting_three rm.isLt (by decide) rn rd

theorem Encoding.addsImm3 (rd : LoReg) (rn : LoReg) (imm3 : BitVec 3) : Encoding.Statement (.addsImm3 rd rn imm3) :=
  selfDelimiting_three imm3.isLt (by decide) rn rd

theorem Encoding.subsImm3 (rd : LoReg) (rn : LoReg) (imm3 : BitVec 3) : Encoding.Statement (.subsImm3 rd rn imm3) :=
  selfDelimiting_three imm3.isLt (by decide) rn rd

theorem Encoding.movsImm (rd : LoReg) (imm8 : BitVec 8) : Encoding.Statement (.movsImm rd imm8) :=
  selfDelimiting_imm8 (by decide) rd imm8

theorem Encoding.cmpImm (rn : LoReg) (imm8 : BitVec 8) : Encoding.Statement (.cmpImm rn imm8) :=
  selfDelimiting_imm8 (by decide) rn imm8

theorem Encoding.addsImm8 (rdn : LoReg) (imm8 : BitVec 8) : Encoding.Statement (.addsImm8 rdn imm8) :=
  selfDelimiting_imm8 (by decide) rdn imm8

theorem Encoding.subsImm8 (rdn : LoReg) (imm8 : BitVec 8) : Encoding.Statement (.subsImm8 rdn imm8) :=
  selfDelimiting_imm8 (by decide) rdn imm8

theorem Encoding.ands (rdn : LoReg) (rm : LoReg) : Encoding.Statement (.ands rdn rm) := selfDelimiting_two (by decide) rm rdn

theorem Encoding.eors (rdn : LoReg) (rm : LoReg) : Encoding.Statement (.eors rdn rm) := selfDelimiting_two (by decide) rm rdn

theorem Encoding.lslsReg (rdn : LoReg) (rs : LoReg) : Encoding.Statement (.lslsReg rdn rs) := selfDelimiting_two (by decide) rs rdn

theorem Encoding.lsrsReg (rdn : LoReg) (rs : LoReg) : Encoding.Statement (.lsrsReg rdn rs) := selfDelimiting_two (by decide) rs rdn

theorem Encoding.asrsReg (rdn : LoReg) (rs : LoReg) : Encoding.Statement (.asrsReg rdn rs) := selfDelimiting_two (by decide) rs rdn

theorem Encoding.adcs (rdn : LoReg) (rm : LoReg) : Encoding.Statement (.adcs rdn rm) := selfDelimiting_two (by decide) rm rdn

theorem Encoding.sbcs (rdn : LoReg) (rm : LoReg) : Encoding.Statement (.sbcs rdn rm) := selfDelimiting_two (by decide) rm rdn

theorem Encoding.rors (rdn : LoReg) (rs : LoReg) : Encoding.Statement (.rors rdn rs) := selfDelimiting_two (by decide) rs rdn

theorem Encoding.tst (rn : LoReg) (rm : LoReg) : Encoding.Statement (.tst rn rm) := selfDelimiting_two (by decide) rm rn

theorem Encoding.rsbs (rd : LoReg) (rn : LoReg) : Encoding.Statement (.rsbs rd rn) := selfDelimiting_two (by decide) rn rd

theorem Encoding.cmpLow (rn : LoReg) (rm : LoReg) : Encoding.Statement (.cmpLow rn rm) := selfDelimiting_two (by decide) rm rn

theorem Encoding.cmn (rn : LoReg) (rm : LoReg) : Encoding.Statement (.cmn rn rm) := selfDelimiting_two (by decide) rm rn

theorem Encoding.orrs (rdn : LoReg) (rm : LoReg) : Encoding.Statement (.orrs rdn rm) := selfDelimiting_two (by decide) rm rdn

theorem Encoding.muls (rdm : LoReg) (rn : LoReg) : Encoding.Statement (.muls rdm rn) := selfDelimiting_two (by decide) rn rdm

theorem Encoding.bics (rdn : LoReg) (rm : LoReg) : Encoding.Statement (.bics rdn rm) := selfDelimiting_two (by decide) rm rdn

theorem Encoding.mvns (rd : LoReg) (rm : LoReg) : Encoding.Statement (.mvns rd rm) := selfDelimiting_two (by decide) rm rd

theorem Encoding.addHigh (rdn : Reg) (rm : Reg) : Encoding.Statement (.addHigh rdn rm) := selfDelimiting_high (by decide) rdn rm

theorem Encoding.cmpHigh (rn : Reg) (rm : Reg) : Encoding.Statement (.cmpHigh rn rm) := selfDelimiting_high (by decide) rn rm

theorem Encoding.mov (rd : Reg) (rm : Reg) : Encoding.Statement (.mov rd rm) := selfDelimiting_high (by decide) rd rm

theorem Encoding.bx (rm : Reg) : Encoding.Statement (.bx rm) := selfDelimiting_oneHalf (by have := rm.isLt; omega)

theorem Encoding.blx (rm : Reg) : Encoding.Statement (.blx rm) := selfDelimiting_oneHalf (by have := rm.isLt; omega)

theorem Encoding.ldrLit (rt : LoReg) (imm8 : BitVec 8) : Encoding.Statement (.ldrLit rt imm8) :=
  selfDelimiting_imm8 (by decide) rt imm8

theorem Encoding.strReg (rt : LoReg) (rn : LoReg) (rm : LoReg) : Encoding.Statement (.strReg rt rn rm) :=
  selfDelimiting_three rm.isLt (by decide) rn rt

theorem Encoding.strhReg (rt : LoReg) (rn : LoReg) (rm : LoReg) : Encoding.Statement (.strhReg rt rn rm) :=
  selfDelimiting_three rm.isLt (by decide) rn rt

theorem Encoding.strbReg (rt : LoReg) (rn : LoReg) (rm : LoReg) : Encoding.Statement (.strbReg rt rn rm) :=
  selfDelimiting_three rm.isLt (by decide) rn rt

theorem Encoding.ldrsb (rt : LoReg) (rn : LoReg) (rm : LoReg) : Encoding.Statement (.ldrsb rt rn rm) :=
  selfDelimiting_three rm.isLt (by decide) rn rt

theorem Encoding.ldrReg (rt : LoReg) (rn : LoReg) (rm : LoReg) : Encoding.Statement (.ldrReg rt rn rm) :=
  selfDelimiting_three rm.isLt (by decide) rn rt

theorem Encoding.ldrhReg (rt : LoReg) (rn : LoReg) (rm : LoReg) : Encoding.Statement (.ldrhReg rt rn rm) :=
  selfDelimiting_three rm.isLt (by decide) rn rt

theorem Encoding.ldrbReg (rt : LoReg) (rn : LoReg) (rm : LoReg) : Encoding.Statement (.ldrbReg rt rn rm) :=
  selfDelimiting_three rm.isLt (by decide) rn rt

theorem Encoding.ldrsh (rt : LoReg) (rn : LoReg) (rm : LoReg) : Encoding.Statement (.ldrsh rt rn rm) :=
  selfDelimiting_three rm.isLt (by decide) rn rt

theorem Encoding.strImm (rt : LoReg) (rn : LoReg) (imm5 : BitVec 5) : Encoding.Statement (.strImm rt rn imm5) :=
  selfDelimiting_three imm5.isLt (by decide) rn rt

theorem Encoding.ldrImm (rt : LoReg) (rn : LoReg) (imm5 : BitVec 5) : Encoding.Statement (.ldrImm rt rn imm5) :=
  selfDelimiting_three imm5.isLt (by decide) rn rt

theorem Encoding.strbImm (rt : LoReg) (rn : LoReg) (imm5 : BitVec 5) : Encoding.Statement (.strbImm rt rn imm5) :=
  selfDelimiting_three imm5.isLt (by decide) rn rt

theorem Encoding.ldrbImm (rt : LoReg) (rn : LoReg) (imm5 : BitVec 5) : Encoding.Statement (.ldrbImm rt rn imm5) :=
  selfDelimiting_three imm5.isLt (by decide) rn rt

theorem Encoding.strhImm (rt : LoReg) (rn : LoReg) (imm5 : BitVec 5) : Encoding.Statement (.strhImm rt rn imm5) :=
  selfDelimiting_three imm5.isLt (by decide) rn rt

theorem Encoding.ldrhImm (rt : LoReg) (rn : LoReg) (imm5 : BitVec 5) : Encoding.Statement (.ldrhImm rt rn imm5) :=
  selfDelimiting_three imm5.isLt (by decide) rn rt

theorem Encoding.strSp (rt : LoReg) (imm8 : BitVec 8) : Encoding.Statement (.strSp rt imm8) := selfDelimiting_imm8 (by decide) rt imm8

theorem Encoding.ldrSp (rt : LoReg) (imm8 : BitVec 8) : Encoding.Statement (.ldrSp rt imm8) := selfDelimiting_imm8 (by decide) rt imm8

theorem Encoding.adr (rd : LoReg) (imm8 : BitVec 8) : Encoding.Statement (.adr rd imm8) := selfDelimiting_imm8 (by decide) rd imm8

theorem Encoding.addRdSp (rd : LoReg) (imm8 : BitVec 8) : Encoding.Statement (.addRdSp rd imm8) :=
  selfDelimiting_imm8 (by decide) rd imm8

theorem Encoding.addSp (imm7 : BitVec 7) : Encoding.Statement (.addSp imm7) := selfDelimiting_oneHalf (by have := imm7.isLt; omega)

theorem Encoding.subSp (imm7 : BitVec 7) : Encoding.Statement (.subSp imm7) := selfDelimiting_oneHalf (by have := imm7.isLt; omega)

theorem Encoding.sxth (rd : LoReg) (rm : LoReg) : Encoding.Statement (.sxth rd rm) := selfDelimiting_two (by decide) rm rd

theorem Encoding.sxtb (rd : LoReg) (rm : LoReg) : Encoding.Statement (.sxtb rd rm) := selfDelimiting_two (by decide) rm rd

theorem Encoding.uxth (rd : LoReg) (rm : LoReg) : Encoding.Statement (.uxth rd rm) := selfDelimiting_two (by decide) rm rd

theorem Encoding.uxtb (rd : LoReg) (rm : LoReg) : Encoding.Statement (.uxtb rd rm) := selfDelimiting_two (by decide) rm rd

theorem Encoding.push (m : Bool) (list8 : BitVec 8) : Encoding.Statement (.push m list8) :=
  selfDelimiting_oneHalf (by have := list8.isLt; have := m.toNat_lt; omega)

theorem Encoding.cpsie : Encoding.Statement (.cpsie) := selfDelimiting_oneHalf (by omega)

theorem Encoding.cpsid : Encoding.Statement (.cpsid) := selfDelimiting_oneHalf (by omega)

theorem Encoding.rev (rd : LoReg) (rm : LoReg) : Encoding.Statement (.rev rd rm) := selfDelimiting_two (by decide) rm rd

theorem Encoding.rev16 (rd : LoReg) (rm : LoReg) : Encoding.Statement (.rev16 rd rm) := selfDelimiting_two (by decide) rm rd

theorem Encoding.revsh (rd : LoReg) (rm : LoReg) : Encoding.Statement (.revsh rd rm) := selfDelimiting_two (by decide) rm rd

theorem Encoding.pop (p : Bool) (list8 : BitVec 8) : Encoding.Statement (.pop p list8) :=
  selfDelimiting_oneHalf (by have := list8.isLt; have := p.toNat_lt; omega)

theorem Encoding.bkpt (imm8 : BitVec 8) : Encoding.Statement (.bkpt imm8) := selfDelimiting_oneHalf (by have := imm8.isLt; omega)

theorem Encoding.nop : Encoding.Statement (.nop) := selfDelimiting_oneHalf (by omega)

theorem Encoding.yield : Encoding.Statement (.yield) := selfDelimiting_oneHalf (by omega)

theorem Encoding.wfe : Encoding.Statement (.wfe) := selfDelimiting_oneHalf (by omega)

theorem Encoding.wfi : Encoding.Statement (.wfi) := selfDelimiting_oneHalf (by omega)

theorem Encoding.sev : Encoding.Statement (.sev) := selfDelimiting_oneHalf (by omega)

theorem Encoding.stm (rn : LoReg) (list8 : BitVec 8) : Encoding.Statement (.stm rn list8) := selfDelimiting_imm8 (by decide) rn list8

theorem Encoding.ldm (rn : LoReg) (list8 : BitVec 8) : Encoding.Statement (.ldm rn list8) := selfDelimiting_imm8 (by decide) rn list8

theorem Encoding.udf (imm8 : BitVec 8) : Encoding.Statement (.udf imm8) := selfDelimiting_oneHalf (by have := imm8.isLt; omega)

theorem Encoding.svc (imm8 : BitVec 8) : Encoding.Statement (.svc imm8) := selfDelimiting_oneHalf (by have := imm8.isLt; omega)

theorem Encoding.bcond (cond : Cond) (imm8 : BitVec 8) : Encoding.Statement (.bcond cond imm8) :=
  selfDelimiting_oneHalf (by have := imm8.isLt; cases cond <;> simp only [Cond.code] <;> omega)

theorem Encoding.b (imm11 : BitVec 11) : Encoding.Statement (.b imm11) := selfDelimiting_oneHalf (by have := imm11.isLt; omega)

theorem Encoding.bl (imm24 : BitVec 24) : Encoding.Statement (.bl imm24) :=
  selfDelimiting_pair (by omega) (by have := imm24.isLt; omega) _

theorem Encoding.msr (spec : SpecReg) (rn : Reg) : Encoding.Statement (.msr spec rn) :=
  selfDelimiting_pair (by omega) (by have := rn.isLt; omega) _

theorem Encoding.mrs (rd : Reg) (spec : SpecReg) : Encoding.Statement (.mrs rd spec) :=
  selfDelimiting_pair (w := 0xF3EF) (by decide) (by decide) _

theorem Encoding.dsb (option : BitVec 4) : Encoding.Statement (.dsb option) :=
  selfDelimiting_pair (w := 0xF3BF) (by decide) (by decide) _

theorem Encoding.dmb (option : BitVec 4) : Encoding.Statement (.dmb option) :=
  selfDelimiting_pair (w := 0xF3BF) (by decide) (by decide) _

theorem Encoding.isb (option : BitVec 4) : Encoding.Statement (.isb option) :=
  selfDelimiting_pair (w := 0xF3BF) (by decide) (by decide) _

theorem Encoding.udfW (imm16 : BitVec 16) : Encoding.Statement (.udfW imm16) :=
  selfDelimiting_pair (by omega) (by have := imm16.isLt; omega) _

end Sys2Proof.Laws
end

