-- ==== Sys2Proof/Laws/Transfer.lean ====
section
/-! SUPPORT. What the instructions that can be abandoned do with their accesses: what the words read or written one by one leave, how an
instruction in steps ends, and that a block whose words all pass is the block of the platform with MULTI_ACCESS_ATOMIC. -/

namespace Sys2Proof.Machine

/-- What every read keeps, the words read one by one keep. -/
theorem State.readSteps_keeps {P : State → Prop} (hr : ∀ s a v t, P s → s.memRead .word a = .ok (v, t) → P t) {s : State} {a : Word}
    {n : Nat} (hs : P s) : P (s.readSteps a n).state := by
  induction n generalizing s a with
  | zero => exact hs
  | succ n ih =>
    unfold State.readSteps
    split
    · exact ih (hr _ _ _ _ hs ‹_›)
    · exact hs
    · exact hs

/-- What every write keeps, the words written one by one keep. -/
theorem State.writeSteps_keeps {P : State → Prop} (hw : ∀ s a v t, P s → s.memWrite .word a v = .ok t → P t) {s : State} {a : Word}
    {l : List Word} (hs : P s) : P (s.writeSteps a l).state := by
  induction l generalizing s a with
  | nil => exact hs
  | cons v rest ih =>
    unfold State.writeSteps
    split
    · exact ih (hw _ _ _ _ hs ‹_›)
    · exact hs
    · exact hs

/-- Words read one by one change COUNTFLAG, the count of free values and what the devices saw at most. -/
theorem State.readSteps_frame (s : State) (a : Word) (n : Nat) :
    (s.readSteps a n).state =
      { s with
        stk := { s.stk with countFlag := (s.readSteps a n).state.stk.countFlag }
        freeCount := (s.readSteps a n).state.freeCount
        devices := (s.readSteps a n).state.devices } := by
  refine State.readSteps_keeps (P := fun t => t = { s with
      stk := { s.stk with countFlag := t.stk.countFlag }, freeCount := t.freeCount, devices := t.devices }) ?_ rfl
  intro u a v t hu h
  obtain ⟨_, h2⟩ := State.memRead_ok h
  injection h2 with _ h2
  subst h2
  rw [State.busReadEffect_frame, hu]

/-- Words written one by one change what bus writes change. -/
theorem State.writeSteps_frame (s : State) (a : Word) (l : List Word) :
    (s.writeSteps a l).state =
      { s with
        mem := (s.writeSteps a l).state.mem, devices := (s.writeSteps a l).state.devices, nvic := (s.writeSteps a l).state.nvic
        scb := (s.writeSteps a l).state.scb, stk := (s.writeSteps a l).state.stk, mpu := (s.writeSteps a l).state.mpu
        sleep := (s.writeSteps a l).state.sleep, eventReg := (s.writeSteps a l).state.eventReg } := by
  refine State.writeSteps_keeps (P := fun t => t = { s with
      mem := t.mem, devices := t.devices, nvic := t.nvic, scb := t.scb, stk := t.stk, mpu := t.mpu, sleep := t.sleep
      eventReg := t.eventReg }) ?_ rfl
  intro u a v t hu h
  have hf := State.busWrite_frame (State.memWrite_ok h).2
  rw [hf, hu]

/-- At most `n` words are read, and all of them where no access was stopped. -/
theorem State.readSteps_length (s : State) (a : Word) (n : Nat) :
    (s.readSteps a n).words.length ≤ n ∧ ((s.readSteps a n).stop = .ok () → (s.readSteps a n).words.length = n) := by
  induction n generalizing s a with
  | zero => exact ⟨Nat.le_refl _, fun _ => rfl⟩
  | succ n ih =>
    unfold State.readSteps
    split
    · rename_i v s' _
      obtain ⟨h1, h2⟩ := ih s' (a + 4)
      exact ⟨Nat.succ_le_succ h1, fun h => congrArg Nat.succ (h2 h)⟩
    · exact ⟨Nat.zero_le _, fun h => by cases h⟩
    · exact ⟨Nat.zero_le _, fun h => by cases h⟩

/-- How an instruction in steps ends: abandoned by an exception, done, or stopped by a HardFault. -/
theorem State.inSteps_next {s t : State} {n : Nat} {upTo : Nat → Progress} {partway : Progress → State} {finish : Progress → Result}
    (h : s.inSteps n upTo partway finish = .next t) :
    (∃ m e, s.cfg.multiAccessAtomic = false ∧ s.midway = some m ∧ (upTo (min m.after n)).stop = .ok () ∧
        ((partway (upTo (min m.after n))).sampleMidway m).bestCandidate = some e ∧
        ((partway (upTo (min m.after n))).sampleMidway m).takeException e s.pc = .next t) ∨
      ((upTo n).stop = .ok () ∧ finish (upTo n) = .next t) ∨
      ∃ c, (upTo n).stop = .fault c ∧ (partway (upTo n)).raiseHardFault s.pc = .next t := by
  unfold State.inSteps at h
  split at h
  · rename_i e u ha
    unfold State.abandonment at ha
    split at ha
    · rename_i m h1 h2
      dsimp only at ha
      split at ha
      · rename_i h3
        obtain ⟨e', h4, h5⟩ := Option.map_eq_some_iff.mp ha
        cases h5
        exact .inl ⟨m, _, h1, h2, h3, h4, h⟩
      · cases ha
    · cases ha
  · split at h
    · rename_i u hu; cases u; exact .inr (.inl ⟨hu, h⟩)
    · rename_i c hc; exact .inr (.inr ⟨c, hc, h⟩)
    · cases h

/-- Nothing abandons an instruction on a platform with MULTI_ACCESS_ATOMIC, with no arrival, or where the arrival makes no candidate. -/
theorem State.abandonment_eq_none {s : State} {n : Nat} {upTo : Nat → Progress} {partway : Progress → State}
    (h : s.cfg.multiAccessAtomic = true ∨
      ∀ m, s.midway = some m → (upTo (min m.after n)).stop = .ok () →
        ((partway (upTo (min m.after n))).sampleMidway m).bestCandidate = none) :
    s.abandonment n upTo partway = none := by
  unfold State.abandonment
  split
  · rename_i m h1 h2
    dsimp only
    split
    · rcases h with h | h
      · rw [h] at h1; cases h1
      · rw [h m h2 ‹_›]; rfl
    · rfl
  · rfl

/-- What a midway arrival makes pending, and so the exception it makes the best candidate, depends on the interrupt controller, the system
control block, the timer's settings and count, and PRIMASK. -/
theorem State.sampleMidway_congr {s t : State} (m : Midway) (hn : t.nvic = s.nvic) (hs : t.scb = s.scb) (hp : t.primask = s.primask)
    (h1 : t.stk.ctrl = s.stk.ctrl) (h2 : t.stk.current = s.stk.current) (h3 : t.stk.reload = s.stk.reload) :
    (t.sampleMidway m).nvic = (s.sampleMidway m).nvic ∧ (t.sampleMidway m).bestCandidate = (s.sampleMidway m).bestCandidate := by
  have hirq : ∀ l, (t.sampleIrq l).nvic = (s.sampleIrq l).nvic := by
    intro l; simp only [State.sampleIrq, State.setPendingMask_nvic, State.irqActive, hn]
  have hnmi : ∀ (u v : State) l, u.nvic = v.nvic → (u.sampleNmi l).nvic = (v.sampleNmi l).nvic := by
    intro u v l h
    unfold State.sampleNmi
    rw [h]
    dsimp only
    split <;> simp only [State.setPending_nvic, h]
  have htick : ∀ (k : Nat) (u v : State), u.nvic = v.nvic → u.stk.ctrl = v.stk.ctrl → u.stk.current = v.stk.current →
      u.stk.reload = v.stk.reload → (u.sysTickTicks k).nvic = (v.sysTickTicks k).nvic := by
    intro k
    induction k with
    | zero => intro u v h _ _ _; exact h
    | succ k ih =>
      intro u v h a b c
      have hone : u.sysTickTick.nvic = v.sysTickTick.nvic ∧ u.sysTickTick.stk.ctrl = v.sysTickTick.stk.ctrl ∧
          u.sysTickTick.stk.current = v.sysTickTick.stk.current ∧ u.sysTickTick.stk.reload = v.sysTickTick.stk.reload := by
        unfold State.sysTickTick
        rw [a, b]
        split
        · exact ⟨h, a, b, c⟩
        · split
          · exact ⟨h, by simp [a], by simp [c], by simp [c]⟩
          · split
            · dsimp only
              split
              · exact ⟨by simp [h], by simp [a], by simp, by simp [c]⟩
              · exact ⟨h, by simp [a], by simp, by simp [c]⟩
            · exact ⟨h, by simp [a], by simp, by simp [c]⟩
      exact ih _ _ hone.1 hone.2.1 hone.2.2.1 hone.2.2.2
  have hall : (t.sampleMidway m).nvic = (s.sampleMidway m).nvic := by
    unfold State.sampleMidway
    exact htick _ _ _ (hnmi _ _ _ (hirq _)) (by simp [h1]) (by simp [h2]) (by simp [h3])
  exact ⟨hall, State.bestCandidate_congr hall (by simp [hs]) (by simp [hp])⟩

/-- A block whose words all pass their checks is read one by one as it is read at once. -/
theorem State.readSteps_eq_readWords {s : State} {a : Word} {n : Nat}
    (h : ∀ k < n, s.checkAccess s.privileged .read .word (a + BitVec.ofNat 32 (4 * k)) = .ok ()) :
    s.readSteps a n =
      { words := (s.readWords s.privileged a n).1, state := (s.readWords s.privileged a n).2, stop := .ok () } := by
  induction n generalizing s a with
  | zero => rfl
  | succ n ih =>
    have h0 : s.checkAccess s.privileged .read .word a = .ok () := by simpa using h 0 (by omega)
    have hshift : ∀ k, a + 4 + BitVec.ofNat 32 (4 * k) = a + BitVec.ofNat 32 (4 * (k + 1)) := by
      intro k; rw [BitVec.add_assoc, show 4 * (k + 1) = 4 + 4 * k by omega, BitVec.ofNat_add]; rfl
    have hp : (s.busReadEffect s.privileged .read .word a).privileged = s.privileged := by simp [State.privileged]
    have hr : s.memRead .word a =
        .ok (s.busValue s.privileged .read .word a, s.busReadEffect s.privileged .read .word a) := by
      unfold State.memRead; rw [h0]; rfl
    unfold State.readSteps
    rw [hr]
    dsimp only
    rw [ih (s := s.busReadEffect s.privileged .read .word a) (a := a + 4) (fun k hk => by
      rw [hshift, hp, State.checkAccess_congr (s := s) (by simp) (by simp) (by simp) (by simp) (by simp)]
      exact h (k + 1) (by omega)), hp]
    rfl

/-- A block outside the PPB whose words all pass their checks is written one by one as it is written at once. -/
theorem State.writeSteps_eq_writeWords {s : State} {a : Word} {l : List Word}
    (h : ∀ k < l.length, s.checkAccess s.privileged .write .word (a + BitVec.ofNat 32 (4 * k)) = .ok ())
    (ho : ∀ k < l.length, inPpb (a + BitVec.ofNat 32 (4 * k)) = false) :
    ∃ u, s.writeWords s.privileged a l = .ok u ∧ s.writeSteps a l = { words := l, state := u, stop := .ok () } := by
  induction l generalizing s a with
  | nil => exact ⟨s, rfl, rfl⟩
  | cons v rest ih =>
    simp only [List.length_cons] at h ho
    have h0 : s.checkAccess s.privileged .write .word a = .ok () := by simpa using h 0 (by omega)
    have ha : inPpb a = false := by simpa using ho 0 (by omega)
    have hshift : ∀ k, a + 4 + BitVec.ofNat 32 (4 * k) = a + BitVec.ofNat 32 (4 * (k + 1)) := by
      intro k; rw [BitVec.add_assoc, show 4 * (k + 1) = 4 + 4 * k by omega, BitVec.ofNat_add]; rfl
    obtain ⟨s', hs⟩ := State.busWrite_done (s := s) (priv := s.privileged) (size := .word) (v := v) ha
    have hf := State.busWrite_outside ha hs
    have hp : s'.privileged = s.privileged := by rw [hf]; rfl
    obtain ⟨u, h1, h2⟩ := ih (s := s') (a := a + 4)
      (fun k hk => by
        rw [hshift, hp, State.checkAccess_congr (s := s) (by rw [hf]) (by rw [hf]) (by rw [hf]) (by rw [hf]) (by rw [hf])]
        exact h (k + 1) (by omega))
      (fun k hk => by rw [hshift]; exact ho (k + 1) (by omega))
    have hw : s.memWrite .word a v = .ok s' := by unfold State.memWrite; rw [h0]; exact hs
    refine ⟨u, by simp only [State.writeWords, hs, Acc.bind_ok]; rw [← hp]; exact h1, ?_⟩
    unfold State.writeSteps
    rw [hw]
    dsimp only
    rw [h2]

/-- The state of a block of loads that was abandoned or stopped has other registers and another count of free values, nothing else. -/
theorem Progress.loadsKept_frame (p : Progress) (base : Option LoReg) (rs : List LoReg) :
    p.loadsKept base rs = { p.state with regs := (p.loadsKept base rs).regs, freeCount := (p.loadsKept base rs).freeCount } := by
  unfold Progress.loadsKept
  split
  · rfl
  · rw [State.mk.injEq]; simp

/-- The state of a block of stores that was abandoned or stopped has another count of free values at most. -/
theorem Progress.storesKept_frame (p : Progress) (fresh : Bool) :
    p.storesKept fresh = { p.state with freeCount := (p.storesKept fresh).freeCount } := by
  unfold Progress.storesKept
  split <;> rfl

end Sys2Proof.Machine
end

