-- ==== Sys2Proof/Tests/Slice0.lean ====
section
/-! SUPPORT. Our own tests: decoding of words written out from the spec's encoding tables (30_encoding.md R193 to R198), the checks of
WellFormed, one or two single steps per instruction whose expected results are the spec's worked examples and derived vectors
(95_test_vectors.md), and for every statement with hypotheses a concrete case that meets them. -/

namespace Sys2Proof.Tests

open Sys2Proof.Machine Sys2Proof.Safety

/-! ### Decoding -/

theorem test_decode_moves_and_shifts :
    decodeHalves 0b0000000000011001 0 = .instr (.movsReg 1 3) ∧
      decodeHalves 0b0000010101011001 0 = .instr (.lslsImm 21 3 1) ∧
      decodeHalves 0b0000110101011001 0 = .instr (.lsrsImm 21 3 1) ∧
      decodeHalves 0b0001010101011001 0 = .instr (.asrsImm 21 3 1) ∧
      decodeHalves 0b0010000110100111 0 = .instr (.movsImm 1 167) := by
  decide

theorem test_decode_add_sub :
    decodeHalves 0b0001100011010001 0 = .instr (.addsReg 1 2 3) ∧
      decodeHalves 0b0001101011010001 0 = .instr (.subsReg 1 2 3) ∧
      decodeHalves 0b0001110101010001 0 = .instr (.addsImm3 1 2 5) ∧
      decodeHalves 0b0001111101010001 0 = .instr (.subsImm3 1 2 5) ∧
      decodeHalves 0b0010101010100111 0 = .instr (.cmpImm 2 167) ∧
      decodeHalves 0b0011010110100111 0 = .instr (.addsImm8 5 167) ∧
      decodeHalves 0b0011110110100111 0 = .instr (.subsImm8 5 167) := by
  decide

theorem test_decode_data_processing_low :
    decodeHalves 0b0100000000011101 0 = .instr (.ands 5 3) ∧
      decodeHalves 0b0100000001011101 0 = .instr (.eors 5 3) ∧
      decodeHalves 0b0100000010110101 0 = .instr (.lslsReg 5 6) ∧
      decodeHalves 0b0100000011110101 0 = .instr (.lsrsReg 5 6) ∧
      decodeHalves 0b0100000100110101 0 = .instr (.asrsReg 5 6) ∧
      decodeHalves 0b0100000101011101 0 = .instr (.adcs 5 3) ∧
      decodeHalves 0b0100000110011101 0 = .instr (.sbcs 5 3) ∧
      decodeHalves 0b0100000111110101 0 = .instr (.rors 5 6) := by
  decide

theorem test_decode_data_processing_high :
    decodeHalves 0b0100001000011010 0 = .instr (.tst 2 3) ∧
      decodeHalves 0b0100001001010001 0 = .instr (.rsbs 1 2) ∧
      decodeHalves 0b0100001010011010 0 = .instr (.cmpLow 2 3) ∧
      decodeHalves 0b0100001011011010 0 = .instr (.cmn 2 3) ∧
      decodeHalves 0b0100001100011101 0 = .instr (.orrs 5 3) ∧
      decodeHalves 0b0100001101010101 0 = .instr (.muls 5 2) ∧
      decodeHalves 0b0100001110011101 0 = .instr (.bics 5 3) ∧
      decodeHalves 0b0100001111011001 0 = .instr (.mvns 1 3) := by
  decide

theorem test_decode_any_register :
    decodeHalves 0b0100010010101010 0 = .instr (.addHigh 10 5) ∧
      decodeHalves 0b0100010110101010 0 = .instr (.cmpHigh 10 5) ∧
      decodeHalves 0b0100011010101010 0 = .instr (.mov 10 5) ∧
      decodeHalves 0b0100011101001000 0 = .instr (.bx 9) ∧
      decodeHalves 0b0100011111001000 0 = .instr (.blx 9) := by
  decide

theorem test_decode_register_offset :
    decodeHalves 0b0101000011010001 0 = .instr (.strReg 1 2 3) ∧
      decodeHalves 0b0101001011010001 0 = .instr (.strhReg 1 2 3) ∧
      decodeHalves 0b0101010011010001 0 = .instr (.strbReg 1 2 3) ∧
      decodeHalves 0b0101011011010001 0 = .instr (.ldrsb 1 2 3) ∧
      decodeHalves 0b0101100011010001 0 = .instr (.ldrReg 1 2 3) ∧
      decodeHalves 0b0101101011010001 0 = .instr (.ldrhReg 1 2 3) ∧
      decodeHalves 0b0101110011010001 0 = .instr (.ldrbReg 1 2 3) ∧
      decodeHalves 0b0101111011010001 0 = .instr (.ldrsh 1 2 3) := by
  decide

theorem test_decode_immediate_offset :
    decodeHalves 0b0100100110100111 0 = .instr (.ldrLit 1 167) ∧
      decodeHalves 0b0110010101010001 0 = .instr (.strImm 1 2 21) ∧
      decodeHalves 0b0110110101010001 0 = .instr (.ldrImm 1 2 21) ∧
      decodeHalves 0b0111010101010001 0 = .instr (.strbImm 1 2 21) ∧
      decodeHalves 0b0111110101010001 0 = .instr (.ldrbImm 1 2 21) ∧
      decodeHalves 0b1000010101010001 0 = .instr (.strhImm 1 2 21) ∧
      decodeHalves 0b1000110101010001 0 = .instr (.ldrhImm 1 2 21) ∧
      decodeHalves 0b1001000110100111 0 = .instr (.strSp 1 167) ∧
      decodeHalves 0b1001100110100111 0 = .instr (.ldrSp 1 167) := by
  decide

theorem test_decode_address_and_sp :
    decodeHalves 0b1010000110100111 0 = .instr (.adr 1 167) ∧
      decodeHalves 0b1010100110100111 0 = .instr (.addRdSp 1 167) ∧
      decodeHalves 0b1011000001011101 0 = .instr (.addSp 93) ∧
      decodeHalves 0b1011000011011101 0 = .instr (.subSp 93) := by
  decide

theorem test_decode_extend_reverse :
    decodeHalves 0b1011001000011001 0 = .instr (.sxth 1 3) ∧
      decodeHalves 0b1011001001011001 0 = .instr (.sxtb 1 3) ∧
      decodeHalves 0b1011001010011001 0 = .instr (.uxth 1 3) ∧
      decodeHalves 0b1011001011011001 0 = .instr (.uxtb 1 3) ∧
      decodeHalves 0b1011101000011001 0 = .instr (.rev 1 3) ∧
      decodeHalves 0b1011101001011001 0 = .instr (.rev16 1 3) ∧
      decodeHalves 0b1011101011011001 0 = .instr (.revsh 1 3) := by
  decide

theorem test_decode_lists :
    decodeHalves 0b1011010110010101 0 = .instr (.push true 149) ∧
      decodeHalves 0b1011110110010101 0 = .instr (.pop true 149) ∧
      decodeHalves 0b1100001010010101 0 = .instr (.stm 2 149) ∧
      decodeHalves 0b1100101010010101 0 = .instr (.ldm 2 149) := by
  decide

theorem test_decode_hints_and_system :
    decodeHalves 0b1011011001100010 0 = .instr .cpsie ∧
      decodeHalves 0b1011011001110010 0 = .instr .cpsid ∧
      decodeHalves 0b1011111010100111 0 = .instr (.bkpt 167) ∧
      decodeHalves 0b1011111100000000 0 = .instr .nop ∧
      decodeHalves 0b1011111100010000 0 = .instr .yield ∧
      decodeHalves 0b1011111100100000 0 = .instr .wfe ∧
      decodeHalves 0b1011111100110000 0 = .instr .wfi ∧
      decodeHalves 0b1011111101000000 0 = .instr .sev ∧
      decodeHalves 0b1101111010100111 0 = .instr (.udf 167) ∧
      decodeHalves 0b1101111110100111 0 = .instr (.svc 167) := by
  decide

theorem test_decode_branches :
    decodeHalves 0b1101100010100111 0 = .instr (.bcond .hi 167) ∧
      decodeHalves 0b1110010110100111 0 = .instr (.b 1447) ∧
      decodeHalves 0b1111011010100101 0b1101101101011011 = .instr (.bl 11873115) := by
  decide

theorem test_decode_wide_system :
    decodeHalves 0b1111001110001011 0b1000100000010100 = .instr (.msr .control 11) ∧
      decodeHalves 0b1111001111101111 0b1000101100010000 = .instr (.mrs 11 .primask) ∧
      decodeHalves 0b1111001110111111 0b1000111101001101 = .instr (.dsb 13) ∧
      decodeHalves 0b1111001110111111 0b1000111101011101 = .instr (.dmb 13) ∧
      decodeHalves 0b1111001110111111 0b1000111101101101 = .instr (.isb 13) ∧
      decodeHalves 0b1111011111111010 0b1010010111000011 = .instr (.udfW 42435) := by
  decide

/-- Undefined patterns are undefined, unpredictable ones are refused by name, unallocated hints are NOP (30_encoding.md R201 to
R204). -/
theorem test_decode_rejects :
    decodeHalves 0xB100 0 = .undefined ∧ decodeHalves 0xBF01 0 = .undefined ∧ decodeHalves 0xE800 0 = .undefined ∧
      decodeHalves 0x4768 0 = .unpredictable .branchReg ∧ decodeHalves 0x4508 0 = .unpredictable .cmpHighRegs ∧
      decodeHalves 0xCA00 0 = .unpredictable .emptyList ∧ decodeHalves 0xF3EF 0x8004 = .unpredictable .sysm ∧
      decodeHalves 0xBF50 0 = .instr .nop := by
  decide

/-- The two bytes of a halfword are read low byte first, and a table word has its first halfword on top (30_encoding.md R192). -/
theorem test_table_words :
    decodeTableWord 16 0x4159 = some (.adcs 1 3) ∧ decodeTableWord 32 0xF3BF8F5F = some (.dmb 15) ∧
      decodeTableWord 16 0x4768 = none := by
  decide

/-! ### The checks of WellFormed refuse ill-formed terms -/

theorem test_wf_lsls_zero : WellFormed (.lslsImm 0 1 2) = false ∧ WellFormed (.lslsImm 1 1 2) = true := by decide

theorem test_wf_add_pc_pc : WellFormed (.addHigh 15 15) = false ∧ WellFormed (.addHigh 15 14) = true := by decide

theorem test_wf_cmp_high :
    WellFormed (.cmpHigh 7 7) = false ∧ WellFormed (.cmpHigh 15 8) = false ∧ WellFormed (.cmpHigh 8 15) = false ∧
      WellFormed (.cmpHigh 7 8) = true := by
  decide

theorem test_wf_branch_register :
    WellFormed (.bx 13) = false ∧ WellFormed (.bx 15) = false ∧ WellFormed (.blx 13) = false ∧ WellFormed (.blx 15) = false ∧
      WellFormed (.bx 14) = true := by
  decide

theorem test_wf_empty_lists :
    WellFormed (.push false 0) = false ∧ WellFormed (.pop false 0) = false ∧ WellFormed (.stm 0 0) = false ∧
      WellFormed (.ldm 0 0) = false ∧ WellFormed (.push true 0) = true := by
  decide

theorem test_wf_special_moves :
    WellFormed (.msr .psp 13) = false ∧ WellFormed (.msr .psp 15) = false ∧ WellFormed (.mrs 13 .psp) = false ∧
      WellFormed (.mrs 15 .psp) = false ∧ WellFormed (.mrs 14 .psp) = true := by
  decide

/-! ### Helpers for single steps -/

/-- N, Z, C, V. -/
def nzcv (n z c v : Bool) : Apsr := { n := n, z := z, c := c, v := v }

/-- A value of one, two or four bytes placed in memory. -/
def poke (a v n : Nat) (s : State) : State :=
  { s with mem := s.mem.setBytes ((List.range n).map fun i => (a + i, BitVec.ofNat 8 (v / 256 ^ i))) }

/-- The start state of the spec's vectors with an instruction at an address (95_test_vectors.md section 2). -/
def startAt (a : Word) (hw1 hw2 : Half) : State :=
  { State.reset with msp := 0x20001000, epsrT := true, pc := a }.placeInstruction hw1 hw2

/-- What a step that answers a next state shows of it. -/
def outcome {α : Type} (r : Result) (f : State → α) : Option α :=
  match r with
  | .next t => some (f t)
  | .fault _ => none
  | .refused _ => none

/-! ### One step each -/

/-- 95_test_vectors.md: MOVS R0, R1. -/
theorem test_movs_reg :
    outcome (step (startAt 0x100 0x0008 0x0000 |>.setGpr 1 0x00000000 |>.setGpr 0 0x00000005 |>.setFlags (nzcv true false true true)))
      (fun t => (t.gpr 0, t.apsr, t.pc)) = some (0x00000000, nzcv false true true true, 0x102) := by
  decide

/-- 95_test_vectors.md: LSLS R1, R2, #3. -/
theorem test_lsls_imm :
    outcome (step (startAt 0x100 0x00D1 0x0000 |>.setGpr 2 0x30000001))
      (fun t => (t.gpr 1, t.apsr, t.pc)) = some (0x80000008, nzcv true false true false, 0x102) := by
  decide

/-- 95_test_vectors.md: LSRS R0, R1, #32. -/
theorem test_lsrs_imm :
    outcome (step (startAt 0x100 0x0808 0x0000 |>.setGpr 1 0x80000001))
      (fun t => (t.apsr, t.pc)) = some (nzcv false true true false, 0x102) := by
  decide

/-- 95_test_vectors.md: ASRS R0, R1, #32. -/
theorem test_asrs_imm :
    outcome (step (startAt 0x100 0x1008 0x0000 |>.setGpr 1 0x80000001))
      (fun t => (t.gpr 0, t.apsr, t.pc)) = some (0xFFFFFFFF, nzcv true false true false, 0x102) := by
  decide

/-- 95_test_vectors.md: ADDS R0, R1, R2. -/
theorem test_adds_reg :
    outcome (step (startAt 0x100 0x1888 0x0000 |>.setGpr 1 0x7FFFFFFF |>.setGpr 2 0x00000001))
      (fun t => (t.gpr 0, t.apsr, t.pc)) = some (0x80000000, nzcv true false false true, 0x102) := by
  decide

/-- 95_test_vectors.md: SUBS R0, R1, R2. -/
theorem test_subs_reg :
    outcome (step (startAt 0x100 0x1A88 0x0000 |>.setGpr 1 0x00000000 |>.setGpr 2 0x00000001))
      (fun t => (t.gpr 0, t.apsr, t.pc)) = some (0xFFFFFFFF, nzcv true false false false, 0x102) := by
  decide

/-- 95_test_vectors.md: ADDS R0, R1, #0. -/
theorem test_adds_imm_3 :
    outcome (step (startAt 0x100 0x1C08 0x0000 |>.setGpr 1 0x80000000 |>.setFlags (nzcv false true true true)))
      (fun t => (t.gpr 0, t.apsr, t.pc)) = some (0x80000000, nzcv true false false false, 0x102) := by
  decide

/-- 95_test_vectors.md: SUBS R0, R1, #7. -/
theorem test_subs_imm_3 :
    outcome (step (startAt 0x100 0x1FC8 0x0000 |>.setGpr 1 0x00000007))
      (fun t => (t.apsr, t.pc)) = some (nzcv false true true false, 0x102) := by
  decide

/-- 95_test_vectors.md: MOVS R0, #0x000B. -/
theorem test_movs_imm :
    outcome (step (startAt 0x100 0x200B 0x0000 |>.setGpr 0 0xFFFFFFFF |>.setFlags (nzcv true true true true)))
      (fun t => (t.gpr 0, t.apsr, t.pc)) = some (0x0000000B, nzcv false false true true, 0x102) := by
  decide

/-- 95_test_vectors.md: CMP R0, #255. -/
theorem test_cmp_imm :
    outcome (step (startAt 0x100 0x28FF 0x0000 |>.setGpr 0 0x000000FF))
      (fun t => (t.apsr, t.pc)) = some (nzcv false true true false, 0x102) := by
  decide

/-- 95_test_vectors.md: ADDS R0, #1. -/
theorem test_adds_imm_8 :
    outcome (step (startAt 0x100 0x3001 0x0000 |>.setGpr 0 0xFFFFFFFF))
      (fun t => (t.gpr 0, t.apsr, t.pc)) = some (0x00000000, nzcv false true true false, 0x102) := by
  decide

/-- 95_test_vectors.md: SUBS R0, #255. -/
theorem test_subs_imm_8 :
    outcome (step (startAt 0x100 0x38FF 0x0000 |>.setGpr 0 0x00000100))
      (fun t => (t.gpr 0, t.apsr, t.pc)) = some (0x00000001, nzcv false false true false, 0x102) := by
  decide

/-- 95_test_vectors.md: ANDS R0, R1. -/
theorem test_ands :
    outcome (step (startAt 0x100 0x4008 0x0000 |>.setGpr 0 0x80000001 |>.setGpr 1 0x80000000 |>.setFlags (nzcv false false true true)))
      (fun t => (t.gpr 0, t.apsr, t.pc)) = some (0x80000000, nzcv true false true true, 0x102) := by
  decide

/-- 95_test_vectors.md: EORS R7, R7, R6. -/
theorem test_eors :
    outcome (step (startAt 0x100 0x4077 0x0000 |>.setGpr 7 0x12345678 |>.setGpr 6 0x12345678))
      (fun t => (t.gpr 7, t.apsr, t.pc)) = some (0x00000000, nzcv false true false false, 0x102) := by
  decide

/-- 95_test_vectors.md: LSLS R0, R1 (R1=32). -/
theorem test_lsls_reg :
    outcome (step (startAt 0x100 0x4088 0x0000 |>.setGpr 0 0x80000001 |>.setGpr 1 0x00000020 |>.setFlags (nzcv false false false false)))
      (fun t => (t.gpr 0, t.apsr, t.pc)) = some (0x00000000, nzcv false true true false, 0x102) := by
  decide

/-- 95_test_vectors.md: LSLS R0, R1 (R1=255). -/
theorem test_lsls_reg_second :
    outcome (step (startAt 0x100 0x4088 0x0000 |>.setGpr 0 0x80000001 |>.setGpr 1 0x000000FF |>.setFlags (nzcv false false true false)))
      (fun t => (t.gpr 0, t.apsr, t.pc)) = some (0x00000000, nzcv false true false false, 0x102) := by
  decide

/-- 95_test_vectors.md: LSRS R0, R1 (R1=32). -/
theorem test_lsrs_reg :
    outcome (step (startAt 0x100 0x40C8 0x0000 |>.setGpr 0 0x80000001 |>.setGpr 1 0x00000020 |>.setFlags (nzcv false false false false)))
      (fun t => (t.gpr 0, t.apsr, t.pc)) = some (0x00000000, nzcv false true true false, 0x102) := by
  decide

/-- 95_test_vectors.md: LSRS R0, R1 (R1=33). -/
theorem test_lsrs_reg_second :
    outcome (step (startAt 0x100 0x40C8 0x0000 |>.setGpr 0 0x80000001 |>.setGpr 1 0x00000021 |>.setFlags (nzcv false false true false)))
      (fun t => (t.gpr 0, t.apsr, t.pc)) = some (0x00000000, nzcv false true false false, 0x102) := by
  decide

/-- 95_test_vectors.md: ASRS R0, R1 (R1=31). -/
theorem test_asrs_reg :
    outcome (step (startAt 0x100 0x4108 0x0000 |>.setGpr 0 0x80000001 |>.setGpr 1 0x0000001F |>.setFlags (nzcv false false false false)))
      (fun t => (t.gpr 0, t.apsr, t.pc)) = some (0xFFFFFFFF, nzcv true false false false, 0x102) := by
  decide

/-- 95_test_vectors.md: ASRS R0, R1 (R1=255). -/
theorem test_asrs_reg_second :
    outcome (step (startAt 0x100 0x4108 0x0000 |>.setGpr 0 0x80000001 |>.setGpr 1 0x000000FF |>.setFlags (nzcv false false true false)))
      (fun t => (t.gpr 0, t.apsr, t.pc)) = some (0xFFFFFFFF, nzcv true false true false, 0x102) := by
  decide

/-- 95_test_vectors.md: ADCS R0, R1. -/
theorem test_adcs :
    outcome (step (startAt 0x100 0x4148 0x0000 |>.setGpr 0 0x7FFFFFFF |>.setGpr 1 0x00000000 |>.setFlags (nzcv false false true false)))
      (fun t => (t.gpr 0, t.apsr, t.pc)) = some (0x80000000, nzcv true false false true, 0x102) := by
  decide

/-- 95_test_vectors.md: SBCS R0, R1. -/
theorem test_sbcs :
    outcome (step (startAt 0x100 0x4188 0x0000 |>.setGpr 0 0x00000000 |>.setGpr 1 0x00000000 |>.setFlags (nzcv false false true false)))
      (fun t => (t.apsr, t.pc)) = some (nzcv false true true false, 0x102) := by
  decide

/-- 95_test_vectors.md: RORS R0, R1 (R1=33). -/
theorem test_rors :
    outcome (step (startAt 0x100 0x41C8 0x0000 |>.setGpr 0 0x80000001 |>.setGpr 1 0x00000021 |>.setFlags (nzcv false false true false)))
      (fun t => (t.gpr 0, t.apsr, t.pc)) = some (0xC0000000, nzcv true false true false, 0x102) := by
  decide

/-- 95_test_vectors.md: RORS R0, R1 (R1=32). -/
theorem test_rors_second :
    outcome (step (startAt 0x100 0x41C8 0x0000 |>.setGpr 0 0x80000001 |>.setGpr 1 0x00000020 |>.setFlags (nzcv false false false false)))
      (fun t => (t.apsr, t.pc)) = some (nzcv true false true false, 0x102) := by
  decide

/-- 95_test_vectors.md: TST R0, R1. -/
theorem test_tst :
    outcome (step (startAt 0x100 0x4208 0x0000 |>.setGpr 0 0x0000FF00 |>.setGpr 1 0x000000FF |>.setFlags (nzcv false false true true)))
      (fun t => (t.apsr, t.pc)) = some (nzcv false true true true, 0x102) := by
  decide

/-- 95_test_vectors.md: RSBS R0, R1, #0. -/
theorem test_rsbs :
    outcome (step (startAt 0x100 0x4248 0x0000 |>.setGpr 1 0x00000000))
      (fun t => (t.apsr, t.pc)) = some (nzcv false true true false, 0x102) := by
  decide

/-- 95_test_vectors.md: CMP R0, R1. -/
theorem test_cmp_low :
    outcome (step (startAt 0x100 0x4288 0x0000 |>.setGpr 0 0x00000001 |>.setGpr 1 0x00000002))
      (fun t => (t.apsr, t.pc)) = some (nzcv true false false false, 0x102) := by
  decide

/-- 95_test_vectors.md: CMN R0, R2. -/
theorem test_cmn :
    outcome (step (startAt 0x100 0x42D0 0x0000 |>.setGpr 0 0xFFFFFFFF |>.setGpr 2 0x00000001))
      (fun t => (t.apsr, t.pc)) = some (nzcv false true true false, 0x102) := by
  decide

/-- 95_test_vectors.md: ORRS R2, R2, R5. -/
theorem test_orrs :
    outcome (step (startAt 0x100 0x432A 0x0000 |>.setGpr 2 0x80000000 |>.setGpr 5 0x00000001))
      (fun t => (t.gpr 2, t.apsr, t.pc)) = some (0x80000001, nzcv true false false false, 0x102) := by
  decide

/-- 95_test_vectors.md: MULS R0, R1, R0. -/
theorem test_muls :
    outcome (step (startAt 0x100 0x4348 0x0000 |>.setGpr 0 0xFFFFFFFF |>.setGpr 1 0xFFFFFFFF |>.setFlags (nzcv false false true true)))
      (fun t => (t.gpr 0, t.apsr, t.pc)) = some (0x00000001, nzcv false false true true, 0x102) := by
  decide

/-- 95_test_vectors.md: BICS R0, R0, R1. -/
theorem test_bics :
    outcome (step (startAt 0x100 0x4388 0x0000 |>.setGpr 0 0xFFFFFFFF |>.setGpr 1 0x0000FFFF))
      (fun t => (t.gpr 0, t.apsr, t.pc)) = some (0xFFFF0000, nzcv true false false false, 0x102) := by
  decide

/-- 95_test_vectors.md: MVNS R2, R0. -/
theorem test_mvns :
    outcome (step (startAt 0x100 0x43C2 0x0000 |>.setGpr 0 0x0000FFFF))
      (fun t => (t.gpr 2, t.apsr, t.pc)) = some (0xFFFF0000, nzcv true false false false, 0x102) := by
  decide

/-- 95_test_vectors.md: ADD SP, R0. -/
theorem test_add_high :
    outcome (step (startAt 0x100 0x4485 0x0000 |>.setMsp 0x20001000 |>.setGpr 0 0xFFFFFFF2))
      (fun t => (t.msp, t.apsr, t.pc)) = some (0x20000FF0, nzcv false false false false, 0x102) := by
  decide

/-- 95_test_vectors.md: ADD PC, R0 at 0x100. -/
theorem test_add_high_second :
    outcome (step (startAt 0x100 0x4487 0x0000 |>.setGpr 0 0x0000000D))
      (fun t => (t.apsr, t.pc)) = some (nzcv false false false false, 0x00000110) := by
  decide

/-- 95_test_vectors.md: CMP R0, SP. -/
theorem test_cmp_high :
    outcome (step (startAt 0x100 0x4568 0x0000 |>.setGpr 0 0x20001000 |>.setMsp 0x20000FF8))
      (fun t => (t.apsr, t.pc)) = some (nzcv false false true false, 0x102) := by
  decide

/-- 95_test_vectors.md: CMP R8, R0. -/
theorem test_cmp_high_second :
    outcome (step (startAt 0x100 0x4580 0x0000 |>.setGpr 8 0x00000003 |>.setGpr 0 0x00000003))
      (fun t => (t.apsr, t.pc)) = some (nzcv false true true false, 0x102) := by
  decide

/-- 95_test_vectors.md: MOV SP, R0. -/
theorem test_mov :
    outcome (step (startAt 0x100 0x4685 0x0000 |>.setGpr 0 0x20000807 |>.setMsp 0x20001000))
      (fun t => (t.msp, t.apsr, t.pc)) = some (0x20000804, nzcv false false false false, 0x102) := by
  decide

/-- 95_test_vectors.md: MOV PC, R0. -/
theorem test_mov_second :
    outcome (step (startAt 0x100 0x4687 0x0000 |>.setGpr 0 0x00000300))
      (fun t => (t.apsr, t.pc)) = some (nzcv false false false false, 0x00000300) := by
  decide

/-- 95_test_vectors.md: BX R0 in Thread mode. -/
theorem test_bx :
    outcome (step (startAt 0x100 0x4700 0x0000 |>.setGpr 0 0xFFFFFFF9))
      (fun t => (t.apsr, t.pc)) = some (nzcv false false false false, 0xFFFFFFF8) := by
  decide

/-- 95_test_vectors.md: BX R0. -/
theorem test_bx_second :
    outcome (step (startAt 0x100 0x4700 0x0000 |>.setGpr 0 0x00000201))
      (fun t => (t.apsr, t.pc)) = some (nzcv false false false false, 0x00000200) := by
  decide

/-- 95_test_vectors.md: BLX LR. -/
theorem test_blx :
    outcome (step { (startAt 0x100 0x47F0 0x0000) with lr := 0x00000401 })
      (fun t => (t.lr, t.apsr, t.pc)) = some (0x00000103, nzcv false false false false, 0x00000400) := by
  decide

/-- 95_test_vectors.md: LDR R2, [PC, #0] at 0x102. -/
theorem test_ldr_lit :
    outcome (step (startAt 0x102 0x4A00 0x0000 |> poke 0x00000104 0xCAFEBABE 4))
      (fun t => (t.gpr 2, t.apsr, t.pc)) = some (0xCAFEBABE, nzcv false false false false, 0x104) := by
  decide

/-- 95_test_vectors.md: STR R0, [R5, R1]. -/
theorem test_str_reg :
    outcome (step (startAt 0x100 0x5068 0x0000 |>.setGpr 0 0xAABBCCDD |>.setGpr 5 0x20000000 |>.setGpr 1 0x00000010))
      (fun t => (t.mem.load .word 0x20000010, t.apsr, t.pc)) = some (0xAABBCCDD, nzcv false false false false, 0x102) := by
  decide

/-- 95_test_vectors.md: STRH R0, [R1, R2]. -/
theorem test_strh_reg :
    outcome (step (startAt 0x100 0x5288 0x0000 |>.setGpr 0 0x01020304 |>.setGpr 1 0x20000000 |>.setGpr 2 0x00000012))
      (fun t => (t.mem.load .half 0x20000012, t.apsr, t.pc)) = some (0x0304, nzcv false false false false, 0x102) := by
  decide

/-- 95_test_vectors.md: STRB R0, [R1, R2]. -/
theorem test_strb_reg :
    outcome (step (startAt 0x100 0x5488 0x0000 |>.setGpr 0 0x01020304 |>.setGpr 1 0x20000000 |>.setGpr 2 0x00000013))
      (fun t => (t.mem.load .byte 0x20000013, t.apsr, t.pc)) = some (0x04, nzcv false false false false, 0x102) := by
  decide

/-- 95_test_vectors.md: LDRSB R0, [R1, R2]. -/
theorem test_ldrsb :
    outcome (step (startAt 0x100 0x5688 0x0000 |>.setGpr 1 0x20000000 |>.setGpr 2 0x00000000 |> poke 0x20000000 0x80 1))
      (fun t => (t.gpr 0, t.apsr, t.pc)) = some (0xFFFFFF80, nzcv false false false false, 0x102) := by
  decide

/-- 95_test_vectors.md: LDR R0, [R1, R2]. -/
theorem test_ldr_reg :
    outcome (step (startAt 0x100 0x5888 0x0000 |>.setGpr 1 0xFFFFFFFC |>.setGpr 2 0x20000008 |> poke 0x20000004 0x0BADF00D 4))
      (fun t => (t.gpr 0, t.apsr, t.pc)) = some (0x0BADF00D, nzcv false false false false, 0x102) := by
  decide

/-- 95_test_vectors.md: LDRH R0, [R1, R2]. -/
theorem test_ldrh_reg :
    outcome (step (startAt 0x100 0x5A88 0x0000 |>.setGpr 1 0x20000000 |>.setGpr 2 0x00000002 |> poke 0x20000000 0x80012211 4))
      (fun t => (t.gpr 0, t.apsr, t.pc)) = some (0x00008001, nzcv false false false false, 0x102) := by
  decide

/-- 95_test_vectors.md: LDRB R0, [R1, R2]. -/
theorem test_ldrb_reg :
    outcome (step (startAt 0x100 0x5C88 0x0000 |>.setGpr 1 0x20000000 |>.setGpr 2 0x00000003 |> poke 0x20000000 0xFF332211 4))
      (fun t => (t.gpr 0, t.apsr, t.pc)) = some (0x000000FF, nzcv false false false false, 0x102) := by
  decide

/-- 95_test_vectors.md: LDRSH R1, [R2, R3]. -/
theorem test_ldrsh :
    outcome (step (startAt 0x100 0x5ED1 0x0000 |>.setGpr 2 0x20000000 |>.setGpr 3 0x00000006 |> poke 0x20000004 0x8001FFFF 4))
      (fun t => (t.gpr 1, t.apsr, t.pc)) = some (0xFFFF8001, nzcv false false false false, 0x102) := by
  decide

/-- 95_test_vectors.md: STR R2, [R0, #const-struct]. -/
theorem test_str_imm :
    outcome (step (startAt 0x100 0x67C2 0x0000 |>.setGpr 0 0x20000000 |>.setGpr 2 0x12345678))
      (fun t => (t.mem.load .word 0x2000007C, t.apsr, t.pc)) = some (0x12345678, nzcv false false false false, 0x102) := by
  decide

/-- 95_test_vectors.md: LDR R0, [R1, #0]. -/
theorem test_ldr_imm :
    outcome (step (startAt 0x100 0x6808 0x0000 |>.setGpr 1 0x20000002 |>.setGpr 0 0x11111111 |> poke 0x0000000C 0x00000181 4))
      (fun t => (t.msp, t.lr, t.ipsr, t.mem.load .word 0x20000FF8, t.pc)) = some (0x20000FE0, 0xFFFFFFF9, 3, 0x00000100, 0x00000180) := by
  decide

/-- 95_test_vectors.md: LDR R0, [R1, #124]. -/
theorem test_ldr_imm_second :
    outcome (step (startAt 0x100 0x6FC8 0x0000 |>.setGpr 1 0x20000000 |> poke 0x2000007C 0x89ABCDEF 4))
      (fun t => (t.gpr 0, t.apsr, t.pc)) = some (0x89ABCDEF, nzcv false false false false, 0x102) := by
  decide

/-- 95_test_vectors.md: STRB R0, [R1, #0]. -/
theorem test_strb_imm :
    outcome (step (startAt 0x100 0x7008 0x0000 |>.setGpr 0 0xA1B2C3D4 |>.setGpr 1 0x20000001 |> poke 0x20000000 0x44332211 4))
      (fun t => (t.mem.load .byte 0x20000001, t.apsr, t.pc)) = some (0xD4, nzcv false false false false, 0x102) := by
  decide

/-- 95_test_vectors.md: LDRB R0, [R1, #1]. -/
theorem test_ldrb_imm :
    outcome (step (startAt 0x100 0x7848 0x0000 |>.setGpr 1 0x20000000 |>.setGpr 0 0xFFFFFFFF |> poke 0x20000000 0x44332211 4))
      (fun t => (t.gpr 0, t.apsr, t.pc)) = some (0x00000022, nzcv false false false false, 0x102) := by
  decide

/-- 95_test_vectors.md: STRH R0, [R1, #2]. -/
theorem test_strh_imm :
    outcome (step (startAt 0x100 0x8048 0x0000 |>.setGpr 0 0xA1B2C3D4 |>.setGpr 1 0x20000000 |> poke 0x20000000 0x44332211 4))
      (fun t => (t.mem.load .half 0x20000002, t.apsr, t.pc)) = some (0xC3D4, nzcv false false false false, 0x102) := by
  decide

/-- 95_test_vectors.md: LDRH R0, [R1, #2]. -/
theorem test_ldrh_imm :
    outcome (step (startAt 0x100 0x8848 0x0000 |>.setGpr 1 0x20000000 |>.setGpr 0 0xFFFFFFFF |> poke 0x20000000 0x44332211 4))
      (fun t => (t.gpr 0, t.apsr, t.pc)) = some (0x00004433, nzcv false false false false, 0x102) := by
  decide

/-- 95_test_vectors.md: STR R1, [SP, #0]. -/
theorem test_str_sp :
    outcome (step (startAt 0x100 0x9100 0x0000 |>.setMsp 0x20000FF8 |>.setGpr 1 0xDEADBEEF))
      (fun t => (t.mem.load .word 0x20000FF8, t.apsr, t.pc)) = some (0xDEADBEEF, nzcv false false false false, 0x102) := by
  decide

/-- 95_test_vectors.md: LDR R1, [SP, #1020]. -/
theorem test_ldr_sp :
    outcome (step (startAt 0x100 0x99FF 0x0000 |>.setMsp 0x20000000 |> poke 0x200003FC 0x12345678 4))
      (fun t => (t.gpr 1, t.apsr, t.pc)) = some (0x12345678, nzcv false false false false, 0x102) := by
  decide

/-- 95_test_vectors.md: ADR R0, (imm8=0) at 0x102. -/
theorem test_adr :
    outcome (step (startAt 0x102 0xA000 0x0000))
      (fun t => (t.gpr 0, t.apsr, t.pc)) = some (0x00000104, nzcv false false false false, 0x104) := by
  decide

/-- 95_test_vectors.md: ADD R0, SP, #1020. -/
theorem test_add_rd_sp :
    outcome (step (startAt 0x100 0xA8FF 0x0000 |>.setMsp 0x20000000))
      (fun t => (t.gpr 0, t.apsr, t.pc)) = some (0x200003FC, nzcv false false false false, 0x102) := by
  decide

/-- 95_test_vectors.md: ADD SP, SP, #508. -/
theorem test_add_sp :
    outcome (step (startAt 0x100 0xB07F 0x0000 |>.setMsp 0x20000000))
      (fun t => (t.msp, t.apsr, t.pc)) = some (0x200001FC, nzcv false false false false, 0x102) := by
  decide

/-- 95_test_vectors.md: SUB SP, SP, #4 (PSP selected). -/
theorem test_sub_sp :
    outcome (step { (startAt 0x100 0xB081 0x0000 |>.setPsp 0x20000800 |>.setMsp 0x20001000) with spsel := true })
      (fun t => (t.psp, t.apsr, t.pc)) = some (0x200007FC, nzcv false false false false, 0x102) := by
  decide

/-- 95_test_vectors.md: SXTH R0, R1. -/
theorem test_sxth :
    outcome (step (startAt 0x100 0xB208 0x0000 |>.setGpr 1 0x00017FFF |>.setGpr 0 0xFFFFFFFF))
      (fun t => (t.gpr 0, t.apsr, t.pc)) = some (0x00007FFF, nzcv false false false false, 0x102) := by
  decide

/-- 95_test_vectors.md: SXTB R0, R1. -/
theorem test_sxtb :
    outcome (step (startAt 0x100 0xB248 0x0000 |>.setGpr 1 0x0000017F |>.setGpr 0 0xFFFFFFFF))
      (fun t => (t.gpr 0, t.apsr, t.pc)) = some (0x0000007F, nzcv false false false false, 0x102) := by
  decide

/-- 95_test_vectors.md: UXTH R0, R1. -/
theorem test_uxth :
    outcome (step (startAt 0x100 0xB288 0x0000 |>.setGpr 1 0x12348001))
      (fun t => (t.gpr 0, t.apsr, t.pc)) = some (0x00008001, nzcv false false false false, 0x102) := by
  decide

/-- 95_test_vectors.md: UXTB R0, R1. -/
theorem test_uxtb :
    outcome (step (startAt 0x100 0xB2C8 0x0000 |>.setGpr 1 0xFFFFFF80))
      (fun t => (t.gpr 0, t.apsr, t.pc)) = some (0x00000080, nzcv false false false false, 0x102) := by
  decide

/-- 95_test_vectors.md: PUSH (R0,R4-R7). -/
theorem test_push :
    outcome (step (startAt 0x100 0xB4F1 0x0000 |>.setGpr 0 0x000000A0 |>.setGpr 4 0x000000A4 |>.setGpr 5 0x000000A5 |>.setGpr 6 0x000000A6 |>.setGpr 7 0x000000A7))
      (fun t => (t.msp, t.mem.load .word 0x20000FEC, t.mem.load .word 0x20000FFC, t.apsr, t.pc)) = some (0x20000FEC, 0x000000A0, 0x000000A7, nzcv false false false false, 0x102) := by
  decide

/-- 95_test_vectors.md: CPSIE i (privileged). -/
theorem test_cpsie :
    outcome (step { (startAt 0x100 0xB662 0x0000) with primask := true })
      (fun t => (t.primask, t.apsr, t.pc)) = some (false, nzcv false false false false, 0x102) := by
  decide

/-- 95_test_vectors.md: CPSID i (unprivileged). -/
theorem test_cpsid :
    outcome (step { (startAt 0x100 0xB672 0x0000) with primask := false, nPriv := true })
      (fun t => (t.apsr, t.pc)) = some (nzcv false false false false, 0x102) := by
  decide

/-- 95_test_vectors.md: REV R0, R1. -/
theorem test_rev :
    outcome (step (startAt 0x100 0xBA08 0x0000 |>.setGpr 1 0x01020380 |>.setFlags (nzcv false false false false)))
      (fun t => (t.gpr 0, t.apsr, t.pc)) = some (0x80030201, nzcv false false false false, 0x102) := by
  decide

/-- 95_test_vectors.md: REV16 R0, R1. -/
theorem test_rev_16 :
    outcome (step (startAt 0x100 0xBA48 0x0000 |>.setGpr 1 0xAABBCCDD))
      (fun t => (t.gpr 0, t.apsr, t.pc)) = some (0xBBAADDCC, nzcv false false false false, 0x102) := by
  decide

/-- 95_test_vectors.md: REVSH R0, R1. -/
theorem test_revsh :
    outcome (step (startAt 0x100 0xBAC8 0x0000 |>.setGpr 1 0xAABB7F80))
      (fun t => (t.gpr 0, t.apsr, t.pc)) = some (0xFFFF807F, nzcv false false false false, 0x102) := by
  decide

/-- 95_test_vectors.md: POP (PC). -/
theorem test_pop :
    outcome (step (startAt 0x100 0xBD00 0x0000 |>.setMsp 0x20000FFC |> poke 0x20000FFC 0x00000301 4))
      (fun t => (t.msp, t.apsr, t.pc)) = some (0x20001000, nzcv false false false false, 0x00000300) := by
  decide

/-- 95_test_vectors.md: POP (R0,R6,PC). -/
theorem test_pop_second :
    outcome (step (startAt 0x100 0xBD41 0x0000 |>.setMsp 0x20000FF4 |> poke 0x20000FF4 0x00000010 4 |> poke 0x20000FF8 0x00000066 4 |> poke 0x20000FFC 0x00000301 4))
      (fun t => (t.gpr 0, t.gpr 6, t.msp, t.apsr, t.pc)) = some (0x00000010, 0x00000066, 0x20001000, nzcv false false false false, 0x00000300) := by
  decide

/-- 95_test_vectors.md: BKPT #0. -/
theorem test_bkpt :
    outcome (step (startAt 0x100 0xBE00 0x0000 |> poke 0x0000000C 0x00000181 4))
      (fun t => (t.msp, t.lr, t.ipsr, t.mem.load .word 0x20000FF8, t.pc)) = some (0x20000FE0, 0xFFFFFFF9, 3, 0x00000100, 0x00000180) := by
  decide

/-- 95_test_vectors.md: NOP. -/
theorem test_nop :
    outcome (step (startAt 0x100 0xBF00 0x0000))
      (fun t => (t.apsr, t.pc)) = some (nzcv false false false false, 0x102) := by
  decide

/-- 95_test_vectors.md: YIELD. -/
theorem test_yield :
    outcome (step (startAt 0x100 0xBF10 0x0000))
      (fun t => (t.apsr, t.pc)) = some (nzcv false false false false, 0x102) := by
  decide

/-- 95_test_vectors.md: WFE. -/
theorem test_wfe :
    outcome (step (startAt 0x100 0xBF20 0x0000))
      (fun t => (t.sleep, t.pc)) = some (.wfe, 0x102) := by
  decide

/-- 95_test_vectors.md: WFI. -/
theorem test_wfi :
    outcome (step (startAt 0x100 0xBF30 0x0000))
      (fun t => (t.sleep, t.pc)) = some (.wfi, 0x102) := by
  decide

/-- 95_test_vectors.md: SEV. -/
theorem test_sev :
    outcome (step (startAt 0x100 0xBF40 0x0000))
      (fun t => (t.eventReg, t.pc)) = some (true, 0x102) := by
  decide

/-- 95_test_vectors.md: STMIA R1!, (R2-R4, R6). -/
theorem test_stm :
    outcome (step (startAt 0x100 0xC15C 0x0000 |>.setGpr 1 0x20000000 |>.setGpr 2 0x00000002 |>.setGpr 3 0x00000003 |>.setGpr 4 0x00000004 |>.setGpr 6 0x00000006))
      (fun t => (t.gpr 1, t.mem.load .word 0x20000000, t.mem.load .word 0x2000000C, t.apsr, t.pc)) = some (0x20000010, 0x00000002, 0x00000006, nzcv false false false false, 0x102) := by
  decide

/-- 95_test_vectors.md: LDM R1, (R1, R2). -/
theorem test_ldm :
    outcome (step (startAt 0x100 0xC906 0x0000 |>.setGpr 1 0x20000000 |> poke 0x20000000 0x20000040 4 |> poke 0x20000004 0x0000000B 4))
      (fun t => (t.gpr 1, t.gpr 2, t.apsr, t.pc)) = some (0x20000040, 0x0000000B, nzcv false false false false, 0x102) := by
  decide

/-- 95_test_vectors.md: LDM R1!, (R0, R2, R7). -/
theorem test_ldm_second :
    outcome (step (startAt 0x100 0xC985 0x0000 |>.setGpr 1 0x20000000 |> poke 0x20000000 0x0000000A 4 |> poke 0x20000004 0x0000000B 4 |> poke 0x20000008 0x0000000C 4))
      (fun t => (t.gpr 0, t.gpr 1, t.gpr 2, t.gpr 7, t.apsr, t.pc)) = some (0x0000000A, 0x2000000C, 0x0000000B, 0x0000000C, nzcv false false false false, 0x102) := by
  decide

/-- 95_test_vectors.md: UDF #0. -/
theorem test_udf :
    outcome (step (startAt 0x100 0xDE00 0x0000 |> poke 0x0000000C 0x00000181 4))
      (fun t => (t.msp, t.lr, t.ipsr, t.mem.load .word 0x20000FF8, t.pc)) = some (0x20000FE0, 0xFFFFFFF9, 3, 0x00000100, 0x00000180) := by
  decide

/-- 95_test_vectors.md: SVC #0 (Thread, MSP). -/
theorem test_svc :
    outcome (step { (startAt 0x100 0xDF00 0x0000 |>.setGpr 0 0x000000A0 |>.setGpr 1 0x000000A1 |>.setGpr 2 0x000000A2 |>.setGpr 3 0x000000A3 |>.setGpr 12 0x000000AC |>.setFlags (nzcv true false true false) |> poke 0x0000002C 0x00000141 4) with lr := 0x000000AE })
      (fun t => (t.msp, t.lr, t.ipsr, t.mem.load .word 0x20000FF8, t.pc)) = some (0x20000FE0, 0xFFFFFFF9, 11, 0x00000102, 0x00000140) := by
  decide

/-- 95_test_vectors.md: SVC #0 with PRIMASK=1. -/
theorem test_svc_second :
    outcome (step { (startAt 0x100 0xDF00 0x0000 |> poke 0x0000000C 0x00000181 4) with primask := true })
      (fun t => (t.msp, t.lr, t.ipsr, t.mem.load .word 0x20000FF8, t.pc)) = some (0x20000FE0, 0xFFFFFFF9, 3, 0x00000100, 0x00000180) := by
  decide

/-- 95_test_vectors.md: BGT 0x120. -/
theorem test_bcond :
    outcome (step (startAt 0x100 0xDC0E 0x0000 |>.setFlags (nzcv false false false false)))
      (fun t => (t.apsr, t.pc)) = some (nzcv false false false false, 0x00000120) := by
  decide

/-- 95_test_vectors.md: BLE 0x120. -/
theorem test_bcond_second :
    outcome (step (startAt 0x100 0xDD0E 0x0000 |>.setFlags (nzcv false true false false)))
      (fun t => (t.apsr, t.pc)) = some (nzcv false true false false, 0x00000120) := by
  decide

/-- 95_test_vectors.md: B .-2048+4 (imm11=0x400) at 0x1000. -/
theorem test_b :
    outcome (step (startAt 0x1000 0xE400 0x0000))
      (fun t => (t.apsr, t.pc)) = some (nzcv false false false false, 0x00000804) := by
  decide

/-- 95_test_vectors.md: BL 0x00002000 (at 0x01001FFC; max backward, offset -16777216). -/
theorem test_bl :
    outcome (step (startAt 0x1001FFC 0xF400 0xD000))
      (fun t => (t.lr, t.apsr, t.pc)) = some (0x01002001, nzcv false false false false, 0x00002000) := by
  decide

/-- 95_test_vectors.md: MSR PSR, R0. -/
theorem test_msr :
    outcome (step (startAt 0x100 0xF380 0x8803 |>.setGpr 0 0x9100003F))
      (fun t => (t.apsr, t.pc)) = some (nzcv true false false true, 0x104) := by
  decide

/-- 95_test_vectors.md: MSR CONTROL, R0 in Handler mode. -/
theorem test_msr_second :
    outcome (step { (startAt 0x100 0xF380 0x8814 |>.setGpr 0 0x00000003 |>.withActive (BitVec.twoPow 48 11)) with ipsr := 11 })
      (fun t => (t.nPriv, t.apsr, t.pc)) = some (true, nzcv false false false false, 0x104) := by
  decide

/-- 95_test_vectors.md: MRS R0, APSR. -/
theorem test_mrs :
    outcome (step { (startAt 0x100 0xF3EF 0x8000 |>.setFlags (nzcv true true true true)) with nPriv := true })
      (fun t => (t.gpr 0, t.apsr, t.pc)) = some (0xF0000000, nzcv true true true true, 0x104) := by
  decide

/-- 95_test_vectors.md: MRS R0, MSP (unprivileged). -/
theorem test_mrs_second :
    outcome (step { (startAt 0x100 0xF3EF 0x8008 |>.setMsp 0x20001000 |>.setGpr 0 0xFFFFFFFF) with nPriv := true })
      (fun t => (t.gpr 0, t.apsr, t.pc)) = some (0x00000000, nzcv false false false false, 0x104) := by
  decide

/-- 95_test_vectors.md: DSB. -/
theorem test_dsb :
    outcome (step (startAt 0x100 0xF3BF 0x8F4F))
      (fun t => (t.apsr, t.pc)) = some (nzcv false false false false, 0x104) := by
  decide

/-- 95_test_vectors.md: DMB. -/
theorem test_dmb :
    outcome (step (startAt 0x100 0xF3BF 0x8F5F))
      (fun t => (t.apsr, t.pc)) = some (nzcv false false false false, 0x104) := by
  decide

/-- 95_test_vectors.md: ISB. -/
theorem test_isb :
    outcome (step (startAt 0x100 0xF3BF 0x8F6F))
      (fun t => (t.apsr, t.pc)) = some (nzcv false false false false, 0x104) := by
  decide

/-- 95_test_vectors.md: UDF.W #0. -/
theorem test_udf_w :
    outcome (step (startAt 0x100 0xF7F0 0xA000 |> poke 0x0000000C 0x00000181 4))
      (fun t => (t.msp, t.lr, t.ipsr, t.mem.load .word 0x20000FF8, t.pc)) = some (0x20000FE0, 0xFFFFFFF9, 3, 0x00000100, 0x00000180) := by
  decide

/-! ### A case for the hypotheses of every statement -/

/-- Privileged Thread mode at 0x100 before a NOP, R1 in RAM. -/
def base : State := (startAt 0x100 0xBF00 0).setGpr 1 0x20000000

/-- The same, unprivileged. -/
def unpriv : State := { base with nPriv := true }

/-- The handler of IRQ 0, entered from Thread mode; an all-zero frame lies at its stack pointer. -/
def handler : State := { base.withActive (BitVec.twoPow 48 16) with ipsr := 16 }

/-- The handler of IRQ 1, entered from that of IRQ 0, with IRQ 0 in the PSR of the frame. -/
def nested : State := { (base |> poke 0x2000101C 16 4).withActive 0x30000 with ipsr := 17 }

/-- The HardFault handler. -/
def hardFaultHandler : State := { base.withActive 8 with ipsr := 3 }

/-- An input that drives nothing. -/
def quiet : StepInput :=
  { reset := false, irq := 0, nmi := false, event := false, ticks := 0, wake := false, halt := false, dma := [], midway := none
    device := 0, prefetch := false }

/-- The base state on a platform whose memory map has one entry for every access at 0x40000000 to 0x400000FF. -/
def mapped (k : MemKind) (s : State) : State :=
  { s with cfg := { s.cfg with memMap := [{
      span := { lo := 0x40000000, hi := 0x400000FF }, sizes := [.byte, .half, .word], accesses := [.read, .write, .fetch]
      privileges := [true, false], kind := k }] } }

/-- A state whose instruction an NMI arriving after `n` of its accesses abandons. -/
def nmiMidway (n : Nat) (s : State) : State :=
  { s with cfg := { s.cfg with multiAccessAtomic := false }, midway := some { after := n, irq := 0, nmi := true, ticks := 0 } }

/-- The base state with R1 at the mapped addresses. -/
def atDevice : State := base.setGpr 1 0x40000000

/-- The base state with SCR. -/
def withScr (v : Word) : State := { base with scb := { base.scb with scr := v } }

/-- The base state with MPU_CTRL and the attributes of region 0, at address 0. -/
def withMpu (ctrl : BitVec 3) (attr : Word) : State := { base with mpu := { base.mpu.setAttr 0 attr with ctrl := ctrl } }

/-- A result is a next state. -/
def answersNext (r : Result) : Bool :=
  match r with
  | .next _ => true
  | .fault _ => false
  | .refused _ => false

theorem next_of_answersNext {r : Result} (h : answersNext r = true) : ∃ t, r = .next t := by
  cases r with
  | next t => exact ⟨t, rfl⟩
  | fault _ => cases h
  | refused _ => cases h

/-- An access is done. -/
def isDone {α : Type} (x : Acc α) : Bool :=
  match x with
  | .ok _ => true
  | .fault _ => false
  | .refused _ => false

theorem ok_of_isDone {α : Type} {x : Acc α} (h : isDone x = true) : ∃ t, x = .ok t := by
  cases x with
  | ok t => exact ⟨t, rfl⟩
  | fault _ => cases h
  | refused _ => cases h

theorem witness_DecodeEncode :
    WellFormed (.lslsImm 31 7 0) = true ∧ WellFormed (.push true 0) = true ∧ WellFormed (.cmpHigh 0 14) = true ∧
      WellFormed (.bl 0xFFFFFF) = true ∧ WellFormed (.mrs 14 .control) = true := by
  decide

theorem witness_OneWordPerInstruction :
    decodeHalves 0x0000 0xFFFF = .instr (.movsReg 0 0) ∧ decodeHalves 0xF7FF 0xAFFF = .instr (.udfW 0xFFFF) ∧
      decodeHalves 0xBFF0 0 = .instr .nop := by
  decide

theorem witness_StepRunsDecoded_narrow :
    let s0 := base.takeInput.sample base.currentInput
    let s' := { s0 with sleep := .running }
    base.currentInput.reset = false ∧ (base.currentInput.halt && base.cfg.debuggerAttached) = false ∧ s0.lockup = none ∧
      s0.wakes base.currentInput.wake = true ∧ NothingToTake s0 ∧ FetchedHalf s' s'.pc (codeAt s').1 0xBF00 s' ∧
      isWide 0xBF00 = false ∧ decodeHalves 0xBF00 0 = .instr .nop ∧ decodeHalves 0xB100 0 = .undefined ∧
      decodeHalves 0x4768 0 = .unpredictable .branchReg := by
  decide

/-- A processor that a spurious wake-up wakes, with an instruction across the end of a region and one that cannot be fetched. -/
theorem witness_StepRunsDecoded_wide :
    let s := { startAt 0x1FFFFFFE 0xF3BF 0x8F5F with inputs := [{ quiet with wake := true, prefetch := true }], sleep := .wfi }
    let s0 := s.takeInput.sample s.currentInput
    let s' := { s0 with sleep := .running }
    let d := { s' with pc := 0x3FFFFFFE }
    s.currentInput.reset = false ∧ (s.currentInput.halt && s.cfg.debuggerAttached) = false ∧ s0.lockup = none ∧ s0.sleep = .wfi ∧
      s0.wakes s.currentInput.wake = true ∧ NothingToTake s0 ∧
      FetchedHalf s' s'.pc (codeAt s').1 0xF3BF s' ∧ isWide 0xF3BF = true ∧ FetchedHalf s' (s'.pc + 2) (codeAt s').2 0x8F5F s' ∧
      decodeHalves 0xF3BF 0x8F5F = .instr (.dmb 15) ∧
      FetchDenied { s' with epsrT := false } s'.pc ∧ (∃ c, d.mpuCheck (d.pc + 2) .fetch d.privileged = .fault c) := by
  refine ⟨by decide, by decide, by decide, by decide, by decide, by decide, by decide, by decide, by decide, by decide, .inl rfl,
    ⟨.executeNever, by decide⟩⟩

theorem witness_StepTakesPending :
    let s := { (base.withPending (BitVec.twoPow 48 2)) with inputs := [quiet], sleep := .wfi }
    let s' := s.takeInput.sample s.currentInput
    s.currentInput.reset = false ∧ (s.currentInput.halt && s.cfg.debuggerAttached) = false ∧ s'.lockup = none ∧ s'.bestCandidate = some .nmi := by
  decide

theorem witness_CompareInstructions :
    (¬((0 : Reg).val < 8 ∧ (14 : Reg).val < 8) ∧ (0 : Reg).val ≠ 15 ∧ (14 : Reg).val ≠ 15) ∧
      ¬((8 : Reg).val < 8 ∧ (7 : Reg).val < 8) := by
  decide

theorem witness_LogicInstructions : Uninterrupted base ∧ Interrupted (nmiMidway 0 base) { after := 0, irq := 0, nmi := true, ticks := 0 } .nmi :=
  ⟨.inl rfl, by decide⟩

theorem witness_ShiftImmediate :
    (1 : BitVec 5).toNat ≠ 0 ∧ (31 : BitVec 5).toNat ≠ 0 ∧ (0 : BitVec 5).toNat = 0 := by
  decide

theorem witness_ShiftRegister :
    ((base.setGpr 2 0x100).lo 2).toNat % 256 = 0 ∧ ((base.setGpr 2 0x101).lo 2).toNat % 256 ≠ 0 ∧
      ((base.setGpr 2 0xFF).lo 2).toNat % 256 ≠ 0 := by
  decide

theorem witness_AnyRegisterMoves : ¬((15 : Reg).val = 15 ∧ (14 : Reg).val = 15) := by decide

theorem witness_WordLoads :
    ReachesStorage base .read .word (base.regAddr 1 0) ∧ ReachesStorage base .read .word (base.immAddr 1 31 .word) ∧
      ReachesStorage base .read .word (base.spAddr 255) ∧ ReachesStorage base .read .word (base.literalAddr 0) ∧
      ReachesStorage (base.setGpr 1 0xDFFFFFFC) .read .word ((base.setGpr 1 0xDFFFFFFC).regAddr 1 0) ∧
      ReachesStorage (base.setGpr 1 0xE0100000) .read .word ((base.setGpr 1 0xE0100000).regAddr 1 0) := by
  decide

theorem witness_NarrowLoads :
    ReachesStorage (base.setGpr 1 0xFFFFFFFF) .read .byte ((base.setGpr 1 0xFFFFFFFF).regAddr 1 0) ∧
      ReachesStorage base .read .byte (base.immAddr 1 31 .byte) ∧
      ReachesStorage (base.setGpr 1 0xDFFFFFFE) .read .half ((base.setGpr 1 0xDFFFFFFE).regAddr 1 0) ∧
      ReachesStorage base .read .half (base.immAddr 1 31 .half) := by
  decide

theorem witness_SingleStores :
    ReachesStorage base .write .word (base.regAddr 1 0) ∧ ReachesStorage base .write .half (base.regAddr 1 0) ∧
      ReachesStorage (base.setGpr 1 0xDFFFFFFF) .write .byte ((base.setGpr 1 0xDFFFFFFF).regAddr 1 0) ∧
      ReachesStorage base .write .word (base.immAddr 1 31 .word) ∧ ReachesStorage base .write .half (base.immAddr 1 31 .half) ∧
      ReachesStorage base .write .byte (base.immAddr 1 0 .byte) ∧ ReachesStorage base .write .word (base.spAddr 0) ∧
      ReachesStorage (mapped .rom atDevice) .write .word ((mapped .rom atDevice).regAddr 1 0) ∧
      (mapped .rom atDevice).kindAt true .write .word 0x40000000 = .rom := by
  decide

theorem witness_StoreThenLoad :
    (ReachesStorage base .write .word (base.immAddr 1 0 .word) ∧ ReachesStorage base .read .word (base.immAddr 1 0 .word) ∧
      base.kindAt base.privileged .write .word (base.immAddr 1 0 .word) = .ram) ∧
      ∃ t, exec (.strImm 1 1 0) base = .next t :=
  ⟨by decide, next_of_answersNext (by decide)⟩

theorem witness_MisalignedAccessFaults :
    let s := base.setGpr 1 0x20000003
    (∃ x, singleAccess s (.ldrReg 0 1 2) = some x ∧ x.addr.toNat % x.size.bytes ≠ 0) ∧
      (∃ x, singleAccess s (.strhImm 0 1 31) = some x ∧ x.addr.toNat % x.size.bytes ≠ 0) ∧
      blockAccess s (.stm 1 0x80) = some (.write, 0x20000003, 1) ∧ (0x20000003#32).toNat % 4 ≠ 0 ∧ Uninterrupted s :=
  ⟨⟨_, rfl, by decide⟩, ⟨_, rfl, by decide⟩, by decide, by decide, .inl rfl⟩

theorem witness_PpbAccessRules :
    let s := unpriv.setGpr 1 0xE000E000
    let q := base.setGpr 1 0xE00FFFFE
    (∃ x, singleAccess s (.ldrImm 0 1 31) = some x ∧ ¬OutsidePpb x.addr) ∧ Unprivileged s ∧
      (∃ x, singleAccess q (.ldrsh 0 1 2) = some x ∧ ¬OutsidePpb x.addr ∧ x.addr.toNat % x.size.bytes = 0 ∧ x.size ≠ .word) ∧
      q.privileged = true ∧ blockAccess s (.ldm 1 0xFF) = some (.read, 0xE000E000, 8) ∧ ¬OutsidePpb 0xE000E000 ∧ Uninterrupted s :=
  ⟨⟨_, rfl, by decide⟩, by decide, ⟨_, rfl, by decide⟩, by decide, by decide, by decide, .inl rfl⟩

theorem witness_SystemRegisterAccess :
    base.privileged = true ∧
      ((0xE000E008#32).toNat % 4 = 0 ∧ InRegisterBlock 0xE000E008 ∧ ∀ r : PpbReg, r.addr ≠ 0xE000E008) ∧
      ((0xE000ED3C#32).toNat % 4 = 0 ∧ InRegisterBlock 0xE000ED3C ∧ ∀ r : PpbReg, r.addr ≠ 0xE000ED3C) ∧
      ((0xE000EDB8#32).toNat % 4 = 0 ∧ InRegisterBlock 0xE000EDB8 ∧ ∀ r : PpbReg, r.addr ≠ 0xE000EDB8) ∧
      InRegisterBlock 0xE000E4EC ∧ InRegisterBlock 0xE000EF00 := by
  refine ⟨by decide, ⟨by decide, by decide, fun r => ?_⟩, ⟨by decide, by decide, fun r => ?_⟩, ⟨by decide, by decide, fun r => ?_⟩,
    by decide, by decide⟩ <;> cases r <;> first
    | decide
    | (rename_i n; revert n; decide)

theorem witness_LoadMultiple :
    ((0xFF : BitVec 8) ≠ 0 ∧ BlockReachesStorage base .read (base.lo 1) (bitCount 0xFF) ∧ Uninterrupted base ∧
      BlockReachesStorage base .read (base.lo 1) (bitCount 1) ∧ (1 : BitVec 8).getLsbD (1 : LoReg).val = false) ∧
      BlockReachesStorage (nmiMidway 2 base) .read ((nmiMidway 2 base).lo 1) (bitCount 0xFF) ∧
      Interrupted (nmiMidway 2 base) { after := 2, irq := 0, nmi := true, ticks := 0 } .nmi :=
  ⟨⟨by decide, by decide, .inl rfl, by decide, by decide⟩, by decide, by decide⟩

theorem witness_StoreMultiple :
    ((0x82 : BitVec 8) ≠ 0 ∧ BlockReachesStorage base .write (base.lo 1) (bitCount 0x82) ∧ Uninterrupted base ∧
      (0x82 : BitVec 8).getLsbD (1 : LoReg).val = true ∧ ((1 : LoReg) = 1 → rank 0x82 1 = 0) ∧ (0x82 : BitVec 8).getLsbD (7 : LoReg).val = true ∧
      BlockReachesStorage base .write (base.lo 1) (bitCount 0x03)) ∧
      BlockReachesStorage (nmiMidway 1 base) .write ((nmiMidway 1 base).lo 1) (bitCount 0x82) ∧
      Interrupted (nmiMidway 1 base) { after := 1, irq := 0, nmi := true, ticks := 0 } .nmi :=
  ⟨⟨by decide, by decide, .inl rfl, by decide, by decide, by decide, by decide⟩, by decide, by decide⟩

theorem witness_PushRegisters :
    (BlockReachesStorage base .write (base.reg 13 - BitVec.ofNat 32 (4 * 9)) 9 ∧ bitCount 0xFF + true.toNat = 9 ∧ Uninterrupted base ∧
      BlockReachesStorage base .write (base.reg 13 - BitVec.ofNat 32 (4 * 1)) 1 ∧ bitCount 0 + true.toNat = 1) ∧
      BlockReachesStorage (nmiMidway 9 base) .write ((nmiMidway 9 base).reg 13 - BitVec.ofNat 32 (4 * 9)) 9 ∧
      Interrupted (nmiMidway 9 base) { after := 9, irq := 0, nmi := true, ticks := 0 } .nmi :=
  ⟨⟨by decide, by decide, .inl rfl, by decide, by decide⟩, by decide, by decide⟩

theorem witness_PopRegisters :
    (BlockReachesStorage base .read (base.reg 13) 9 ∧ bitCount 0xFF + true.toNat = 9 ∧ base.ipsr = 0 ∧ Uninterrupted base) ∧
      (BlockReachesStorage base .read (base.reg 13) 1 ∧ bitCount 0x80 + false.toNat = 1) ∧
      (let s := handler |> poke 0x20001004 0xFFFFFFF9 4
      BlockReachesStorage s .read (s.reg 13) 2 ∧ bitCount 0x80 + true.toNat = 2 ∧ s.ipsr ≠ 0 ∧
        bytesValue s (wordAt (s.reg 13) (bitCount 0x80)) 4 / 268435456 = 15) ∧
      BlockReachesStorage (nmiMidway 0 base) .read ((nmiMidway 0 base).reg 13) 9 ∧
      Interrupted (nmiMidway 0 base) { after := 0, irq := 0, nmi := true, ticks := 0 } .nmi :=
  ⟨⟨by decide, by decide, by decide, .inl rfl⟩, by decide, by decide, by decide, by decide⟩

theorem witness_RelativeBranches : CondHolds base.apsr .ne ∧ ¬CondHolds base.apsr .eq := by
  refine ⟨show base.apsr.z = false by decide, show ¬(base.apsr.z = true) by decide⟩

theorem witness_RegisterBranches :
    ((14 : Reg).val ≠ 13 ∧ (14 : Reg).val ≠ 15) ∧ base.ipsr = 0 ∧ (base.reg 14).toNat / 268435456 = 15 ∧ handler.ipsr ≠ 0 ∧
      (handler.reg 14).toNat / 268435456 = 15 ∧ (handler.reg 0).toNat / 268435456 ≠ 15 := by
  decide

theorem witness_IllFormedRefused :
    WellFormed (.lslsImm 0 1 2) = false ∧ WellFormed (.bx 15) = false ∧ WellFormed (.ldm 3 0) = false := by
  decide

theorem witness_MrsReads :
    ((0 : Reg).val ≠ 13 ∧ (0 : Reg).val ≠ 15) ∧ ((14 : Reg).val ≠ 13 ∧ (14 : Reg).val ≠ 15) ∧
      (handler.ipsr ≠ 0 ∨ handler.nPriv = false) ∧ (base.ipsr ≠ 0 ∨ base.nPriv = false) ∧ ¬(unpriv.ipsr ≠ 0 ∨ unpriv.nPriv = false) := by
  decide

theorem witness_MsrWrites :
    ((12 : Reg).val ≠ 13 ∧ (12 : Reg).val ≠ 15) ∧ ((14 : Reg).val ≠ 13 ∧ (14 : Reg).val ≠ 15) ∧
      (handler.ipsr ≠ 0 ∨ handler.nPriv = false) ∧ (base.ipsr ≠ 0 ∨ base.nPriv = false) ∧ ¬(unpriv.ipsr ≠ 0 ∨ unpriv.nPriv = false) := by
  decide

theorem witness_HintsMasksAndBarriers : { base with eventReg := true }.eventReg = true ∧ base.eventReg = false := by decide

theorem witness_SupervisorCall :
    (base.prio .svCall < base.executionPriority ∧ NothingToTake base ∧ FrameWritable base ∧ VectorReadable base 11) ∧
      { base with primask := true }.executionPriority ≤ { base with primask := true }.prio .svCall := by
  decide

theorem witness_UndefinedAndBreakpoint :
    base.cfg.debuggerAttached = false ∧ -1 < base.executionPriority ∧ NothingToTake base ∧ FrameWritable base ∧ VectorReadable base 3 ∧
      { base with cfg := { base.cfg with debuggerAttached := true } }.cfg.debuggerAttached = true := by
  decide

theorem witness_RaiseHardFault :
    (-1 < unpriv.executionPriority ∧ NothingToTake unpriv ∧ FrameWritable unpriv ∧ VectorReadable unpriv 3) ∧
      hardFaultHandler.executionPriority = -1 ∧ (hardFaultHandler.withActive 0xC).executionPriority = -2 := by
  decide

/-- A stack whose next frame has its upper four words in a region of bus errors. -/
def badStack : State := mapped .busError { base with msp := 0x40000010 }

/-- The HardFault handler with a vector table in a region of bus errors. -/
def badVectors : State := mapped .busError { hardFaultHandler with scb := { hardFaultHandler.scb with vtor := 0x40000000 } }

theorem witness_ExceptionEntry :
    (FrameWritable base ∧ VectorReadable base (Exc.num .nmi)) ∧ VectorReadable base (Exc.num (.irq 31)) ∧
      FrameWritable { unpriv with spsel := true, psp := 0x20 } ∧ -1 < badStack.executionPriority ∧ VectorReadable badStack 3 ∧
      FrameWritable badVectors ∧ VectorDenied badVectors (Exc.num .nmi) ∧ badVectors.executionPriority ≤ -1 := by
  decide

theorem witness_ExceptionEntry_faults : FrameFaults badStack := by
  have hd : ∀ k, 4 ≤ k → k < 8 → Denied badStack .write .word (wordAt ((badStack.sp - 0x20) &&& 0xFFFFFFF8#32) k) := by
    intro k h1 h2
    refine .inr (.inr (.inr ?_))
    obtain rfl | rfl | rfl | rfl : k = 4 ∨ k = 5 ∨ k = 6 ∨ k = 7 := by omega
    all_goals exact ⟨by decide, .inr ⟨by decide, by decide⟩⟩
  refine ⟨fun k hk => ?_, 4, by decide, hd 4 (by decide) (by decide)⟩
  by_cases h : k < 4
  · refine .inr ?_
    obtain rfl | rfl | rfl | rfl : k = 0 ∨ k = 1 ∨ k = 2 ∨ k = 3 := by omega
    all_goals decide
  · exact .inl (hd k (by omega) hk)

theorem witness_ExceptionReturn_thread :
    let s1 := handler.clearActive (.irq 0)
    handler.activeCount = 1 ∧ bytesValue handler (wordAt handler.msp 7) 4 % 64 = 0 ∧ handler.ipsr.toNat = (Exc.irq 0).num ∧
      handler.isActive (.irq 0) = true ∧
      (∀ k < 8, (wordAt handler.msp k).toNat % 4 = 0 ∧ OutsidePpb (wordAt handler.msp k) ∧
        s1.mpuCheck (wordAt handler.msp k) .read true = .ok () ∧ handler.kindAt true .read .word (wordAt handler.msp k) = .ram) ∧
      bytesValue handler (wordAt handler.msp 6) 4 % 2 = 0 := by
  decide

theorem witness_ExceptionReturn_handler :
    let s1 := nested.clearActive (.irq 1)
    1 < nested.activeCount ∧ bytesValue nested (wordAt nested.msp 7) 4 % 64 = (Exc.irq 0).num ∧
      nested.ipsr.toNat = (Exc.irq 1).num ∧ nested.isActive (.irq 1) = true ∧
      (∀ k < 8, (wordAt nested.msp k).toNat % 4 = 0 ∧ OutsidePpb (wordAt nested.msp k) ∧
        s1.mpuCheck (wordAt nested.msp k) .read true = .ok () ∧ nested.kindAt true .read .word (wordAt nested.msp k) = .ram) ∧
      bytesValue nested (wordAt nested.msp 6) 4 % 2 = 0 := by
  decide

/-- Frames that cannot be read: a return to Thread mode, and one to the HardFault handler. -/
theorem witness_ExceptionReturn_faults :
    (let s := mapped .busError { handler with msp := 0x40000000 }
    let s1 := s.clearActive (.irq 0)
    s.activeCount = 1 ∧ s.ipsr.toNat = (Exc.irq 0).num ∧ s.isActive (.irq 0) = true ∧
      (∀ k < 8, OutsidePpb (wordAt s.msp k) ∧ s1.mpuCheck (wordAt s.msp k) .read true = .ok () ∧
        s1.kindAt true .read .word (wordAt s.msp k) = .busError) ∧ -1 < s1.executionPriority ∧ VectorReadable s 3) ∧
      (let s := mapped .busError { (base.withActive 0xC) with ipsr := 2, msp := 0x40000000 }
      let s1 := s.clearActive .nmi
      1 < s.activeCount ∧ s.ipsr.toNat = Exc.nmi.num ∧ s.isActive .nmi = true ∧ s1.executionPriority ≤ -1 ∧
        s1.kindAt true .read .word s.msp = .busError) := by
  decide

theorem witness_EntryThenReturn_thread :
    (FrameWritable base ∧ VectorReadable base (Exc.num .svCall) ∧ (∀ k < 8, base.kindAt base.privileged .read .word (wordAt ((base.sp - 0x20) &&& 0xFFFFFFF8#32) k) = .ram) ∧
      base.mpu.enabled = false ∧ base.msp.toNat % 4 = 0 ∧
      base.psp.toNat % 4 = 0 ∧ (0x102#32).toNat % 2 = 0 ∧ base.isActive .svCall = false ∧ base.scb.scr.getLsbD 1 = false ∧
      base.ipsr = 0 ∧ base.activeCount = 0) ∧ ∃ t, base.takeException .svCall 0x102 = .next t :=
  ⟨by decide, next_of_answersNext (by decide)⟩

theorem witness_EntryThenReturn_handler :
    (FrameWritable handler ∧ VectorReadable handler (Exc.num .nmi) ∧ (∀ k < 8, handler.kindAt handler.privileged .read .word (wordAt ((handler.sp - 0x20) &&& 0xFFFFFFF8#32) k) = .ram) ∧
      handler.mpu.enabled = false ∧ handler.msp.toNat % 4 = 0 ∧
      handler.psp.toNat % 4 = 0 ∧ (0x102#32).toNat % 2 = 0 ∧ handler.isActive .nmi = false ∧ handler.scb.scr.getLsbD 1 = false ∧
      handler.spsel = false ∧ 0 < handler.activeCount ∧ handler.ipsr.toNat = (Exc.irq 0).num) ∧
      ∃ t, handler.takeException .nmi 0x102 = .next t :=
  ⟨by decide, next_of_answersNext (by decide)⟩

theorem witness_IllegalReturnRefused :
    (0xFFFFFFF5#32 ≠ 0xFFFFFFF1#32 ∧ 0xFFFFFFF5#32 ≠ 0xFFFFFFF9#32 ∧ 0xFFFFFFF5#32 ≠ 0xFFFFFFFD#32) ∧
      (handler.ipsr.toNat = (Exc.irq 0).num ∧ handler.activeCount ≤ 1) ∧ (nested.ipsr.toNat = (Exc.irq 1).num ∧ nested.activeCount ≠ 1) ∧
      (hardFaultHandler.withActive 4).ipsr.toNat = Exc.hardFault.num ∧ (hardFaultHandler.withActive 4).activeCount = 1 ∧
      (hardFaultHandler.withActive 4).isActive .hardFault = false ∧
      (nested.withActive 0x50000).ipsr.toNat = (Exc.irq 1).num ∧ 1 < (nested.withActive 0x50000).activeCount ∧
      (nested.withActive 0x50000).isActive (.irq 1) = false := by
  decide

/-- Frames with an odd return address, and with an IPSR that does not fit: a return to Thread mode, and one to Handler mode. -/
theorem witness_IllegalReturnRefused_frames :
    (∀ s ∈ [handler |> poke 0x20001018 0x101 4, handler |> poke 0x2000101C 16 4],
      s.ipsr.toNat = (Exc.irq 0).num ∧ s.activeCount = 1 ∧ s.isActive (.irq 0) = true ∧
        ∀ k < 8, (wordAt s.msp k).toNat % 4 = 0 ∧ OutsidePpb (wordAt s.msp k) ∧
          (s.clearActive (.irq 0)).mpuCheck (wordAt s.msp k) .read true = .ok () ∧ s.kindAt true .read .word (wordAt s.msp k) = .ram) ∧
      bytesValue (handler |> poke 0x20001018 0x101 4) (wordAt handler.msp 6) 4 % 2 = 1 ∧
      bytesValue (handler |> poke 0x2000101C 16 4) (wordAt handler.msp 6) 4 % 2 = 0 ∧
      bytesValue (handler |> poke 0x2000101C 16 4) (wordAt handler.msp 7) 4 % 64 ≠ 0 ∧
      (let s := nested |> poke 0x2000101C 13 4
      s.ipsr.toNat = (Exc.irq 1).num ∧ 1 < s.activeCount ∧ s.isActive (.irq 1) = true ∧
        (∀ k < 8, (wordAt s.msp k).toNat % 4 = 0 ∧ OutsidePpb (wordAt s.msp k) ∧
          (s.clearActive (.irq 1)).mpuCheck (wordAt s.msp k) .read true = .ok () ∧ s.kindAt true .read .word (wordAt s.msp k) = .ram) ∧
        bytesValue s (wordAt s.msp 6) 4 % 2 = 0 ∧ ∀ e ∈ Exc.all, bytesValue s (wordAt s.msp 7) 4 % 64 ≠ e.num) := by
  decide

theorem witness_ExecutionPriorityRule :
    handler.isActive (.irq 0) = true ∧ { handler with primask := true }.primask = true ∧
      { base.withPending 4 with primask := true }.bestCandidate = some .nmi := by
  decide

theorem witness_CandidateChoice : (base.withPending 0xC804).bestCandidate = some .nmi := by decide

theorem witness_LockupStays :
    let s := { base with lockup := some .hardFault, pc := 0xFFFFFFFE, inputs := [quiet] }
    let s' := s.takeInput.sample s.currentInput
    let n := { s with inputs := [{ quiet with nmi := true }] }
    let n' := n.takeInput.sample n.currentInput
    let h := { s with inputs := [{ quiet with halt := true }], cfg := { s.cfg with debuggerAttached := true } }
    (s.currentInput.reset = false ∧ (s.currentInput.halt && s.cfg.debuggerAttached) = false ∧
      ¬(LockupLevel.hardFault = .hardFault ∧ s'.isPending .nmi = true)) ∧
      (h.currentInput.reset = false ∧ (h.currentInput.halt && h.cfg.debuggerAttached) = true) ∧
      n.currentInput.reset = false ∧ n'.isPending .nmi = true ∧ ¬(LockupLevel.nmi = .hardFault ∧ n'.isPending .nmi = true) := by
  decide

theorem witness_SleepAndWake :
    let s := { base with sleep := .wfi, inputs := [quiet] }
    let s' := s.takeInput.sample s.currentInput
    let p := { base.withPending 0x4000 with sleep := .wfe, inputs := [quiet], primask := true }
    let p' := p.takeInput.sample p.currentInput
    let h := { s with inputs := [{ quiet with halt := true }], cfg := { s.cfg with debuggerAttached := true } }
    (h.currentInput.reset = false ∧ (h.takeInput.sample h.currentInput).lockup = none ∧
      (h.currentInput.halt && h.cfg.debuggerAttached) = true) ∧
    (s.currentInput.reset = false ∧ (s.currentInput.halt && s.cfg.debuggerAttached) = false ∧ s'.lockup = none ∧ s'.wakes s.currentInput.wake = false ∧ s'.sleep = .wfi) ∧
      p'.sleep = .wfe ∧ p'.wakes p.currentInput.wake = false ∧ { p' with sleep := .onExit }.wakes p.currentInput.wake = true := by
  decide

theorem witness_InterruptSampling : ∀ n : Fin 32, Exc.nmi ≠ .irq n := by decide

theorem witness_SendEventOnPend :
    ((withScr 0x10).scb.scr.getLsbD 4 = true ∧ (withScr 0x10).isPending .pendSV = false ∧ (withScr 0x10).sleep ≠ .wfe) ∧
      { withScr 0x10 with sleep := .wfe }.sleep = .wfe ∧ (withScr 0xEF).scb.scr.getLsbD 4 = false ∧
      ((withScr 0x10).withPending 0x4000).isPending .pendSV = true ∧ { quiet with event := true }.event = true := by
  decide

theorem witness_NvicSetAndClear :
    (withScr 0x10).scb.scr.getLsbD 4 = true ∧ ((0x80000000#32).getLsbD (31 : Fin 32).val = true ∧ (withScr 0x10).isPending (.irq 31) = false) ∧
      ¬((withScr 0).scb.scr.getLsbD 4 = true) := by
  decide

theorem witness_SystemControlWrites :
    ((0x16#32).getLsbD 3 = false ∧ (0x16#32).getLsbD 0 = false) ∧ (0x08#32).getLsbD 3 = true ∧ (0x01#32).getLsbD 0 = true ∧
      (0xFF000000#32).toNat % 16777216 = 0 ∧ (0x00800000#32).toNat % 16777216 ≠ 0 ∧ (0xFFFF0000#32).toNat % 65536 = 0 ∧
      (0x00008000#32).toNat % 65536 ≠ 0 ∧ (0x00000004#32).toNat / 65536 ≠ 0x05FA ∧
      ((0x05FA0004#32).toNat / 65536 = 0x05FA ∧ (0x05FA0004#32).getLsbD 1 = false) ∧
      ((0x05FA0002#32).toNat / 65536 = 0x05FA ∧ (0x05FA0002#32).getLsbD 1 = true) ∧
      0x00010007#32 &&& 0xFFFEFFF8#32 = 0 ∧ 0x00020000#32 &&& 0xFFFEFFF8#32 ≠ 0 ∧ (0x00FFFFFF#32).toNat < 16777216 ∧
      16777216 ≤ (0x01000000#32).toNat := by
  decide

theorem witness_InterruptControlState :
    ((0x18000000#32).getLsbD 28 = true ∧ (0x18000000#32).getLsbD 27 = true) ∧
      ((0x06000000#32).getLsbD 26 = true ∧ (0x06000000#32).getLsbD 25 = true) ∧
      ¬((0x92000000#32).getLsbD 28 = true ∧ (0x92000000#32).getLsbD 27 = true) ∧
      ¬((0x92000000#32).getLsbD 26 = true ∧ (0x92000000#32).getLsbD 25 = true) ∧ Exc.hardFault ≠ .nmi ∧
      ((withScr 0x10).scb.scr.getLsbD 4 = true ∧ (0x92000000#32).getLsbD 31 = true ∧ (withScr 0x10).isPending .nmi = false) ∧
      (let s := base.withPending 0xC000
      (s.isPending .pendSV = true ∧ s.isEnabled .pendSV = true) ∧
        ∀ e ∈ Exc.all, s.isPending e = true ∧ s.isEnabled e = true →
          s.prio .pendSV < s.prio e ∨ (s.prio .pendSV = s.prio e ∧ Exc.pendSV.num ≤ e.num)) ∧
      ∀ e ∈ Exc.all, ¬(base.isPending e = true ∧ base.isEnabled e = true) := by
  decide

theorem witness_SysTickCounts :
    let s := { base with stk := { ctrl := 3, countFlag := false, reload := 3, current := 2 } }
    (s.stk.ctrl.getLsbD 0 = true ∧ 1 < s.stk.current.toNat ∧ 2 = s.stk.current.toNat ∧ 2 ≠ 0) ∧
      { s with stk := { s.stk with current := 0 } }.stk.current = 0 ∧ base.stk.ctrl.getLsbD 0 = false := by
  decide

theorem witness_MpuHighestRegionWins :
    let m := (base.mpu.setAttr 2 0x03000021).setAttr 7 0x0300010F
    let hits := fun (a : Word) (r : Fin 8) =>
      let n := (m.regions[r].attr.toNat / 2 % 32) + 1
      m.regions[r].attr.toNat % 2 = 1 ∧ a.toNat / 2 ^ n = m.regions[r].base.toNat / 2 ^ n ∧
        m.regions[r].attr.toNat / 2 ^ (8 + a.toNat / 2 ^ (n - 3) % 8) % 2 = 0
    (∀ r : Fin 8, m.regions[r].attr.toNat % 2 = 1 → 7 ≤ m.regions[r].attr.toNat / 2 % 32) ∧
      (hits 0xFF 7 ∧ ∀ q : Fin 8, 7 < q → ¬hits 0xFF q) ∧ (hits 0 2 ∧ ∀ q : Fin 8, 2 < q → ¬hits 0 q) ∧
      ∀ r : Fin 8, ¬hits 0x20000 r := by
  decide

theorem witness_MpuDecision :
    (withMpu 0 0).mpuActive = false ∧ (withMpu 1 0x04000033).mpuActive = true ∧ OutsidePpb 0 ∧ OutsidePpb 0xDFFFFFFF ∧
      ¬OutsidePpb 0xE0000000 ∧ ¬OutsidePpb 0xE00FFFFF ∧ (withMpu 5 0).mpu.lookup 0xA0000000 = .miss ∧
      (withMpu 1 0x04000033).mpu.lookup 0 = .hit { base := 0, attr := 0x04000033 } ∧
      (withMpu 1 0x13000033).mpu.lookup 0 = .hit { base := 0, attr := 0x13000033 } ∧
      (withMpu 5 0).mpu.lookup 0 = .miss ∧ (withMpu 5 0).mpu.ctrl.getLsbD 2 = true ∧ (withMpu 1 0).mpu.ctrl.getLsbD 2 = false := by
  decide

theorem witness_MpuRegionWrites :
    base.cfg.hasMpu = true ∧ { base with cfg := { base.cfg with hasMpu := false } }.cfg.hasMpu = false ∧
      ((0x00000002#32).getLsbD 1 = true ∧ (0x00000002#32).getLsbD 0 = false) ∧
      ¬((0x00000007#32).getLsbD 1 = true ∧ (0x00000007#32).getLsbD 0 = false) ∧
      (0x00000007#32).toNat = (7 : Fin 8).val ∧ (8 ≤ (0x00000008#32).toNat ∧ (0x000000FF#32).toNat < 256) ∧ 256 ≤ (0x00000100#32).toNat ∧
      ((0x20000017#32).getLsbD 4 = true ∧ (0x20000017#32).toNat % 16 < 8) ∧
      ((0x20000018#32).getLsbD 4 = true ∧ 8 ≤ (0x20000018#32).toNat % 16) ∧ (0x2000000F#32).getLsbD 4 = false := by
  decide

theorem witness_ResetState :
    let s := { base with inputs := [{ quiet with reset := true }] }
    s.currentInput.reset = true ∧
      ∀ a : Word, a = 0 ∨ a = 4 → s.kindAt true .read .word a = .ram ∨ s.kindAt true .read .word a = .rom :=
  ⟨rfl, fun _ _ => .inl rfl⟩

theorem base_inv : Safety.Inv base := by
  unfold Safety.Inv MemoryCanonical StacksAligned PcEven ModeLegal ReservedZero ExceptionsExist LockupFixed
  decide

theorem witness_StepKeepsInvariant : Safety.Inv base ∧ ∃ t, step base = .next t :=
  ⟨base_inv, next_of_answersNext (by decide)⟩

theorem witness_UnprivilegedCannotReconfigure :
    (Unprivileged unpriv ∧ ∀ m, unpriv.midway = some m → m.ticks = 0) ∧ ∃ t, exec .cpsid unpriv = .next t :=
  ⟨⟨by decide, fun m h => absurd h (by simp [unpriv, base, startAt, State.placeInstruction, State.setGpr, State.reset, State.resetFrom])⟩,
    next_of_answersNext (by decide)⟩

/-- Single accesses that are denied, that a device answers and that a system register answers. -/
theorem witness_BusOutcomes_single :
    (∃ x, singleAccess (mapped .busError atDevice) (.ldrbImm 0 1 31) = some x ∧
        OutsidePpb x.addr ∧ (mapped .busError atDevice).mpuCheck x.addr x.kind true = .ok () ∧
        (mapped .busError atDevice).kindAt true x.kind x.size x.addr = .busError) ∧
      (∃ x, singleAccess (mapped .device atDevice) (.ldrsh 0 1 2) = some x ∧ x.kind = .read ∧
        ReachesDevice (mapped .device atDevice) .read x.size x.addr) ∧
      (∃ x, singleAccess (mapped .device atDevice) (.strReg 0 1 2) = some x ∧ x.kind = .write ∧
        ReachesDevice (mapped .device atDevice) .write x.size x.addr) ∧
      isDone (atDevice.memRead .word 0x40000000) = true ∧ isDone (atDevice.memWrite .word 0x40000000 7) = true :=
  ⟨⟨_, rfl, by decide⟩, ⟨_, rfl, by decide⟩, ⟨_, rfl, by decide⟩, by decide, by decide⟩

/-- A block whose second word is denied, and blocks that are read and written. -/
theorem witness_BusOutcomes_block :
    (let s := mapped .busError (base.setGpr 1 0x3FFFFFFC)
    blockAccess s (.ldm 1 0x0C) = some (.read, 0x3FFFFFFC, 2) ∧ 1 < 2 ∧
      s.kindAt true .read .word (wordAt 0x3FFFFFFC 1) = .busError ∧ s.mpuCheck (wordAt 0x3FFFFFFC 1) .read true = .ok () ∧
      OutsidePpb (wordAt 0x3FFFFFFC 1) ∧ ∀ l < 1, ReachesStorage s .read .word (wordAt 0x3FFFFFFC l)) ∧
      (readBlock atDevice 0x40000000 2).isSome = true ∧ (writeBlock (mapped .device atDevice) 0x40000000 [1, 2]).isSome = true ∧
      blockAccess atDevice (.pop true 0x01) = some (.read, 0x20001000, 2) ∧
      blockAccess atDevice (.push false 0x03) = some (.write, 0x20000FF8, 2) ∧ (∀ j < 2, OutsidePpb (wordAt 0x20000FF8 j)) ∧
      Uninterrupted atDevice :=
  ⟨by decide, by decide, by decide, by decide, by decide, by decide, .inl rfl⟩

/-- 10_state.md R53, R85 and vector G32: bits [7:5] of MPU_RBAR read as zero, and with SIZE 12 so do those below bit 13. -/
theorem test_mpu_rbar_reserved :
    (match base.ppbWrite .mpuRbar 0x200004F7 with
      | .ok t => (t.ppbValue .mpuRnr, t.ppbValue .mpuRbar, State.ppbValue { t with mpu := t.mpu.setAttr 7 0x18 } .mpuRbar)
      | _ => (0, 0, 0)) = (7, 0x20000407, 0x20000007) := by
  decide

/-! ### Devices, instructions that are abandoned, instructions fetched ahead, debugger halts -/

/-- 20_memory.md R149, U26: a device sees the store of a halfword, and memory stays. -/
theorem test_device_store :
    outcome (exec (.strhReg 1 1 2) (mapped .device atDevice)) (fun t => (t.devices.map fun d => (d.address, d.size, d.value), t.mem)) =
      some ([(0x40000000, .half, 0)], atDevice.mem) := by
  decide

/-- 60_exceptions.md R384: PUSH abandoned after one of two words stacks its own address on an unchanged SP, the first word stored. -/
theorem test_push_abandoned :
    outcome (exec (.push true 0x02) (nmiMidway 1 base))
        (fun t => (t.ipsr, t.msp, bytesValue t 0x20000FF8 4, bytesValue t 0x20000FFC 4, bytesValue t 0x20000FF8 4)) =
      some (2, 0x20000FE0, 0x100, 0x01000000, 0x100) := by
  decide

/-- 20_memory.md R165: the instruction fetched ahead is executed as it was before the store of the one before it; after ISB memory's is. -/
theorem test_stale_fetch :
    let s := { startAt 0x100 0x8008 0x2001 with inputs := [{ quiet with prefetch := true }, quiet] }
    let s := (s.setGpr 1 0x102).setGpr 0 0x2002
    outcome (step s) (fun t => outcome (step t) (fun u => u.lo 0)) = some (some 1) ∧
      outcome (step s) (fun t => outcome (step { t with prefetched := none }) (fun u => u.lo 0)) = some (some 2) := by
  decide

/-- 60_exceptions.md R396, R407: a debugger's halt leaves lockup, and SysTick does not count. -/
theorem test_halt_leaves_lockup :
    let s := { base with lockup := some .nmi, pc := 0xFFFFFFFE, stk := { base.stk with ctrl := 1, current := 5 } }
    let s := { s with inputs := [{ quiet with halt := true, ticks := 3 }], cfg := { s.cfg with debuggerAttached := true } }
    outcome (step s) (fun t => (t.lockup, t.pc, t.stk.current)) = some (none, 0xFFFFFFFE, 5) := by
  decide

/-- 60_exceptions.md R412, R415: two events in one step wake a processor asleep in WFE and leave the event register 0. -/
theorem test_two_events :
    let s := { withScr 0x10 with sleep := .wfe, inputs := [{ quiet with irq := 1, event := true }] }
    outcome (step s) (fun t => (t.sleep, t.eventReg, t.pc)) = some (.running, false, 0x102) := by
  decide

end Sys2Proof.Tests
end

