-- ==== Sys2Proof/Proofs/AddWithCarry.lean ====
section
/-! PROOF. The laws of AddWithCarry (00_scope.md R11): each of its three results by itself, and what they are when the second operand is
the complement of a word, which is how every subtraction and comparison calls it. -/

namespace Sys2Proof.Machine

/-- The unbounded unsigned sum, narrowed to 32 bits. -/
theorem addWithCarry_result_toNat (x y : Word) (c : Bool) :
    (addWithCarry x y c).result.toNat = (x.toNat + y.toNat + c.toNat) % 4294967296 :=
  BitVec.toNat_ofNat _ 32

theorem addWithCarry_result (x y : Word) (c : Bool) : (addWithCarry x y c).result = x + y + BitVec.ofNat 32 c.toNat := by
  apply BitVec.eq_of_toNat_eq
  rw [addWithCarry_result_toNat]
  simp only [BitVec.toNat_add, BitVec.toNat_ofNat]
  omega

theorem addWithCarry_carry_iff (x y : Word) (c : Bool) :
    (addWithCarry x y c).carry = true ↔ 4294967296 ≤ x.toNat + y.toNat + c.toNat :=
  decide_eq_true_iff

theorem addWithCarry_overflow_iff (x y : Word) (c : Bool) :
    (addWithCarry x y c).overflow = true ↔
      (x.toInt + y.toInt + (c.toNat : Int) < -2147483648 ∨ x.toInt + y.toInt + (c.toNat : Int) > 2147483647) := by
  simp only [addWithCarry, Bool.or_eq_true, decide_eq_true_eq, gt_iff_lt]

/-- A complement and a carry-in subtract the word and the borrow, since `~~~y = -y - 1`. -/
theorem addWithCarry_not_result (x y : Word) (c : Bool) :
    (addWithCarry x (~~~y) c).result = x - y - BitVec.ofNat 32 (1 - c.toNat) := by
  have not_eq : ~~~y = -y - 1#32 := by rw [BitVec.neg_eq_not_add, BitVec.add_sub_cancel]
  rw [addWithCarry_result, not_eq]
  cases c with
  | false =>
    change x + (-y - 1#32) + 0#32 = x - y - 1#32
    bv_omega
  | true =>
    change x + (-y - 1#32) + 1#32 = x - y - 0#32
    bv_omega

/-- The carry of a subtraction is the absence of a borrow, since `UInt(~~~y) = 2^32 - 1 - UInt(y)`. -/
theorem addWithCarry_not_carry_iff (x y : Word) (c : Bool) :
    (addWithCarry x (~~~y) c).carry = true ↔ y.toNat + (1 - c.toNat) ≤ x.toNat := by
  have toNat_not : (~~~y).toNat = 4294967295 - y.toNat := BitVec.toNat_not
  have hy := y.isLt
  have hc := c.toNat_le
  rw [addWithCarry_carry_iff, toNat_not]
  omega

/-- Settles O8: the results one by one, and the subtraction without a borrow as the carry-in 1 of the one with it. -/
theorem addWithCarryRule : Obligations.AddWithCarryRule := by
  intro x y c
  have sub_result : (addWithCarry x (~~~y) true).result = x - y := by
    simpa using addWithCarry_not_result x y true
  exact ⟨addWithCarry_result_toNat x y c, addWithCarry_carry_iff x y c, addWithCarry_overflow_iff x y c,
    sub_result, addWithCarry_not_carry_iff x y true, addWithCarry_not_result x y c⟩

end Sys2Proof.Machine
end

