-- ==== Sys2Proof/Proofs/Masks.lean ====
section
/-! PROOF. What the masks of the model do to the number of a word: a mask of high bits rounds down to a multiple, a mask of low bits takes
a remainder, and a field of a masked word is the masked field. -/

namespace Sys2Proof.Machine

theorem toNat_and_highMask {w : Nat} {x m : BitVec w} (k : Nat) (hm : m = BitVec.allOnes w <<< k) :
    (x &&& m).toNat = x.toNat / 2 ^ k * 2 ^ k := by
  have shifted : x &&& m = (x >>> k) <<< k := by
    subst hm
    ext i hi
    by_cases hik : i < k
    · simp [hik]
    · simp [hik, show k + (i - k) = i by omega, BitVec.getLsbD_eq_getElem hi]
  have hle : x.toNat / 2 ^ k * 2 ^ k ≤ x.toNat := Nat.div_mul_le_self ..
  have hx := x.isLt
  rw [shifted, BitVec.toNat_shiftLeft, BitVec.toNat_ushiftRight, Nat.shiftRight_eq_div_pow, Nat.shiftLeft_eq]
  exact Nat.mod_eq_of_lt (by omega)

theorem toNat_and_lowMask {x m : Word} (k : Nat) (hm : m.toNat = 2 ^ k - 1) : (x &&& m).toNat = x.toNat % 2 ^ k := by
  rw [BitVec.toNat_and, hm, Nat.and_two_pow_sub_one_eq_mod]

theorem and_highMask_eq_zero_iff {x m : Word} (k : Nat) (hm : m = BitVec.allOnes 32 <<< k) :
    x &&& m = 0 ↔ x.toNat < 2 ^ k := by
  rw [← BitVec.toNat_inj, toNat_and_highMask k hm]
  change x.toNat / 2 ^ k * 2 ^ k = 0 ↔ x.toNat < 2 ^ k
  have pos := Nat.two_pow_pos k
  constructor
  · intro h
    exact (Nat.div_eq_zero_iff_lt pos).mp ((Nat.mul_eq_zero.mp h).resolve_right (Nat.ne_of_gt pos))
  · intro h
    rw [Nat.div_eq_of_lt h, Nat.zero_mul]

theorem and_lowMask_eq_zero_iff {x m : Word} (k : Nat) (hm : m.toNat = 2 ^ k - 1) :
    x &&& m = 0 ↔ x.toNat % 2 ^ k = 0 := by
  rw [← BitVec.toNat_inj, toNat_and_lowMask k hm]
  rfl

/-- A field of a masked word is the masked field. -/
theorem field_and (x m : Word) (j k : Nat) :
    (x &&& m).toNat / 2 ^ j % 2 ^ k = (x.toNat / 2 ^ j % 2 ^ k) &&& (m.toNat / 2 ^ j % 2 ^ k) := by
  simp only [← Nat.shiftRight_eq_div_pow, BitVec.toNat_and, Nat.shiftRight_and_distrib, Nat.and_mod_two_pow]

theorem field_or (x y : Word) (j k : Nat) :
    (x ||| y).toNat / 2 ^ j % 2 ^ k = (x.toNat / 2 ^ j % 2 ^ k) ||| (y.toNat / 2 ^ j % 2 ^ k) := by
  simp only [← Nat.shiftRight_eq_div_pow, BitVec.toNat_or, Nat.shiftRight_or_distrib, Nat.or_mod_two_pow]

theorem byte_and (x m : Word) (j : Nat) :
    (x &&& m).toNat / 2 ^ j % 256 = (x.toNat / 2 ^ j % 256) &&& (m.toNat / 2 ^ j % 256) := field_and x m j 8

/-- The two implemented bits of a priority byte (10_state.md R58, R71, R72). -/
theorem byte_and_192 {b : Nat} (hb : b < 256) : b &&& 192 = b / 64 * 64 := by
  have rounded := toNat_and_highMask (x := BitVec.ofNat 8 b) (m := 192#8) 6 (by decide)
  rwa [BitVec.toNat_and, BitVec.toNat_ofNat, Nat.mod_eq_of_lt hb] at rounded

end Sys2Proof.Machine
end

