-- ==== Sys2Proof/Proofs/Sound.lean ====
section
/-! PROOF. The invariant of the states but for its lockup clause, and that the operations on registers, pending bits, system registers
and memory, and the sampling of the inputs, keep it. -/

namespace Sys2Proof.Machine

open Sys2Proof.Safety

/-- The invariant but for the lockup clause, of a state whose lockup is `l`: every operation on the parts of the state keeps it for the
same `l`, in lockup and out of it. -/
structure SoundAt (l : Option LockupLevel) (s : State) : Prop where
  /-- memory has its canonical form -/
  memory : MemoryCanonical s
  /-- both stack pointers are word aligned -/
  aligned : StacksAligned s
  /-- the PC is even -/
  pcEven : PcEven s
  /-- IPSR is the number of an exception or 0, and SPSEL fits it -/
  mode : ModeLegal s
  /-- reserved bits are zero -/
  reserved : ReservedZero s
  /-- only exceptions that exist are pending or active -/
  exceptions : ExceptionsExist s
  /-- the lockup state -/
  lockup : s.lockup = l

theorem inv_iff_soundAt {s : State} : Inv s ↔ SoundAt s.lockup s ∧ LockupFixed s := by
  constructor
  · rintro ⟨memory, aligned, pcEven, mode, reserved, exceptions, fixed⟩
    exact ⟨⟨memory, aligned, pcEven, mode, reserved, exceptions, rfl⟩, fixed⟩
  · rintro ⟨hs, fixed⟩
    exact ⟨hs.memory, hs.aligned, hs.pcEven, hs.mode, hs.reserved, hs.exceptions, fixed⟩

/-- Out of lockup the lockup clause says nothing. -/
theorem SoundAt.inv {s : State} (hs : SoundAt none s) : Inv s :=
  ⟨hs.memory, hs.aligned, hs.pcEven, hs.mode, hs.reserved, hs.exceptions, fun h => absurd hs.lockup h⟩

theorem SoundAt.enterLockup_inv {l : Option LockupLevel} {s : State} (hs : SoundAt l s) : Inv s.enterLockup :=
  ⟨hs.memory, hs.aligned, (by decide : (0xFFFFFFFE : Word).toNat % 2 = 0), hs.mode, hs.reserved, hs.exceptions, fun _ => ⟨rfl, rfl⟩⟩

/-! ### Words and bits -/

theorem alignSp_aligned (v : Word) : (alignSp v).toNat % 4 = 0 := by
  rw [alignSp, toNat_and_highMask 2 (by decide)]
  omega

theorem clearBit0_even (v : Word) : (v &&& 0xFFFFFFFE#32).toNat % 2 = 0 := by
  rw [toNat_and_highMask 1 (by decide)]
  omega

theorem add_even {a b : Word} (ha : a.toNat % 2 = 0) (hb : b.toNat % 2 = 0) : (a + b).toNat % 2 = 0 := by
  rw [BitVec.toNat_add]
  omega

theorem branchOffset_even {n : Nat} (imm : BitVec n) : (branchOffset imm).toNat % 2 = 0 := by
  have bit0 : (branchOffset imm).getLsbD 0 = false := by
    simp only [branchOffset, BitVec.getLsbD_signExtend, BitVec.getLsbD_append]
    simp
  simpa [BitVec.getLsbD, Nat.testBit_zero] using bit0

theorem and_mask_and_reserved {n : Nat} (x : BitVec n) {mask reserved : BitVec n} (h : mask &&& reserved = 0#n) :
    x &&& mask &&& reserved = 0#n := by
  rw [BitVec.and_assoc, h, BitVec.and_zero]

/-- A word of pending or active bits has only bits of exceptions that exist (10_state.md R41). -/
def ExistingOnly (b : BitVec 48) : Prop := b &&& ~~~exceptionBits = 0#48

theorem ExistingOnly.or {a b : BitVec 48} (ha : ExistingOnly a) (hb : ExistingOnly b) : ExistingOnly (a ||| b) := by
  unfold ExistingOnly at *
  rw [BitVec.and_or_distrib_right, ha, hb, BitVec.or_zero]

theorem ExistingOnly.and {a : BitVec 48} (ha : ExistingOnly a) (b : BitVec 48) : ExistingOnly (a &&& b) := by
  unfold ExistingOnly at *
  rw [BitVec.and_assoc, BitVec.and_comm b, ← BitVec.and_assoc, ha, BitVec.zero_and]

theorem existingOnly_zero : ExistingOnly 0 := BitVec.zero_and

theorem existingOnly_mask (e : Exc) : ExistingOnly e.mask := by
  cases e with
  | irq n => exact (by decide : ∀ n : Fin 32, (Exc.irq n).mask &&& ~~~exceptionBits = 0) n
  | _ => rfl

theorem existingOnly_mask_if (c : Prop) [Decidable c] (e : Exc) : ExistingOnly (if c then e.mask else 0) := by
  split
  · exact existingOnly_mask e
  · exact existingOnly_zero

theorem existingOnly_irqMask (w : BitVec 32) : ExistingOnly (irqMask w) := by
  have split : ~~~exceptionBits = (0#32 ++ 0x37F3#16 : BitVec 48) := by decide
  unfold ExistingOnly irqMask
  rw [split, BitVec.and_append, BitVec.and_zero, BitVec.zero_and]
  rfl

variable {l : Option LockupLevel} {s t : State}

/-! ### Registers -/

theorem SoundAt.setGpr (hs : SoundAt l s) (n : Fin 13) (v : Word) : SoundAt l (s.setGpr n v) := { hs with }

theorem SoundAt.setLo (hs : SoundAt l s) (r : LoReg) (v : Word) : SoundAt l (s.setLo r v) := hs.setGpr _ v

theorem SoundAt.setLos (hs : SoundAt l s) (rs : List LoReg) (vs : List Word) : SoundAt l (s.setLos rs vs) := by
  induction rs generalizing s vs with
  | nil => exact hs
  | cons r rs ih =>
    cases vs with
    | nil => exact hs
    | cons v vs => exact ih (hs.setLo r v) vs

theorem SoundAt.setFlags (hs : SoundAt l s) (f : Apsr) : SoundAt l (s.setFlags f) := { hs with }

theorem SoundAt.setMsp (hs : SoundAt l s) (v : Word) : SoundAt l (s.setMsp v) :=
  { hs with aligned := ⟨alignSp_aligned v, hs.aligned.2⟩ }

theorem SoundAt.setPsp (hs : SoundAt l s) (v : Word) : SoundAt l (s.setPsp v) :=
  { hs with aligned := ⟨hs.aligned.1, alignSp_aligned v⟩ }

theorem SoundAt.setSp (hs : SoundAt l s) (v : Word) : SoundAt l (s.setSp v) := by
  unfold State.setSp
  split
  · exact hs.setPsp v
  · exact hs.setMsp v

/-- A branch to an even address. -/
theorem SoundAt.withPc (hs : SoundAt l s) {a : Word} (ha : a.toNat % 2 = 0) : SoundAt l { s with pc := a } :=
  { hs with pcEven := ha }

theorem SoundAt.setPc (hs : SoundAt l s) (v : Word) : SoundAt l (s.setPc v) := hs.withPc (clearBit0_even v)

theorem SoundAt.advance (hs : SoundAt l s) {n : Word} (hn : n.toNat % 2 = 0) : SoundAt l (s.advance n) :=
  hs.withPc (add_even hs.pcEven hn)

theorem SoundAt.setReg (hs : SoundAt l s) (r : Reg) (v : Word) : SoundAt l (s.setReg r v) := by
  unfold State.setReg
  split
  · exact hs.setGpr _ v
  · split
    · exact hs.setSp v
    · split
      · exact { hs with }
      · exact hs.setPc v

theorem SoundAt.interwork (hs : SoundAt l s) (v : Word) : SoundAt l (s.interwork v) :=
  { hs with pcEven := clearBit0_even v }

theorem SoundAt.jumpVector (hs : SoundAt l s) (v : Word) : SoundAt l (s.jumpVector v) :=
  { hs with pcEven := clearBit0_even v }

/-! ### Pending and active bits -/

theorem SoundAt.withPending (hs : SoundAt l s) {p : BitVec 48} (hp : ExistingOnly p) : SoundAt l (s.withPending p) :=
  { hs with exceptions := ⟨hp, hs.exceptions.2⟩ }

theorem SoundAt.withActive (hs : SoundAt l s) {p : BitVec 48} (hp : ExistingOnly p) : SoundAt l (s.withActive p) :=
  { hs with exceptions := ⟨hs.exceptions.1, hp⟩ }

theorem SoundAt.signalEvent (hs : SoundAt l s) : SoundAt l s.signalEvent := by
  unfold State.signalEvent
  split <;> exact { hs with }

theorem SoundAt.setPendingMask (hs : SoundAt l s) {m : BitVec 48} (hm : ExistingOnly m) : SoundAt l (s.setPendingMask m) := by
  have hp := hs.withPending (ExistingOnly.or hs.exceptions.1 hm)
  unfold State.setPendingMask
  dsimp only
  split
  · exact hp.signalEvent
  · exact hp

theorem SoundAt.clearPendingMask (hs : SoundAt l s) (m : BitVec 48) : SoundAt l (s.clearPendingMask m) :=
  hs.withPending (ExistingOnly.and hs.exceptions.1 _)

theorem SoundAt.setPending (hs : SoundAt l s) (e : Exc) : SoundAt l (s.setPending e) := hs.setPendingMask (existingOnly_mask e)

theorem SoundAt.clearActive (hs : SoundAt l s) (e : Exc) : SoundAt l (s.clearActive e) :=
  hs.withActive (ExistingOnly.and hs.exceptions.2 _)

theorem SoundAt.activate (hs : SoundAt l s) (e : Exc) : SoundAt l (s.activate e) :=
  (hs.withPending (ExistingOnly.and hs.exceptions.1 _)).withActive (ExistingOnly.or hs.exceptions.2 (existingOnly_mask e))

/-! ### System registers -/

/-- Every reserved bit of the regions is zero (10_state.md R85, R86). -/
def RegionReserved (r : MpuRegion) : Prop := r.base &&& 0x000000FF#32 = 0 ∧ r.attr &&& 0xE8F800C0#32 = 0

theorem SoundAt.region (hs : SoundAt l s) (r : Fin 8) : RegionReserved s.mpu.regions[r] := by
  obtain ⟨_, _, _, _, _, regions⟩ := hs.reserved
  exact regions r

theorem SoundAt.withRegion (hs : SoundAt l s) (c : BitVec 3) (k r : Fin 8) {x : MpuRegion} (hx : RegionReserved x) :
    SoundAt l { s with mpu := { ctrl := c, rnr := k, regions := s.mpu.regions.set r x } } := by
  obtain ⟨hvtor, hscr, hshpr2, hshpr3, hipr, regions⟩ := hs.reserved
  refine { hs with reserved := ⟨hvtor, hscr, hshpr2, hshpr3, hipr, fun j => ?_⟩ }
  change RegionReserved (s.mpu.regions.set r x)[j.val]
  rw [Vector.getElem_set]
  split
  · exact hx
  · exact regions j

theorem SoundAt.withIpr (hs : SoundAt l s) (k : Fin 8) (w : Word) :
    SoundAt l { s with nvic := { s.nvic with ipr := s.nvic.ipr.set k (w &&& 0xC0C0C0C0#32) } } := by
  obtain ⟨hvtor, hscr, hshpr2, hshpr3, hipr, regions⟩ := hs.reserved
  refine { hs with reserved := ⟨hvtor, hscr, hshpr2, hshpr3, fun j => ?_, regions⟩ }
  change (s.nvic.ipr.set k (w &&& 0xC0C0C0C0#32))[j.val] &&& 0x3F3F3F3F#32 = 0
  rw [Vector.getElem_set]
  split
  · exact and_mask_and_reserved w (by decide)
  · exact hipr j

theorem SoundAt.writeIcsr (hs : SoundAt l s) {w : Word} (h : s.writeIcsr w = .ok t) : SoundAt l t := by
  unfold State.writeIcsr at h
  split at h
  · cases h
  · cases h
    exact (hs.clearPendingMask _).setPendingMask
      (.or (.or (existingOnly_mask_if _ _) (existingOnly_mask_if _ _)) (existingOnly_mask_if _ _))

theorem SoundAt.writeAircr (hs : SoundAt l s) {w : Word} (h : s.writeAircr w = .ok t) : SoundAt l t := by
  unfold State.writeAircr at h
  split at h
  · cases h; exact hs
  · split at h
    · cases h
    · split at h
      · cases h; exact { hs with }
      · cases h; exact hs

theorem SoundAt.writeMpuCtrl (hs : SoundAt l s) {w : Word} (h : s.writeMpuCtrl w = .ok t) : SoundAt l t := by
  unfold State.writeMpuCtrl at h
  split at h
  · cases h
  · cases h; exact { hs with }

theorem SoundAt.writeMpuRnr (hs : SoundAt l s) {w : Word} (h : s.writeMpuRnr w = .ok t) : SoundAt l t := by
  unfold State.writeMpuRnr at h
  split at h
  · cases h
  · split at h
    · cases h; exact { hs with }
    · cases h

theorem SoundAt.writeMpuRbar (hs : SoundAt l s) {w : Word} (h : s.writeMpuRbar w = .ok t) : SoundAt l t := by
  have base (r : Fin 8) : RegionReserved { s.mpu.regions[r] with base := w &&& 0xFFFFFF00#32 } :=
    ⟨and_mask_and_reserved w (by decide), (hs.region r).2⟩
  unfold State.writeMpuRbar at h
  split at h
  · split at h
    · cases h; exact hs.withRegion _ _ _ (base _)
    · cases h
  · cases h; exact hs.withRegion _ _ _ (base _)

theorem SoundAt.writeMpuRasr (hs : SoundAt l s) {w : Word}
    (h : Acc.ok { s with mpu := s.mpu.setAttr s.mpu.rnr (w &&& 0x1707FF3F#32) } = Acc.ok t) : SoundAt l t := by
  cases h
  exact hs.withRegion _ _ _ ⟨(hs.region _).1, and_mask_and_reserved w (by decide)⟩

/-- A write to a register of the MPU, which a platform without one ignores (10_state.md R91). -/
theorem SoundAt.whereMpu (hs : SoundAt l s) {x : Acc State} (keeps : x = .ok t → SoundAt l t)
    (h : (if s.cfg.hasMpu then x else .ok s) = .ok t) : SoundAt l t := by
  split at h
  · exact keeps h
  · cases h; exact hs

theorem SoundAt.ppbWrite (hs : SoundAt l s) {r : PpbReg} {w : Word} (h : s.ppbWrite r w = .ok t) : SoundAt l t := by
  obtain ⟨hvtor, hscr, hshpr2, hshpr3, hipr, regions⟩ := hs.reserved
  cases r with
  | stkCsr => obtain ⟨-, rfl⟩ := keepCleared_ok h; exact { hs with }
  | stkRvr => obtain ⟨-, rfl⟩ := keepCleared_ok h; exact { hs with }
  | stkCvr => cases h; exact { hs with }
  | nvicIser => cases h; exact { hs with }
  | nvicIcer => cases h; exact { hs with }
  | nvicIspr => cases h; exact hs.setPendingMask (existingOnly_irqMask w)
  | nvicIcpr => cases h; exact hs.clearPendingMask _
  | nvicIpr n => cases h; exact hs.withIpr n w
  | icsr => exact hs.writeIcsr h
  | vtor =>
    cases h
    exact { hs with reserved := ⟨and_mask_and_reserved w (by decide), hscr, hshpr2, hshpr3, hipr, regions⟩ }
  | aircr => exact hs.writeAircr h
  | scr =>
    obtain ⟨-, rfl⟩ := keepCleared_ok h
    exact { hs with reserved := ⟨hvtor, and_mask_and_reserved w (by decide), hshpr2, hshpr3, hipr, regions⟩ }
  | shpr2 =>
    obtain ⟨-, rfl⟩ := keepCleared_ok h
    exact { hs with reserved := ⟨hvtor, hscr, and_mask_and_reserved w (by decide), hshpr3, hipr, regions⟩ }
  | shpr3 =>
    obtain ⟨-, rfl⟩ := keepCleared_ok h
    exact { hs with reserved := ⟨hvtor, hscr, hshpr2, and_mask_and_reserved w (by decide), hipr, regions⟩ }
  | stkCalib | cpuid | ccr | mpuType => cases h; exact hs
  | mpuCtrl => exact hs.whereMpu hs.writeMpuCtrl h
  | mpuRnr => exact hs.whereMpu hs.writeMpuRnr h
  | mpuRbar => exact hs.whereMpu hs.writeMpuRbar h
  | mpuRasr => exact hs.whereMpu hs.writeMpuRasr h

/-! ### Accesses -/

theorem SoundAt.busWrite (hs : SoundAt l s) {priv : Bool} {size : Size} {a v : Word} (h : s.busWrite priv size a v = .ok t) :
    SoundAt l t := by
  cases ha : inPpb a with
  | false =>
    have canonical : t.mem.wf = true := State.busWrite_wf hs.memory h
    rw [State.busWrite_outside ha h]
    exact { hs with memory := canonical }
  | true =>
    unfold State.busWrite at h
    rw [ha, if_pos rfl] at h
    split at h
    · exact hs.ppbWrite h
    · cases h; exact hs

theorem SoundAt.busReadEffect (hs : SoundAt l s) (priv : Bool) (kind : AccessKind) (size : Size) (a : Word) :
    SoundAt l (s.busReadEffect priv kind size a) := by
  rw [State.busReadEffect_frame]
  exact { hs with }

theorem SoundAt.memRead (hs : SoundAt l s) {size : Size} {a v : Word} (h : s.memRead size a = .ok (v, t)) : SoundAt l t := by
  obtain ⟨-, heq⟩ := State.memRead_ok h
  obtain ⟨-, rfl⟩ := Prod.mk.inj heq
  exact hs.busReadEffect ..

theorem SoundAt.memWrite (hs : SoundAt l s) {size : Size} {a v : Word} (h : s.memWrite size a v = .ok t) : SoundAt l t :=
  hs.busWrite (State.memWrite_ok h).2

theorem SoundAt.vectorRead (hs : SoundAt l s) {a v : Word} (h : s.vectorRead a = .ok (v, t)) : SoundAt l t := by
  rw [State.vectorRead_frame h]
  exact { hs with }

theorem SoundAt.readWords (hs : SoundAt l s) (priv : Bool) (a : Word) (n : Nat) : SoundAt l (s.readWords priv a n).2 := by
  rw [(State.readWords_frame s priv a n).2]
  exact { hs with }

theorem SoundAt.writeWords {priv : Bool} {ws : List Word} :
    ∀ {s : State} {a : Word}, SoundAt l s → s.writeWords priv a ws = .ok t → SoundAt l t := by
  induction ws with
  | nil => intro s a hs h; cases h; exact hs
  | cons v rest ih =>
    intro s a hs h
    obtain ⟨u, written, remaining⟩ := Acc.bind_eq_ok h
    exact ih (hs.busWrite written) remaining

theorem SoundAt.stackWords {priv : Bool} {ws : List Word} :
    ∀ {s : State} {a : Word} {faulted : Bool}, SoundAt l s → s.stackWords priv a ws = .ok (faulted, t) → SoundAt l t := by
  induction ws with
  | nil => intro s a faulted hs h; cases h; exact hs
  | cons v rest ih =>
    intro s a faulted hs h
    simp only [State.stackWords] at h
    split at h
    · cases h
    · obtain ⟨r, remaining, answer⟩ := Acc.bind_eq_ok h
      cases answer
      exact ih hs remaining
    · obtain ⟨u, written, remaining⟩ := Acc.bind_eq_ok h
      exact ih (hs.busWrite written) remaining

theorem SoundAt.readSteps (hs : SoundAt l s) (a : Word) (n : Nat) : SoundAt l (s.readSteps a n).state :=
  State.readSteps_keeps (fun _ _ _ _ hu h => SoundAt.memRead hu h) hs

theorem SoundAt.writeSteps (hs : SoundAt l s) (a : Word) (ws : List Word) : SoundAt l (s.writeSteps a ws).state :=
  State.writeSteps_keeps (fun _ _ _ _ hu h => SoundAt.memWrite hu h) hs

theorem SoundAt.fetchHalf (hs : SoundAt l s) {a : Word} {h : Half} (hf : s.fetchHalf a = .ok (h, t)) : SoundAt l t := by
  obtain ⟨-, -, devicesOnly, -⟩ := State.fetchHalf_ok hf
  rw [devicesOnly]
  exact { hs with }

theorem SoundAt.fetch (hs : SoundAt l s) {r : (Decoded × Word) × State} (hf : s.fetch = .ok r) : SoundAt l r.2 := by
  obtain ⟨⟨h1, u1⟩, firstHalf, rest⟩ := Acc.bind_eq_ok hf
  dsimp only at rest
  split at rest
  · obtain ⟨⟨h2, u2⟩, secondHalf, answer⟩ := Acc.bind_eq_ok rest
    cases answer
    exact (hs.fetchHalf firstHalf).fetchHalf secondHalf
  · cases rest
    exact hs.fetchHalf firstHalf

/-! ### Sampling -/

theorem SoundAt.sampleIrq (hs : SoundAt l s) (levels : BitVec 32) : SoundAt l (s.sampleIrq levels) :=
  { hs.setPendingMask (existingOnly_irqMask _) with }

theorem SoundAt.sampleNmi (hs : SoundAt l s) (level : Bool) : SoundAt l (s.sampleNmi level) := by
  unfold State.sampleNmi
  dsimp only
  split
  · exact { hs.setPending .nmi with }
  · exact { hs with }

theorem SoundAt.sampleEvent (hs : SoundAt l s) (level : Bool) : SoundAt l (s.sampleEvent level) := by
  unfold State.sampleEvent
  split
  · exact hs.signalEvent
  · exact hs

theorem SoundAt.sysTickTick (hs : SoundAt l s) : SoundAt l s.sysTickTick := by
  have counted (k : SysTick) : SoundAt l { s with stk := k } := { hs with }
  unfold State.sysTickTick
  split
  · exact hs
  · split
    · exact counted _
    · split
      · dsimp only
        split
        · exact (counted _).setPending .sysTick
        · exact counted _
      · exact counted _

theorem SoundAt.sysTickTicks (n : Nat) : ∀ {s : State}, SoundAt l s → SoundAt l (s.sysTickTicks n) := by
  induction n with
  | zero => exact id
  | succ n ih => exact fun hs => ih hs.sysTickTick

theorem SoundAt.sampleMidway (hs : SoundAt l s) (m : Midway) : SoundAt l (s.sampleMidway m) :=
  ((hs.sampleIrq _).sampleNmi _).sysTickTicks _

theorem SoundAt.applyDma (hs : SoundAt l s) (cells : List Host.Cell) : SoundAt l (s.applyDma cells) :=
  { hs with memory := Memory.wf_setBytes hs.memory }

theorem SoundAt.sampleAll (hs : SoundAt l s) (i : StepInput) : SoundAt l (s.sampleAll i) :=
  ((((hs.applyDma _).sampleIrq _).sampleNmi _).sampleEvent _).sysTickTicks _

theorem SoundAt.sample (hs : SoundAt l s) (i : StepInput) : SoundAt l (s.sample i) := by
  unfold State.sample
  split
  · exact { hs.sampleAll i with }
  · exact hs.sampleAll i

end Sys2Proof.Machine
end

