-- ==== Sys2Proof/Proofs/Invariant.lean ====
section
/-! PROOF. Every step keeps the invariant (10_state.md R23, R26, R32, R37, R38, R41, R53): one lemma for exception entry and return,
for every way in which a meaning ends, for every instruction, and for the parts of the step. -/

namespace Sys2Proof.Machine

open Sys2Proof.Safety

variable {l : Option LockupLevel} {s : State}

/-- The next state that a result answers, if it answers one, meets the invariant. -/
def InvAfter (r : Result) : Prop := ∀ t, r = .next t → Inv t

theorem SoundAt.next (hs : SoundAt none s) : InvAfter (.next s) := by
  intro t h
  cases h
  exact hs.inv

theorem invAfter_refused (r : Refusal) : InvAfter (.refused r) := fun _ h => nomatch h

theorem invAfter_fault (f : Fault) : InvAfter (.fault f) := fun _ h => nomatch h

theorem InvAfter.ite {c : Prop} [Decidable c] {x y : Result} (hx : InvAfter x) (hy : InvAfter y) : InvAfter (if c then x else y) := by
  split
  · exact hx
  · exact hy

/-! ### Exception entry -/

theorem legal_ipsr_num (e : Exc) :
    BitVec.ofNat 6 e.num = 0 ∨ BitVec.ofNat 6 e.num = 2 ∨ BitVec.ofNat 6 e.num = 3 ∨ BitVec.ofNat 6 e.num = 11 ∨
      BitVec.ofNat 6 e.num = 14 ∨ BitVec.ofNat 6 e.num = 15 ∨
      (16 ≤ (BitVec.ofNat 6 e.num).toNat ∧ (BitVec.ofNat 6 e.num).toNat < 48) := by
  cases e with
  | irq n =>
    have number : (BitVec.ofNat 6 (Exc.irq n).num).toNat = 16 + n.val := Nat.mod_eq_of_lt (by simp only [Exc.num]; omega)
    omega
  | _ => decide

theorem SoundAt.enterHandlerMode (hs : SoundAt l s) (e : Exc) (lr : Word) : SoundAt l (s.enterHandlerMode e lr) :=
  { hs.activate e with mode := ⟨legal_ipsr_num e, fun _ => rfl⟩ }

theorem SoundAt.enterHardFault (hs : SoundAt none s) (lr : Word) : InvAfter (s.enterHardFault lr) := by
  intro t h
  obtain ⟨v, u, read, rfl⟩ | rfl := State.enterHardFault_next h
  · exact (((hs.vectorRead read).enterHandlerMode _ _).jumpVector v).inv
  · exact (hs.enterHandlerMode _ _).enterLockup_inv

theorem SoundAt.entryFault (hs : SoundAt none s) (p : Int) (lr : Word) : InvAfter (s.entryFault p lr) := by
  intro t h
  obtain ⟨-, rfl⟩ | ⟨-, tailChained⟩ := State.entryFault_next h
  · exact hs.enterLockup_inv
  · exact (hs.setPending _).enterHardFault _ _ tailChained

theorem SoundAt.enterHandler (hs : SoundAt none s) (e : Exc) (p : Int) (lr : Word) : InvAfter (s.enterHandler e p lr) := by
  intro t h
  obtain ⟨v, u, read, rfl⟩ | faulted := State.enterHandler_next h
  · exact (((hs.vectorRead read).enterHandlerMode _ _).jumpVector v).inv
  · exact hs.entryFault _ _ _ faulted

theorem SoundAt.takeException (hs : SoundAt none s) (e : Exc) (ra : Word) : InvAfter (s.takeException e ra) := by
  intro t h
  obtain ⟨faulted, u, stacked, entered⟩ := State.takeException_next h
  have hu := (hs.stackWords stacked).setSp (framePtr s.sp)
  split at entered
  · exact hu.entryFault _ _ _ entered
  · exact hu.enterHandler _ _ _ _ entered

theorem SoundAt.takeBest (hs : SoundAt none s) (ra : Word) : InvAfter (s.takeBest ra) := by
  intro t h
  obtain ⟨e, -, taken⟩ | ⟨-, rfl⟩ := State.takeBest_next h
  · exact hs.takeException _ _ _ taken
  · exact hs.inv

theorem SoundAt.raiseHardFault (hs : SoundAt none s) (ra : Word) : InvAfter (s.raiseHardFault ra) := by
  intro t h
  obtain ⟨-, rfl⟩ | ⟨-, taken⟩ := State.raiseHardFault_next h
  · exact hs.enterLockup_inv
  · exact (hs.setPending _).takeBest _ _ taken

/-! ### Exception return -/

theorem excReturnTarget_psp {x : Word} {toThread toPsp : Bool} (h : excReturnTarget x = some (toThread, toPsp)) :
    toPsp = true → toThread = true := by
  unfold excReturnTarget at h
  repeat' split at h
  all_goals cases h
  all_goals decide

theorem Exc.num_of_ofNum? {n : Nat} {e : Exc} (h : Exc.ofNum? n = some e) : e.num = n := by
  unfold Exc.ofNum? at h
  repeat' split at h
  all_goals cases h
  all_goals simp only [Exc.num]
  all_goals omega

/-- The IPSR that a return restores is 0 in Thread mode and the number of an exception in Handler mode (60_exceptions.md R388). -/
theorem restored_ipsr {toThread : Bool} {psr : Word} (h : returnIpsrOk toThread psr = true) :
    (toThread = true ∧ psr.setWidth 6 = 0#6) ∨ (toThread = false ∧ ∃ e : Exc, psr.setWidth 6 = BitVec.ofNat 6 e.num) := by
  cases toThread with
  | true =>
    have zero : psr.toNat % 64 = 0 := by simpa [returnIpsrOk] using h
    exact .inl ⟨rfl, BitVec.eq_of_toNat_eq (by simpa using zero)⟩
  | false =>
    obtain ⟨e, he⟩ := Option.isSome_iff_exists.mp (show (Exc.ofNum? (psr.toNat % 64)).isSome = true from h)
    refine .inr ⟨rfl, e, BitVec.eq_of_toNat_eq ?_⟩
    rw [Exc.num_of_ofNum? he]
    simp

theorem unstacked_modeLegal (s : State) {toThread toPsp : Bool} (frame : Word) {w : List Word}
    (hpsr : returnIpsrOk toThread (w.getD 7 0) = true) (hpsp : toPsp = true → toThread = true) :
    ModeLegal (s.unstacked toPsp frame w) := by
  have ipsr_eq : (s.unstacked toPsp frame w).ipsr = (w.getD 7 0).setWidth 6 := rfl
  have spsel_eq : (s.unstacked toPsp frame w).spsel = toPsp := rfl
  unfold ModeLegal
  rw [ipsr_eq, spsel_eq]
  obtain ⟨-, zero⟩ | ⟨handler, e, number⟩ := restored_ipsr hpsr
  · exact ⟨.inl zero, fun nonzero => absurd zero nonzero⟩
  · rw [number]
    exact ⟨legal_ipsr_num e, fun _ => Bool.eq_false_iff.mpr fun psp => by simp [hpsp psp] at handler⟩

theorem SoundAt.unstacked (hs : SoundAt l s) {toThread toPsp : Bool} (frame : Word) {w : List Word}
    (hpsr : returnIpsrOk toThread (w.getD 7 0) = true) (hpsp : toPsp = true → toThread = true) :
    SoundAt l (s.unstacked toPsp frame w) := by
  have mode := unstacked_modeLegal s frame hpsr hpsp
  have registers := ((((hs.setGpr 0 (w.getD 0 0)).setGpr 1 (w.getD 1 0)).setGpr 2 (w.getD 2 0)).setGpr 3 (w.getD 3 0)).setGpr 12
    (w.getD 4 0)
  cases toPsp with
  | true => exact { registers.setPsp _ with mode := mode, pcEven := clearBit0_even _ }
  | false => exact { registers.setMsp _ with mode := mode, pcEven := clearBit0_even _ }

theorem SoundAt.afterReturn (hs : SoundAt l s) (toThread : Bool) : SoundAt l (s.afterReturn toThread) := by
  unfold State.afterReturn
  split
  · exact { hs with }
  · exact hs

theorem SoundAt.popFrame (hs : SoundAt none s) {toThread toPsp : Bool} (hpsp : toPsp = true → toThread = true) (frame : Word) :
    InvAfter (s.popFrame toThread toPsp frame) := by
  intro t h
  obtain ⟨-, ipsrOk, rfl⟩ := State.popFrame_next h
  exact (((hs.readWords ..).unstacked frame ipsrOk hpsp).afterReturn toThread).inv

theorem SoundAt.unstackFault (hs : SoundAt none s) (x : Word) : InvAfter (s.unstackFault x) := by
  intro t h
  obtain ⟨-, rfl⟩ | ⟨-, tailChained⟩ := State.unstackFault_next h
  · exact hs.enterLockup_inv
  · exact (hs.setPending _).enterHardFault _ _ tailChained

theorem SoundAt.exceptionReturn (hs : SoundAt none s) (x : Word) : InvAfter (s.exceptionReturn x) := by
  intro t h
  obtain ⟨toThread, toPsp, e, target, -, -, -, returned⟩ := State.exceptionReturn_next h
  obtain popped | faulted := State.unstack_next returned
  · exact (hs.clearActive e).popFrame (excReturnTarget_psp target) _ _ popped
  · exact (hs.clearActive e).unstackFault _ _ faulted

theorem SoundAt.bxWritePc (hs : SoundAt none s) (v : Word) : InvAfter (s.bxWritePc v) := by
  intro t h
  obtain ⟨-, -, returned⟩ | ⟨-, rfl⟩ := State.bxWritePc_next h
  · exact hs.exceptionReturn _ _ returned
  · exact (hs.interwork v).inv

theorem SoundAt.blxWritePc (hs : SoundAt none s) (v : Word) : InvAfter (s.blxWritePc v) := (hs.interwork v).next

/-! ### How the meanings of the instructions end -/

theorem SoundAt.afterAccess (hs : SoundAt none s) {α : Type} {x : Acc α} {k : α → Result}
    (hk : ∀ a, x = .ok a → InvAfter (k a)) : InvAfter (s.afterAccess x k) := by
  intro t h
  obtain ⟨a, done, answer⟩ | ⟨-, -, raised⟩ := State.afterAccess_next h
  · exact hk a done t answer
  · exact hs.raiseHardFault _ _ raised

/-- An instruction of `n` bytes goes on to the next one. -/
theorem SoundAt.nextInstr (hs : SoundAt none s) {n : Word} (hn : n.toNat % 2 = 0 := by decide) : InvAfter (.next (s.advance n)) :=
  (hs.advance hn).next

theorem SoundAt.putPlain (hs : SoundAt none s) (rd : LoReg) (r : Word) : InvAfter (s.putPlain rd r) := (hs.setLo rd r).nextInstr

theorem SoundAt.putNZ (hs : SoundAt none s) (rd : LoReg) (r : Word) : InvAfter (s.putNZ rd r) :=
  ((hs.setLo rd r).setFlags _).nextInstr

theorem SoundAt.putShift (hs : SoundAt none s) (rd : LoReg) (r : Word × Bool) : InvAfter (s.putShift rd r) :=
  ((hs.setLo rd r.1).setFlags _).nextInstr

theorem SoundAt.putAdd (hs : SoundAt none s) (rd : LoReg) (r : AddResult) : InvAfter (s.putAdd rd r) :=
  ((hs.setLo rd r.result).setFlags _).nextInstr

theorem SoundAt.putFlags (hs : SoundAt none s) (f : Apsr) : InvAfter (s.putFlags f) := (hs.setFlags f).nextInstr

theorem SoundAt.putAny (hs : SoundAt none s) (rd : Reg) (r : Word) : InvAfter (s.putAny rd r) :=
  .ite (hs.setPc r).next (hs.setReg rd r).nextInstr

theorem SoundAt.load (hs : SoundAt none s) (rt : LoReg) (size : Size) (a : Word) (ext : Word → Word) :
    InvAfter (s.load rt size a ext) :=
  hs.afterAccess fun _ read => ((hs.memRead read).setLo rt _).nextInstr

theorem SoundAt.store (hs : SoundAt none s) (rt : LoReg) (size : Size) (a : Word) : InvAfter (s.store rt size a) :=
  hs.afterAccess fun _ written => (hs.memWrite written).nextInstr

/-! ### LDM, STM, PUSH, POP and MULS -/

theorem invAfter_inSteps {n : Nat} {upTo : Nat → Progress} {partway : Progress → State} {finish : Progress → Result}
    (hpart : ∀ k, SoundAt none (partway (upTo k))) (hfinish : InvAfter (finish (upTo n))) :
    InvAfter (s.inSteps n upTo partway finish) := by
  intro t h
  obtain ⟨m, e, -, -, -, -, abandoned⟩ | ⟨-, done⟩ | ⟨-, -, stopped⟩ := State.inSteps_next h
  · exact ((hpart _).sampleMidway m).takeException _ _ _ abandoned
  · exact hfinish t done
  · exact (hpart n).raiseHardFault _ _ stopped

theorem SoundAt.drewFree (hs : SoundAt l s) : SoundAt l s.drewFree := { hs with }

theorem SoundAt.transferLoads (hs : SoundAt none s) (a : Word) (n : Nat) (base : Option LoReg) (rs : List LoReg)
    {finish : List Word → State → Result} (hfinish : ∀ ws u, SoundAt none u → InvAfter (finish ws u)) :
    InvAfter (s.transferLoads a n base rs finish) := by
  have kept (k : Nat) : SoundAt none ((s.readSteps a k).loadsKept base rs) := by
    rw [Progress.loadsKept_frame]
    exact { hs.readSteps a k with }
  exact .ite (hs.afterAccess fun _ _ => hfinish _ _ (hs.readWords ..)) (invAfter_inSteps kept (hfinish _ _ (hs.readSteps a n)))

theorem SoundAt.transferStores (hs : SoundAt none s) (a : Word) (ws : List Word) (fresh : Bool) {finish : State → Result}
    (hfinish : ∀ u, SoundAt none u → InvAfter (finish u)) : InvAfter (s.transferStores a ws fresh finish) := by
  have drawn {u : State} (hu : SoundAt none u) : SoundAt none (if fresh then u.drewFree else u) := by
    split
    · exact hu.drewFree
    · exact hu
  have kept (k : Nat) : SoundAt none ((s.writeSteps a (ws.take k)).storesKept fresh) := by
    rw [Progress.storesKept_frame]
    exact { hs.writeSteps a (ws.take k) with }
  refine .ite (hs.afterAccess fun u done => ?_) (invAfter_inSteps kept (hfinish _ (drawn (hs.writeSteps ..))))
  obtain ⟨-, -, written⟩ := Acc.bind_eq_ok done
  exact hfinish _ (drawn (hs.writeWords written))

/-! ### Instructions -/

theorem SoundAt.withLr (hs : SoundAt none s) (v : Word) : SoundAt none { s with lr := v } := { hs with }

theorem SoundAt.withPrimask (hs : SoundAt none s) (p : Bool) : SoundAt none { s with primask := p } := { hs with }

theorem SoundAt.withEventReg (hs : SoundAt none s) (e : Bool) : SoundAt none { s with eventReg := e } := { hs with }

theorem SoundAt.withSleep (hs : SoundAt none s) (z : SleepState) : SoundAt none { s with sleep := z } := { hs with }

theorem SoundAt.withPrefetched (hs : SoundAt none s) (p : Option Prefetched) : SoundAt none { s with prefetched := p } := { hs with }

theorem SoundAt.branch (hs : SoundAt none s) {n : Nat} (imm : BitVec n) : SoundAt none { s with pc := s.branchTarget imm } :=
  hs.withPc (add_even (add_even hs.pcEven (by decide)) (branchOffset_even imm))

theorem SoundAt.msrWrite (hs : SoundAt none s) (spec : SpecReg) (x : Word) : SoundAt none (s.msrWrite spec x) := by
  have control : SoundAt none { s with nPriv := x.getLsbD 0, spsel := if s.threadMode then x.getLsbD 1 else s.spsel } := by
    refine { hs with mode := ⟨hs.mode.1, fun handler => ?_⟩ }
    have notThread : s.threadMode = false := by simpa [State.threadMode] using handler
    change (if s.threadMode then x.getLsbD 1 else s.spsel) = false
    rw [notThread]
    exact hs.mode.2 handler
  have ifPrivileged {u : State} (hu : SoundAt none u) : SoundAt none (if s.privileged then u else s) := by
    split
    · exact hu
    · exact hs
  cases spec with
  | apsr | iapsr | eapsr | psr => exact hs.setFlags _
  | ipsr | epsr | iepsr => exact hs
  | msp => exact ifPrivileged (hs.setMsp x)
  | psp => exact ifPrivileged (hs.setPsp x)
  | primask => exact ifPrivileged (hs.withPrimask _)
  | control => exact ifPrivileged control

theorem SoundAt.execCps (hs : SoundAt none s) (p : Bool) :
    InvAfter (.next ((if s.privileged then { s with primask := p } else s).advance 2)) := by
  split
  · exact (hs.withPrimask p).nextInstr
  · exact hs.nextInstr

theorem SoundAt.execMuls (hs : SoundAt none s) (rdm rn : LoReg) : InvAfter (execMuls rdm rn s) := by
  unfold Machine.execMuls
  exact invAfter_inSteps (fun _ => hs) (hs.putNZ _ _)

theorem SoundAt.execLdm (hs : SoundAt none s) (rn : LoReg) (list8 : BitVec 8) : InvAfter (execLdm rn list8 s) := by
  refine .ite (invAfter_refused _) (hs.transferLoads _ _ _ _ fun ws u hu => ?_)
  dsimp only
  split
  · exact (hu.setLos _ ws).nextInstr
  · exact ((hu.setLos _ ws).setLo rn _).nextInstr

theorem SoundAt.execStm (hs : SoundAt none s) (rn : LoReg) (list8 : BitVec 8) : InvAfter (execStm rn list8 s) :=
  .ite (invAfter_refused _) (hs.transferStores _ _ _ fun _ hu => (hu.setLo rn _).nextInstr)

theorem SoundAt.execPush (hs : SoundAt none s) (m : Bool) (list8 : BitVec 8) : InvAfter (execPush m list8 s) :=
  .ite (invAfter_refused _) (hs.transferStores _ _ _ fun _ hu => (hu.setSp _).nextInstr)

theorem SoundAt.execPop (hs : SoundAt none s) (p : Bool) (list8 : BitVec 8) : InvAfter (execPop p list8 s) :=
  .ite (invAfter_refused _) (hs.transferLoads _ _ _ _ fun ws _ hu =>
    have hu' := (hu.setLos _ ws).setSp _
    .ite (hu'.bxWritePc _) hu'.nextInstr)

/-- Every instruction keeps the invariant, whatever its operands and whatever exception it raises or abandons it. -/
theorem SoundAt.exec (hs : SoundAt none s) (i : Instr) : InvAfter (exec i s) := by
  cases i with
  | movsReg | movsImm | mvns | ands | eors | orrs | bics => exact hs.putNZ _ _
  | lslsImm | lsrsImm | asrsImm | lslsReg | lsrsReg | asrsReg | rors => exact hs.putShift _ _
  | addsReg | subsReg | addsImm3 | subsImm3 | addsImm8 | subsImm8 | adcs | sbcs | rsbs => exact hs.putAdd _ _
  | cmpImm | cmpLow | cmn | tst => exact hs.putFlags _
  | cmpHigh => exact .ite (hs.putFlags _) (invAfter_refused _)
  | muls rdm rn => exact hs.execMuls rdm rn
  | addHigh => exact .ite (hs.putAny _ _) (invAfter_refused _)
  | mov => exact hs.putAny _ _
  | adr | addRdSp | sxth | sxtb | uxth | uxtb | rev | rev16 | revsh => exact hs.putPlain _ _
  | addSp | subSp => exact (hs.setSp _).nextInstr
  | ldrLit | ldrReg | ldrhReg | ldrbReg | ldrsh | ldrsb | ldrImm | ldrhImm | ldrbImm | ldrSp => exact hs.load _ _ _ _
  | strReg | strhReg | strbReg | strImm | strhImm | strbImm | strSp => exact hs.store _ _ _
  | ldm rn list8 => exact hs.execLdm rn list8
  | stm rn list8 => exact hs.execStm rn list8
  | push m list8 => exact hs.execPush m list8
  | pop p list8 => exact hs.execPop p list8
  | b imm11 => exact (hs.branch imm11).next
  | bcond cond imm8 => exact .ite (hs.branch imm8).next hs.nextInstr
  | bl imm24 => exact ((hs.branch imm24).withLr _).next
  | bx => exact .ite (hs.bxWritePc _) (invAfter_refused _)
  | blx => exact .ite ((hs.withLr _).blxWritePc _) (invAfter_refused _)
  | msr => exact .ite (hs.msrWrite _ _).nextInstr (invAfter_refused _)
  | mrs => exact .ite (hs.setReg _ _).nextInstr (invAfter_refused _)
  | cpsie => exact hs.execCps false
  | cpsid => exact hs.execCps true
  | bkpt => exact .ite (invAfter_fault _) (hs.raiseHardFault _)
  | svc => exact .ite (hs.raiseHardFault _) ((hs.setPending _).takeBest _)
  | udf | udfW => exact hs.raiseHardFault _
  | nop | yield | dsb | dmb => exact hs.nextInstr
  | wfe => exact .ite (hs.withEventReg _).nextInstr (hs.withSleep _).nextInstr
  | wfi => exact (hs.withSleep _).nextInstr
  | sev => exact (hs.withEventReg _).nextInstr
  | isb => exact (hs.withPrefetched _).nextInstr

/-! ### The step -/

theorem resetBlocks_reserved :
    Scb.reset.vtor &&& 0x0000007F#32 = 0 ∧ Scb.reset.scr &&& 0xFFFFFFE9#32 = 0 ∧ Scb.reset.shpr2 &&& 0x3FFFFFFF#32 = 0 ∧
      Scb.reset.shpr3 &&& 0x3F3FFFFF#32 = 0 ∧ (∀ n : Fin 8, Nvic.reset.ipr[n] &&& 0x3F3F3F3F#32 = 0) ∧
      ∀ r : Fin 8, RegionReserved Mpu.reset.regions[r] :=
  ⟨rfl, rfl, rfl, rfl, by decide, by unfold RegionReserved; decide⟩

/-- The core after reset meets the invariant, whatever the two words that reset loads (70_reset_and_hazards.md R430). -/
theorem resetFrom_sound (sp v : Word) {mem : Memory} (hmem : mem.wf = true) (devices : List DeviceAccess) (deviceInput : Nat)
    (inputs : List StepInput) (freeCount : Nat) (cfg : Platform) :
    SoundAt none (State.resetFrom sp v mem devices deviceInput inputs freeCount cfg) :=
  { memory := hmem
    aligned := ⟨alignSp_aligned sp, rfl⟩
    pcEven := clearBit0_even v
    mode := ⟨.inl rfl, fun handler => absurd rfl handler⟩
    reserved := resetBlocks_reserved
    exceptions := ⟨existingOnly_zero, existingOnly_zero⟩
    lockup := rfl }

/-- Settles O57: reset from empty memory. -/
theorem resetInvariant : Obligations.ResetInvariant := (resetFrom_sound _ _ rfl _ _ _ _ _).inv

theorem doReset_inv {l : Option LockupLevel} (hs : SoundAt l s) : InvAfter s.doReset := by
  intro t h
  unfold State.doReset at h
  split at h
  · cases h
  · cases h
  · rename_i sp s1 read1
    split at h
    · cases h
    · cases h
    · rename_i v s2 read2
      cases h
      exact (resetFrom_sound sp v ((hs.vectorRead read1).vectorRead read2).memory _ _ _ _ _).inv

theorem SoundAt.execDecoded (hs : SoundAt none s) (d : Decoded) : InvAfter (s.execDecoded d) := by
  cases d with
  | instr i => exact hs.exec i
  | undefined => exact hs.raiseHardFault _
  | unpredictable u => exact invAfter_refused _

theorem SoundAt.runStep (hs : SoundAt none s) (ahead : Bool) : InvAfter (s.runStep ahead) := by
  unfold State.runStep
  split
  · exact hs.takeException _ _
  · exact hs.afterAccess fun r fetched => ((hs.fetch fetched).withPrefetched _).execDecoded r.1.1

/-! Nothing that is sampled puts a processor to sleep that is awake. -/

theorem setPendingMask_awake (h : s.sleep = .running) (m : BitVec 48) : (s.setPendingMask m).sleep = .running := by
  unfold State.setPendingMask
  dsimp only
  split <;> simp [h]

theorem sampleIrq_awake (h : s.sleep = .running) (levels : BitVec 32) : (s.sampleIrq levels).sleep = .running :=
  setPendingMask_awake h _

theorem sampleNmi_awake (h : s.sleep = .running) (level : Bool) : (s.sampleNmi level).sleep = .running := by
  unfold State.sampleNmi
  dsimp only
  split
  · exact setPendingMask_awake h _
  · exact h

theorem sampleEvent_awake (h : s.sleep = .running) (level : Bool) : (s.sampleEvent level).sleep = .running := by
  unfold State.sampleEvent
  split <;> simp [h]

theorem sysTickTick_awake (h : s.sleep = .running) : s.sysTickTick.sleep = .running := by
  unfold State.sysTickTick
  dsimp only
  repeat' split
  · exact h
  · exact h
  · refine setPendingMask_awake ?_ _
    exact h
  · exact h
  · exact h

theorem sysTickTicks_awake (n : Nat) : ∀ {s : State}, s.sleep = .running → (s.sysTickTicks n).sleep = .running := by
  induction n with
  | zero => exact id
  | succ n ih => exact fun h => ih (sysTickTick_awake h)

theorem sample_awake (h : s.sleep = .running) (i : StepInput) : (s.sample i).sleep = .running := by
  have written : (s.applyDma i.dma).sleep = .running := h
  have all : (s.sampleAll i).sleep = .running :=
    sysTickTicks_awake _ (sampleEvent_awake (sampleNmi_awake (sampleIrq_awake written _) _) _)
  unfold State.sample
  split <;> exact all

theorem lockupFixed_sample (hfixed : LockupFixed s) (i : StepInput) : LockupFixed (s.sample i) := by
  intro locked
  rw [State.sample_lockup] at locked
  obtain ⟨hpc, awake⟩ := hfixed locked
  exact ⟨by rw [State.sample_pc, hpc], sample_awake awake i⟩

theorem SoundAt.lockupStep {level : LockupLevel} (hs : SoundAt (some level) s) (hfixed : LockupFixed s) :
    InvAfter (s.lockupStep level) := by
  have unlocked : SoundAt none { s with lockup := none } := { hs with lockup := rfl }
  refine .ite (unlocked.takeException _ _) fun t h => ?_
  cases h
  exact inv_iff_soundAt.mpr ⟨hs.lockup ▸ hs, hfixed⟩

theorem sampledStep_inv (h : Inv s) (i : StepInput) : InvAfter (s.sampledStep i) := by
  obtain ⟨hs, hfixed⟩ := inv_iff_soundAt.mp h
  unfold State.sampledStep
  split
  · rename_i level locked
    exact (locked ▸ hs : SoundAt (some level) s).lockupStep hfixed
  · rename_i unlocked
    have hs : SoundAt none s := unlocked ▸ hs
    exact .ite ((hs.withSleep _).runStep _) hs.next

theorem haltedStep_inv {l : Option LockupLevel} (hs : SoundAt l s) (i : StepInput) : Inv (s.haltedStep i) :=
  SoundAt.inv { hs.sample { i with ticks := 0 } with lockup := rfl }

/-- Settles O58: by reset, the step of a halted processor, lockup, sleep, the exception taken and the instruction executed. -/
theorem stepKeepsInvariant : Obligations.StepKeepsInvariant := by
  intro s t h stepped
  obtain ⟨hs, hfixed⟩ := inv_iff_soundAt.mp h
  have taken : SoundAt s.lockup s.takeInput := { hs with }
  have sampled : Inv (s.takeInput.sample s.currentInput) :=
    inv_iff_soundAt.mpr ⟨by simpa using taken.sample s.currentInput, lockupFixed_sample (s := s.takeInput) hfixed _⟩
  have keeps : InvAfter s.machineStep :=
    .ite (doReset_inv taken) (.ite (fun u halted => by cases halted; exact haltedStep_inv taken _) (sampledStep_inv sampled _))
  exact keeps t stepped

end Sys2Proof.Machine
end

