-- ==== Sys2Proof/Proofs/Registers.lean ====
section
/-! PROOF. The privilege level, what R[n] reads, and the addresses of the loads and stores as numbers (10_state.md R22, R24, R27, R39;
40_memory_access.md R231 to R238, R247, R257). -/

namespace Sys2Proof.Machine

open Sys2Proof.Safety

/-- Settles O7, from the two halves of the model's test. -/
theorem privilegeLevel : Obligations.PrivilegeLevel := by
  intro s
  simp [State.privileged]

theorem State.reg_gpr (s : State) (k : Fin 13) : s.reg ⟨k.val, by omega⟩ = s.gpr k := by
  simp [State.reg]

theorem State.reg_sp (s : State) : s.reg 13 = s.sp := rfl

theorem State.reg_lr (s : State) : s.reg 14 = s.lr := rfl

theorem State.reg_pc (s : State) : s.reg 15 = s.pc + 4 := rfl

theorem State.sp_eq (s : State) : s.sp = if s.ipsr = 0 ∧ s.spsel = true then s.psp else s.msp := by
  simp [State.sp, State.usesPsp]

theorem immWord_eq_ofNat {n : Nat} (imm : BitVec n) : immWord imm = BitVec.ofNat 32 imm.toNat :=
  BitVec.eq_of_toNat_eq (by simp [immWord])

/-- An immediate in units of an access size is the multiple as a number. -/
theorem immWord_mul {n : Nat} (imm : BitVec n) (k : Nat) : immWord imm * BitVec.ofNat 32 k = BitVec.ofNat 32 (k * imm.toNat) := by
  rw [immWord_eq_ofNat, ← BitVec.ofNat_mul, Nat.mul_comm]

theorem State.immAddr_eq (s : State) (rn : LoReg) (imm5 : BitVec 5) (size : Size) :
    s.immAddr rn imm5 size = s.lo rn + BitVec.ofNat 32 (size.bytes * imm5.toNat) := by
  rw [State.immAddr, immWord_mul]

theorem State.spAddr_eq (s : State) (imm8 : BitVec 8) : s.spAddr imm8 = s.sp + BitVec.ofNat 32 (4 * imm8.toNat) :=
  congrArg (s.sp + ·) (immWord_mul imm8 4)

theorem align4_eq (x : Word) : align4 x = BitVec.ofNat 32 (x.toNat / 4 * 4) := by
  apply BitVec.eq_of_toNat_eq
  rw [align4, toNat_and_highMask 2 (by decide), BitVec.toNat_ofNat]
  omega

theorem State.literalAddr_eq (s : State) (imm8 : BitVec 8) :
    s.literalAddr imm8 = BitVec.ofNat 32 ((s.pc + 4).toNat / 4 * 4 + 4 * imm8.toNat) := by
  rw [BitVec.ofNat_add, ← align4_eq, ← immWord_mul imm8 4]
  rfl

/-- Settles O6, one clause per register and address function. -/
theorem operandReads : Obligations.OperandReads := by
  intro s rn rm imm5 imm8
  refine ⟨s.reg_gpr, s.reg_sp.trans s.sp_eq, s.reg_lr, s.reg_pc, s.immAddr_eq .., s.immAddr_eq .., ?_, BitVec.toNat_add .., s.spAddr_eq imm8,
    s.literalAddr_eq imm8⟩
  rw [s.immAddr_eq, Size.bytes, Nat.one_mul]

end Sys2Proof.Machine
end

