-- ==== Sys2Proof/Proofs/SystemControl.lean ====
section
/-! PROOF. The read-only registers, the registers of the system control block and of the timer, and the refusals of their writes
(10_state.md R53, R62 to R72, R76 to R82). -/

namespace Sys2Proof.Machine

open Sys2Proof.Safety

theorem State.ppbValue_stkCalib_toNat (s : State) : (s.ppbValue .stkCalib).toNat = 0x40000000 + s.cfg.tenms.toNat := by
  have h := s.cfg.tenms.isLt
  change (0x40000000#32 ||| s.cfg.tenms.setWidth 32).toNat = _
  rw [BitVec.toNat_or, BitVec.toNat_setWidth, Nat.mod_eq_of_lt (by omega)]
  exact (Nat.two_pow_add_eq_or_of_lt (i := 30) (by omega) 1).symm

/-- Settles O49, register by register. -/
theorem readOnlyRegisters : Obligations.ReadOnlyRegisters := by
  intro s w
  refine ⟨rfl, rfl, s.ppbValue_stkCalib_toNat, rfl, fun r hr => ?_⟩
  obtain rfl | rfl | rfl | rfl := hr <;> rfl

/-! A write with reserved bits is done where they are clear, and else refused. -/

theorem keepCleared_of_clear {reserved w : Word} (s : State) (h : w &&& reserved = 0) : keepCleared reserved w s = .ok s := if_pos h

theorem keepCleared_of_set {reserved w : Word} (s : State) (h : w &&& reserved ≠ 0) :
    keepCleared reserved w s = .refused .reservedBitWrite := if_neg h

/-! ### VTOR, SCR, SHPR2, SHPR3, AIRCR -/

theorem and_highMask_eq_ofNat (w : Word) {m : Word} (k : Nat) (hm : m = BitVec.allOnes 32 <<< k) :
    w &&& m = BitVec.ofNat 32 (w.toNat / 2 ^ k * 2 ^ k) := by
  rw [← toNat_and_highMask k hm, BitVec.ofNat_toNat, BitVec.setWidth_eq]

theorem State.ppbWrite_vtor (s : State) (w : Word) :
    s.ppbWrite .vtor w = .ok { s with scb := { s.scb with vtor := BitVec.ofNat 32 (w.toNat / 128 * 128) } } := by
  have stored : w &&& 0xFFFFFF80#32 = BitVec.ofNat 32 (w.toNat / 128 * 128) := and_highMask_eq_ofNat w 7 (by decide)
  rw [← stored]
  rfl

/-- The reserved bits of SCR that must be kept cleared are 3 and 0 (10_state.md R69). -/
theorem and_scrReserved_eq_zero_iff (w : Word) : w &&& 0x00000009#32 = 0 ↔ w.getLsbD 3 = false ∧ w.getLsbD 0 = false := by
  have bits : w &&& 0x00000009#32 =
      (if w.getLsbD 3 then BitVec.twoPow 32 3 else 0#32) ||| (if w.getLsbD 0 then BitVec.twoPow 32 0 else 0#32) := by
    rw [← BitVec.and_twoPow, ← BitVec.and_twoPow, ← BitVec.and_or_distrib_left]
    rfl
  rw [bits]
  cases w.getLsbD 3 <;> cases w.getLsbD 0 <;> decide

theorem State.ppbWrite_scr_refused {s : State} {w : Word} (h : w.getLsbD 3 = true ∨ w.getLsbD 0 = true) :
    s.ppbWrite .scr w = .refused .reservedBitWrite := by
  refine keepCleared_of_set _ fun clear => ?_
  obtain ⟨h3, h0⟩ := (and_scrReserved_eq_zero_iff w).mp clear
  rw [h3, h0] at h
  exact h.elim nofun nofun

/-- The priority that the top byte of a word gives where only its two highest bits are implemented (10_state.md R71, R72). -/
theorem and_topByte (w : Word) {m : Word} (hm : m.toNat / 2 ^ 24 % 256 = 192) :
    (w &&& m).toNat / 16777216 = w.toNat / 1073741824 * 64 := by
  have byte := byte_and w m 24
  have := (w &&& m).isLt
  rw [hm, byte_and_192 (by omega)] at byte
  omega

theorem State.ppbWrite_shpr2 (s : State) {w : Word} (h : w.toNat % 16777216 = 0) :
    ∃ t, s.ppbWrite .shpr2 w = .ok t ∧ t.prio .svCall = ((w.toNat / 1073741824 * 64 : Nat) : Int) ∧
      t = { s with scb := { s.scb with shpr2 := w &&& 0xC0000000#32 } } :=
  ⟨_, keepCleared_of_clear _ ((and_lowMask_eq_zero_iff 24 (by decide)).mpr h), congrArg Nat.cast (and_topByte w (by decide)), rfl⟩

theorem State.ppbWrite_shpr3 (s : State) {w : Word} (h : w.toNat % 65536 = 0) :
    ∃ t, s.ppbWrite .shpr3 w = .ok t ∧ t.prio .sysTick = ((w.toNat / 1073741824 * 64 : Nat) : Int) ∧
      t.prio .pendSV = ((w.toNat / 65536 % 256 / 64 * 64 : Nat) : Int) ∧
      t = { s with scb := { s.scb with shpr3 := w &&& 0xC0C00000#32 } } := by
  have pendSv : (w &&& 0xC0C00000#32).toNat / 65536 % 256 = w.toNat / 65536 % 256 / 64 * 64 :=
    (byte_and w 0xC0C00000#32 16).trans (byte_and_192 (by omega))
  exact ⟨_, keepCleared_of_clear _ ((and_lowMask_eq_zero_iff 16 (by decide)).mpr h), congrArg Nat.cast (and_topByte w (by decide)),
    congrArg Nat.cast pendSv, rfl⟩

theorem State.ppbValue_aircr_low (s : State) : (s.ppbValue .aircr).toNat % 65536 = 0 := by
  change (s.freeValue &&& 0xFFFF0000#32).toNat % 65536 = 0
  rw [toNat_and_highMask 16 (by decide)]
  omega

theorem State.writeAircr_done (s : State) {w : Word} (key : w.toNat / 65536 = 0x05FA) (clear : w.getLsbD 1 = false) :
    s.writeAircr w = .ok { s with scb := { s.scb with resetRequest := s.scb.resetRequest || w.getLsbD 2 } } := by
  unfold State.writeAircr
  rw [if_neg fun noKey => noKey key, clear, if_neg Bool.false_ne_true]
  cases w.getLsbD 2 with
  | true => rw [Bool.or_true, if_pos rfl]
  | false => rw [Bool.or_false, if_neg Bool.false_ne_true]

/-! ### STK_CSR and STK_RVR -/

theorem State.ppbWrite_stkCsr (s : State) {w : Word} (h : w &&& 0xFFFEFFF8#32 = 0) :
    s.ppbWrite .stkCsr w = .ok { s with stk := { s.stk with ctrl := BitVec.ofNat 3 (w.toNat % 8) } } := by
  have low : w.setWidth 3 = BitVec.ofNat 3 (w.toNat % 8) := BitVec.eq_of_toNat_eq (by simp)
  rw [← low]
  exact keepCleared_of_clear _ h

/-- Settles O50, register by register. -/
theorem systemControlWrites : Obligations.SystemControlWrites := fun s w =>
  ⟨rfl, rfl, rfl, rfl, s.ppbValue_aircr_low,
    ⟨_, s.ppbWrite_vtor w, rfl⟩,
    fun h3 h0 => keepCleared_of_clear _ ((and_scrReserved_eq_zero_iff w).mpr ⟨h3, h0⟩),
    State.ppbWrite_scr_refused,
    s.ppbWrite_shpr2, fun set => keepCleared_of_set _ (mt (and_lowMask_eq_zero_iff 24 (by decide)).mp set),
    s.ppbWrite_shpr3, fun set => keepCleared_of_set _ (mt (and_lowMask_eq_zero_iff 16 (by decide)).mp set),
    fun noKey => if_pos noKey,
    fun key active => (if_neg fun noKey => noKey key).trans (if_pos active),
    s.writeAircr_done,
    s.ppbWrite_stkCsr, keepCleared_of_set _,
    fun small => keepCleared_of_clear _ ((and_highMask_eq_zero_iff 24 (by decide)).mpr small),
    fun large => keepCleared_of_set _ (mt (and_highMask_eq_zero_iff 24 (by decide)).mp (Nat.not_lt.mpr large))⟩

end Sys2Proof.Machine
end

