-- ==== Sys2Proof/Proofs/MpuRegisters.lean ====
section
/-! PROOF. Reads and writes of the registers of the MPU (10_state.md R83 to R86, R90, R91; 93_implementation_defined.md U7, U9). -/

namespace Sys2Proof.Machine

open Sys2Proof.Safety

/-! ### The regions after a write -/

theorem regions_set (v : Vector MpuRegion 8) (r : Fin 8) (x : MpuRegion) (j : Fin 8) :
    (v.set r x)[j] = if j = r then x else v[j] := by
  change (v.set r x)[j.val] = _
  simp only [Vector.getElem_set, Fin.val_inj, eq_comm (a := r)]
  rfl

theorem Mpu.setBase_base (m : Mpu) (r : Fin 8) (w : Word) (j : Fin 8) :
    (m.setBase r w).regions[j].base = if j = r then w else m.regions[j].base := by
  rw [Mpu.setBase, regions_set]
  split <;> rfl

theorem Mpu.setBase_attr (m : Mpu) (r : Fin 8) (w : Word) (j : Fin 8) :
    (m.setBase r w).regions[j].attr = m.regions[j].attr := by
  rw [Mpu.setBase, regions_set]
  split
  · subst_vars; rfl
  · rfl

theorem Mpu.setAttr_attr (m : Mpu) (r : Fin 8) (w : Word) (j : Fin 8) :
    (m.setAttr r w).regions[j].attr = if j = r then w else m.regions[j].attr := by
  rw [Mpu.setAttr, regions_set]
  split <;> rfl

theorem Mpu.setAttr_base (m : Mpu) (r : Fin 8) (w : Word) (j : Fin 8) :
    (m.setAttr r w).regions[j].base = m.regions[j].base := by
  rw [Mpu.setAttr, regions_set]
  split
  · subst_vars; rfl
  · rfl

/-- The base bits that a write of MPU_RBAR stores (assumption log 36). -/
theorem rbarBase_eq (w : Word) : w &&& 0xFFFFFF00#32 = BitVec.ofNat 32 (w.toNat / 256 * 256) :=
  and_highMask_eq_ofNat w 8 (by decide)

/-! ### Reads -/

/-- MPU_RBAR shows the base above the size of the selected region, and below it, in bits [3:0], the region's number. -/
theorem State.ppbValue_mpuRbar_toNat {s : State} (hmpu : s.cfg.hasMpu = true) :
    (s.ppbValue .mpuRbar).toNat =
      s.mpu.current.base.toNat / 2 ^ max 8 (s.mpu.current.size + 1) * 2 ^ max 8 (s.mpu.current.size + 1) + s.mpu.rnr.val := by
  have number_lt : s.mpu.rnr.val < 2 ^ max 8 (s.mpu.current.size + 1) :=
    Nat.lt_of_lt_of_le (by omega : s.mpu.rnr.val < 2 ^ 8) (Nat.pow_le_pow_right (by decide) (Nat.le_max_left ..))
  have number : (BitVec.ofNat 32 s.mpu.rnr.val).toNat = s.mpu.rnr.val := Nat.mod_eq_of_lt (by omega)
  simp only [State.ppbValue, hmpu, if_true]
  rw [BitVec.toNat_or, MpuRegion.addrField_toNat, number, Nat.mul_comm _ (2 ^ _), Nat.two_pow_add_eq_or_of_lt number_lt]

/-! ### Writes on a platform with an MPU -/

section
variable {s : State} {w : Word} (hmpu : s.cfg.hasMpu = true)
include hmpu

theorem State.ppbWrite_mpuCtrl_refused (h : w.getLsbD 1 = true ∧ w.getLsbD 0 = false) :
    s.ppbWrite .mpuCtrl w = .refused .mpuHfnmienaWithoutEnable := by
  obtain ⟨h1, h0⟩ := h
  refine (if_pos hmpu).trans (if_pos ?_)
  rw [h1, h0]
  rfl

theorem State.ppbWrite_mpuCtrl (h : ¬(w.getLsbD 1 = true ∧ w.getLsbD 0 = false)) :
    s.ppbWrite .mpuCtrl w = .ok { s with mpu := { s.mpu with ctrl := BitVec.ofNat 3 (w.toNat % 8) } } := by
  have low : w.setWidth 3 = BitVec.ofNat 3 (w.toNat % 8) := BitVec.eq_of_toNat_eq (by simp)
  rw [← low]
  refine (if_pos hmpu).trans (if_neg fun refused => h ?_)
  rwa [Bool.and_eq_true, Bool.not_eq_true'] at refused

theorem State.ppbWrite_mpuRnr (r : Fin 8) (h : w.toNat = r.val) :
    s.ppbWrite .mpuRnr w = .ok { s with mpu := { s.mpu with rnr := r } } := by
  have known : w.toNat < 8 := h ▸ r.isLt
  have number : (⟨w.toNat, known⟩ : Fin 8) = r := Fin.ext h
  rw [← number]
  exact (if_pos hmpu).trans ((if_neg (by omega)).trans (dif_pos known))

theorem State.ppbWrite_mpuRnr_unknown (h8 : 8 ≤ w.toNat) (h256 : w.toNat < 256) :
    s.ppbWrite .mpuRnr w = .refused .mpuRegionNumber :=
  (if_pos hmpu).trans ((if_neg (Nat.not_le.mpr h256)).trans (dif_neg (Nat.not_lt.mpr h8)))

theorem State.ppbWrite_mpuRnr_reserved (h : 256 ≤ w.toNat) : s.ppbWrite .mpuRnr w = .refused .reservedBitWrite :=
  (if_pos hmpu).trans (if_pos h)

theorem State.ppbWrite_mpuRbar_valid (valid : w.getLsbD 4 = true) (h : w.toNat % 16 < 8) :
    s.ppbWrite .mpuRbar w =
      .ok { s with mpu := { s.mpu with rnr := ⟨w.toNat % 16, h⟩ }.setBase ⟨w.toNat % 16, h⟩ (w &&& 0xFFFFFF00#32) } :=
  (if_pos hmpu).trans ((if_pos valid).trans (dif_pos h))

theorem State.ppbWrite_mpuRbar_refused (valid : w.getLsbD 4 = true) (h : 8 ≤ w.toNat % 16) :
    s.ppbWrite .mpuRbar w = .refused .mpuRegionNumber :=
  (if_pos hmpu).trans ((if_pos valid).trans (dif_neg (Nat.not_lt.mpr h)))

theorem State.ppbWrite_mpuRbar_selected (notValid : w.getLsbD 4 = false) :
    s.ppbWrite .mpuRbar w = .ok { s with mpu := s.mpu.setBase s.mpu.rnr (w &&& 0xFFFFFF00#32) } :=
  (if_pos hmpu).trans (if_neg (Bool.eq_false_iff.mp notValid))

theorem State.ppbWrite_mpuRasr :
    s.ppbWrite .mpuRasr w = .ok { s with mpu := s.mpu.setAttr s.mpu.rnr (w &&& 0x1707FF3F#32) } := if_pos hmpu

end

/-! ### A platform without an MPU -/

theorem State.mpuRegister_absent {s : State} (hmpu : s.cfg.hasMpu = false) (w : Word) (r : PpbReg)
    (hr : r = .mpuCtrl ∨ r = .mpuRnr ∨ r = .mpuRbar ∨ r = .mpuRasr) : s.ppbValue r = 0 ∧ s.ppbWrite r w = .ok s := by
  have absent : ¬s.cfg.hasMpu = true := Bool.eq_false_iff.mp hmpu
  obtain rfl | rfl | rfl | rfl := hr <;> exact ⟨if_neg absent, if_neg absent⟩

/-- Settles O55, register by register. -/
theorem mpuRegionWrites : Obligations.MpuRegionWrites := by
  intro s w
  refine ⟨fun hmpu => ⟨State.ppbWrite_mpuCtrl_refused hmpu, State.ppbWrite_mpuCtrl hmpu, ?ctrlValue, ?rnrValue,
    State.ppbValue_mpuRbar_toNat hmpu, if_pos hmpu, State.ppbWrite_mpuRnr hmpu, State.ppbWrite_mpuRnr_unknown hmpu,
    State.ppbWrite_mpuRnr_reserved hmpu, fun valid h => ?rbarValid, State.ppbWrite_mpuRbar_refused hmpu, fun notValid => ?rbarSelected,
    ?rasr⟩, fun hmpu => State.mpuRegister_absent hmpu w⟩
  case ctrlValue =>
    have value : s.ppbValue .mpuCtrl = s.mpu.ctrl.setWidth 32 := if_pos hmpu
    rw [value, BitVec.toNat_setWidth]
    omega
  case rnrValue =>
    have value : s.ppbValue .mpuRnr = BitVec.ofNat 32 s.mpu.rnr.val := if_pos hmpu
    rw [value, BitVec.toNat_ofNat]
    omega
  case rbarValid =>
    refine ⟨_, State.ppbWrite_mpuRbar_valid hmpu valid h, rfl, fun r => ?_, fun r => Mpu.setBase_attr .., rfl⟩
    rw [Mpu.setBase_base, rbarBase_eq]
    simp only [Fin.ext_iff]
  case rbarSelected =>
    refine ⟨_, State.ppbWrite_mpuRbar_selected hmpu notValid, fun r => ?_, fun r => Mpu.setBase_attr .., rfl⟩
    rw [Mpu.setBase_base, rbarBase_eq]
  case rasr =>
    exact ⟨_, State.ppbWrite_mpuRasr hmpu, fun r => Mpu.setAttr_attr .., fun r => Mpu.setAttr_base .., rfl⟩

end Sys2Proof.Machine
end

