-- ==== Sys2Proof/Proofs/PendingBits.lean ====
section
/-! PROOF. Single pending bits after writes of masks, the event that a bit which becomes pending is (60_exceptions.md R415, R416), and the
registers of the NVIC (10_state.md R54 to R59). -/

namespace Sys2Proof.Machine

open Sys2Proof.Safety

/-! ### Bits of masks -/

theorem Exc.num_lt (e : Exc) : e.num < 48 := by
  cases e with
  | irq n => simp only [Exc.num]; omega
  | _ => decide

theorem Exc.ofNum?_num (e : Exc) : Exc.ofNum? e.num = some e := by
  cases e with
  | irq n => exact (by decide : ∀ n : Fin 32, Exc.ofNum? (Exc.irq n).num = some (.irq n)) n
  | _ => rfl

theorem Exc.num_inj {e e' : Exc} : e.num = e'.num ↔ e = e' :=
  ⟨fun h => Option.some.inj (by rw [← Exc.ofNum?_num e, h, Exc.ofNum?_num]), congrArg Exc.num⟩

theorem Exc.mask_getLsbD (e : Exc) (i : Nat) : e.mask.getLsbD i = decide (i = e.num) := by
  simp [Exc.mask, BitVec.getLsbD_twoPow, e.num_lt, eq_comm]

theorem mask_if_getLsbD (c : Bool) (e : Exc) (i : Nat) : (if c then e.mask else 0).getLsbD i = (c && decide (i = e.num)) := by
  cases c with
  | true => exact e.mask_getLsbD i
  | false => exact BitVec.getLsbD_zero

theorem irqMask_getLsbD (w : BitVec 32) (i : Nat) : (irqMask w).getLsbD i = (decide (16 ≤ i) && w.getLsbD (i - 16)) := by
  rw [irqMask, BitVec.getLsbD_append]
  by_cases h : i < 16
  · simp [h, Nat.not_le.mpr h]
  · simp [h, Nat.not_lt.mp h]

theorem irqMask_getLsbD_irq (w : BitVec 32) (n : Fin 32) : (irqMask w).getLsbD (Exc.irq n).num = w.getLsbD n.val := by
  rw [irqMask_getLsbD, Exc.num, Nat.add_sub_cancel_left, decide_eq_true (Nat.le_add_right ..), Bool.true_and]

theorem irqMask_getLsbD_low (w : BitVec 32) {j : Nat} (h : j < 16) : (irqMask w).getLsbD j = false := by
  rw [irqMask_getLsbD, decide_eq_false (Nat.not_le.mpr h), Bool.false_and]

/-! ### Setting and clearing pending bits -/

/-- With SEVONPEND, setting the bits of a mask makes one pending that is not (60_exceptions.md R416). -/
def State.PendsEvent (s : State) (m : BitVec 48) : Prop :=
  s.scb.scr.getLsbD 4 = true ∧ ∃ i, m.getLsbD i = true ∧ s.nvic.pending.getLsbD i = false

theorem and_not_eq_zero_iff (m p : BitVec 48) : m &&& ~~~p = 0 ↔ ∀ i, m.getLsbD i = true → p.getLsbD i = true := by
  have bit (i : Nat) (hi : i < 48) : (m &&& ~~~p).getLsbD i = (m.getLsbD i && !p.getLsbD i) := by
    rw [BitVec.getLsbD_and, BitVec.getLsbD_not, decide_eq_true hi, Bool.true_and]
  constructor
  · intro zero i set
    have clear := bit i (BitVec.lt_of_getLsbD set)
    rw [zero, set, Bool.true_and] at clear
    simpa using clear.symm.trans BitVec.getLsbD_zero
  · intro covered
    refine BitVec.eq_of_getLsbD_eq fun i hi => ?_
    rw [bit i hi]
    cases set : m.getLsbD i with
    | false => exact BitVec.getLsbD_zero.symm
    | true => rw [covered i set]; exact BitVec.getLsbD_zero.symm

theorem State.pendsEvent_iff (s : State) (m : BitVec 48) :
    (s.sevOnPend && (m &&& ~~~s.nvic.pending) != 0) = true ↔ s.PendsEvent m := by
  rw [Bool.and_eq_true, bne_iff_ne, ne_eq, and_not_eq_zero_iff]
  simp only [Classical.not_forall, Bool.not_eq_true, exists_prop]
  rfl

theorem State.setPendingMask_of_event {s : State} {m : BitVec 48} (h : s.PendsEvent m) :
    s.setPendingMask m = (s.withPending (s.nvic.pending ||| m)).signalEvent := if_pos ((s.pendsEvent_iff m).mpr h)

theorem State.setPendingMask_of_no_event {s : State} {m : BitVec 48} (h : ¬s.PendsEvent m) :
    s.setPendingMask m = s.withPending (s.nvic.pending ||| m) := if_neg (mt (s.pendsEvent_iff m).mp h)

/-- An event wakes a processor asleep in WFE (60_exceptions.md R415). -/
theorem State.setPendingMask_sleep {s : State} {m : BitVec 48} {event : Prop} (h : s.PendsEvent m ↔ event)
    [Decidable (event ∧ s.sleep = .wfe)] :
    (s.setPendingMask m).sleep = if event ∧ s.sleep = .wfe then .running else s.sleep := by
  by_cases he : s.PendsEvent m
  · rw [State.setPendingMask_of_event he, State.signalEvent_sleep]
    exact ite_congr (propext (and_iff_right (h.mp he)).symm) (fun _ => rfl) fun _ => rfl
  · rw [State.setPendingMask_of_no_event he, if_neg fun both => he (h.mpr both.1)]
    rfl

/-- An event sets the event register of a processor that is not asleep in WFE (60_exceptions.md R415). -/
theorem State.setPendingMask_eventReg {s : State} {m : BitVec 48} {event : Prop} (h : s.PendsEvent m ↔ event)
    [Decidable (event ∧ s.sleep ≠ .wfe)] :
    (s.setPendingMask m).eventReg = if event ∧ s.sleep ≠ .wfe then true else s.eventReg := by
  by_cases he : s.PendsEvent m
  · rw [State.setPendingMask_of_event he, State.signalEvent_eventReg, ← ite_not]
    exact ite_congr (propext (and_iff_right (h.mp he)).symm) (fun _ => rfl) fun _ => rfl
  · rw [State.setPendingMask_of_no_event he, if_neg fun both => he (h.mpr both.1)]
    rfl

theorem State.setPendingMask_frame (s : State) (m : BitVec 48) :
    s.setPendingMask m =
      { s with
        nvic := { s.nvic with pending := (s.setPendingMask m).nvic.pending }
        sleep := (s.setPendingMask m).sleep
        eventReg := (s.setPendingMask m).eventReg } := by
  by_cases he : s.PendsEvent m
  · rw [State.setPendingMask_of_event he]
    unfold State.signalEvent
    split <;> rfl
  · rw [State.setPendingMask_of_no_event he]
    rfl

theorem State.setPendingMask_getLsbD (s : State) (m : BitVec 48) (i : Nat) :
    (s.setPendingMask m).nvic.pending.getLsbD i = (s.nvic.pending.getLsbD i || m.getLsbD i) := by
  rw [State.setPendingMask_nvic, BitVec.getLsbD_or]

theorem State.clearPendingMask_getLsbD (s : State) (m : BitVec 48) {i : Nat} (hi : i < 48) :
    (s.clearPendingMask m).nvic.pending.getLsbD i = (s.nvic.pending.getLsbD i && !m.getLsbD i) := by
  rw [State.clearPendingMask_nvic, BitVec.getLsbD_and, BitVec.getLsbD_not, decide_eq_true hi, Bool.true_and]

/-! ### The NVIC -/

theorem State.pendsEvent_irqMask (s : State) (w : BitVec 32) :
    s.PendsEvent (irqMask w) ↔
      s.scb.scr.getLsbD 4 = true ∧ ∃ n : Fin 32, w.getLsbD n.val = true ∧ s.isPending (.irq n) = false := by
  refine and_congr_right fun _ => ⟨fun ⟨i, set, clear⟩ => ?_, fun ⟨n, set, clear⟩ => ?_⟩
  · rw [irqMask_getLsbD, Bool.and_eq_true, decide_eq_true_eq] at set
    obtain ⟨high, set⟩ := set
    refine ⟨⟨i - 16, BitVec.lt_of_getLsbD set⟩, set, ?_⟩
    rwa [State.isPending, Exc.num, Nat.add_sub_cancel' high]
  · exact ⟨(Exc.irq n).num, (irqMask_getLsbD_irq w n).trans set, clear⟩

theorem State.irqPending_getLsbD (s : State) (n : Fin 32) : s.irqPending.getLsbD n.val = s.isPending (.irq n) := by
  rw [State.irqPending, BitVec.getLsbD_extractLsb', decide_eq_true n.isLt, Bool.true_and]
  rfl

/-- The priorities that a write of NVIC_IPRk gives the interrupts 4k to 4k + 3; the others keep theirs (10_state.md R58, R59). -/
theorem State.prio_withIpr (s : State) (k : Fin 8) (w : Word) (n : Fin 32) :
    State.prio { s with nvic := { s.nvic with ipr := s.nvic.ipr.set k (w &&& 0xC0C0C0C0#32) } } (.irq n) =
      if n.val / 4 = k.val then ((w.toNat / 2 ^ (8 * (n.val % 4)) % 256 / 64 * 64 : Nat) : Int) else s.prio (.irq n) := by
  have mask : (0xC0C0C0C0#32).toNat / 2 ^ (8 * (n.val % 4)) % 256 = 192 :=
    (by decide : ∀ j < 4, (0xC0C0C0C0#32).toNat / 2 ^ (8 * j) % 256 = 192) _ (Nat.mod_lt _ (by decide))
  simp only [State.prio, State.irqPriority, Vector.getElem_set, eq_comm (a := k.val)]
  split
  · rw [byte_and, mask, byte_and_192 (Nat.mod_lt _ (by decide))]
  · rfl

/-- Settles O48, register by register. -/
theorem nvicSetAndClear : Obligations.NvicSetAndClear := by
  intro s w k event
  have pends : s.PendsEvent (irqMask w) ↔ event := s.pendsEvent_irqMask w
  refine ⟨⟨_, rfl, fun n => BitVec.getLsbD_or, rfl⟩, ⟨_, rfl, fun n => ?icer, rfl⟩,
    ⟨_, rfl, fun n => ?isprSet, fun j hj => ?isprLow, State.setPendingMask_sleep pends, State.setPendingMask_eventReg pends,
      s.setPendingMask_frame _⟩,
    ⟨_, rfl, fun n => ?icprSet, fun j hj => ?icprLow, rfl⟩,
    fun n => ⟨rfl, rfl, s.irqPending_getLsbD n, s.irqPending_getLsbD n⟩, rfl, ⟨_, rfl, ?ipr, s.prio_withIpr k w, rfl⟩⟩
  case icer =>
    change (s.nvic.enable &&& ~~~w).getLsbD n.val = _
    rw [BitVec.getLsbD_and, BitVec.getLsbD_not, decide_eq_true n.isLt, Bool.true_and]
    rfl
  case isprSet => exact (s.setPendingMask_getLsbD ..).trans (congrArg (_ || ·) (irqMask_getLsbD_irq w n))
  case isprLow => rw [s.setPendingMask_getLsbD, irqMask_getLsbD_low w hj, Bool.or_false]
  case icprSet =>
    exact (s.clearPendingMask_getLsbD _ (Exc.num_lt _)).trans (congrArg (_ && !·) (irqMask_getLsbD_irq w n))
  case icprLow => rw [s.clearPendingMask_getLsbD _ (by omega), irqMask_getLsbD_low w hj, Bool.not_false, Bool.and_true]
  case ipr => exact Vector.getElem_set_self ..

end Sys2Proof.Machine
end

