-- ==== Sys2Proof/Proofs/InterruptControl.lean ====
section
/-! PROOF. The choice of VECTPENDING, the smallest (priority, number) of the exceptions that are pending and enabled, and the writes and
reads of ICSR (10_state.md R63, R64; 60_exceptions.md R360, R415, R416). -/

namespace Sys2Proof.Machine

open Sys2Proof.Safety

/-! ### The best exception of a list -/

theorem Exc.mem_all (e : Exc) : e ∈ Exc.all := by
  cases e with
  | irq n => exact List.mem_append_right _ (List.mem_map_of_mem (List.mem_finRange n))
  | _ => decide

theorem Exc.all_sorted : Exc.all.Pairwise fun e e' => e.num < e'.num := by
  refine List.pairwise_append.mpr ⟨by decide, List.pairwise_map.mpr ?irqs, fun e he e' he' => ?below⟩
  case irqs => exact (List.pairwise_lt_finRange 32).imp fun h => Nat.add_lt_add_left h 16
  case below =>
    obtain ⟨n, -, rfl⟩ := List.mem_map.mp he'
    have system : e.num < 16 := (by decide : ∀ e ∈ [Exc.nmi, .hardFault, .svCall, .pendSV, .sysTick], e.num < 16) e he
    exact Nat.lt_of_lt_of_le system (Nat.le_add_right ..)

/-- The exception `e` comes before `e'`, or is of the same rank: by priority, then by number (60_exceptions.md R360). -/
def State.Before (s : State) (e e' : Exc) : Prop := s.prio e < s.prio e' ∨ (s.prio e = s.prio e' ∧ e.num ≤ e'.num)

theorem State.bestOf_eq_none {s : State} {limit : Int} {es : List Exc} (h : s.bestOf limit es = none) :
    ∀ e ∈ es, s.isCandidate limit e = false := by
  induction es with
  | nil => exact fun e he => nomatch he
  | cons e rest ih =>
    rw [State.bestOf] at h
    cases hr : s.bestOf limit rest with
    | none =>
      rw [hr] at h
      refine List.forall_mem_cons.mpr ⟨Bool.eq_false_iff.mpr fun candidate => ?_, ih hr⟩
      simp [candidate] at h
    | some b =>
      rw [hr] at h
      dsimp only at h
      split at h <;> cases h

theorem State.bestOf_eq_some {s : State} {limit : Int} {es : List Exc} {b : Exc} (sorted : es.Pairwise fun e e' => e.num < e'.num)
    (h : s.bestOf limit es = some b) :
    s.isCandidate limit b = true ∧ ∀ e ∈ es, s.isCandidate limit e = true → s.Before b e := by
  induction es generalizing b with
  | nil => cases h
  | cons e rest ih =>
    obtain ⟨below, sorted⟩ := List.pairwise_cons.mp sorted
    have refl : s.Before e e := .inr ⟨rfl, Nat.le_refl _⟩
    rw [State.bestOf] at h
    cases hr : s.bestOf limit rest with
    | none =>
      rw [hr] at h
      obtain ⟨candidate, rfl⟩ : s.isCandidate limit e = true ∧ e = b := by simpa using h
      refine ⟨candidate, List.forall_mem_cons.mpr ⟨fun _ => refl, fun e' he' candidate' => ?_⟩⟩
      rw [State.bestOf_eq_none hr e' he'] at candidate'
      cases candidate'
    | some c =>
      obtain ⟨candidate, best⟩ := ih sorted hr
      rw [hr] at h
      dsimp only at h
      by_cases better : s.isCandidate limit e = true ∧ s.prio e ≤ s.prio c
      · obtain ⟨candidate', le⟩ := better
        obtain rfl : e = b := by simpa [candidate', le] using h
        refine ⟨candidate', List.forall_mem_cons.mpr ⟨fun _ => refl, fun e' he' hc' => ?_⟩⟩
        have before := best e' he' hc'
        have lt := below e' he'
        unfold State.Before at before ⊢
        omega
      · rw [if_neg (by rwa [Bool.and_eq_true, decide_eq_true_eq])] at h
        obtain rfl := Option.some.inj h
        refine ⟨candidate, List.forall_mem_cons.mpr ⟨fun candidate' => .inl ?_, best⟩⟩
        exact Int.not_le.mp fun le => better ⟨candidate', le⟩

theorem State.prio_lt (s : State) (e : Exc) : s.prio e < 256 := by
  cases e <;> simp only [State.prio, State.irqPriority] <;> omega

theorem State.isCandidate_256 (s : State) (e : Exc) : s.isCandidate 256 e = true ↔ s.isPending e = true ∧ s.isEnabled e = true := by
  simp [State.isCandidate, s.prio_lt e]

theorem State.vectPending_eq_num {s : State} {e : Exc} (ready : s.isPending e = true ∧ s.isEnabled e = true)
    (least : ∀ e', s.isPending e' = true ∧ s.isEnabled e' = true → s.Before e e') : s.vectPending = e.num := by
  unfold State.vectPending
  cases h : s.bestOf 256 Exc.all with
  | none =>
    have never := State.bestOf_eq_none h e e.mem_all
    rw [(s.isCandidate_256 e).mpr ready] at never
    cases never
  | some b =>
    obtain ⟨candidate, best⟩ := State.bestOf_eq_some Exc.all_sorted h
    have before := best e e.mem_all ((s.isCandidate_256 e).mpr ready)
    have after := least b ((s.isCandidate_256 b).mp candidate)
    unfold State.Before at before after
    change b.num = e.num
    omega

theorem State.vectPending_eq_zero {s : State} (h : ∀ e, ¬(s.isPending e = true ∧ s.isEnabled e = true)) : s.vectPending = 0 := by
  unfold State.vectPending
  cases hb : s.bestOf 256 Exc.all with
  | none => rfl
  | some b =>
    obtain ⟨candidate, -⟩ := State.bestOf_eq_some Exc.all_sorted hb
    exact absurd ((s.isCandidate_256 b).mp candidate) (h b)

theorem State.vectPending_lt (s : State) : s.vectPending < 64 := by
  unfold State.vectPending
  split
  · decide
  · exact Nat.lt_of_lt_of_le (Exc.num_lt _) (by decide)

/-! ### Reads of ICSR -/

/-- One flag of a register word. -/
theorem flag_getLsbD (c : Bool) {k : Nat} (hk : k < 32) (i : Nat) :
    ((BitVec.ofBool c).setWidth 32 <<< k).getLsbD i = (c && decide (i = k)) := by
  rw [BitVec.getLsbD_shiftLeft, BitVec.getLsbD_setWidth, BitVec.getLsbD_ofBool]
  obtain lt | rfl | gt := Nat.lt_trichotomy i k
  · simp [lt, Nat.ne_of_lt lt]
  · simp [hk]
  · simp [Nat.ne_of_gt gt, Nat.sub_ne_zero_of_lt gt]

/-- The bits of ICSR above VECTPENDING are the three pending bits and free ones. -/
theorem State.ppbValue_icsr_getLsbD (s : State) {i : Nat} (hi : 18 ≤ i) (fixed : icsrFreeMask.getLsbD i = false) :
    (s.ppbValue .icsr).getLsbD i =
      ((s.isPending .nmi && decide (i = 31)) || (s.isPending .pendSV && decide (i = 28)) || (s.isPending .sysTick && decide (i = 26))) := by
  have small : s.vectPending * 4096 < 2 ^ i :=
    Nat.lt_of_lt_of_le (by have := s.vectPending_lt; omega : s.vectPending * 4096 < 2 ^ 18) (Nat.pow_le_pow_right (by decide) hi)
  have number : (BitVec.ofNat 32 (s.vectPending * 4096)).getLsbD i = false := by
    rw [BitVec.getLsbD_ofNat, Nat.testBit_lt_two_pow small, Bool.and_false]
  simp only [State.ppbValue, State.icsrBase, BitVec.getLsbD_or, BitVec.getLsbD_and, fixed, number, Bool.and_false, Bool.or_false]
  rw [flag_getLsbD _ (by decide), flag_getLsbD _ (by decide), flag_getLsbD _ (by decide)]

theorem State.ppbValue_icsr_vectPending (s : State) : (s.ppbValue .icsr).toNat / 4096 % 64 = s.vectPending := by
  have lt := s.vectPending_lt
  have free : (s.freeValue &&& icsrFreeMask).toNat / 2 ^ 12 % 2 ^ 6 = 0 := (field_and ..).trans (Nat.and_zero _)
  have number : (BitVec.ofNat 32 (s.vectPending * 4096)).toNat / 2 ^ 12 % 2 ^ 6 = s.vectPending := by
    rw [BitVec.toNat_ofNat]
    omega
  have nmi : ∀ c, ((BitVec.ofBool c).setWidth 32 <<< 31).toNat / 2 ^ 12 % 2 ^ 6 = 0 := by decide
  have pendSv : ∀ c, ((BitVec.ofBool c).setWidth 32 <<< 28).toNat / 2 ^ 12 % 2 ^ 6 = 0 := by decide
  have sysTick : ∀ c, ((BitVec.ofBool c).setWidth 32 <<< 26).toNat / 2 ^ 12 % 2 ^ 6 = 0 := by decide
  change (s.icsrBase ||| (s.freeValue &&& icsrFreeMask)).toNat / 2 ^ 12 % 2 ^ 6 = _
  simp only [State.icsrBase, field_or, free, number, nmi, pendSv, sysTick, Nat.zero_or, Nat.or_zero]

/-! ### Writes of ICSR -/

/-- The pending bits that a write of ICSR sets (10_state.md R63). -/
def icsrSet (w : Word) : BitVec 48 :=
  (if w.getLsbD 31 then Exc.nmi.mask else 0) ||| (if w.getLsbD 28 then Exc.pendSV.mask else 0)
    ||| (if w.getLsbD 26 then Exc.sysTick.mask else 0)

/-- The pending bits that a write of ICSR clears (10_state.md R63). -/
def icsrClear (w : Word) : BitVec 48 :=
  (if w.getLsbD 27 then Exc.pendSV.mask else 0) ||| (if w.getLsbD 25 then Exc.sysTick.mask else 0)

theorem icsrSet_getLsbD_iff (w : Word) (i : Nat) :
    (icsrSet w).getLsbD i = true ↔
      (w.getLsbD 31 = true ∧ i = Exc.nmi.num) ∨ (w.getLsbD 28 = true ∧ i = Exc.pendSV.num) ∨
        (w.getLsbD 26 = true ∧ i = Exc.sysTick.num) := by
  simp only [icsrSet, BitVec.getLsbD_or, mask_if_getLsbD, Bool.or_eq_true, Bool.and_eq_true, decide_eq_true_eq, or_assoc]

theorem icsrSet_getLsbD_num (w : Word) (e : Exc) :
    (icsrSet w).getLsbD e.num =
      ((w.getLsbD 31 && decide (e = .nmi)) || (w.getLsbD 28 && decide (e = .pendSV)) || (w.getLsbD 26 && decide (e = .sysTick))) := by
  simp only [icsrSet, BitVec.getLsbD_or, mask_if_getLsbD, Exc.num_inj]

theorem icsrClear_getLsbD_num (w : Word) (e : Exc) :
    (icsrClear w).getLsbD e.num = ((w.getLsbD 27 && decide (e = .pendSV)) || (w.getLsbD 25 && decide (e = .sysTick))) := by
  simp only [icsrClear, BitVec.getLsbD_or, mask_if_getLsbD, Exc.num_inj]

theorem State.writeIcsr_refused {s : State} {w : Word}
    (h : (w.getLsbD 28 = true ∧ w.getLsbD 27 = true) ∨ (w.getLsbD 26 = true ∧ w.getLsbD 25 = true)) :
    s.writeIcsr w = .refused .icsrSetClear := by
  refine if_pos ?_
  rwa [Bool.or_eq_true, Bool.and_eq_true, Bool.and_eq_true]

theorem State.writeIcsr_done {s : State} {w : Word} (h1 : ¬(w.getLsbD 28 = true ∧ w.getLsbD 27 = true))
    (h2 : ¬(w.getLsbD 26 = true ∧ w.getLsbD 25 = true)) :
    s.writeIcsr w = .ok ((s.clearPendingMask (icsrClear w)).setPendingMask (icsrSet w)) := by
  refine if_neg ?_
  rw [Bool.or_eq_true, Bool.and_eq_true, Bool.and_eq_true]
  exact fun both => both.elim h1 h2

theorem State.writeIcsr_isPending (s : State) (w : Word) (e : Exc) :
    ((s.clearPendingMask (icsrClear w)).setPendingMask (icsrSet w)).isPending e =
      ((s.isPending e && !((w.getLsbD 27 && decide (e = .pendSV)) || (w.getLsbD 25 && decide (e = .sysTick)))) ||
        ((w.getLsbD 31 && decide (e = .nmi)) || (w.getLsbD 28 && decide (e = .pendSV)) || (w.getLsbD 26 && decide (e = .sysTick)))) := by
  rw [← icsrSet_getLsbD_num, ← icsrClear_getLsbD_num, State.isPending, State.setPendingMask_getLsbD,
    State.clearPendingMask_getLsbD _ _ e.num_lt]
  rfl

/-- Clearing leaves the bit of an exception that is not among the cleared ones. -/
theorem State.clearPendingMask_isPending_of_not {s : State} {m : BitVec 48} {e : Exc} (h : m.getLsbD e.num = false) :
    (s.clearPendingMask m).isPending e = s.isPending e := by
  rw [State.isPending, State.clearPendingMask_getLsbD _ _ e.num_lt, h, Bool.not_false, Bool.and_true]
  rfl

/-- What is set is not cleared, so it is an event where it was not pending before. -/
theorem State.pendsEvent_icsr {s : State} {w : Word} (h1 : ¬(w.getLsbD 28 = true ∧ w.getLsbD 27 = true))
    (h2 : ¬(w.getLsbD 26 = true ∧ w.getLsbD 25 = true)) :
    (s.clearPendingMask (icsrClear w)).PendsEvent (icsrSet w) ↔
      s.scb.scr.getLsbD 4 = true ∧
        ((w.getLsbD 31 = true ∧ s.isPending .nmi = false) ∨ (w.getLsbD 28 = true ∧ s.isPending .pendSV = false) ∨
          (w.getLsbD 26 = true ∧ s.isPending .sysTick = false)) := by
  have nmi : (icsrClear w).getLsbD Exc.nmi.num = false := by simp [icsrClear_getLsbD_num]
  have pendSv (set : w.getLsbD 28 = true) : (icsrClear w).getLsbD Exc.pendSV.num = false :=
    Bool.eq_false_iff.mpr fun clear => h1 ⟨set, by simpa [icsrClear_getLsbD_num] using clear⟩
  have sysTick (set : w.getLsbD 26 = true) : (icsrClear w).getLsbD Exc.sysTick.num = false :=
    Bool.eq_false_iff.mpr fun clear => h2 ⟨set, by simpa [icsrClear_getLsbD_num] using clear⟩
  refine and_congr_right fun _ => ?_
  simp only [icsrSet_getLsbD_iff, or_and_right, exists_or, and_assoc, exists_and_left, exists_eq_left]
  refine or_congr (and_congr_right fun _ => ?_) (or_congr (and_congr_right fun set => ?_) (and_congr_right fun set => ?_))
  · rw [← State.clearPendingMask_isPending_of_not nmi]
    rfl
  · rw [← State.clearPendingMask_isPending_of_not (pendSv set)]
    rfl
  · rw [← State.clearPendingMask_isPending_of_not (sysTick set)]
    rfl

/-- Settles O51: the writes by the masks that they set and clear, the reads bit by bit, VECTPENDING by the best exception of all. -/
theorem interruptControlState : Obligations.InterruptControlState := by
  intro s w ready event
  refine ⟨State.writeIcsr_refused, fun h1 h2 => ?write, ?nmi, ?pendSv, ?sysTick, ?zero, fun e he least => ?vect, fun none => ?noVect⟩
  case write =>
    have pends := State.pendsEvent_icsr (s := s) h1 h2
    refine ⟨_, State.writeIcsr_done h1 h2, ?_, ?_, ?_, fun e he1 he2 he3 => ?_, State.setPendingMask_sleep pends,
      State.setPendingMask_eventReg pends, State.setPendingMask_frame _ _⟩
    · simp [State.writeIcsr_isPending]
    · simp [State.writeIcsr_isPending]
    · simp [State.writeIcsr_isPending]
    · simp [State.writeIcsr_isPending, he1, he2, he3]
  case nmi => simpa using s.ppbValue_icsr_getLsbD (i := 31) (by decide) (by decide)
  case pendSv => simpa using s.ppbValue_icsr_getLsbD (i := 28) (by decide) (by decide)
  case sysTick => simpa using s.ppbValue_icsr_getLsbD (i := 26) (by decide) (by decide)
  case zero => simpa using s.ppbValue_icsr_getLsbD (i := 27) (by decide) (by decide)
  case vect => exact s.ppbValue_icsr_vectPending.trans (State.vectPending_eq_num he least)
  case noVect => exact s.ppbValue_icsr_vectPending.trans (State.vectPending_eq_zero none)

end Sys2Proof.Machine
end

