-- ==== Sys2Proof/Proofs/MpuSearch.lean ====
section
/-! PROOF. Which region of the MPU decides and what it permits (20_memory.md R121, R145, R171 to R176, R180; 10_state.md R88). -/

namespace Sys2Proof.Machine

open Sys2Proof.Safety

theorem getLsbD_iff_div (x : Word) (i : Nat) : x.getLsbD i = true ↔ x.toNat / 2 ^ i % 2 = 1 := by
  rw [← BitVec.testBit_toNat, Nat.testBit_eq_decide_div_mod_eq, decide_eq_true_eq]

/-! ### The region search -/

theorem MpuRegion.enabled_iff (r : MpuRegion) : r.enabled = true ↔ r.attr.toNat % 2 = 1 := by
  rw [MpuRegion.enabled, getLsbD_iff_div, Nat.pow_zero, Nat.div_one]

theorem MpuRegion.covers_iff (r : MpuRegion) (a : Word) :
    r.covers a = true ↔ r.attr.toNat % 2 = 1 ∧ a.toNat / 2 ^ (r.size + 1) = r.base.toNat / 2 ^ (r.size + 1) ∧
      r.attr.toNat / 2 ^ (8 + a.toNat / 2 ^ (r.size + 1 - 3) % 8) % 2 = 0 := by
  have subregion (i : Nat) : r.subDisabled i = false ↔ r.attr.toNat / 2 ^ (8 + i) % 2 = 0 := by
    rw [MpuRegion.subDisabled, ← Bool.not_eq_true, getLsbD_iff_div]
    omega
  simp only [MpuRegion.covers, Bool.and_eq_true, decide_eq_true_eq, Bool.not_eq_true', MpuRegion.enabled_iff, subregion, and_assoc]

/-- Where every enabled region has a permitted size the search finds the first region of the list that matches. -/
theorem findRegion_eq_find? {a : Word} {l : List MpuRegion} (sizes : ∀ r ∈ l, r.enabled = true → 7 ≤ r.size) :
    findRegion a l = (l.find? fun r => r.covers a).elim .miss .hit := by
  induction l with
  | nil => rfl
  | cons r rest ih =>
    have permitted : (r.enabled && decide (r.size < 7)) = false := by
      have := sizes r List.mem_cons_self
      cases h : r.enabled <;> simp_all
    rw [findRegion, permitted, List.find?_cons, ih fun q hq => sizes q (List.mem_cons_of_mem _ hq)]
    cases r.covers a <;> rfl

/-- The last element of a vector that meets a test is the first of the reversed list. -/
theorem find?_reverse_of_last {n : Nat} {α : Type} {v : Vector α n} {p : α → Bool} {r : Fin n} (meets : p v[r] = true)
    (last : ∀ q : Fin n, r < q → p v[q] = false) : v.toList.reverse.find? p = some v[r] := by
  rw [List.find?_eq_some_iff_getElem]
  refine ⟨meets, n - 1 - r.val, by simp; omega, ?_, fun j hj => ?_⟩
  · simp [show n - 1 - (n - 1 - r.val) = r.val by omega]
  · simpa using last ⟨n - 1 - j, by omega⟩ (show r.val < n - 1 - j by omega)

theorem Mpu.mem_regions {m : Mpu} {r : MpuRegion} (h : r ∈ m.regions.toList.reverse) : ∃ k : Fin 8, r = m.regions[k] := by
  obtain ⟨k, hk, rfl⟩ := Vector.mem_iff_getElem.mp (Vector.mem_toList_iff.mp (List.mem_reverse.mp h))
  exact ⟨⟨k, hk⟩, rfl⟩

/-- Settles O53: the search from the highest number down. -/
theorem mpuHighestRegionWins : Obligations.MpuHighestRegionWins := by
  intro m a hits permitted
  have covers_iff (r : Fin 8) : m.regions[r].covers a = true ↔ hits r := MpuRegion.covers_iff _ _
  have search : m.lookup a = (m.regions.toList.reverse.find? fun r => r.covers a).elim .miss .hit := by
    refine findRegion_eq_find? fun r hr enabled => ?_
    obtain ⟨k, rfl⟩ := Mpu.mem_regions hr
    exact permitted k ((MpuRegion.enabled_iff _).mp enabled)
  constructor
  · intro r hit highest
    have found := find?_reverse_of_last (p := fun x : MpuRegion => x.covers a) ((covers_iff r).mpr hit)
      fun q hq => Bool.eq_false_iff.mpr fun h => highest q hq ((covers_iff q).mp h)
    rw [search, found]
    rfl
  · intro noHit
    have found : m.regions.toList.reverse.find? (fun r => r.covers a) = none := by
      refine List.find?_eq_none.mpr fun r hr h => ?_
      obtain ⟨k, rfl⟩ := Mpu.mem_regions hr
      exact noHit k ((covers_iff k).mp h)
    rw [search, found]
    rfl

/-! ### The decision -/

theorem inPpb_eq_true_iff (a : Word) : inPpb a = true ↔ ¬OutsidePpb a := by
  rw [inPpb, decide_eq_true_eq]
  omega

theorem inPpb_eq_false_iff (a : Word) : inPpb a = false ↔ OutsidePpb a := by
  rw [← Bool.not_eq_true, inPpb_eq_true_iff, Decidable.not_not]

theorem defaultXn_iff (a : Word) :
    defaultXn a = true ↔ ¬(a.toNat < 0x40000000 ∨ (0x60000000 ≤ a.toNat ∧ a.toNat < 0xA0000000)) := by
  unfold defaultXn
  split <;> simp_all <;> omega

theorem apWrites_iff (ap : Nat) (priv : Bool) :
    apWrites ap priv = true ↔ ap = 3 ∨ (priv = true ∧ (ap = 1 ∨ ap = 2)) := by
  unfold apWrites
  split <;> simp_all

theorem apReads_iff (ap : Nat) (priv : Bool) :
    apReads ap priv = true ↔ ap = 2 ∨ ap = 3 ∨ ap = 6 ∨ ap = 7 ∨ (priv = true ∧ (ap = 1 ∨ ap = 5)) := by
  unfold apReads
  split <;> simp_all

theorem MpuRegion.xn_iff (r : MpuRegion) : r.xn = true ↔ ¬r.attr.toNat / 268435456 % 2 = 0 := by
  rw [MpuRegion.xn, getLsbD_iff_div]
  omega

theorem State.mpuActive_iff (s : State) :
    s.mpuActive = true ↔
      (s.cfg.hasMpu = true ∧ s.mpu.ctrl.getLsbD 0 = true ∧ (s.mpu.ctrl.getLsbD 1 = true ∨ 0 ≤ s.executionPriority)) := by
  simp [State.mpuActive, Mpu.enabled, Mpu.hfnmiena, and_assoc]

section
variable {s : State} {a : Word}

theorem State.mpuCheck_inactive (h : s.mpuActive = false) (kind : AccessKind) (priv : Bool) :
    s.mpuCheck a kind priv = checkDefault kind a := by
  simp [State.mpuCheck, h]

theorem State.mpuCheck_ppb (h : s.mpuActive = true) (ha : ¬OutsidePpb a) (kind : AccessKind) (priv : Bool) :
    s.mpuCheck a kind priv = if kind = .fetch then .fault .executeNever else .ok () := by
  simp [State.mpuCheck, h, (inPpb_eq_true_iff a).mpr ha]

theorem State.mpuCheck_hit (h : s.mpuActive = true) (ha : OutsidePpb a) {r : MpuRegion} (hit : s.mpu.lookup a = .hit r)
    (kind : AccessKind) (priv : Bool) : s.mpuCheck a kind priv = checkRegion r priv kind := by
  simp [State.mpuCheck, h, (inPpb_eq_false_iff a).mpr ha, hit]

theorem State.mpuCheck_miss (h : s.mpuActive = true) (ha : OutsidePpb a) (miss : s.mpu.lookup a = .miss)
    (kind : AccessKind) (priv : Bool) :
    s.mpuCheck a kind priv = if priv = true ∧ s.mpu.ctrl.getLsbD 2 = true then checkDefault kind a else .fault .mpu := by
  simp [State.mpuCheck, h, (inPpb_eq_false_iff a).mpr ha, miss, Mpu.privdefena]

end

theorem checkDefault_fetch (a : Word) :
    checkDefault .fetch a =
      if a.toNat < 0x40000000 ∨ (0x60000000 ≤ a.toNat ∧ a.toNat < 0xA0000000) then .ok () else .fault .executeNever := by
  simp only [checkDefault, decide_true, Bool.true_and, defaultXn_iff, ite_not]

/-- Settles O54: where the MPU is off, in the PPB, where a region is hit, and where none is. -/
theorem mpuDecision : Obligations.MpuDecision := by
  intro s a priv executable byDefault
  have default_of (h : ∀ kind, s.mpuCheck a kind priv = checkDefault kind a) : byDefault :=
    ⟨h .read, h .write, (h .fetch).trans (checkDefault_fetch a)⟩
  refine ⟨s.mpuActive_iff, fun off => ?off, fun on ppb => ?ppb, fun on out => ⟨fun r hit => ?hit, fun miss => ?miss⟩⟩
  case off => exact default_of fun kind => State.mpuCheck_inactive off kind priv
  case ppb => simp [State.mpuCheck_ppb on ppb]
  case hit =>
    intro ap writable readable
    simp only [State.mpuCheck_hit on out hit]
    refine ⟨fun h k => if_pos h, fun h => ?_⟩
    simp only [checkRegion, MpuRegion.ap, ap, writable, readable] at h ⊢
    simp only [if_neg h, apWrites_iff, apReads_iff, MpuRegion.xn_iff, ite_not, and_self]
  case miss =>
    simp only [State.mpuCheck_miss on out miss]
    refine ⟨fun allowed => default_of fun kind => ?_, fun denied k => if_neg denied⟩
    rw [State.mpuCheck_miss on out miss, if_pos allowed]

end Sys2Proof.Machine
end

