-- ==== Sys2Proof/Proofs/AccessChecks.lean ====
section
/-! PROOF. What the checks of an access answer, in the terms of the statements (20_memory.md R135, R140 to R144), and the accesses of the
system registers (10_state.md R50 to R52). -/

namespace Sys2Proof.Machine

open Sys2Proof.Safety

/-! ### The checks -/

theorem inPpbBlock_iff (a : Word) : inPpbBlock a = true ↔ InRegisterBlock a := by
  simp only [inPpbBlock, ppbBlocks, Span.covers, List.any_cons, List.any_nil, Bool.or_false, Bool.or_eq_true, Bool.and_eq_true,
    decide_eq_true_eq, BitVec.reduceToNat]
  omega

theorem State.privileged_of_unprivileged {s : State} (h : Unprivileged s) : s.privileged = false := by
  simp [State.privileged, h]

section
variable {s : State} {priv : Bool} {kind : AccessKind} {size : Size} {a : Word}

theorem State.checkAccess_unaligned (h : a.toNat % size.bytes ≠ 0) : s.checkAccess priv kind size a = .fault .unaligned := by
  simp [State.checkAccess, aligned, h]

theorem State.checkAccess_ppb (h : a.toNat % size.bytes = 0) (ha : ¬OutsidePpb a) :
    s.checkAccess priv kind size a = s.checkPpb priv kind size a := by
  simp [State.checkAccess, aligned, h, (inPpb_eq_true_iff a).mpr ha]

theorem State.checkAccess_outside (h : a.toNat % size.bytes = 0) (ha : OutsidePpb a) :
    s.checkAccess priv kind size a = (s.mpuCheck a kind priv).bind fun _ => s.checkBus priv kind size a := by
  simp [State.checkAccess, aligned, h, (inPpb_eq_false_iff a).mpr ha]

theorem State.checkBus_busError (h : s.kindAt priv kind size a = .busError) : s.checkBus priv kind size a = .fault .bus := if_pos h

theorem State.checkBus_done (h : s.kindAt priv kind size a ≠ .busError) : s.checkBus priv kind size a = .ok () := if_neg h

theorem State.aligned_of_checkAccess (h : s.checkAccess priv kind size a = .ok ()) : a.toNat % size.bytes = 0 := by
  refine Decidable.byContradiction fun unaligned => ?_
  rw [State.checkAccess_unaligned unaligned] at h
  cases h

/-- An access that is denied is a HardFault. -/
theorem State.checkAccess_of_denied (h : DeniedAs s priv kind size a) : ∃ c, s.checkAccess priv kind size a = .fault c := by
  by_cases aligned : a.toNat % size.bytes = 0
  case neg => exact ⟨_, State.checkAccess_unaligned aligned⟩
  case pos =>
    obtain unaligned | ⟨ppb, unpriv⟩ | ⟨ppb, isPriv, word, noBlock, busError⟩ | ⟨out, mpu⟩ := h
    · exact absurd aligned unaligned
    · exact ⟨.ppbPrivilege, by simp [State.checkAccess_ppb aligned ppb, State.checkPpb, unpriv]⟩
    · have noBlock' : inPpbBlock a = false := Bool.eq_false_iff.mpr (mt (inPpbBlock_iff a).mp noBlock)
      exact ⟨.bus, by
        rw [State.checkAccess_ppb aligned ppb, State.checkPpb, isPriv, State.checkBus_busError (isPriv ▸ busError)]
        simp [word, noBlock']⟩
    · rw [State.checkAccess_outside aligned out]
      obtain ⟨c, denied⟩ | ⟨allowed, busError⟩ := mpu
      · exact ⟨c, by rw [denied, Acc.bind_fault]⟩
      · exact ⟨.bus, by rw [allowed, Acc.bind_ok, State.checkBus_busError busError]⟩

/-- An access outside the PPB that the MPU allows and that is no bus error passes its checks. -/
theorem State.checkAccess_of_reaches (aligned : a.toNat % size.bytes = 0) (out : OutsidePpb a)
    (allowed : s.mpuCheck a kind priv = .ok ()) (answered : s.kindAt priv kind size a ≠ .busError) :
    s.checkAccess priv kind size a = .ok () := by
  rw [State.checkAccess_outside aligned out, allowed, Acc.bind_ok, State.checkBus_done answered]

theorem State.checkAccess_of_storage (h : ReachesStorage s kind size a) : s.checkAccess s.privileged kind size a = .ok () := by
  obtain ⟨aligned, out, allowed, storage⟩ := h
  exact State.checkAccess_of_reaches aligned out allowed (by rcases storage with h | h <;> simp [h])

theorem State.checkAccess_of_device (h : ReachesDevice s kind size a) : s.checkAccess s.privileged kind size a = .ok () := by
  obtain ⟨aligned, out, allowed, device⟩ := h
  exact State.checkAccess_of_reaches aligned out allowed (by simp [device])

theorem outside_of_storage (h : ReachesStorage s kind size a) : OutsidePpb a := h.2.1

theorem inPpb_of_storage (h : ReachesStorage s kind size a) : inPpb a = false := (inPpb_eq_false_iff a).mpr (outside_of_storage h)

theorem inPpb_of_device (h : ReachesDevice s kind size a) : inPpb a = false := (inPpb_eq_false_iff a).mpr h.2.1

theorem kindAt_of_device (h : ReachesDevice s kind size a) : s.kindAt s.privileged kind size a = .device := h.2.2.2

/-- Storage is not a device. -/
theorem not_device_of_storage (h : ReachesStorage s kind size a) : s.kindAt s.privileged kind size a ≠ .device := by
  obtain ⟨-, -, -, storage⟩ := h
  rcases storage with h | h <;> simp [h]

/-- Whether an access reaches storage depends on the privilege, the execution priority, the MPU and the platform. -/
theorem reachesStorage_congr {t : State} (priv : t.privileged = s.privileged) (hn : t.nvic = s.nvic) (hs : t.scb = s.scb)
    (hp : t.primask = s.primask) (hm : t.mpu = s.mpu) (hc : t.cfg = s.cfg) :
    ReachesStorage t kind size a ↔ ReachesStorage s kind size a := by
  simp only [ReachesStorage, priv, State.mpuCheck_congr hn hs hp hm hc, State.kindAt_congr hc]

/-! ### Reads and writes whose checks are known -/

theorem State.memRead_of_check (h : s.checkAccess s.privileged .read size a = .ok ()) :
    s.memRead size a = .ok (s.busValue s.privileged .read size a, s.busReadEffect s.privileged .read size a) := by
  rw [State.memRead, h, Acc.bind_ok]

theorem State.memWrite_of_check (h : s.checkAccess s.privileged .write size a = .ok ()) (v : Word) :
    s.memWrite size a v = s.busWrite s.privileged size a v := by
  rw [State.memWrite, h, Acc.bind_ok]

theorem State.memRead_of_storage (h : ReachesStorage s .read size a) : s.memRead size a = .ok (s.mem.load size a, s) := by
  have out := inPpb_of_storage h
  rw [State.memRead_of_check (State.checkAccess_of_storage h), State.busValue_outside out (not_device_of_storage h),
    State.busReadEffect_outside out (not_device_of_storage h)]

theorem narrowTo_eq_ofNat_carried (size : Size) (v : Word) : narrowTo size v = BitVec.ofNat 32 (carried size v) := by
  have lt := v.isLt
  apply BitVec.eq_of_toNat_eq
  cases size <;> simp only [narrowTo, carried, Size.bytes, BitVec.toNat_ofNat]
  case byte => rw [toNat_and_lowMask 8 (by decide)]; omega
  case half => rw [toNat_and_lowMask 16 (by decide)]; omega
  case word => omega

theorem State.memRead_of_device (h : ReachesDevice s .read size a) :
    s.memRead size a = .ok (deviceAnswer s (accessRecord s .read size a 0), s.sawAccess (accessRecord s .read size a 0)) := by
  have out := inPpb_of_device h
  have device := kindAt_of_device h
  rw [State.memRead_of_check (State.checkAccess_of_device h)]
  simp only [State.busValue, State.busReadEffect, out, device, Bool.false_eq_true, if_false, if_true, State.deviceValue,
    narrowTo_eq_ofNat_carried]
  rfl

theorem State.memWrite_of_device (h : ReachesDevice s .write size a) (v : Word) :
    s.memWrite size a v = .ok (s.sawAccess (accessRecord s .write size a (carried size v))) := by
  have out := inPpb_of_device h
  have device := kindAt_of_device h
  rw [State.memWrite_of_check (State.checkAccess_of_device h)]
  simp only [State.busWrite, out, device, Bool.false_eq_true, if_false, narrowTo_eq_ofNat_carried]
  rfl

end

/-! ### System registers -/

theorem PpbReg.at?_addr (r : PpbReg) : PpbReg.at? r.addr = some r := by
  cases r with
  | nvicIpr n => revert n; decide
  | _ => decide

theorem PpbReg.at?_eq_none {a : Word} (h : ∀ r : PpbReg, r.addr ≠ a) : PpbReg.at? a = none :=
  List.find?_eq_none.mpr fun r _ => by simpa using h r

theorem PpbReg.addr_inRegisterBlock (r : PpbReg) : r.addr.toNat % 4 = 0 ∧ InRegisterBlock r.addr := by
  cases r with
  | nvicIpr n => revert n; decide
  | _ => decide

theorem inPpb_of_inRegisterBlock {a : Word} (h : InRegisterBlock a) : inPpb a = true := by
  rw [inPpb, decide_eq_true_eq]
  omega

/-- A privileged word access of the register blocks passes its checks. -/
theorem State.checkAccess_registerBlock {s : State} {a : Word} (priv : s.privileged = true) (aligned : a.toNat % 4 = 0)
    (block : InRegisterBlock a) (kind : AccessKind) : s.checkAccess s.privileged kind .word a = .ok () := by
  rw [State.checkAccess_ppb (size := .word) aligned ((inPpb_eq_true_iff a).mp (inPpb_of_inRegisterBlock block))]
  simp [State.checkPpb, priv, (inPpbBlock_iff a).mpr block]

/-- Settles O24: the register at an address, or none. -/
theorem systemRegisterAccess : Obligations.SystemRegisterAccess := by
  intro s w priv
  refine ⟨fun r => ?register, fun a aligned block noRegister => ?reserved⟩
  case register =>
    obtain ⟨aligned, block⟩ := r.addr_inRegisterBlock
    have passes := State.checkAccess_registerBlock priv aligned block
    rw [State.memRead_of_check (passes .read), State.memWrite_of_check (passes .write)]
    simp [State.busValue, State.busReadEffect, State.busWrite, inPpb_of_inRegisterBlock block, PpbReg.at?_addr]
  case reserved =>
    have passes := State.checkAccess_registerBlock priv aligned block
    rw [State.memRead_of_check (passes .read), State.memWrite_of_check (passes .write)]
    simp [State.busValue, State.busReadEffect, State.busWrite, inPpb_of_inRegisterBlock block, PpbReg.at?_eq_none noRegister,
      (inPpbBlock_iff a).mpr block]

end Sys2Proof.Machine
end

