-- ==== Sys2Proof/Proofs/SingleAccess.lean ====
section
/-! PROOF. The single loads and stores: each is one read or one write, and what it does with what answers it (40_memory_access.md R231 to
R247, R253; 20_memory.md R132, R154). -/

namespace Sys2Proof.Machine

open Sys2Proof.Safety

/-! ### Low registers -/

theorem State.setGpr_gpr (s : State) (n : Fin 13) (v : Word) (k : Fin 13) :
    (s.setGpr n v).gpr k = if n = k then v else s.gpr k := by
  simp only [State.gpr, State.setGpr, Fin.getElem_fin, Vector.getElem_set, Fin.ext_iff]

theorem LoReg.gpr_inj {r q : LoReg} : LoReg.gpr r = LoReg.gpr q ↔ r = q := by
  simp [LoReg.gpr, Fin.ext_iff]

theorem State.setLo_gpr (s : State) (r : LoReg) (v : Word) (k : Fin 13) :
    (s.setLo r v).gpr k = if LoReg.gpr r = k then v else s.gpr k := s.setGpr_gpr (LoReg.gpr r) v k

theorem State.setLo_lo (s : State) (r : LoReg) (v : Word) (q : LoReg) : (s.setLo r v).lo q = if r = q then v else s.lo q := by
  simp only [State.lo, State.setLo_gpr, LoReg.gpr_inj]

/-! ### The instructions -/

theorem loaded_word : loaded .word false = id := by
  funext v
  simp [loaded, carried, Size.bytes, Nat.mod_eq_of_lt v.isLt]

theorem loaded_half : loaded .half false = zextHalf := by
  funext v
  apply BitVec.eq_of_toNat_eq
  simp [loaded, carried, Size.bytes, zextHalf]

theorem loaded_byte : loaded .byte false = zextByte := by
  funext v
  apply BitVec.eq_of_toNat_eq
  simp [loaded, carried, Size.bytes, zextByte]

theorem loaded_signedHalf : loaded .half true = sextHalf := by
  funext v
  apply BitVec.eq_of_toNat_eq
  have sign : 65536 ≤ 2 * (v.toNat % 65536) ↔ 32768 ≤ v.toNat % 65536 := by omega
  simp only [loaded, carried, Size.bytes, sextHalf, true_and, BitVec.toNat_signExtend, BitVec.toNat_setWidth, BitVec.msb_eq_decide]
  split <;> simp_all
  omega

theorem loaded_signedByte : loaded .byte true = sextByte := by
  funext v
  apply BitVec.eq_of_toNat_eq
  have sign : 256 ≤ 2 * (v.toNat % 256) ↔ 128 ≤ v.toNat % 256 := by omega
  simp only [loaded, carried, Size.bytes, sextByte, true_and, BitVec.toNat_signExtend, BitVec.toNat_setWidth, BitVec.msb_eq_decide]
  split <;> simp_all
  omega

/-- A single load or store is its one access. -/
theorem exec_single {s : State} {i : Instr} {x : Single} (h : singleAccess s i = some x) :
    (x.kind = .read ∧ exec i s = s.load x.rt x.size x.addr (loaded x.size x.signed)) ∨
      (x.kind = .write ∧ exec i s = s.store x.rt x.size x.addr) := by
  cases i with
  | ldrLit | ldrReg | ldrImm | ldrSp => cases h; exact .inl ⟨rfl, congrArg (s.load _ _ _) loaded_word.symm⟩
  | ldrhReg | ldrhImm => cases h; exact .inl ⟨rfl, congrArg (s.load _ _ _) loaded_half.symm⟩
  | ldrbReg | ldrbImm => cases h; exact .inl ⟨rfl, congrArg (s.load _ _ _) loaded_byte.symm⟩
  | ldrsh => cases h; exact .inl ⟨rfl, congrArg (s.load _ _ _) loaded_signedHalf.symm⟩
  | ldrsb => cases h; exact .inl ⟨rfl, congrArg (s.load _ _ _) loaded_signedByte.symm⟩
  | strReg | strhReg | strbReg | strImm | strhImm | strbImm | strSp => cases h; exact .inr ⟨rfl, rfl⟩
  | _ => cases h

section
variable {s : State} {i : Instr} {x : Single}

theorem exec_single_read (h : singleAccess s i = some x) (read : x.kind = .read) :
    exec i s = s.load x.rt x.size x.addr (loaded x.size x.signed) := by
  obtain ⟨-, load⟩ | ⟨write, -⟩ := exec_single h
  · exact load
  · cases read.symm.trans write

theorem exec_single_write (h : singleAccess s i = some x) (write : x.kind = .write) : exec i s = s.store x.rt x.size x.addr := by
  obtain ⟨read, -⟩ | ⟨-, store⟩ := exec_single h
  · cases read.symm.trans write
  · exact store

/-- A load or store whose checks fail raises HardFault with its own address. -/
theorem exec_single_fault (h : singleAccess s i = some x) {c : FaultCause}
    (fault : s.checkAccess s.privileged x.kind x.size x.addr = .fault c) : exec i s = s.raiseHardFault s.pc := by
  obtain ⟨kind, run⟩ | ⟨kind, run⟩ := exec_single h <;> rw [kind] at fault
  · rw [run, State.load, State.memRead, fault, Acc.bind_fault, State.afterAccess_fault]
  · rw [run, State.store, State.memWrite, fault, Acc.bind_fault, State.afterAccess_fault]

theorem exec_single_refused (h : singleAccess s i = some x) {r : Refusal}
    (refused : s.checkAccess s.privileged x.kind x.size x.addr = .refused r) : exec i s = .refused r := by
  obtain ⟨kind, run⟩ | ⟨kind, run⟩ := exec_single h <;> rw [kind] at refused
  · rw [run, State.load, State.memRead, refused, Acc.bind_refused, State.afterAccess_refused]
  · rw [run, State.store, State.memWrite, refused, Acc.bind_refused, State.afterAccess_refused]

/-- A load that is done puts what was read in its register. -/
theorem exec_single_loaded (h : singleAccess s i = some x) (read : x.kind = .read) {v : Word} {u : State}
    (done : s.memRead x.size x.addr = .ok (v, u)) :
    ∃ t, exec i s = .next t ∧ t.lo x.rt = loaded x.size x.signed v ∧ (∀ g : Fin 13, g.val ≠ x.rt.val → t.gpr g = s.gpr g) ∧
      t = { u with regs := t.regs, pc := s.pc + 2 } := by
  obtain ⟨-, effect⟩ := State.memRead_ok done
  obtain ⟨-, rfl⟩ := Prod.mk.inj effect
  refine ⟨_, by rw [exec_single_read h read, State.load, done, State.afterAccess_ok], ?_, fun g hg => ?_, ?_⟩
  · exact (State.setLo_lo ..).trans (if_pos rfl)
  · refine (State.setLo_gpr ..).trans ((if_neg fun same => hg ?_).trans ?_)
    · rw [← same, LoReg.gpr]
    · simp [State.gpr]
  · rw [State.mk.injEq]; simp [State.advance]

/-- A store that is done is its write. -/
theorem exec_single_stored (h : singleAccess s i = some x) (write : x.kind = .write) {u : State}
    (done : s.memWrite x.size x.addr (s.lo x.rt) = .ok u) : exec i s = .next { u with pc := s.pc + 2 } := by
  have pc : u.pc = s.pc := by rw [State.busWrite_frame (State.memWrite_ok done).2]
  rw [exec_single_write h write, State.store, done, State.afterAccess_ok, State.advance, pc]

end

/-- Settles O21: the stored bytes are the word's, and the store changes nothing that the checks of the load look at. -/
theorem storeThenLoad : Obligations.StoreThenLoad := by
  intro s t rt rt' rn imm5 writes reads ram stored
  have out := inPpb_of_storage writes
  obtain ⟨u, written⟩ := State.busWrite_done (s := s) (priv := s.privileged) (size := .word) (v := s.lo rt) out
  have frame := State.busWrite_outside out written
  have done : s.memWrite .word (s.immAddr rn imm5 .word) (s.lo rt) = .ok u := by
    rw [State.memWrite_of_check (State.checkAccess_of_storage writes), written]
  have answer : exec (.strImm rt rn imm5) s = .next { u with pc := s.pc + 2 } :=
    exec_single_stored (x := ⟨.write, .word, s.immAddr rn imm5 .word, rt, false⟩) rfl rfl done
  obtain rfl : { u with pc := s.pc + 2 } = t := Host.Outcome.next.inj (answer.symm.trans stored)
  have again : { u with pc := s.pc + 2 }.immAddr rn imm5 .word = s.immAddr rn imm5 .word := by rw [frame]; rfl
  have reads' : ReachesStorage { u with pc := s.pc + 2 } .read .word (s.immAddr rn imm5 .word) := by
    rw [frame]
    exact (reachesStorage_congr rfl rfl rfl rfl rfl rfl).mpr reads
  obtain ⟨t', answer', value, -⟩ := exec_single_loaded (i := .ldrImm rt' rn imm5) rfl rfl (again ▸ State.memRead_of_storage reads')
  refine ⟨t', answer', value.trans ?_⟩
  rw [loaded_word, again]
  exact Memory.load_word_of_bytes ((State.busWrite_word_byteAt out written).1 ram)

end Sys2Proof.Machine
end

