-- ==== Sys2Proof/Proofs/RegisterLists.lean ====
section
/-! PROOF. Register lists: the place of a register in a list as its rank, and what writing or keeping the registers of a list leaves in each
(40_memory_access.md R248, R254, R255; 60_exceptions.md R384). -/

namespace Sys2Proof.Machine

open Sys2Proof.Safety

/-! ### Ranks -/

/-- An element that passes a filter stands behind those before it that pass. -/
theorem getElem?_filter_of_take {α : Type} {l : List α} {p : α → Bool} {k : Nat} (hk : k < l.length) (passes : p l[k] = true) :
    (l.filter p)[((l.take k).filter p).length]? = some l[k] := by
  have split : l.filter p = (l.take k).filter p ++ l[k] :: (l.drop (k + 1)).filter p := by
    rw [← List.filter_cons_of_pos passes, ← List.filter_append, ← List.drop_eq_getElem_cons hk, List.take_append_drop]
  rw [split, List.getElem?_append_right (Nat.le_refl _), Nat.sub_self]
  rfl

theorem map_val_finRange : (List.finRange 8).map Fin.val = List.range 8 := rfl

theorem rank_eq_length (list8 : BitVec 8) (r : LoReg) :
    rank list8 r = (((List.finRange 8).take r.val).filter fun q => list8.getLsbD q.val).length := by
  have below : List.range r.val = ((List.finRange 8).take r.val).map Fin.val := by
    rw [List.map_take, map_val_finRange, List.take_range, Nat.min_eq_left (Nat.le_of_lt r.isLt)]
  rw [rank, below, List.filter_map, List.length_map]
  rfl

theorem length_regList (list8 : BitVec 8) : (regList list8).length = bitCount list8 := by
  rw [bitCount, ← map_val_finRange, List.filter_map, List.length_map]
  rfl

theorem mem_regList {list8 : BitVec 8} {r : LoReg} : r ∈ regList list8 ↔ list8.getLsbD r.val = true := by
  simp [regList]

theorem regList_nodup (list8 : BitVec 8) : (regList list8).Nodup := (List.nodup_finRange 8).filter _

theorem regList_getElem?_rank {list8 : BitVec 8} {r : LoReg} (h : list8.getLsbD r.val = true) :
    (regList list8)[rank list8 r]? = some r := by
  have bound : r.val < (List.finRange 8).length := by simp
  have at_r : (List.finRange 8)[r.val] = r := by simp
  rw [rank_eq_length, regList, getElem?_filter_of_take bound (by rwa [at_r]), at_r]

theorem rank_lt {list8 : BitVec 8} {r : LoReg} (h : list8.getLsbD r.val = true) : rank list8 r < bitCount list8 := by
  rw [← length_regList]
  exact (List.getElem?_eq_some_iff.mp (regList_getElem?_rank h)).1

theorem bitCount_le (list8 : BitVec 8) : bitCount list8 ≤ 8 :=
  Nat.le_trans (List.length_filter_le ..) (Nat.le_of_eq List.length_range)

theorem bitCount_pos {list8 : BitVec 8} (h : list8 ≠ 0) : 0 < bitCount list8 := by
  obtain ⟨i, hi⟩ : ∃ i, list8.getLsbD i = true := by
    refine Classical.byContradiction fun none => ?_
    exact h (BitVec.eq_of_getLsbD_eq fun i _ => by simpa using fun set => none ⟨i, set⟩)
  exact Nat.zero_lt_of_lt (rank_lt (r := ⟨i, BitVec.lt_of_getLsbD hi⟩) hi)

theorem gpr_ne_of_not_mem {rs : List LoReg} {q : LoReg} (h : q ∉ rs) : ∀ r ∈ rs, LoReg.gpr r ≠ LoReg.gpr q := by
  intro r hr same
  obtain rfl := LoReg.gpr_inj.mp same
  exact h hr

/-! ### Registers of a list written -/

theorem State.setLos_gpr_of_not_mem {rs : List LoReg} {vs : List Word} {g : Fin 13} (h : ∀ r ∈ rs, LoReg.gpr r ≠ g) (s : State) :
    (s.setLos rs vs).gpr g = s.gpr g := by
  induction rs generalizing s vs with
  | nil => rfl
  | cons r rest ih =>
    cases vs with
    | nil => rfl
    | cons v vs =>
      rw [State.setLos, ih fun q hq => h q (List.mem_cons_of_mem _ hq), State.setLo_gpr, if_neg (h r List.mem_cons_self)]

theorem State.setLos_lo {rs : List LoReg} {vs : List Word} (nodup : rs.Nodup) {k : Nat} {r : LoReg} {v : Word}
    (hr : rs[k]? = some r) (hv : vs[k]? = some v) (s : State) : (s.setLos rs vs).lo r = v := by
  induction rs generalizing s vs k with
  | nil => cases hr
  | cons q rest ih =>
    obtain ⟨notMem, nodup⟩ := List.nodup_cons.mp nodup
    cases vs with
    | nil => cases hv
    | cons w vs =>
      cases k with
      | zero =>
        obtain rfl : q = r := Option.some.inj hr
        obtain rfl : w = v := Option.some.inj hv
        rw [State.setLos, State.lo, State.setLos_gpr_of_not_mem (gpr_ne_of_not_mem notMem)]
        exact (State.setLo_lo ..).trans (if_pos rfl)
      | succ k => exact ih nodup hr hv _

/-- A register of the list is written with the word of its rank. -/
theorem State.setLos_regList_lo {list8 : BitVec 8} {vs : List Word} (enough : bitCount list8 ≤ vs.length) {r : LoReg}
    (h : list8.getLsbD r.val = true) (s : State) : vs[rank list8 r]? = some ((s.setLos (regList list8) vs).lo r) := by
  have bound : rank list8 r < vs.length := Nat.lt_of_lt_of_le (rank_lt h) enough
  have at_rank : vs[rank list8 r]? = some vs[rank list8 r] := List.getElem?_eq_getElem bound
  rw [at_rank, State.setLos_lo (regList_nodup list8) (regList_getElem?_rank h) at_rank]

/-- The other registers are as before. -/
theorem State.setLos_regList_gpr {list8 : BitVec 8} (vs : List Word) {g : Fin 13}
    (h : 8 ≤ g.val ∨ list8.getLsbD g.val = false) (s : State) : (s.setLos (regList list8) vs).gpr g = s.gpr g := by
  refine State.setLos_gpr_of_not_mem (fun r hr same => ?_) s
  have inList := mem_regList.mp hr
  have number : r.val = g.val := congrArg Fin.val same
  rcases h with high | notInList
  · omega
  · rw [number, notInList] at inList
    cases inList

/-! ### Loaded registers kept or not -/

theorem State.keepLoaded_gpr_of_not_mem {rs : List LoReg} {vs : List Word} {g : Fin 13} (h : ∀ r ∈ rs, LoReg.gpr r ≠ g) (bits : Word)
    (base : Option LoReg) (s : State) : (s.keepLoaded bits base rs vs).gpr g = s.gpr g := by
  induction rs generalizing s vs with
  | nil => rfl
  | cons r rest ih =>
    cases vs with
    | nil => rfl
    | cons v vs =>
      rw [State.keepLoaded, ih fun q hq => h q (List.mem_cons_of_mem _ hq)]
      split
      · rw [State.setLo_gpr, if_neg (h r List.mem_cons_self)]
      · rfl

/-- A register of the list keeps its value, or has the word loaded for it and is not the base. -/
theorem State.keepLoaded_lo {rs : List LoReg} {vs : List Word} (nodup : rs.Nodup) {k : Nat} {r : LoReg} (hr : rs[k]? = some r)
    (bits : Word) (base : Option LoReg) (s : State) :
    (s.keepLoaded bits base rs vs).lo r = s.lo r ∨
      (base ≠ some r ∧ vs[k]? = some ((s.keepLoaded bits base rs vs).lo r)) := by
  induction rs generalizing s vs k with
  | nil => cases hr
  | cons q rest ih =>
    obtain ⟨notMem, nodup⟩ := List.nodup_cons.mp nodup
    cases vs with
    | nil => exact .inl rfl
    | cons w vs =>
      cases k with
      | zero =>
        obtain rfl : q = r := Option.some.inj hr
        have rest_keeps (u : State) : (u.keepLoaded bits base rest vs).lo q = u.lo q :=
          State.keepLoaded_gpr_of_not_mem (gpr_ne_of_not_mem notMem) ..
        rw [State.keepLoaded, rest_keeps]
        split
        · rename_i kept
          simp only [Bool.and_eq_true, decide_eq_true_eq] at kept
          exact .inr ⟨kept.2, by rw [State.setLo_lo, if_pos rfl]; rfl⟩
        · exact .inl rfl
      | succ k =>
        have other : (if bits.getLsbD q.val && decide (base ≠ some q) then s.setLo q w else s).lo r = s.lo r := by
          have ne : q ≠ r := fun same => notMem (same ▸ List.mem_of_getElem? hr)
          split
          · rw [State.setLo_lo, if_neg ne]
          · rfl
        exact other ▸ ih nodup hr _

theorem Progress.loadsKept_gpr_of_not_mem {p : Progress} {rs : List LoReg} {g : Fin 13} (h : ∀ r ∈ rs, LoReg.gpr r ≠ g)
    (base : Option LoReg) : (p.loadsKept base rs).gpr g = p.state.gpr g := by
  unfold Progress.loadsKept
  split
  · rfl
  · exact State.keepLoaded_gpr_of_not_mem h ..

theorem Progress.loadsKept_lo {p : Progress} {rs : List LoReg} (nodup : rs.Nodup) {k : Nat} {r : LoReg} (hr : rs[k]? = some r)
    (base : Option LoReg) :
    (p.loadsKept base rs).lo r = p.state.lo r ∨ (base ≠ some r ∧ p.words[k]? = some ((p.loadsKept base rs).lo r)) := by
  unfold Progress.loadsKept
  split
  · exact .inl rfl
  · exact State.keepLoaded_lo nodup hr ..

end Sys2Proof.Machine
end

