-- ==== Sys2Proof/Proofs/WordBlocks.lean ====
section
/-! PROOF. Blocks of consecutive words: the words of memory as numbers, a block that stops at a word, and a block that is done
(20_memory.md R132; 40_memory_access.md R254; 60_exceptions.md R384, R390). -/

namespace Sys2Proof.Machine

open Sys2Proof.Safety

/-! ### Words and bytes -/

theorem wordAt_zero (a : Word) : wordAt a 0 = a := BitVec.add_zero a

theorem wordAt_succ (a : Word) (k : Nat) : wordAt (a + 4) k = wordAt a (k + 1) := by
  rw [wordAt, wordAt, BitVec.add_assoc, Nat.mul_succ, Nat.add_comm (4 * k), BitVec.ofNat_add]
  rfl

theorem byteOf_eq_ofNat (v : Word) (i : Nat) : byteOf v i = BitVec.ofNat 8 (v.toNat / 256 ^ i) := by
  apply BitVec.eq_of_toNat_eq
  rw [byteOf, BitVec.extractLsb'_toNat, BitVec.toNat_ofNat, Nat.shiftRight_eq_div_pow, Nat.pow_mul]

theorem toNat_append_byte {n : Nat} (x : BitVec n) (b : Byte) : (x ++ b).toNat = b.toNat + 256 * x.toNat := by
  rw [BitVec.toNat_append, ← Nat.shiftLeft_add_eq_or_of_lt b.isLt, Nat.shiftLeft_eq, Nat.add_comm, Nat.mul_comm]

theorem load_word_eq_bytesValue (s : State) (a : Word) : s.mem.load .word a = BitVec.ofNat 32 (bytesValue s a 4) := by
  have two : a + 1 + 1 = a + 2 := BitVec.add_assoc a 1 1
  have three : a + 2 + 1 = a + 3 := BitVec.add_assoc a 2 1
  have number : (s.mem.load .word a).toNat = bytesValue s a 4 := by
    simp only [Memory.load, bytesValue, toNat_append_byte, two, three, Nat.mul_zero, Nat.add_zero]
  rw [← number, BitVec.ofNat_toNat, BitVec.setWidth_eq]

section
variable {s : State} {a : Word}

theorem State.checkWords_of_fault {priv : Bool} {kind : AccessKind} {j n : Nat} {c : FaultCause}
    (before : ∀ l < j, s.checkAccess priv kind .word (wordAt a l) = .ok ())
    (fault : s.checkAccess priv kind .word (wordAt a j) = .fault c) (hj : j < n) : s.checkWords priv kind a n = .fault c := by
  induction j generalizing a n with
  | zero =>
    obtain ⟨n, rfl⟩ := Nat.exists_eq_succ_of_ne_zero (Nat.ne_of_gt hj)
    rw [wordAt_zero] at fault
    rw [State.checkWords, fault, Acc.bind_fault]
  | succ j ih =>
    obtain ⟨n, rfl⟩ := Nat.exists_eq_succ_of_ne_zero (Nat.ne_of_gt (Nat.zero_lt_of_lt hj))
    have first := before 0 (Nat.succ_pos j)
    rw [wordAt_zero] at first
    rw [State.checkWords, first, Acc.bind_ok]
    exact ih (fun l hl => by rw [wordAt_succ]; exact before (l + 1) (Nat.succ_lt_succ hl)) (by rwa [wordAt_succ])
      (Nat.lt_of_succ_lt_succ hj)

theorem State.checkWords_of_checks {priv : Bool} {kind : AccessKind} {n : Nat}
    (passes : ∀ k < n, s.checkAccess priv kind .word (wordAt a k) = .ok ()) : s.checkWords priv kind a n = .ok () := by
  induction n generalizing a with
  | zero => rfl
  | succ n ih =>
    have first := passes 0 (Nat.succ_pos n)
    rw [wordAt_zero] at first
    rw [State.checkWords, first, Acc.bind_ok]
    exact ih fun k hk => by rw [wordAt_succ]; exact passes (k + 1) (Nat.succ_lt_succ hk)

/-! ### Reading word by word -/

theorem State.readSteps_succ {u : State} {v : Word} (read : s.memRead .word a = .ok (v, u)) (n : Nat) :
    s.readSteps a (n + 1) = { u.readSteps (a + 4) n with words := v :: (u.readSteps (a + 4) n).words } := by
  rw [State.readSteps, read]

theorem State.readSteps_fault {c : FaultCause} (fault : s.memRead .word a = .fault c) (n : Nat) :
    s.readSteps a (n + 1) = { words := [], state := s, stop := .fault c } := by
  rw [State.readSteps, fault]

/-- Words that are read begin with a word that is read. -/
theorem State.memRead_of_readSteps {n : Nat} (done : (s.readSteps a (n + 1)).stop = .ok ()) :
    ∃ v u, s.memRead .word a = .ok (v, u) ∧ (u.readSteps (a + 4) n).stop = .ok () := by
  unfold State.readSteps at done
  split at done
  · exact ⟨_, _, by assumption, done⟩
  · cases done
  · cases done

/-- Reads that are all done, and then one that is not. -/
theorem State.readSteps_of_fault {j n : Nat} {c : FaultCause} (done : (s.readSteps a j).stop = .ok ())
    (fault : (s.readSteps a j).state.memRead .word (wordAt a j) = .fault c) (hj : j < n) :
    s.readSteps a n = { s.readSteps a j with stop := .fault c } := by
  obtain ⟨n, rfl⟩ := Nat.exists_eq_succ_of_ne_zero (Nat.ne_of_gt (Nat.zero_lt_of_lt hj))
  induction j generalizing s a n with
  | zero =>
    rw [wordAt_zero] at fault
    exact State.readSteps_fault fault n
  | succ j ih =>
    obtain ⟨n, rfl⟩ := Nat.exists_eq_succ_of_ne_zero (Nat.ne_of_gt (Nat.zero_lt_of_lt (Nat.lt_of_succ_lt_succ hj)))
    obtain ⟨v, u, read, rest⟩ := State.memRead_of_readSteps done
    rw [State.readSteps_succ read] at fault ⊢
    rw [← wordAt_succ] at fault
    rw [ih rest fault n (Nat.lt_of_succ_lt_succ hj), State.readSteps_succ read]

theorem State.readSteps_of_storage {n : Nat} (storage : BlockReachesStorage s .read a n) :
    s.readSteps a n = { words := (List.range n).map fun k => s.mem.load .word (wordAt a k), state := s, stop := .ok () } := by
  rw [State.readSteps_eq_readWords fun k hk => State.checkAccess_of_storage (storage k hk),
    State.readWords_outside (fun k hk => inPpb_of_storage (storage k hk)) fun k hk => not_device_of_storage (storage k hk)]

/-- Nothing that reads change makes an exception a candidate. -/
theorem State.abandonment_readSteps {n : Nat} {base : Option LoReg} {rs : List LoReg} (calm : Uninterrupted s) :
    s.abandonment n (s.readSteps a) (fun p => p.loadsKept base rs) = none := by
  refine State.abandonment_eq_none (calm.imp_right fun none m hm _ => ?_)
  refine (State.sampleMidway_congr m ?_ ?_ ?_ ?_ ?_ ?_).2.trans (none m hm) <;> rw [Progress.loadsKept_frame, State.readSteps_frame]

/-- What a stopped load leaves in the registers, where storage answered all words before. -/
theorem partlyLoaded_of_words {p : Progress} {j : Nat} (state : p.state = s)
    (words : p.words = (List.range j).map fun k => s.mem.load .word (wordAt a k)) (list8 : BitVec 8) (base : Option LoReg) :
    PartlyLoaded s (p.loadsKept base (regList list8)) a list8 j base := by
  have kept (r : LoReg) (hr : list8.getLsbD r.val = true) := state ▸
    Progress.loadsKept_lo (p := p) (regList_nodup list8) (regList_getElem?_rank hr) base
  have unlisted (g : Fin 13) (h : ∀ q ∈ regList list8, LoReg.gpr q ≠ g) : (p.loadsKept base (regList list8)).gpr g = s.gpr g :=
    state ▸ Progress.loadsKept_gpr_of_not_mem h base
  refine ⟨fun r hr lt notBase => ?_, fun r hr => ?_, fun g hg => ?_⟩
  · refine (kept r hr).imp_right fun ⟨_, word⟩ => ?_
    rw [words, List.getElem?_map, List.getElem?_range lt] at word
    exact (Option.some.inj word).symm.trans (load_word_eq_bytesValue ..)
  · by_cases inList : list8.getLsbD r.val = true
    · obtain same | ⟨notBase, word⟩ := kept r inList
      · exact same
      · rcases hr with notIn | late | isBase
        · exact absurd (notIn.symm.trans inList) (by decide)
        · rw [words, List.getElem?_eq_none (by simpa using late)] at word
          cases word
        · exact absurd isBase notBase
    · exact unlisted _ fun q hq same => inList (LoReg.gpr_inj.mp same ▸ mem_regList.mp hq)
  · exact unlisted g fun q _ same => by
      have number : q.val = g.val := congrArg Fin.val same
      omega

theorem State.transferLoads_atomic (atomic : s.cfg.multiAccessAtomic = true) (n : Nat) (base : Option LoReg) (rs : List LoReg)
    (finish : List Word → State → Result) :
    s.transferLoads a n base rs finish = s.afterAccess (s.checkWords s.privileged .read a n) fun _ =>
      finish (s.readWords s.privileged a n).1 (s.readWords s.privileged a n).2 := if_pos atomic

theorem State.transferLoads_inSteps (notAtomic : s.cfg.multiAccessAtomic = false) (n : Nat) (base : Option LoReg) (rs : List LoReg)
    (finish : List Word → State → Result) :
    s.transferLoads a n base rs finish =
      s.inSteps n (s.readSteps a) (fun p => p.loadsKept base rs) fun p => finish p.words p.state :=
  if_neg (by simp [notAtomic])

theorem State.inSteps_fault {n : Nat} {upTo : Nat → Progress} {partway : Progress → State} {finish : Progress → Result}
    (calm : s.abandonment n upTo partway = none) {c : FaultCause} (stop : (upTo n).stop = .fault c) :
    s.inSteps n upTo partway finish = (partway (upTo n)).raiseHardFault s.pc := by
  rw [State.inSteps, calm, stop]

theorem State.inSteps_done {n : Nat} {upTo : Nat → Progress} {partway : Progress → State} {finish : Progress → Result}
    (calm : s.abandonment n upTo partway = none) (stop : (upTo n).stop = .ok ()) :
    s.inSteps n upTo partway finish = finish (upTo n) := by
  rw [State.inSteps, calm, stop]

/-- A block of loads whose first words storage answers and whose next word is denied raises HardFault. -/
theorem State.transferLoads_stopped {n j : Nat} {base : Option LoReg} {list8 : BitVec 8} {finish : List Word → State → Result}
    (calm : Uninterrupted s) (hj : j < n) (denied : Denied s .read .word (wordAt a j)) (before : BlockReachesStorage s .read a j) :
    ∃ u, s.transferLoads a n base (regList list8) finish = u.raiseHardFault s.pc ∧
      (s.cfg.multiAccessAtomic = true ∨ j = 0 → u = s) ∧ PartlyLoaded s u a list8 j base ∧
      u = { s with regs := u.regs, freeCount := u.freeCount } := by
  obtain ⟨c, fault⟩ := State.checkAccess_of_denied denied
  cases atomic : s.cfg.multiAccessAtomic with
  | true =>
    refine ⟨s, ?_, fun _ => rfl, ⟨fun _ _ _ _ => .inl rfl, fun _ _ => rfl, fun _ _ => rfl⟩, rfl⟩
    rw [State.transferLoads_atomic atomic,
      State.checkWords_of_fault (fun l hl => State.checkAccess_of_storage (before l hl)) fault hj, State.afterAccess_fault]
  | false =>
    have beforeDone := State.readSteps_of_storage before
    have stopped : s.readSteps a n = { s.readSteps a j with stop := .fault c } :=
      State.readSteps_of_fault (by rw [beforeDone]) (by rw [beforeDone, State.memRead, fault, Acc.bind_fault]) hj
    refine ⟨(s.readSteps a n).loadsKept base (regList list8), ?_, ?_, partlyLoaded_of_words ?_ ?_ list8 base, ?_⟩
    · rw [State.transferLoads_inSteps atomic, State.inSteps_fault (State.abandonment_readSteps calm) (by rw [stopped])]
    · rintro (h | rfl)
      · cases h
      · rw [stopped]; rfl
    · rw [stopped, beforeDone]
    · rw [stopped, beforeDone]
    · conv => lhs; rw [Progress.loadsKept_frame]
      rw [stopped, beforeDone]


/-! ### Writing word by word -/

theorem take_eq_append {α : Type} {l : List α} {j k : Nat} (hj : j < l.length) (hk : j < k) :
    l.take k = l.take j ++ l[j] :: (l.take k).drop (j + 1) := by
  have bound : j < (l.take k).length := by rw [List.length_take]; omega
  have shorter : l.take j = (l.take k).take j := by rw [List.take_take, Nat.min_eq_left (Nat.le_of_lt hk)]
  rw [shorter, ← List.getElem_take (h := bound), ← List.drop_eq_getElem_cons bound, List.take_append_drop]

theorem State.writeSteps_cons {u : State} {v : Word} (written : s.memWrite .word a v = .ok u) (ws : List Word) :
    s.writeSteps a (v :: ws) = { u.writeSteps (a + 4) ws with words := v :: (u.writeSteps (a + 4) ws).words } := by
  rw [State.writeSteps, written]

theorem State.writeSteps_fault {v : Word} {c : FaultCause} (fault : s.memWrite .word a v = .fault c) (ws : List Word) :
    s.writeSteps a (v :: ws) = { words := [], state := s, stop := .fault c } := by
  rw [State.writeSteps, fault]

/-- Words that are written begin with a word that is written. -/
theorem State.memWrite_of_writeSteps {v : Word} {ws : List Word} (done : (s.writeSteps a (v :: ws)).stop = .ok ()) :
    ∃ u, s.memWrite .word a v = .ok u ∧ (u.writeSteps (a + 4) ws).stop = .ok () := by
  unfold State.writeSteps at done
  split at done
  · exact ⟨_, by assumption, done⟩
  · cases done
  · cases done

/-- Writes that are all done, and then one that is not. -/
theorem State.writeSteps_of_fault {ws rest : List Word} {v : Word} {c : FaultCause} (done : (s.writeSteps a ws).stop = .ok ())
    (fault : (s.writeSteps a ws).state.memWrite .word (wordAt a ws.length) v = .fault c) :
    s.writeSteps a (ws ++ v :: rest) = { s.writeSteps a ws with stop := .fault c } := by
  induction ws generalizing s a with
  | nil =>
    rw [List.length_nil, wordAt_zero] at fault
    exact State.writeSteps_fault fault rest
  | cons w ws ih =>
    obtain ⟨u, written, done⟩ := State.memWrite_of_writeSteps done
    rw [State.writeSteps_cons written, List.length_cons, ← wordAt_succ] at fault
    rw [List.cons_append, State.writeSteps_cons written, State.writeSteps_cons written, ih done fault]

/-- A write to storage changes memory alone. -/
theorem State.busWrite_of_storage {size : Size} {v : Word} {u : State} (h : ReachesStorage s .write size a)
    (written : s.busWrite s.privileged size a v = .ok u) : u = { s with mem := u.mem } := by
  obtain ⟨-, rfl⟩ | ⟨device, -⟩ | ⟨-, -, rfl⟩ := State.busWrite_cases (inPpb_of_storage h) written
  · rfl
  · exact absurd device (not_device_of_storage h)
  · rw [State.mk.injEq]; simp

/-- A block of words written to storage: memory alone changes. -/
theorem State.writeSteps_of_storage {ws : List Word} (storage : BlockReachesStorage s .write a ws.length) :
    ∃ u, s.writeSteps a ws = { words := ws, state := u, stop := .ok () } ∧ s.writeWords s.privileged a ws = .ok u ∧
      u = { s with mem := u.mem } := by
  induction ws generalizing s a with
  | nil => exact ⟨s, rfl, rfl, rfl⟩
  | cons v ws ih =>
    have first := storage 0 (Nat.succ_pos _)
    rw [wordAt_zero] at first
    obtain ⟨u, written⟩ := State.busWrite_done (s := s) (priv := s.privileged) (size := .word) (v := v)
      (inPpb_of_storage first)
    have frame := State.busWrite_of_storage first written
    have priv : u.privileged = s.privileged := by rw [frame]; rfl
    obtain ⟨t, steps, words, frame'⟩ := ih (s := u) (a := a + 4) fun k hk => by
      rw [wordAt_succ, frame]
      exact (reachesStorage_congr rfl rfl rfl rfl rfl rfl).mpr (storage (k + 1) (Nat.succ_lt_succ hk))
    refine ⟨t, ?_, ?_, by rw [frame', frame]⟩
    · rw [State.writeSteps_cons ((State.memWrite_of_check (State.checkAccess_of_storage first) v).trans written), steps]
    · rw [State.writeWords, written, Acc.bind_ok, ← priv, words]

/-- A block of words written outside the PPB: each word that RAM takes is there, and the bytes outside the block are as before. -/
theorem State.writeWords_holds {ws : List Word} {u : State} (short : ws.length ≤ 9) (out : ∀ k < ws.length, OutsidePpb (wordAt a k))
    (written : s.writeWords s.privileged a ws = .ok u) :
    (∀ k v, ws[k]? = some v → HoldsWord s u (wordAt a k) v) ∧ SameOutside s u a ws.length := by
  obtain ⟨-, stored, others⟩ := State.writeWords_bytes (by omega) (fun k hk => (inPpb_eq_false_iff _).mpr (out k hk)) written
  refine ⟨fun k v hv ram i hi => ?_, others⟩
  obtain ⟨hk, rfl⟩ := List.getElem?_eq_some_iff.mp hv
  rw [wordAt, BitVec.add_assoc, ← BitVec.ofNat_add, ← byteOf_eq_ofNat]
  exact stored k i hk hi ram

/-- Words written outside the PPB change memory and what the devices saw alone. -/
theorem State.writeSteps_outside {ws : List Word} (out : ∀ k < ws.length, OutsidePpb (wordAt a k)) :
    (s.writeSteps a ws).state =
      { s with mem := (s.writeSteps a ws).state.mem, devices := (s.writeSteps a ws).state.devices } := by
  induction ws generalizing s a with
  | nil => rfl
  | cons v ws ih =>
    have first := out 0 (Nat.succ_pos _)
    rw [wordAt_zero] at first
    unfold State.writeSteps
    split
    · rename_i u written
      have rest := ih (s := u) (a := a + 4) fun k hk => by rw [wordAt_succ]; exact out (k + 1) (Nat.succ_lt_succ hk)
      have frame := State.busWrite_outside ((inPpb_eq_false_iff a).mpr first) (State.memWrite_ok written).2
      rw [rest, frame]
    · rfl
    · rfl

/-- Nothing that writes outside the PPB change makes an exception a candidate. -/
theorem State.abandonment_writeSteps {ws : List Word} {fresh : Bool} (calm : Uninterrupted s)
    (out : ∀ k, (s.writeSteps a (ws.take k)).stop = .ok () → ∀ l < (ws.take k).length, OutsidePpb (wordAt a l)) :
    s.abandonment ws.length (fun k => s.writeSteps a (ws.take k)) (fun p => p.storesKept fresh) = none := by
  refine State.abandonment_eq_none (calm.imp_right fun none m hm done => ?_)
  refine (State.sampleMidway_congr m ?_ ?_ ?_ ?_ ?_ ?_).2.trans (none m hm) <;>
    rw [Progress.storesKept_frame, State.writeSteps_outside (out _ done)]

theorem State.transferStores_atomic (atomic : s.cfg.multiAccessAtomic = true) (ws : List Word) (fresh : Bool)
    (finish : State → Result) :
    s.transferStores a ws fresh finish =
      s.afterAccess ((s.checkWords s.privileged .write a ws.length).bind fun _ => s.writeWords s.privileged a ws) fun u =>
        finish (if fresh then u.drewFree else u) := if_pos atomic

theorem State.transferStores_inSteps (notAtomic : s.cfg.multiAccessAtomic = false) (ws : List Word) (fresh : Bool)
    (finish : State → Result) :
    s.transferStores a ws fresh finish =
      s.inSteps ws.length (fun k => s.writeSteps a (ws.take k)) (fun p => p.storesKept fresh) fun p =>
        finish (if fresh then p.state.drewFree else p.state) :=
  if_neg (by simp [notAtomic])

/-- A block whose first words storage takes and whose next word is denied stops there. -/
theorem State.writeSteps_stopped {j : Nat} {ws : List Word} {c : FaultCause} (short : ws.length ≤ 9) (hj : j < ws.length)
    (fault : s.checkAccess s.privileged .write .word (wordAt a j) = .fault c) (before : BlockReachesStorage s .write a j) :
    ∃ u, (∀ k, j < k → s.writeSteps a (ws.take k) = { words := ws.take j, state := u, stop := .fault c }) ∧
      u = { s with mem := u.mem } ∧ (j = 0 → u = s) ∧ SameOutside s u a j ∧
      ∀ k < j, ∀ v, ws[k]? = some v → HoldsWord s u (wordAt a k) v := by
  have length : (ws.take j).length = j := by rw [List.length_take, Nat.min_eq_left (Nat.le_of_lt hj)]
  obtain ⟨u, steps, words, frame⟩ := State.writeSteps_of_storage (ws := ws.take j) (by rwa [length])
  obtain ⟨holds, others⟩ := State.writeWords_holds (by omega) (fun k hk => outside_of_storage (before k (by omega))) words
  refine ⟨u, fun k hk => ?_, frame, ?_, length ▸ others, fun k hk v hv => holds k v (by rwa [List.getElem?_take_of_lt hk])⟩
  · have deniedNow : u.memWrite .word (wordAt a (ws.take j).length) ws[j] = .fault c := by
      rw [State.memWrite, length, frame]
      exact congrArg (Acc.bind · _) ((State.checkAccess_congr rfl rfl rfl rfl rfl ..).trans fault)
    rw [take_eq_append hj hk, State.writeSteps_of_fault (by rw [steps]) (by rw [steps]; exact deniedNow), steps]
  · rintro rfl
    exact (congrArg Progress.state steps).symm

/-- A block of stores whose first words storage takes and whose next word is denied raises HardFault. -/
theorem State.transferStores_stopped {j : Nat} {ws : List Word} {fresh : Bool} {finish : State → Result} (short : ws.length ≤ 9)
    (calm : Uninterrupted s) (hj : j < ws.length) (denied : Denied s .write .word (wordAt a j))
    (before : BlockReachesStorage s .write a j) :
    ∃ u, s.transferStores a ws fresh finish = u.raiseHardFault s.pc ∧ (s.cfg.multiAccessAtomic = true ∨ j = 0 → u = s) ∧
      SameOutside s u a j ∧ u = { s with mem := u.mem, freeCount := u.freeCount } ∧ (fresh = false → u = { s with mem := u.mem }) ∧
      (s.cfg.multiAccessAtomic = false → ∀ k < j, ∀ v, ws[k]? = some v → HoldsWord s u (wordAt a k) v) := by
  obtain ⟨c, fault⟩ := State.checkAccess_of_denied denied
  cases atomic : s.cfg.multiAccessAtomic with
  | true =>
    refine ⟨s, ?_, fun _ => rfl, fun _ _ => rfl, rfl, fun _ => rfl, fun h => by cases h⟩
    rw [State.transferStores_atomic atomic,
      State.checkWords_of_fault (fun l hl => State.checkAccess_of_storage (before l hl)) fault hj, Acc.bind_fault,
      State.afterAccess_fault]
  | false =>
    obtain ⟨u, stopsAt, frame, start, others, holds⟩ := State.writeSteps_stopped short hj fault before
    have stopped := stopsAt ws.length hj
    have calmSteps : s.abandonment ws.length (fun k => s.writeSteps a (ws.take k)) (fun p => p.storesKept fresh) = none := by
      refine State.abandonment_writeSteps calm fun k done l hl => ?_
      by_cases hk : j < k
      · rw [stopsAt k hk] at done
        cases done
      · rw [List.length_take] at hl
        exact outside_of_storage (before l (by omega))
    have run : s.transferStores a ws fresh finish =
        (Progress.storesKept { words := ws.take j, state := u, stop := .fault c } fresh).raiseHardFault s.pc := by
      rw [State.transferStores_inSteps atomic, State.inSteps_fault calmSteps (by rw [stopped]), stopped]
    obtain ⟨t, kept⟩ : ∃ t, t = Progress.storesKept { words := ws.take j, state := u, stop := .fault c } fresh := ⟨_, rfl⟩
    have keptFrame : t = { u with freeCount := t.freeCount } := kept ▸ Progress.storesKept_frame ..
    have mem : t.mem = u.mem := by rw [keptFrame]
    refine ⟨t, kept ▸ run, ?_, fun b hb => mem ▸ others b hb, ?_, ?_, fun _ k hk v hv ram => mem ▸ holds k hk v hv ram⟩
    · rintro (h | rfl)
      · cases h
      · rw [kept, start rfl]
        simp [Progress.storesKept]
    · rw [mem]
      exact keptFrame.trans (by rw [frame])
    · rintro rfl
      rw [mem, kept]
      exact frame


/-! ### Blocks that are done -/

theorem State.readBlock_succ {n : Nat} {ws : List Word} {u : State} (h : readBlock s a (n + 1) = some (ws, u)) :
    ∃ v t rest, s.memRead .word a = .ok (v, t) ∧ readBlock t (a + 4) n = some (rest, u) ∧ ws = v :: rest := by
  unfold readBlock at h
  split at h
  · rename_i v t read
    obtain ⟨⟨rest, u'⟩, done, same⟩ := Option.map_eq_some_iff.mp h
    obtain ⟨rfl, rfl⟩ := Prod.mk.inj same
    exact ⟨v, t, rest, read, done, rfl⟩
  · cases h

theorem State.writeBlock_cons {v : Word} {ws : List Word} {u : State} (h : writeBlock s a (v :: ws) = some u) :
    ∃ t, s.memWrite .word a v = .ok t ∧ writeBlock t (a + 4) ws = some u := by
  unfold writeBlock at h
  split at h
  · exact ⟨_, by assumption, h⟩
  · cases h

theorem State.readSteps_of_readBlock {n : Nat} {ws : List Word} {u : State} (h : readBlock s a n = some (ws, u)) :
    s.readSteps a n = { words := ws, state := u, stop := .ok () } := by
  induction n generalizing s a ws with
  | zero => cases h; rfl
  | succ n ih =>
    obtain ⟨v, t, rest, read, done, rfl⟩ := State.readBlock_succ h
    rw [State.readSteps_succ read, ih done]

theorem State.writeSteps_of_writeBlock {ws : List Word} {u : State} (h : writeBlock s a ws = some u) :
    s.writeSteps a ws = { words := ws, state := u, stop := .ok () } := by
  induction ws generalizing s a with
  | nil => cases h; rfl
  | cons v ws ih =>
    obtain ⟨t, written, done⟩ := State.writeBlock_cons h
    rw [State.writeSteps_cons written, ih done]

/-- No read changes what the checks of the next look at. -/
theorem State.checks_of_readBlock {n : Nat} {ws : List Word} {u : State} (h : readBlock s a n = some (ws, u)) :
    ∀ k < n, s.checkAccess s.privileged .read .word (wordAt a k) = .ok () := by
  induction n generalizing s a ws with
  | zero => exact fun k hk => absurd hk (Nat.not_lt_zero k)
  | succ n ih =>
    obtain ⟨v, t, rest, read, done, -⟩ := State.readBlock_succ h
    obtain ⟨passes, effect⟩ := State.memRead_ok read
    obtain ⟨-, rfl⟩ := Prod.mk.inj effect
    intro k hk
    cases k with
    | zero => rwa [wordAt_zero]
    | succ k =>
      have later := ih done k (Nat.lt_of_succ_lt_succ hk)
      rw [wordAt_succ, State.busReadEffect_frame] at later
      exact (State.checkAccess_congr (t := s) rfl rfl rfl rfl rfl ..).trans later

/-- No write outside the PPB changes what the checks of the next look at. -/
theorem State.checks_of_writeBlock {ws : List Word} {u : State} (h : writeBlock s a ws = some u)
    (out : ∀ k < ws.length, OutsidePpb (wordAt a k)) :
    ∀ k < ws.length, s.checkAccess s.privileged .write .word (wordAt a k) = .ok () := by
  induction ws generalizing s a with
  | nil => exact fun k hk => absurd hk (Nat.not_lt_zero k)
  | cons v ws ih =>
    obtain ⟨t, written, done⟩ := State.writeBlock_cons h
    obtain ⟨passes, written⟩ := State.memWrite_ok written
    have first := out 0 (Nat.succ_pos _)
    rw [wordAt_zero] at first
    have frame := State.busWrite_outside ((inPpb_eq_false_iff a).mpr first) written
    intro k hk
    cases k with
    | zero => rwa [wordAt_zero]
    | succ k =>
      have later := ih done (fun k hk => by rw [wordAt_succ]; exact out (k + 1) (Nat.succ_lt_succ hk)) k (Nat.lt_of_succ_lt_succ hk)
      rw [wordAt_succ, frame] at later
      exact (State.checkAccess_congr (t := s) rfl rfl rfl rfl rfl ..).trans later

/-- A block whose words are read one by one is loaded, whether the platform checks it as a whole or not. -/
theorem State.transferLoads_done {n : Nat} {ws : List Word} {u : State} (calm : Uninterrupted s) (h : readBlock s a n = some (ws, u))
    (base : Option LoReg) (rs : List LoReg) (finish : List Word → State → Result) :
    s.transferLoads a n base rs finish = finish ws u := by
  have steps := State.readSteps_of_readBlock h
  have passes := State.checks_of_readBlock h
  cases atomic : s.cfg.multiAccessAtomic with
  | true =>
    obtain ⟨words, state, -⟩ := Progress.mk.inj ((State.readSteps_eq_readWords passes).symm.trans steps)
    rw [State.transferLoads_atomic atomic, State.checkWords_of_checks passes, State.afterAccess_ok, words, state]
  | false =>
    rw [State.transferLoads_inSteps atomic, State.inSteps_done (State.abandonment_readSteps calm) (by rw [steps]), steps]

/-- A block whose words are written one by one is stored: outside the PPB on every platform, and anywhere where each word is an access of
its own and nothing arrives. -/
theorem State.transferStores_done {ws : List Word} {u : State}
    (calm : (Uninterrupted s ∧ ∀ j < ws.length, OutsidePpb (wordAt a j)) ∨ (s.cfg.multiAccessAtomic = false ∧ s.midway = none))
    (h : writeBlock s a ws = some u) (fresh : Bool) (finish : State → Result) :
    s.transferStores a ws fresh finish = finish (if fresh then u.drewFree else u) := by
  have steps := State.writeSteps_of_writeBlock h
  cases atomic : s.cfg.multiAccessAtomic with
  | true =>
    obtain ⟨-, out⟩ | ⟨notAtomic, -⟩ := calm
    · have passes := State.checks_of_writeBlock h out
      obtain ⟨t, written, steps'⟩ := State.writeSteps_eq_writeWords passes fun k hk => (inPpb_eq_false_iff _).mpr (out k hk)
      obtain ⟨-, rfl, -⟩ := Progress.mk.inj (steps.symm.trans steps')
      rw [State.transferStores_atomic atomic, State.checkWords_of_checks passes, Acc.bind_ok, written, State.afterAccess_ok]
    · cases notAtomic.symm.trans atomic
  | false =>
    have calmSteps : s.abandonment ws.length (fun k => s.writeSteps a (ws.take k)) (fun p => p.storesKept fresh) = none := by
      obtain ⟨calm, out⟩ | ⟨-, noArrival⟩ := calm
      · exact State.abandonment_writeSteps calm fun k _ l hl => out l (by rw [List.length_take] at hl; omega)
      · exact State.abandonment_eq_none (.inr fun m hm => by rw [noArrival] at hm; cases hm)
    have whole : s.writeSteps a (ws.take ws.length) = { words := ws, state := u, stop := .ok () } := by rw [List.take_length, steps]
    rw [State.transferStores_inSteps atomic, State.inSteps_done calmSteps (by rw [whole]), whole]

end

end Sys2Proof.Machine
end

