-- ==== Sys2Proof/Proofs/BlockAccess.lean ====
section
/-! PROOF. LDM, STM, PUSH and POP as the block of words that each transfers, and what all loads and stores do when an access is denied
(40_memory_access.md R248 to R251, R254, R255; 20_memory.md R135, R142; 60_exceptions.md R374, R390, R404). -/

namespace Sys2Proof.Machine

open Sys2Proof.Safety

/-! ### The words stored -/

theorem State.length_stmWords (s : State) (rn : LoReg) (list8 : BitVec 8) : (s.stmWords rn list8).length = bitCount list8 := by
  rw [State.stmWords, List.length_map, length_regList]

theorem State.length_pushWords (s : State) (m : Bool) (list8 : BitVec 8) :
    (s.pushWords m list8).length = bitCount list8 + m.toNat := by
  cases m <;> simp [State.pushWords, length_regList]

/-- The base is stored with its own value where it is the lowest register of the list. -/
theorem stmBaseOpen_of_lowest {rn : LoReg} {list8 : BitVec 8} (h : list8.getLsbD rn.val = true) (lowest : rank list8 rn = 0) :
    stmBaseOpen rn list8 = false := by
  have head : (regList list8).head? = some rn := by
    rw [List.head?_eq_getElem?, ← lowest, regList_getElem?_rank h]
  simp [stmBaseOpen, head]

theorem State.stmWords_spec (s : State) (rn : LoReg) (list8 : BitVec 8) : StmWords s rn list8 (s.stmWords rn list8) := by
  refine ⟨s.length_stmWords rn list8, fun r hr lowest => ?_⟩
  rw [State.stmWords, List.getElem?_map, regList_getElem?_rank hr, Option.map_some]
  by_cases base : r = rn
  · subst base
    simp [stmBaseOpen_of_lowest hr (lowest rfl)]
  · simp [base]

theorem State.pushWords_spec (s : State) (m : Bool) (list8 : BitVec 8) : PushWords s m list8 (s.pushWords m list8) := by
  refine ⟨s.length_pushWords m list8, fun r hr => ?_, ?_⟩
  · have bound : rank list8 r < ((regList list8).map s.lo).length := by
      rw [List.length_map, length_regList]
      exact rank_lt hr
    rw [State.pushWords, List.getElem?_append_left bound, List.getElem?_map, regList_getElem?_rank hr, Option.map_some]
  · rintro rfl
    have length : ((regList list8).map s.lo).length = bitCount list8 := by rw [List.length_map, length_regList]
    rw [State.pushWords, ← length, List.getElem?_append_right (Nat.le_refl _), Nat.sub_self]
    rfl

/-! ### The instructions as blocks -/

/-- What LDM does after its loads. -/
def State.afterLdm (s : State) (rn : LoReg) (list8 : BitVec 8) (ws : List Word) (u : State) : State :=
  if list8.getLsbD rn.val then u.setLos (regList list8) ws
  else (u.setLos (regList list8) ws).setLo rn (s.lo rn + BitVec.ofNat 32 (4 * bitCount list8))

section
variable {s : State}

theorem exec_ldm {list8 : BitVec 8} (h : list8 ≠ 0) (rn : LoReg) :
    exec (.ldm rn list8) s = s.transferLoads (s.lo rn) (bitCount list8) (some rn) (regList list8) fun ws u =>
      .next ((s.afterLdm rn list8 ws u).advance 2) := by
  have ok : listOk list8 = true := by simpa [listOk] using h
  simp only [exec, execLdm, ok, Bool.not_true, Bool.false_eq_true, if_false, length_regList, wordsExtent]
  rfl

theorem exec_stm {list8 : BitVec 8} (h : list8 ≠ 0) (rn : LoReg) :
    exec (.stm rn list8) s = s.transferStores (s.lo rn) (s.stmWords rn list8) (stmBaseOpen rn list8) fun u =>
      .next ((u.setLo rn (s.lo rn + BitVec.ofNat 32 (4 * bitCount list8))).advance 2) := by
  have ok : listOk list8 = true := by simpa [listOk] using h
  simp only [exec, execStm, ok, Bool.not_true, Bool.false_eq_true, if_false, length_regList, wordsExtent]

theorem stackListOk_of {m : Bool} {list8 : BitVec 8} (h : ¬(m = false ∧ list8 = 0)) : stackListOk m list8 = true := by
  cases m <;> simp_all [stackListOk]

theorem exec_push {m : Bool} {list8 : BitVec 8} (h : ¬(m = false ∧ list8 = 0)) :
    exec (.push m list8) s =
      s.transferStores (s.sp - BitVec.ofNat 32 (4 * (bitCount list8 + m.toNat))) (s.pushWords m list8) false fun u =>
        .next ((u.setSp (s.sp - BitVec.ofNat 32 (4 * (bitCount list8 + m.toNat)))).advance 2) := by
  simp only [exec, execPush, stackListOk_of h, Bool.not_true, Bool.false_eq_true, if_false, s.length_pushWords, wordsExtent]

theorem exec_pop {p : Bool} {list8 : BitVec 8} (h : ¬(p = false ∧ list8 = 0)) :
    exec (.pop p list8) s = s.transferLoads s.sp (bitCount list8 + p.toNat) none (regList list8) fun ws u =>
      let t := (u.setLos (regList list8) ws).setSp (s.sp + BitVec.ofNat 32 (4 * (bitCount list8 + p.toNat)))
      if p then t.bxWritePc (ws.getD (bitCount list8) 0) else .next (t.advance 2) := by
  simp only [exec, execPop, stackListOk_of h, Bool.not_true, Bool.false_eq_true, if_false, length_regList, wordsExtent]

theorem stackCount_pos {m : Bool} {list8 : BitVec 8} (h : ¬(m = false ∧ list8 = 0)) : 0 < bitCount list8 + m.toNat := by
  cases m with
  | true => exact Nat.succ_pos _
  | false => exact bitCount_pos fun empty => h ⟨rfl, empty⟩

theorem stackCount_le (m : Bool) (list8 : BitVec 8) : bitCount list8 + m.toNat ≤ 9 :=
  Nat.add_le_add (bitCount_le list8) m.toNat_le

section
variable {k : AccessKind} {a : Word} {n : Nat}

theorem blockAccess_ldm {rn : LoReg} {list8 : BitVec 8} :
    blockAccess s (.ldm rn list8) = some (k, a, n) ↔ list8 ≠ 0 ∧ .read = k ∧ s.lo rn = a ∧ bitCount list8 = n := by
  simp [blockAccess]

theorem blockAccess_stm {rn : LoReg} {list8 : BitVec 8} :
    blockAccess s (.stm rn list8) = some (k, a, n) ↔ list8 ≠ 0 ∧ .write = k ∧ s.lo rn = a ∧ bitCount list8 = n := by
  simp [blockAccess]

theorem blockAccess_push {m : Bool} {list8 : BitVec 8} :
    blockAccess s (.push m list8) = some (k, a, n) ↔ ¬(m = false ∧ list8 = 0) ∧ .write = k ∧
      s.sp - BitVec.ofNat 32 (4 * (bitCount list8 + m.toNat)) = a ∧ bitCount list8 + m.toNat = n := by
  rw [← s.reg_sp]
  simp [blockAccess]

theorem blockAccess_pop {p : Bool} {list8 : BitVec 8} :
    blockAccess s (.pop p list8) = some (k, a, n) ↔ ¬(p = false ∧ list8 = 0) ∧ .read = k ∧ s.sp = a ∧
      bitCount list8 + p.toNat = n := by
  rw [← s.reg_sp]
  simp [blockAccess]

/-- Only LDM, STM, PUSH and POP transfer a block. -/
theorem blockAccess_cases {i : Instr} (h : blockAccess s i = some (k, a, n)) :
    (∃ rn list8, i = .ldm rn list8) ∨ (∃ p list8, i = .pop p list8) ∨ (∃ rn list8, i = .stm rn list8) ∨
      ∃ m list8, i = .push m list8 := by
  cases i with
  | ldm rn list8 => exact .inl ⟨rn, list8, rfl⟩
  | pop p list8 => exact .inr (.inl ⟨p, list8, rfl⟩)
  | stm rn list8 => exact .inr (.inr (.inl ⟨rn, list8, rfl⟩))
  | push m list8 => exact .inr (.inr (.inr ⟨m, list8, rfl⟩))
  | _ => cases h

end

/-! ### Blocks that stop -/

section
variable {j : Nat} (calm : Uninterrupted s)
include calm

theorem exec_ldm_stopped {rn : LoReg} {list8 : BitVec 8} (nonempty : list8 ≠ 0) (hj : j < bitCount list8)
    (denied : Denied s .read .word (wordAt (s.lo rn) j)) (before : BlockReachesStorage s .read (s.lo rn) j) :
    ∃ u, exec (.ldm rn list8) s = u.raiseHardFault s.pc ∧ (s.cfg.multiAccessAtomic = true ∨ j = 0 → u = s) ∧
      PartlyLoaded s u (s.lo rn) list8 j (some rn) ∧ u = { s with regs := u.regs, freeCount := u.freeCount } := by
  rw [exec_ldm nonempty]
  exact State.transferLoads_stopped calm hj denied before

theorem exec_pop_stopped {p : Bool} {list8 : BitVec 8} (nonempty : ¬(p = false ∧ list8 = 0)) (hj : j < bitCount list8 + p.toNat)
    (denied : Denied s .read .word (wordAt s.sp j)) (before : BlockReachesStorage s .read s.sp j) :
    ∃ u, exec (.pop p list8) s = u.raiseHardFault s.pc ∧ (s.cfg.multiAccessAtomic = true ∨ j = 0 → u = s) ∧
      PartlyLoaded s u s.sp list8 j none ∧ u = { s with regs := u.regs, freeCount := u.freeCount } := by
  rw [exec_pop nonempty]
  exact State.transferLoads_stopped calm hj denied before

theorem exec_stm_stopped {rn : LoReg} {list8 : BitVec 8} (nonempty : list8 ≠ 0) (hj : j < bitCount list8)
    (denied : Denied s .write .word (wordAt (s.lo rn) j)) (before : BlockReachesStorage s .write (s.lo rn) j) :
    ∃ u, exec (.stm rn list8) s = u.raiseHardFault s.pc ∧ (s.cfg.multiAccessAtomic = true ∨ j = 0 → u = s) ∧
      SameOutside s u (s.lo rn) j ∧ u = { s with mem := u.mem, freeCount := u.freeCount } ∧
      (s.cfg.multiAccessAtomic = false → ∀ r : LoReg, list8.getLsbD r.val = true → (r = rn → rank list8 rn = 0) →
        rank list8 r < j → HoldsWord s u (wordAt (s.lo rn) (rank list8 r)) (s.lo r)) := by
  obtain ⟨length, words⟩ := s.stmWords_spec rn list8
  have short := bitCount_le list8
  obtain ⟨u, run, start, others, frame, -, holds⟩ := State.transferStores_stopped (fresh := stmBaseOpen rn list8)
    (by omega : (s.stmWords rn list8).length ≤ 9) calm (by omega) denied before
  refine ⟨u, (exec_stm nonempty rn).trans run, start, others, frame, fun notAtomic r hr lowest lt => ?_⟩
  exact holds notAtomic _ lt _ (words r hr lowest)

theorem exec_push_stopped {m : Bool} {list8 : BitVec 8} {a : Word} (nonempty : ¬(m = false ∧ list8 = 0))
    (base : s.sp - BitVec.ofNat 32 (4 * (bitCount list8 + m.toNat)) = a) (hj : j < bitCount list8 + m.toNat)
    (denied : Denied s .write .word (wordAt a j)) (before : BlockReachesStorage s .write a j) :
    ∃ u, exec (.push m list8) s = u.raiseHardFault s.pc ∧ (s.cfg.multiAccessAtomic = true ∨ j = 0 → u = s) ∧
      SameOutside s u a j ∧ u = { s with mem := u.mem } ∧
      (s.cfg.multiAccessAtomic = false → ∀ r : LoReg, list8.getLsbD r.val = true →
        rank list8 r < j → HoldsWord s u (wordAt a (rank list8 r)) (s.lo r)) := by
  obtain ⟨length, words, -⟩ := s.pushWords_spec m list8
  have short := stackCount_le m list8
  obtain ⟨u, run, start, others, -, frame, holds⟩ := State.transferStores_stopped (fresh := false)
    (by omega : (s.pushWords m list8).length ≤ 9) calm (by omega) denied before
  refine ⟨u, (base ▸ exec_push nonempty).trans run, start, others, frame rfl, fun notAtomic r hr lt => ?_⟩
  exact holds notAtomic _ lt _ (words r hr)

/-- A block whose first word is denied raises HardFault. -/
theorem exec_block_denied {i : Instr} {k : AccessKind} {a : Word} {n : Nat} (h : blockAccess s i = some (k, a, n))
    (denied : Denied s k .word a) : exec i s = s.raiseHardFault s.pc := by
  have before (kind : AccessKind) : BlockReachesStorage s kind a 0 := fun _ hk => absurd hk (Nat.not_lt_zero _)
  have same {u : State} (run : exec i s = u.raiseHardFault s.pc) (start : s.cfg.multiAccessAtomic = true ∨ 0 = 0 → u = s) :
      exec i s = s.raiseHardFault s.pc := start (.inr rfl) ▸ run
  rw [← wordAt_zero a] at denied
  obtain ⟨rn, list8, rfl⟩ | ⟨p, list8, rfl⟩ | ⟨rn, list8, rfl⟩ | ⟨m, list8, rfl⟩ := blockAccess_cases h
  · obtain ⟨nonempty, rfl, rfl, rfl⟩ := blockAccess_ldm.mp h
    obtain ⟨u, run, start, -⟩ := exec_ldm_stopped calm nonempty (bitCount_pos nonempty) denied (before _)
    exact same run start
  · obtain ⟨nonempty, rfl, rfl, rfl⟩ := blockAccess_pop.mp h
    obtain ⟨u, run, start, -⟩ := exec_pop_stopped calm nonempty (stackCount_pos nonempty) denied (before _)
    exact same run start
  · obtain ⟨nonempty, rfl, rfl, rfl⟩ := blockAccess_stm.mp h
    obtain ⟨u, run, start, -⟩ := exec_stm_stopped calm nonempty (bitCount_pos nonempty) denied (before _)
    exact same run start
  · obtain ⟨nonempty, rfl, base, rfl⟩ := blockAccess_push.mp h
    obtain ⟨u, run, start, -⟩ := exec_push_stopped calm nonempty base (stackCount_pos nonempty) denied (before _)
    exact same run start

end

end

/-- A single load or store that is denied raises HardFault. -/
theorem exec_single_denied {s : State} {i : Instr} {x : Single} (h : singleAccess s i = some x)
    (denied : Denied s x.kind x.size x.addr) : exec i s = s.raiseHardFault s.pc := by
  obtain ⟨c, fault⟩ := State.checkAccess_of_denied denied
  exact exec_single_fault h fault

/-- Settles O22: an unaligned access is denied. -/
theorem misalignedAccessFaults : Obligations.MisalignedAccessFaults := fun _ _ =>
  ⟨fun _ single unaligned => exec_single_denied single (.inl unaligned),
    fun _ _ _ block unaligned calm => exec_block_denied calm block (.inl unaligned)⟩

/-- Settles O23: an unprivileged access of the PPB is denied, and a privileged one that is not a word is refused. -/
theorem ppbAccessRules : Obligations.PpbAccessRules := by
  intro s i
  refine ⟨fun x single ppb => ⟨fun unpriv => ?_, fun priv aligned narrow => ?_⟩, fun k a n block ppb unpriv calm => ?_⟩
  · exact exec_single_denied single (.inr (.inl ⟨ppb, State.privileged_of_unprivileged unpriv⟩))
  · refine exec_single_refused single ?_
    rw [State.checkAccess_ppb aligned ppb, State.checkPpb, priv]
    simp [narrow]
  · exact exec_block_denied calm block (.inr (.inl ⟨ppb, State.privileged_of_unprivileged unpriv⟩))

end Sys2Proof.Machine
end

