-- ==== Sys2Proof/Proofs/BusOutcomes.lean ====
section
/-! PROOF. What loads and stores do with what answers them, access by access (20_memory.md R140, R144, R148, R149; 40_memory_access.md R253,
R254; 60_exceptions.md R390). -/

namespace Sys2Proof.Machine

open Sys2Proof.Safety

/-! ### The stack pointer -/

theorem alignSp_of_aligned {v : Word} (h : v.toNat % 4 = 0) : alignSp v = v := by
  apply BitVec.eq_of_toNat_eq
  rw [alignSp, toNat_and_highMask 2 (by decide)]
  omega

/-- Writing an aligned stack pointer where the mode and the stack pointers are those of `s`. -/
theorem State.setSp_of_aligned {s u : State} (ipsr : u.ipsr = s.ipsr) (spsel : u.spsel = s.spsel) (msp : u.msp = s.msp)
    (psp : u.psp = s.psp) {v : Word} (h : v.toNat % 4 = 0) :
    u.setSp v = { u with
      msp := if s.ipsr = 0 ∧ s.spsel = true then s.msp else v
      psp := if s.ipsr = 0 ∧ s.spsel = true then v else s.psp } := by
  have test : u.usesPsp = true ↔ s.ipsr = 0 ∧ s.spsel = true := by simp [State.usesPsp, ipsr, spsel]
  simp only [State.setSp, test, State.setMsp, State.setPsp, alignSp_of_aligned h, ← msp, ← psp]
  split <;> rfl

theorem wordAt_aligned {a : Word} (h : a.toNat % 4 = 0) (k : Nat) : (wordAt a k).toNat % 4 = 0 := by
  rw [BitVec.toNat_add, BitVec.toNat_ofNat]
  omega

/-! ### Blocks that were read or written -/

section
variable {s u : State} {a : Word} {ws : List Word}

theorem State.readBlock_frame {n : Nat} (h : readBlock s a n = some (ws, u)) :
    u = { s with stk := u.stk, freeCount := u.freeCount, devices := u.devices } := by
  have frame := State.readSteps_frame s a n
  rw [State.readSteps_of_readBlock h] at frame
  change u = _ at frame
  rw [frame]

theorem State.readBlock_length {n : Nat} (h : readBlock s a n = some (ws, u)) : ws.length = n := by
  have length := (State.readSteps_length s a n).2
  rw [State.readSteps_of_readBlock h] at length
  exact length rfl

theorem State.readBlock_aligned {n : Nat} (h : readBlock s a n = some (ws, u)) (pos : 0 < n) : a.toNat % 4 = 0 :=
  State.aligned_of_checkAccess (size := .word) (wordAt_zero a ▸ State.checks_of_readBlock h 0 pos)

theorem State.writeBlock_frame (h : writeBlock s a ws = some u) :
    u = { s with
      mem := u.mem, devices := u.devices, nvic := u.nvic, scb := u.scb, stk := u.stk, mpu := u.mpu, sleep := u.sleep
      eventReg := u.eventReg } := by
  have frame := State.writeSteps_frame s a ws
  rwa [State.writeSteps_of_writeBlock h] at frame

theorem State.writeBlock_aligned (h : writeBlock s a ws = some u) (pos : 0 < ws.length) : a.toNat % 4 = 0 := by
  obtain ⟨v, rest, rfl⟩ := List.exists_cons_of_length_pos pos
  obtain ⟨t, written, -⟩ := State.writeBlock_cons h
  exact State.aligned_of_checkAccess (size := .word) (State.memWrite_ok written).1

/-! ### LDM, STM, PUSH and POP that are done -/

theorem State.gpr_congr {t : State} (h : t.regs = s.regs) (g : Fin 13) : t.gpr g = s.gpr g := by
  rw [State.gpr, State.gpr, h]

/-- The registers after LDM: the words loaded, the base written back where it is not in the list, every other register as before. -/
theorem State.afterLdm_spec (rn : LoReg) {list8 : BitVec 8} (enough : bitCount list8 ≤ ws.length) (regs : u.regs = s.regs) :
    (∀ r : LoReg, list8.getLsbD r.val = true → ws[rank list8 r]? = some ((s.afterLdm rn list8 ws u).lo r)) ∧
      (list8.getLsbD rn.val = false → (s.afterLdm rn list8 ws u).lo rn = s.lo rn + BitVec.ofNat 32 (4 * bitCount list8)) ∧
      (∀ g : Fin 13, (8 ≤ g.val ∨ list8.getLsbD g.val = false) → g.val ≠ rn.val →
        (s.afterLdm rn list8 ws u).gpr g = s.gpr g) ∧
      s.afterLdm rn list8 ws u = { u with regs := (s.afterLdm rn list8 ws u).regs } := by
  have loadedGpr (g : Fin 13) (hg : 8 ≤ g.val ∨ list8.getLsbD g.val = false) :
      (u.setLos (regList list8) ws).gpr g = s.gpr g := (State.setLos_regList_gpr ws hg u).trans (State.gpr_congr regs g)
  have frame : s.afterLdm rn list8 ws u = { u with regs := (s.afterLdm rn list8 ws u).regs } := by
    rw [State.mk.injEq]
    unfold State.afterLdm
    split <;> simp
  cases base : list8.getLsbD rn.val with
  | true =>
    have eq : s.afterLdm rn list8 ws u = u.setLos (regList list8) ws := if_pos base
    refine ⟨fun r hr => ?_, nofun, fun g hg _ => ?_, frame⟩
    · rw [eq]; exact State.setLos_regList_lo enough hr u
    · rw [eq]; exact loadedGpr g hg
  | false =>
    have eq : s.afterLdm rn list8 ws u =
        (u.setLos (regList list8) ws).setLo rn (s.lo rn + BitVec.ofNat 32 (4 * bitCount list8)) := if_neg (by rw [base]; decide)
    refine ⟨fun r hr => ?_, fun _ => ?_, fun g hg ne => ?_, frame⟩
    · have ne : rn ≠ r := fun same => by rw [← same, base] at hr; cases hr
      rw [eq, State.setLo_lo, if_neg ne]
      exact State.setLos_regList_lo enough hr u
    · rw [eq, State.setLo_lo, if_pos rfl]
    · rw [eq, State.setLo_gpr, if_neg fun same => ne (congrArg Fin.val same).symm]
      exact loadedGpr g hg

theorem exec_ldm_done {rn : LoReg} {list8 : BitVec 8} (nonempty : list8 ≠ 0) (calm : Uninterrupted s)
    (h : readBlock s (s.lo rn) (bitCount list8) = some (ws, u)) :
    ∃ t, exec (.ldm rn list8) s = .next t ∧
      (∀ r : LoReg, list8.getLsbD r.val = true → ws[rank list8 r]? = some (t.lo r)) ∧
      (list8.getLsbD rn.val = false → t.lo rn = s.lo rn + BitVec.ofNat 32 (4 * bitCount list8)) ∧
      (∀ g : Fin 13, (8 ≤ g.val ∨ list8.getLsbD g.val = false) → g.val ≠ rn.val → t.gpr g = s.gpr g) ∧
      t = { u with regs := t.regs, pc := s.pc + 2 } := by
  have frame := State.readBlock_frame h
  obtain ⟨words, base, others, same⟩ :=
    State.afterLdm_spec rn (Nat.le_of_eq (State.readBlock_length h).symm) (by rw [frame] : u.regs = s.regs)
  refine ⟨(s.afterLdm rn list8 ws u).advance 2, ?_, words, base, others, ?_⟩
  · rw [exec_ldm nonempty, State.transferLoads_done calm h]
  · have pc : (s.afterLdm rn list8 ws u).pc = s.pc := by rw [same, frame]
    rw [State.advance, pc]
    conv => lhs; rw [same]

theorem exec_pop_done {p : Bool} {list8 : BitVec 8} (nonempty : ¬(p = false ∧ list8 = 0)) (calm : Uninterrupted s)
    (h : readBlock s s.sp (bitCount list8 + p.toNat) = some (ws, u)) :
    ∃ t : State, exec (.pop p list8) s = (if p then t.bxWritePc (ws.getD (bitCount list8) 0) else .next { t with pc := s.pc + 2 }) ∧
      (∀ r : LoReg, list8.getLsbD r.val = true → ws[rank list8 r]? = some (t.lo r)) ∧
      (∀ g : Fin 13, (8 ≤ g.val ∨ list8.getLsbD g.val = false) → t.gpr g = s.gpr g) ∧
      t = { u with
        regs := t.regs
        msp := if s.ipsr = 0 ∧ s.spsel = true then s.msp else wordAt s.sp (bitCount list8 + p.toNat)
        psp := if s.ipsr = 0 ∧ s.spsel = true then wordAt s.sp (bitCount list8 + p.toNat) else s.psp } := by
  have frame := State.readBlock_frame h
  have length := State.readBlock_length h
  have aligned := wordAt_aligned (State.readBlock_aligned h (stackCount_pos nonempty)) (bitCount list8 + p.toNat)
  refine ⟨(u.setLos (regList list8) ws).setSp (wordAt s.sp (bitCount list8 + p.toNat)), ?_, fun r hr => ?_, fun g hg => ?_, ?_⟩
  · rw [exec_pop nonempty, State.transferLoads_done calm h]
    have pc : u.pc = s.pc := by rw [frame]
    simp [State.advance, pc]
  · rw [State.setLos_regList_lo (by omega) hr u]
    exact congrArg some (State.gpr_congr (by simp) _).symm
  · rw [State.gpr_congr (s := u.setLos (regList list8) ws) (by simp), State.setLos_regList_gpr ws hg]
    exact State.gpr_congr (by rw [frame]) g
  · rw [State.setSp_of_aligned (s := s) (by rw [State.setLos_ipsr, frame]) (by rw [State.setLos_spsel, frame])
      (by rw [State.setLos_msp, frame]) (by rw [State.setLos_psp, frame]) aligned, State.mk.injEq]
    simp

theorem exec_stm_done {rn : LoReg} {list8 : BitVec 8} (nonempty : list8 ≠ 0)
    (calm : (Uninterrupted s ∧ ∀ j < bitCount list8, OutsidePpb (wordAt (s.lo rn) j)) ∨
      (s.cfg.multiAccessAtomic = false ∧ s.midway = none))
    (h : writeBlock s (s.lo rn) (s.stmWords rn list8) = some u) :
    ∃ t, exec (.stm rn list8) s = .next t ∧ t.lo rn = s.lo rn + BitVec.ofNat 32 (4 * bitCount list8) ∧
      (∀ g : Fin 13, g.val ≠ rn.val → t.gpr g = s.gpr g) ∧
      t = { u with regs := t.regs, freeCount := t.freeCount, pc := s.pc + 2 } := by
  have frame := State.writeBlock_frame h
  have regs : (if stmBaseOpen rn list8 then u.drewFree else u).regs = s.regs := by
    split <;> rw [frame]
    rfl
  have pc : u.pc = s.pc := by rw [frame]
  rw [← s.length_stmWords rn list8] at calm
  refine ⟨_, by rw [exec_stm nonempty, State.transferStores_done calm h], ?_, fun g hg => ?_, ?_⟩
  · exact (State.setLo_lo ..).trans (if_pos rfl)
  · refine (State.setLo_gpr ..).trans ((if_neg fun same => hg (congrArg Fin.val same).symm).trans ?_)
    exact State.gpr_congr regs g
  · rw [State.mk.injEq]
    split <;> simp [State.advance, State.drewFree, pc]

theorem exec_push_done {m : Bool} {list8 : BitVec 8} (nonempty : ¬(m = false ∧ list8 = 0))
    (base : s.sp - BitVec.ofNat 32 (4 * (bitCount list8 + m.toNat)) = a)
    (calm : (Uninterrupted s ∧ ∀ j < bitCount list8 + m.toNat, OutsidePpb (wordAt a j)) ∨
      (s.cfg.multiAccessAtomic = false ∧ s.midway = none))
    (h : writeBlock s a (s.pushWords m list8) = some u) :
    exec (.push m list8) s = .next { u with
      msp := if s.ipsr = 0 ∧ s.spsel = true then s.msp else a
      psp := if s.ipsr = 0 ∧ s.spsel = true then a else s.psp
      pc := s.pc + 2 } := by
  have frame := State.writeBlock_frame h
  have aligned := State.writeBlock_aligned h (by rw [s.length_pushWords]; exact stackCount_pos nonempty)
  rw [← s.length_pushWords m list8] at calm
  rw [exec_push nonempty, base, State.transferStores_done calm h, if_neg Bool.false_ne_true]
  have pc : u.pc = s.pc := by rw [frame]
  rw [State.setSp_of_aligned (s := s) (by rw [frame]) (by rw [frame]) (by rw [frame]) (by rw [frame]) aligned, State.advance, pc]

end

/-- Settles O60: the single accesses by what answers them, the blocks that stop by their first denied word, and the blocks that are done. -/
theorem busOutcomes : Obligations.BusOutcomes := by
  intro s
  refine ⟨fun i x single => ⟨exec_single_denied single, fun read device => ?deviceRead, fun write device => ?deviceWrite,
      fun read v u done => exec_single_loaded single read done,
      fun write => ⟨fun u done => exec_single_stored single write done, fun r refused => ?refused⟩⟩,
    fun i k a n j block calm hj denied before => ?stopped,
    fun a n ws u done calm => ⟨fun rn list8 block => ?ldm, fun p list8 block => ?pop⟩,
    fun a n calm => ⟨fun rn list8 block => ?stm, fun m list8 block => ?push⟩⟩
  case deviceRead => exact exec_single_loaded single read (State.memRead_of_device device)
  case deviceWrite => exact exec_single_stored single write (State.memWrite_of_device device _)
  case refused => rw [exec_single_write single write, State.store, refused, State.afterAccess_refused]
  case stopped =>
    obtain ⟨rn, list8, rfl⟩ | ⟨p, list8, rfl⟩ | ⟨rn, list8, rfl⟩ | ⟨m, list8, rfl⟩ := blockAccess_cases block
    · obtain ⟨nonempty, rfl, rfl, rfl⟩ := blockAccess_ldm.mp block
      obtain ⟨u, run, start, outcome⟩ := exec_ldm_stopped calm nonempty hj denied before
      refine ⟨fun atomic => start (.inl atomic) ▸ run, u, run, ?_, nofun, nofun, nofun⟩
      rintro _ _ ⟨⟩
      exact outcome
    · obtain ⟨nonempty, rfl, rfl, rfl⟩ := blockAccess_pop.mp block
      obtain ⟨u, run, start, outcome⟩ := exec_pop_stopped calm nonempty hj denied before
      refine ⟨fun atomic => start (.inl atomic) ▸ run, u, run, nofun, ?_, nofun, nofun⟩
      rintro _ _ ⟨⟩
      exact outcome
    · obtain ⟨nonempty, rfl, rfl, rfl⟩ := blockAccess_stm.mp block
      obtain ⟨u, run, start, outcome⟩ := exec_stm_stopped calm nonempty hj denied before
      refine ⟨fun atomic => start (.inl atomic) ▸ run, u, run, nofun, nofun, ?_, nofun⟩
      rintro _ _ ⟨⟩
      exact outcome
    · obtain ⟨nonempty, rfl, base, rfl⟩ := blockAccess_push.mp block
      obtain ⟨u, run, start, outcome⟩ := exec_push_stopped calm nonempty base hj denied before
      refine ⟨fun atomic => start (.inl atomic) ▸ run, u, run, nofun, nofun, nofun, ?_⟩
      rintro _ _ ⟨⟩
      exact outcome
  case ldm =>
    obtain ⟨nonempty, -, rfl, rfl⟩ := blockAccess_ldm.mp block
    exact exec_ldm_done nonempty calm done
  case pop =>
    obtain ⟨nonempty, -, rfl, rfl⟩ := blockAccess_pop.mp block
    exact exec_pop_done nonempty calm done
  case stm =>
    obtain ⟨nonempty, -, rfl, rfl⟩ := blockAccess_stm.mp block
    exact ⟨_, s.stmWords_spec rn list8, fun u done => exec_stm_done nonempty calm done⟩
  case push =>
    obtain ⟨nonempty, -, base, rfl⟩ := blockAccess_push.mp block
    exact ⟨_, s.pushWords_spec m list8, fun u done => exec_push_done nonempty base calm done⟩

end Sys2Proof.Machine
end

