-- ==== Sys2Proof/Proofs/EncodingForms.lean ====
section
/-! PROOF. The forms of the 16-bit encodings (30_encoding.md R193): the fields of a word, and that the decoder reads from each form the
operands that the form was written with. -/

namespace Sys2Proof

/-! The values of the fields of a word. -/

theorem loAt_val (w k : Nat) : (loAt w k).val = w / 2 ^ k % 8 := rfl

theorem regAt_val (w k : Nat) : (regAt w k).val = w / 2 ^ k % 16 := rfl

theorem splitReg_val (w : Nat) : (splitReg w).val = (w / 128 % 2 * 8 + w % 8) % 16 := rfl

theorem bitsAt_toNat (n w k : Nat) : (bitsAt n w k).toNat = w / 2 ^ k % 2 ^ n := BitVec.toNat_ofNat _ _

theorem loAt_eq {w k : Nat} {r : LoReg} (h : w / 2 ^ k % 8 = r.val) : loAt w k = r := Fin.ext h

theorem regAt_eq {w k : Nat} {r : Reg} (h : w / 2 ^ k % 16 = r.val) : regAt w k = r := Fin.ext h

theorem splitReg_eq {w : Nat} {r : Reg} (h : (w / 128 % 2 * 8 + w % 8) % 16 = r.val) : splitReg w = r := Fin.ext h

theorem bitsAt_eq {n w k : Nat} {x : BitVec n} (h : w / 2 ^ k % 2 ^ n = x.toNat) : bitsAt n w k = x :=
  BitVec.eq_of_toNat_eq ((bitsAt_toNat n w k).trans h)

theorem decodeHalves_narrow {h1 : Half} (narrow : isWide h1 = false) (h2 : Half) : decodeHalves h1 h2 = decode16 h1.toNat := by
  rw [decodeHalves, narrow, if_neg Bool.false_ne_true]

theorem decodeHalves_wide {h1 : Half} (wide : isWide h1 = true) (h2 : Half) : decodeHalves h1 h2 = decode32 h1.toNat h2.toNat := by
  rw [decodeHalves, wide, if_pos rfl]

theorem decodeList_oneHalf {w : Nat} (h : w < 59392) : decodeList (oneHalf w) = decode16 w := by
  have narrow : isWide (BitVec.ofNat 16 w) = false := Laws.selfDelimiting_oneHalf h
  refine (decodeHalves_narrow narrow 0).trans ?_
  rw [BitVec.toNat_ofNat, Nat.mod_eq_of_lt (by omega)]

theorem decodeList_pair {w1 w2 : Nat} (wide : 59392 ≤ w1) (h1 : w1 < 65536) (h2 : w2 < 65536) :
    decodeList [BitVec.ofNat 16 w1, BitVec.ofNat 16 w2] = decode32 w1 w2 := by
  have wide : isWide (BitVec.ofNat 16 w1) = true := Laws.selfDelimiting_pair wide h1 0
  refine (decodeHalves_wide wide _).trans ?_
  rw [BitVec.toNat_ofNat, BitVec.toNat_ofNat, Nat.mod_eq_of_lt h1, Nat.mod_eq_of_lt h2]

/-! One lemma per form: where the decoder answers `f` of the fields for every word with the opcode bits of `base`, it answers `f` of the
operands for their encoding. -/

section

variable {base : Nat} {mid lo : LoReg}

/-- The forms with two low registers below a field `x` at bit 6, whatever the field stands for. -/
theorem decodeList_encodeThree {f : LoReg → LoReg → Decoded} {x : Nat} (aligned : base % 64 = 0) (narrow : base + x * 64 < 59392)
    (row : ∀ w, w / 64 = base / 64 + x → decode16 w = f (loAt w 3) (loAt w 0)) : decodeList (encodeThree base x mid lo) = f mid lo := by
  have := mid.isLt
  have := lo.isLt
  rw [encodeThree, decodeList_oneHalf (by omega), row _ (by omega), loAt_eq (r := mid) (by omega), loAt_eq (r := lo) (by omega)]

theorem decodeList_encodeTwo {f : LoReg → LoReg → Decoded} (opcode : base % 64 = 0 ∧ base < 59392)
    (row : ∀ w, w / 64 = base / 64 → decode16 w = f (loAt w 3) (loAt w 0)) : decodeList (encodeTwo base mid lo) = f mid lo := by
  have core := decodeList_encodeThree (mid := mid) (lo := lo) (x := 0) opcode.1 (by omega) row
  rwa [encodeThree, Nat.zero_mul] at core

theorem decodeList_encodeThree_reg {f : LoReg → LoReg → LoReg → Decoded} {x : LoReg} (opcode : base % 512 = 0 ∧ base < 58880)
    (row : ∀ w, w / 512 = base / 512 → decode16 w = f (loAt w 6) (loAt w 3) (loAt w 0)) :
    decodeList (encodeThree base x.val mid lo) = f x mid lo := by
  have := x.isLt
  refine decodeList_encodeThree (f := f x) (by omega) (by omega) fun w h => ?_
  rw [row w (by omega), loAt_eq (r := x) (by omega)]

theorem decodeList_encodeThree_imm3 {f : BitVec 3 → LoReg → LoReg → Decoded} {x : BitVec 3} (opcode : base % 512 = 0 ∧ base < 58880)
    (row : ∀ w, w / 512 = base / 512 → decode16 w = f (bitsAt 3 w 6) (loAt w 3) (loAt w 0)) :
    decodeList (encodeThree base x.toNat mid lo) = f x mid lo := by
  have := x.isLt
  refine decodeList_encodeThree (f := f x) (by omega) (by omega) fun w h => ?_
  rw [row w (by omega), bitsAt_eq (x := x) (by omega)]

theorem decodeList_encodeThree_imm5 {f : BitVec 5 → LoReg → LoReg → Decoded} {x : BitVec 5}
    (opcode : base % 2048 = 0 ∧ base < 57344)
    (row : ∀ w, w / 2048 = base / 2048 → decode16 w = f (bitsAt 5 w 6) (loAt w 3) (loAt w 0)) :
    decodeList (encodeThree base x.toNat mid lo) = f x mid lo := by
  have := x.isLt
  refine decodeList_encodeThree (f := f x) (by omega) (by omega) fun w h => ?_
  rw [row w (by omega), bitsAt_eq (x := x) (by omega)]

theorem decodeList_encodeImm8 {f : LoReg → BitVec 8 → Decoded} {imm8 : BitVec 8} (opcode : base % 2048 = 0 ∧ base < 57344)
    (row : ∀ w, w / 2048 = base / 2048 → decode16 w = f (loAt w 8) (bitsAt 8 w 0)) :
    decodeList (encodeImm8 base lo imm8) = f lo imm8 := by
  have := lo.isLt
  have := imm8.isLt
  rw [encodeImm8, decodeList_oneHalf (by omega), row _ (by omega), loAt_eq (r := lo) (by omega), bitsAt_eq (x := imm8) (by omega)]

theorem decodeList_encodeHigh {f : Reg → Reg → Decoded} {d m : Reg} (opcode : base % 256 = 0 ∧ base < 59136)
    (row : ∀ w, w / 256 = base / 256 → decode16 w = f (splitReg w) (regAt w 3)) : decodeList (encodeHigh base d m) = f d m := by
  have := d.isLt
  have := m.isLt
  rw [encodeHigh, decodeList_oneHalf (by omega), row _ (by omega), splitReg_eq (r := d) (by omega), regAt_eq (r := m) (by omega)]

/-- The forms with one field, and nothing else, below the opcode. -/
theorem decodeList_oneHalf_bits {n : Nat} {f : BitVec n → Decoded} {x : BitVec n} (opcode : base % 2 ^ n = 0 ∧ base + 2 ^ n ≤ 59392)
    (row : ∀ w, w / 2 ^ n = base / 2 ^ n → decode16 w = f (bitsAt n w 0)) : decodeList (oneHalf (base + x.toNat)) = f x := by
  have hx := x.isLt
  have pos := Nat.two_pow_pos n
  obtain ⟨k, rfl⟩ := Nat.dvd_of_mod_eq_zero opcode.1
  have high : (2 ^ n * k + x.toNat) / 2 ^ n = 2 ^ n * k / 2 ^ n := by
    rw [Nat.mul_add_div pos, Nat.mul_div_cancel_left _ pos, Nat.div_eq_of_lt hx, Nat.add_zero]
  have low : (2 ^ n * k + x.toNat) / 2 ^ 0 % 2 ^ n = x.toNat := by
    rw [Nat.pow_zero, Nat.div_one, Nat.mul_add_mod, Nat.mod_eq_of_lt hx]
  rw [decodeList_oneHalf (by omega), row _ high, bitsAt_eq low]

end

end Sys2Proof
end

