-- ==== Sys2Proof/Proofs/DecodeEncode.lean ====
section
/-! PROOF. Decoding the encoding of a well-formed instruction gives it back (30_encoding.md R193 to R199). -/

namespace Sys2Proof

/-! Which table of the decoder a 16-bit word is read with, by its opcode bits (30_encoding.md R196). -/

section

variable {w : Nat}

theorem decode16_shiftLeft (h : w / 2048 = 0) :
    decode16 w = if w / 64 % 32 = 0 then .instr (.movsReg (loAt w 0) (loAt w 3))
      else .instr (.lslsImm (bitsAt 5 w 6) (loAt w 3) (loAt w 0)) := by
  simp only [decode16, h]

theorem decode16_addSub (h : w / 2048 = 3) : decode16 w = decodeAddSub w := by simp only [decode16, h]

theorem decode16_dataProcessing (h : w / 1024 = 16) : decode16 w = decodeDataProcessing w := by
  simp only [decode16, show w / 2048 = 8 by omega]
  exact if_pos (by omega)

theorem decode16_specialData (h : w / 1024 = 17) : decode16 w = decodeSpecialData w := by
  simp only [decode16, show w / 2048 = 8 by omega]
  exact if_neg (by omega)

theorem decode16_loadStoreReg (h : w / 4096 = 5) : decode16 w = decodeLoadStoreReg w := by
  obtain h | h : w / 2048 = 10 ∨ w / 2048 = 11 := by omega
  all_goals simp only [decode16, h]

theorem decode16_misc (h : w / 4096 = 11) : decode16 w = decodeMisc w := by
  obtain h | h : w / 2048 = 22 ∨ w / 2048 = 23 := by omega
  all_goals simp only [decode16, h]

theorem decode16_multiple (h : w / 4096 = 12) : decode16 w = decodeMultiple w := by
  obtain h | h : w / 2048 = 24 ∨ w / 2048 = 25 := by omega
  all_goals simp only [decode16, h]

theorem decode16_condBranch (h : w / 4096 = 13) : decode16 w = decodeCondBranch w := by
  obtain h | h : w / 2048 = 26 ∨ w / 2048 = 27 := by omega
  all_goals simp only [decode16, h]

theorem decode16_extend (h : w / 256 = 0xB2) : decode16 w = decodeExtend w := by
  simp only [decode16_misc (w := w) (by omega), decodeMisc, show w / 256 % 16 = 2 by omega]

theorem decode16_reverse (h : w / 256 = 0xBA) : decode16 w = decodeReverse w := by
  simp only [decode16_misc (w := w) (by omega), decodeMisc, show w / 256 % 16 = 10 by omega]

theorem decode16_push (h : w / 512 = 0x5A) : decode16 w = decodePush w := by
  rw [decode16_misc (by omega)]
  obtain h | h : w / 256 % 16 = 4 ∨ w / 256 % 16 = 5 := by omega
  all_goals simp only [decodeMisc, h]

theorem decode16_pop (h : w / 512 = 0x5E) : decode16 w = decodePop w := by
  rw [decode16_misc (by omega)]
  obtain h | h : w / 256 % 16 = 12 ∨ w / 256 % 16 = 13 := by omega
  all_goals simp only [decodeMisc, h]

theorem decode16_branchExchange (h : w / 256 = 0x47) : decode16 w = decodeBranchExchange w := by
  simp only [decode16_specialData (w := w) (by omega), decodeSpecialData, show w / 256 % 4 = 3 by omega]

theorem decode16_hint (h : w / 256 = 0xBF) : decode16 w = decodeHint w := by
  simp only [decode16_misc (w := w) (by omega), decodeMisc, show w / 256 % 16 = 15 by omega]

end

/-! The special registers and conditions, and their codes (30_encoding.md R198, R206). -/

theorem SpecReg.ofSysm_sysm (r : SpecReg) : SpecReg.ofSysm r.sysm = some r := by cases r <;> rfl

theorem SpecReg.sysm_lt (r : SpecReg) : r.sysm < 256 := by cases r <;> decide

theorem Cond.code_lt (c : Cond) : c.code < 14 := by cases c <;> decide

theorem decodeCondBranch_cond {w : Nat} {c : Cond} (h : w / 256 % 16 = c.code) :
    decodeCondBranch w = .instr (.bcond c (bitsAt 8 w 0)) := by
  rw [decodeCondBranch, h]
  cases c <;> rfl

theorem beq_one_eq {n : Nat} {b : Bool} (h : n = b.toNat) : (n == 1) = b := by
  subst h
  cases b <;> rfl

theorem lslsImmOk_iff {imm5 : BitVec 5} : lslsImmOk imm5 = true ↔ imm5.toNat ≠ 0 := by
  rw [lslsImmOk, bne_iff_ne, ne_eq, ← BitVec.toNat_inj]
  rfl

/-! The encodings with conditions on their operands, and those of two halfwords. -/

theorem decode_encode_branchExchange {rm : Reg} (ok : branchRegOk rm = true) :
    decodeList (encode (.bx rm)) = .instr (.bx rm) ∧ decodeList (encode (.blx rm)) = .instr (.blx rm) := by
  have := rm.isLt
  constructor
  · rw [encode, decodeList_oneHalf (by omega), decode16_branchExchange (by omega), decodeBranchExchange, if_neg (by omega),
      regAt_eq (r := rm) (by omega), ok, if_neg nofun, if_pos (by omega)]
  · rw [encode, decodeList_oneHalf (by omega), decode16_branchExchange (by omega), decodeBranchExchange, if_neg (by omega),
      regAt_eq (r := rm) (by omega), ok, if_neg nofun, if_neg (by omega)]

theorem decode_encode_push {m : Bool} {list8 : BitVec 8} (ok : stackListOk m list8 = true) :
    decodeList (encode (.push m list8)) = .instr (.push m list8) := by
  have := list8.isLt
  have := m.toNat_lt
  rw [encode, decodeList_oneHalf (by omega), decode16_push (by omega), decodePush, beq_one_eq (b := m) (by omega),
    bitsAt_eq (x := list8) (by omega), if_pos ok]

theorem decode_encode_pop {p : Bool} {list8 : BitVec 8} (ok : stackListOk p list8 = true) :
    decodeList (encode (.pop p list8)) = .instr (.pop p list8) := by
  have := list8.isLt
  have := p.toNat_lt
  rw [encode, decodeList_oneHalf (by omega), decode16_pop (by omega), decodePop, beq_one_eq (b := p) (by omega),
    bitsAt_eq (x := list8) (by omega), if_pos ok]

theorem decode_encode_bcond (c : Cond) (imm8 : BitVec 8) : decodeList (encode (.bcond c imm8)) = .instr (.bcond c imm8) := by
  have := c.code_lt
  refine decodeList_oneHalf_bits (f := fun imm8 => .instr (.bcond c imm8)) (by omega) fun w h => ?_
  rw [decode16_condBranch (by omega), decodeCondBranch_cond (c := c) (by omega)]

theorem decode32_bl {s j1 j2 imm10 imm11 : Nat} (hs : s < 2) (hj1 : j1 < 2) (hj2 : j2 < 2) (h10 : imm10 < 1024) (h11 : imm11 < 2048) :
    decode32 (0xF000 + s * 1024 + imm10) (0xD000 + j1 * 8192 + j2 * 2048 + imm11) = .instr (.bl (BitVec.ofNat 24
      (s * 8388608 + (j1 + s + 1) % 2 * 4194304 + (j2 + s + 1) % 2 * 2097152 + imm10 * 2048 + imm11))) := by
  rw [decode32, if_pos (by omega), if_pos (by omega), blOffset,
    show (0xF000 + s * 1024 + imm10) / 1024 % 2 = s by omega,
    show (0xF000 + s * 1024 + imm10) % 1024 = imm10 by omega,
    show ((0xD000 + j1 * 8192 + j2 * 2048 + imm11) / 8192 + s + 1) % 2 = (j1 + s + 1) % 2 by omega,
    show ((0xD000 + j1 * 8192 + j2 * 2048 + imm11) / 2048 + s + 1) % 2 = (j2 + s + 1) % 2 by omega,
    show (0xD000 + j1 * 8192 + j2 * 2048 + imm11) % 2048 = imm11 by omega]

/-- J1 and J2 hold I1 and I2 combined with S, and combining them with S again gives I1 and I2 back (30_encoding.md R195). -/
theorem decode_encode_bl (imm24 : BitVec 24) : decodeList (encode (.bl imm24)) = .instr (.bl imm24) := by
  have hn := imm24.isLt
  have digits : imm24.toNat / 8388608 * 8388608 + imm24.toNat / 4194304 % 2 * 4194304 + imm24.toNat / 2097152 % 2 * 2097152 +
      imm24.toNat / 2048 % 1024 * 2048 + imm24.toNat % 2048 = imm24.toNat := by omega
  have i1 : ((imm24.toNat / 4194304 + imm24.toNat / 8388608 + 1) % 2 + imm24.toNat / 8388608 + 1) % 2 = imm24.toNat / 4194304 % 2 := by
    omega
  have i2 : ((imm24.toNat / 2097152 + imm24.toNat / 8388608 + 1) % 2 + imm24.toNat / 8388608 + 1) % 2 = imm24.toNat / 2097152 % 2 := by
    omega
  rw [encode, encodeBl, decodeList_pair (by omega) (by omega) (by omega),
    decode32_bl (by omega) (Nat.mod_lt _ (by decide)) (Nat.mod_lt _ (by decide)) (Nat.mod_lt _ (by decide)) (Nat.mod_lt _ (by decide)),
    i1, i2, digits, BitVec.ofNat_toNat, BitVec.setWidth_eq]

theorem decode32_system {h1 h2 : Nat} (top : h1 / 2048 = 30) (group : h2 / 16384 = 2 ∧ h2 / 4096 % 2 = 0) :
    decode32 h1 h2 = decodeSystem h1 h2 := by
  rw [decode32, if_pos top, if_neg (by omega), if_pos group]

theorem decode_encode_msr (spec : SpecReg) {rn : Reg} (ok : specMoveRegOk rn = true) :
    decodeList (encode (.msr spec rn)) = .instr (.msr spec rn) := by
  have := rn.isLt
  have := spec.sysm_lt
  rw [encode, decodeList_pair (by omega) (by omega) (by omega), decode32_system (by omega) (by omega)]
  simp only [decodeSystem, show (0xF380 + rn.val) / 16 = 0xF38 by omega]
  rw [if_pos (by omega), decodeMsr, show (0x8800 + spec.sysm) % 256 = spec.sysm by omega, SpecReg.ofSysm_sysm,
    regAt_eq (r := rn) (by omega)]
  exact if_pos ok

theorem decode_encode_mrs (spec : SpecReg) {rd : Reg} (ok : specMoveRegOk rd = true) :
    decodeList (encode (.mrs rd spec)) = .instr (.mrs rd spec) := by
  have := rd.isLt
  have := spec.sysm_lt
  refine (decodeList_pair (w1 := 0xF3EF) (w2 := 0x8000 + rd.val * 256 + spec.sysm) (by decide) (by decide) (by omega)).trans ?_
  rw [decode32_system (by decide) (by omega)]
  simp only [decodeSystem]
  rw [if_pos ⟨trivial, by omega⟩, decodeMrs, show (0x8000 + rd.val * 256 + spec.sysm) % 256 = spec.sysm by omega, SpecReg.ofSysm_sysm,
    regAt_eq (r := rd) (by omega)]
  exact if_pos ok

/-- The three barriers, told apart by the field above their option. -/
theorem decodeList_barrier (f : BitVec 4 → Instr) {op : Nat} {option : BitVec 4} (hop : op < 16)
    (row : ∀ w, w / 16 % 16 = op → w / 256 = 0x8F → decodeBarrier 0xF3BF w = .instr (f (bitsAt 4 w 0))) :
    decodeList [0xF3BF, BitVec.ofNat 16 (0x8F00 + op * 16 + option.toNat)] = .instr (f option) := by
  have := option.isLt
  refine (decodeList_pair (w1 := 0xF3BF) (w2 := 0x8F00 + op * 16 + option.toNat) (by decide) (by decide) (by omega)).trans ?_
  rw [decode32_system (by decide) (by omega)]
  simp only [decodeSystem]
  rw [row _ (by omega) (by omega), bitsAt_eq (x := option) (by omega)]

theorem decode_encode_udfW (imm16 : BitVec 16) : decodeList (encode (.udfW imm16)) = .instr (.udfW imm16) := by
  have := imm16.isLt
  rw [encode, decodeList_pair (by omega) (by omega) (by omega), decode32_system (by omega) (by omega)]
  simp only [decodeSystem, show (0xF7F0 + imm16.toNat / 4096) / 16 = 0xF7F by omega]
  rw [if_pos (by omega)]
  rw [show (0xF7F0 + imm16.toNat / 4096) % 16 * 4096 + (0xA000 + imm16.toNat % 4096) % 4096 = imm16.toNat by omega, BitVec.ofNat_toNat,
    BitVec.setWidth_eq]

/-- Settles O1, the instructions taken by form and by the table of the decoder that holds their rows. -/
theorem decodeEncode : Obligations.DecodeEncode := by
  intro i wf
  cases i with
  | movsReg =>
    apply decodeList_encodeTwo (by decide) fun w h => by
      rw [decode16_shiftLeft (by omega)]
      exact if_pos (by omega)
  | lslsImm =>
    refine (decodeList_encodeThree_imm5 (f := fun imm5 rm rd => if imm5.toNat = 0 then .instr (.movsReg rd rm)
      else .instr (.lslsImm imm5 rm rd)) (by decide) fun w h => ?_).trans (if_neg (lslsImmOk_iff.mp wf))
    rw [bitsAt_toNat]
    exact decode16_shiftLeft h
  | lsrsImm | asrsImm | strImm | ldrImm | strbImm | ldrbImm | strhImm | ldrhImm =>
    apply decodeList_encodeThree_imm5 (by decide) fun _ h => by simp only [decode16, h]
  | movsImm | cmpImm | addsImm8 | subsImm8 | ldrLit | strSp | ldrSp | adr | addRdSp =>
    apply decodeList_encodeImm8 (by decide) fun _ h => by simp only [decode16, h]
  | addsReg | subsReg =>
    apply decodeList_encodeThree_reg (by decide) fun w h => by
      simp only [decode16_addSub (w := w) (by omega), decodeAddSub, show w / 512 % 4 = _ from congrArg (· % 4) h]
  | addsImm3 =>
    apply decodeList_encodeThree_imm3 (by decide) fun w h => by
      simp only [decode16_addSub (w := w) (by omega), decodeAddSub, show w / 512 % 4 = 2 by omega]
  | subsImm3 =>
    apply decodeList_encodeThree_imm3 (by decide) fun w h => by
      simp only [decode16_addSub (w := w) (by omega), decodeAddSub, show w / 512 % 4 = 3 by omega]
  | ands | eors | lslsReg | lsrsReg | asrsReg | adcs | sbcs | rors | tst | rsbs | cmpLow | cmn | orrs | muls | bics =>
    apply decodeList_encodeTwo (by decide) fun w h => by
      simp only [decode16_dataProcessing (w := w) (by omega), decodeDataProcessing, show w / 64 % 16 = _ from congrArg (· % 16) h]
  | mvns =>
    apply decodeList_encodeTwo (by decide) fun w h => by
      simp only [decode16_dataProcessing (w := w) (by omega), decodeDataProcessing, show w / 64 % 16 = 15 by omega]
  | addHigh =>
    refine (decodeList_encodeHigh (f := fun rdn rm => if addHighOk rdn rm then .instr (.addHigh rdn rm) else .unpredictable .addPcPc)
      (by decide) fun w h => ?_).trans (if_pos wf)
    simp only [decode16_specialData (w := w) (by omega), decodeSpecialData, show w / 256 % 4 = 0 by omega]
  | cmpHigh =>
    refine (decodeList_encodeHigh (f := fun rn rm => if cmpHighOk rn rm then .instr (.cmpHigh rn rm) else .unpredictable .cmpHighRegs)
      (by decide) fun w h => ?_).trans (if_pos wf)
    simp only [decode16_specialData (w := w) (by omega), decodeSpecialData, show w / 256 % 4 = 1 by omega]
  | mov =>
    apply decodeList_encodeHigh (by decide) fun w h => by
      simp only [decode16_specialData (w := w) (by omega), decodeSpecialData, show w / 256 % 4 = 2 by omega]
  | bx => exact (decode_encode_branchExchange wf).1
  | blx => exact (decode_encode_branchExchange wf).2
  | strReg | strhReg | strbReg | ldrsb | ldrReg | ldrhReg | ldrbReg =>
    apply decodeList_encodeThree_reg (by decide) fun w h => by
      simp only [decode16_loadStoreReg (w := w) (by omega), decodeLoadStoreReg, show w / 512 % 8 = _ from congrArg (· % 8) h]
  | ldrsh =>
    apply decodeList_encodeThree_reg (by decide) fun w h => by
      simp only [decode16_loadStoreReg (w := w) (by omega), decodeLoadStoreReg, show w / 512 % 8 = 7 by omega]
  | sxth | sxtb | uxth =>
    apply decodeList_encodeTwo (by decide) fun w h => by
      simp only [decode16_extend (w := w) (by omega), decodeExtend, show w / 64 % 4 = _ from congrArg (· % 4) h]
  | uxtb =>
    apply decodeList_encodeTwo (by decide) fun w h => by
      simp only [decode16_extend (w := w) (by omega), decodeExtend, show w / 64 % 4 = 3 by omega]
  | rev | rev16 =>
    apply decodeList_encodeTwo (by decide) fun w h => by
      simp only [decode16_reverse (w := w) (by omega), decodeReverse, show w / 64 % 4 = _ from congrArg (· % 4) h]
  | revsh =>
    apply decodeList_encodeTwo (by decide) fun w h => by
      simp only [decode16_reverse (w := w) (by omega), decodeReverse, show w / 64 % 4 = 3 by omega]
  | addSp =>
    apply decodeList_oneHalf_bits (by decide) fun w h => by
      simp only [decode16_misc (w := w) (by omega), decodeMisc, show w / 256 % 16 = 0 by omega]
      exact if_pos (by omega)
  | subSp =>
    apply decodeList_oneHalf_bits (by decide) fun w h => by
      simp only [decode16_misc (w := w) (by omega), decodeMisc, show w / 256 % 16 = 0 by omega]
      exact if_neg (by omega)
  | push => exact decode_encode_push wf
  | pop => exact decode_encode_pop wf
  | bkpt =>
    apply decodeList_oneHalf_bits (by decide) fun w h => by
      simp only [decode16_misc (w := w) (by omega), decodeMisc, show w / 256 % 16 = 14 by omega]
  | cpsie | cpsid | nop | yield | wfe | wfi | sev => rfl
  | stm =>
    refine (decodeList_encodeImm8 (f := fun rn list8 => if listOk list8 = false then .unpredictable .emptyList
      else .instr (.stm rn list8)) (by decide) fun w h => ?_).trans (if_neg fun empty => Bool.false_ne_true (empty.symm.trans wf))
    rw [decode16_multiple (by omega), decodeMultiple, if_pos (c := w / 2048 % 2 = 0) (by omega)]
  | ldm =>
    refine (decodeList_encodeImm8 (f := fun rn list8 => if listOk list8 = false then .unpredictable .emptyList
      else .instr (.ldm rn list8)) (by decide) fun w h => ?_).trans (if_neg fun empty => Bool.false_ne_true (empty.symm.trans wf))
    rw [decode16_multiple (by omega), decodeMultiple, if_neg (c := w / 2048 % 2 = 0) (by omega)]
  | udf =>
    apply decodeList_oneHalf_bits (by decide) fun w h => by
      simp only [decode16_condBranch (w := w) (by omega), decodeCondBranch, show w / 256 % 16 = 14 by omega]
  | svc =>
    apply decodeList_oneHalf_bits (by decide) fun w h => by
      simp only [decode16_condBranch (w := w) (by omega), decodeCondBranch, show w / 256 % 16 = 15 by omega]
  | bcond => exact decode_encode_bcond _ _
  | b => apply decodeList_oneHalf_bits (by decide) fun w h => by simp only [decode16, show w / 2048 = 28 from h]
  | bl => exact decode_encode_bl _
  | msr => exact decode_encode_msr _ wf
  | mrs => exact decode_encode_mrs _ wf
  | dsb => exact decodeList_barrier (op := 4) .dsb (by decide) fun w h high => by simp [decodeBarrier, h, high]
  | dmb => exact decodeList_barrier (op := 5) .dmb (by decide) fun w h high => by simp [decodeBarrier, h, high]
  | isb => exact decodeList_barrier (op := 6) .isb (by decide) fun w h high => by simp [decodeBarrier, h, high]
  | udfW => exact decode_encode_udfW _

end Sys2Proof
end

