-- ==== Sys2Proof/Proofs/DecodedWords.lean ====
section
/-! PROOF. The decoder answers well-formed instructions alone, and each for its encoding, but for the unallocated hints (30_encoding.md
R197 to R199, R202, R203). -/

namespace Sys2Proof

/-- An instruction that is answered is well-formed, and these halfwords are its encoding. -/
def ReadsAs (ws : List Half) (d : Decoded) : Prop := ∀ i, d = .instr i → WellFormed i = true ∧ encode i = ws

section

variable {ws : List Half}

theorem readsAs_instr {i : Instr} (wf : WellFormed i = true) (enc : encode i = ws) : ReadsAs ws (.instr i) := by
  rintro _ ⟨⟩
  exact ⟨wf, enc⟩

theorem readsAs_undefined : ReadsAs ws .undefined := nofun

theorem readsAs_unpredictable {u : Unpredictable} : ReadsAs ws (.unpredictable u) := nofun

theorem readsAs_checked {ok : Bool} {i : Instr} {u : Unpredictable} (wf : ok = true → WellFormed i = true) (enc : encode i = ws) :
    ReadsAs ws (if ok then .instr i else .unpredictable u) := by
  cases ok with
  | true => exact readsAs_instr (wf rfl) enc
  | false => exact readsAs_unpredictable

end

/-! The encodings of the fields of a word give the word back, where `base` holds its opcode bits. -/

section

variable {w base : Nat}

theorem encodeThree_fields {x : Nat} (h : base + x * 64 = w / 64 * 64) : encodeThree base x (loAt w 3) (loAt w 0) = oneHalf w := by
  rw [encodeThree, loAt_val, loAt_val]
  congr 1
  omega

theorem encodeTwo_fields (h : w / 64 * 64 = base) : encodeTwo base (loAt w 3) (loAt w 0) = oneHalf w := by
  have core := encodeThree_fields (w := w) (base := base) (x := 0) (by omega)
  rwa [encodeThree, Nat.zero_mul] at core

theorem encodeThree_fields_reg (h : w / 512 * 512 = base) : encodeThree base (loAt w 6).val (loAt w 3) (loAt w 0) = oneHalf w :=
  encodeThree_fields (by rw [loAt_val]; omega)

theorem encodeThree_fields_imm3 (h : w / 512 * 512 = base) :
    encodeThree base (bitsAt 3 w 6).toNat (loAt w 3) (loAt w 0) = oneHalf w :=
  encodeThree_fields (by rw [bitsAt_toNat]; omega)

theorem encodeThree_fields_imm5 (h : w / 2048 * 2048 = base) :
    encodeThree base (bitsAt 5 w 6).toNat (loAt w 3) (loAt w 0) = oneHalf w :=
  encodeThree_fields (by rw [bitsAt_toNat]; omega)

theorem encodeImm8_fields (h : w / 2048 * 2048 = base) : encodeImm8 base (loAt w 8) (bitsAt 8 w 0) = oneHalf w := by
  rw [encodeImm8, loAt_val, bitsAt_toNat]
  congr 1
  omega

theorem encodeHigh_fields (h : w / 256 * 256 = base) : encodeHigh base (splitReg w) (regAt w 3) = oneHalf w := by
  rw [encodeHigh, splitReg_val, regAt_val]
  congr 1
  omega

theorem oneHalf_bits {n : Nat} (h : w / 2 ^ n * 2 ^ n = base) : oneHalf (base + (bitsAt n w 0).toNat) = oneHalf w := by
  rw [bitsAt_toNat, Nat.pow_zero, Nat.div_one, ← h, Nat.div_add_mod']

end

/-! One lemma per table of the decoder. -/

section

variable {w : Nat}

theorem decodeAddSub_reads (h : w / 2048 = 3) : ReadsAs (oneHalf w) (decodeAddSub w) := by
  unfold decodeAddSub
  split
  · exact readsAs_instr rfl (encodeThree_fields_reg (by omega))
  · exact readsAs_instr rfl (encodeThree_fields_reg (by omega))
  · exact readsAs_instr rfl (encodeThree_fields_imm3 (by omega))
  · simp only [imp_false] at *
    exact readsAs_instr rfl (encodeThree_fields_imm3 (by omega))

theorem decodeDataProcessing_reads (h : w / 1024 = 16) : ReadsAs (oneHalf w) (decodeDataProcessing w) := by
  unfold decodeDataProcessing
  split
  case h_16 =>
    simp only [imp_false] at *
    exact readsAs_instr rfl (encodeTwo_fields (by omega))
  all_goals exact readsAs_instr rfl (encodeTwo_fields (by omega))

theorem decodeBranchExchange_reads (h : w / 256 = 0x47) : ReadsAs (oneHalf w) (decodeBranchExchange w) := by
  unfold decodeBranchExchange
  split
  · exact readsAs_unpredictable
  · split
    · exact readsAs_unpredictable
    · next ok =>
      have ok : branchRegOk (regAt w 3) = true := Bool.of_not_eq_false ok
      split
      all_goals
        refine readsAs_instr ok (congrArg oneHalf ?_)
        rw [regAt_val]
        omega

theorem decodeSpecialData_reads (h : w / 1024 = 17) : ReadsAs (oneHalf w) (decodeSpecialData w) := by
  unfold decodeSpecialData
  split
  · exact readsAs_checked id (encodeHigh_fields (by omega))
  · exact readsAs_checked id (encodeHigh_fields (by omega))
  · exact readsAs_instr rfl (encodeHigh_fields (by omega))
  · simp only [imp_false] at *
    exact decodeBranchExchange_reads (by omega)

theorem decodeLoadStoreReg_reads (h : w / 4096 = 5) : ReadsAs (oneHalf w) (decodeLoadStoreReg w) := by
  unfold decodeLoadStoreReg
  split
  case h_8 =>
    simp only [imp_false] at *
    exact readsAs_instr rfl (encodeThree_fields_reg (by omega))
  all_goals exact readsAs_instr rfl (encodeThree_fields_reg (by omega))

theorem decodeExtend_reads (h : w / 256 = 0xB2) : ReadsAs (oneHalf w) (decodeExtend w) := by
  unfold decodeExtend
  split
  case h_4 =>
    simp only [imp_false] at *
    exact readsAs_instr rfl (encodeTwo_fields (by omega))
  all_goals exact readsAs_instr rfl (encodeTwo_fields (by omega))

theorem decodeReverse_reads (h : w / 256 = 0xBA) : ReadsAs (oneHalf w) (decodeReverse w) := by
  unfold decodeReverse
  split
  · exact readsAs_instr rfl (encodeTwo_fields (by omega))
  · exact readsAs_instr rfl (encodeTwo_fields (by omega))
  · exact readsAs_undefined
  · simp only [imp_false] at *
    exact readsAs_instr rfl (encodeTwo_fields (by omega))

theorem decodeCps_reads (h : w / 256 = 0xB6) : ReadsAs (oneHalf w) (decodeCps w) := by
  unfold decodeCps
  split
  · exact readsAs_undefined
  · split
    · exact readsAs_unpredictable
    · split <;> exact readsAs_instr rfl (congrArg oneHalf (by omega))

theorem toNat_beq_one (n : Nat) : (n % 2 == 1).toNat = n % 2 := by
  obtain h | h : n % 2 = 0 ∨ n % 2 = 1 := by omega
  all_goals rw [h]; rfl

theorem decodePush_reads (h : w / 512 = 0x5A) : ReadsAs (oneHalf w) (decodePush w) := by
  refine readsAs_checked id (congrArg oneHalf ?_)
  rw [toNat_beq_one, bitsAt_toNat]
  omega

theorem decodePop_reads (h : w / 512 = 0x5E) : ReadsAs (oneHalf w) (decodePop w) := by
  refine readsAs_checked id (congrArg oneHalf ?_)
  rw [toNat_beq_one, bitsAt_toNat]
  omega

theorem decodeMisc_reads (h : w / 4096 = 11) (noHint : w / 256 ≠ 0xBF) : ReadsAs (oneHalf w) (decodeMisc w) := by
  unfold decodeMisc
  split
  · split <;> exact readsAs_instr rfl (oneHalf_bits (by omega))
  · exact decodeExtend_reads (by omega)
  · exact decodePush_reads (by omega)
  · exact decodePush_reads (by omega)
  · exact decodeCps_reads (by omega)
  · exact decodeReverse_reads (by omega)
  · exact decodePop_reads (by omega)
  · exact decodePop_reads (by omega)
  · exact readsAs_instr rfl (oneHalf_bits (by omega))
  · omega
  · exact readsAs_undefined

/-- The hints, where an unallocated one is answered as NOP (30_encoding.md R202). -/
theorem decodeHint_reads (h : w / 256 = 0xBF) {i : Instr} (hi : decodeHint w = .instr i) :
    WellFormed i = true ∧ (encode i = oneHalf w ∨ i = .nop ∧ w % 16 = 0 ∧ 5 ≤ w / 16 % 16) := by
  unfold decodeHint at hi
  split at hi
  · cases hi
  · split at hi
    case h_5 =>
      simp only [imp_false] at *
      cases hi
      obtain zero | unallocated : w / 16 % 16 = 0 ∨ 5 ≤ w / 16 % 16 := by omega
      · exact ⟨rfl, .inl (congrArg oneHalf (by omega))⟩
      · exact ⟨rfl, .inr ⟨rfl, by omega, unallocated⟩⟩
    all_goals
      cases hi
      exact ⟨rfl, .inl (congrArg oneHalf (by omega))⟩

theorem decodeMultiple_reads (h : w / 4096 = 12) : ReadsAs (oneHalf w) (decodeMultiple w) := by
  unfold decodeMultiple
  split
  · exact readsAs_unpredictable
  · next ok =>
    have ok : listOk (bitsAt 8 w 0) = true := Bool.of_not_eq_false ok
    split <;> exact readsAs_instr ok (encodeImm8_fields (by omega))

theorem Cond.code_ofCode {c : Nat} (h : c < 14) : (Cond.ofCode c).code = c := by
  decide +revert

theorem decodeCondBranch_reads (h : w / 4096 = 13) : ReadsAs (oneHalf w) (decodeCondBranch w) := by
  unfold decodeCondBranch
  split
  · exact readsAs_instr rfl (oneHalf_bits (by omega))
  · exact readsAs_instr rfl (oneHalf_bits (by omega))
  · simp only [imp_false] at *
    refine readsAs_instr rfl (oneHalf_bits ?_)
    rw [Cond.code_ofCode (by omega)]
    omega

theorem decode16_reads (noHint : w / 256 ≠ 0xBF) : ReadsAs (oneHalf w) (decode16 w) := by
  unfold decode16
  split
  case h_1 =>
    split
    · exact readsAs_instr rfl (encodeTwo_fields (by omega))
    · refine readsAs_instr (lslsImmOk_iff.mpr ?_) (encodeThree_fields_imm5 (by omega))
      rwa [bitsAt_toNat]
  case h_2 | h_3 | h_13 | h_14 | h_15 | h_16 | h_17 | h_18 => exact readsAs_instr rfl (encodeThree_fields_imm5 (by omega))
  case h_4 => exact decodeAddSub_reads (by omega)
  case h_5 | h_6 | h_7 | h_8 | h_10 | h_19 | h_20 | h_21 | h_22 => exact readsAs_instr rfl (encodeImm8_fields (by omega))
  case h_9 =>
    split
    · exact decodeDataProcessing_reads (by omega)
    · exact decodeSpecialData_reads (by omega)
  case h_11 | h_12 => exact decodeLoadStoreReg_reads (by omega)
  case h_23 | h_24 => exact decodeMisc_reads (by omega) noHint
  case h_25 | h_26 => exact decodeMultiple_reads (by omega)
  case h_27 | h_28 => exact decodeCondBranch_reads (by omega)
  case h_29 => exact readsAs_instr rfl (oneHalf_bits (by omega))
  case h_30 => exact readsAs_undefined

end

theorem SpecReg.sysm_of_ofSysm {n : Nat} {r : SpecReg} (h : SpecReg.ofSysm n = some r) : r.sysm = n := by
  unfold SpecReg.ofSysm at h
  split at h
  case h_12 => cases h
  all_goals
    cases h
    rfl

theorem encodeBl_fields {s i1 i2 imm10 imm11 : Nat} (hs : s < 2) (hi1 : i1 < 2) (hi2 : i2 < 2) (h10 : imm10 < 1024) (h11 : imm11 < 2048) :
    encodeBl (BitVec.ofNat 24 (s * 8388608 + i1 * 4194304 + i2 * 2097152 + imm10 * 2048 + imm11)) =
      [BitVec.ofNat 16 (0xF000 + s * 1024 + imm10),
        BitVec.ofNat 16 (0xD000 + (i1 + s + 1) % 2 * 8192 + (i2 + s + 1) % 2 * 2048 + imm11)] := by
  generalize hn : s * 8388608 + i1 * 4194304 + i2 * 2097152 + imm10 * 2048 + imm11 = n
  rw [encodeBl, BitVec.toNat_ofNat, show n % 2 ^ 24 = n by omega, show n / 8388608 = s by omega, show n / 4194304 = 2 * s + i1 by omega,
    show n / 2097152 = 4 * s + 2 * i1 + i2 by omega, show n / 2048 % 1024 = imm10 by omega, show n % 2048 = imm11 by omega,
    show (2 * s + i1 + s + 1) % 2 = (i1 + s + 1) % 2 by omega, show (4 * s + 2 * i1 + i2 + s + 1) % 2 = (i2 + s + 1) % 2 by omega]

section

variable {h1 h2 : Nat}

/-- I1 and I2 hold J1 and J2 combined with S, and combining them with S again gives J1 and J2 back (30_encoding.md R195). -/
theorem encodeBl_blOffset (top : h1 / 2048 = 30) (group : h2 / 16384 = 3 ∧ h2 / 4096 % 2 = 1) :
    encodeBl (blOffset h1 h2) = [BitVec.ofNat 16 h1, BitVec.ofNat 16 h2] := by
  have j1 : ((h2 / 8192 + h1 / 1024 % 2 + 1) % 2 + h1 / 1024 % 2 + 1) % 2 = h2 / 8192 % 2 := by omega
  have j2 : ((h2 / 2048 + h1 / 1024 % 2 + 1) % 2 + h1 / 1024 % 2 + 1) % 2 = h2 / 2048 % 2 := by omega
  have word1 : 0xF000 + h1 / 1024 % 2 * 1024 + h1 % 1024 = h1 := by omega
  have word2 : 0xD000 + h2 / 8192 % 2 * 8192 + h2 / 2048 % 2 * 2048 + h2 % 2048 = h2 := by omega
  rw [blOffset, encodeBl_fields (Nat.mod_lt _ (by decide)) (Nat.mod_lt _ (by decide)) (Nat.mod_lt _ (by decide))
    (Nat.mod_lt _ (by decide)) (Nat.mod_lt _ (by decide)), j1, j2, word1, word2]

theorem decodeMsr_reads (high1 : h1 / 16 = 0xF38) (high2 : h2 / 256 = 0x88) :
    ReadsAs [BitVec.ofNat 16 h1, BitVec.ofNat 16 h2] (decodeMsr h1 h2) := by
  unfold decodeMsr
  split
  · exact readsAs_unpredictable
  · next r hr =>
    have sysm := SpecReg.sysm_of_ofSysm hr
    refine readsAs_checked id ?_
    rw [encode, regAt_val, show 0xF380 + h1 / 2 ^ 0 % 16 = h1 by omega, show 0x8800 + r.sysm = h2 by omega]

theorem decodeMrs_reads (high2 : h2 / 4096 = 8) : ReadsAs [0xF3EF, BitVec.ofNat 16 h2] (decodeMrs h2) := by
  unfold decodeMrs
  split
  · exact readsAs_unpredictable
  · next r hr =>
    have sysm := SpecReg.sysm_of_ofSysm hr
    refine readsAs_checked id ?_
    rw [encode, regAt_val, show 0x8000 + h2 / 2 ^ 8 % 16 * 256 + r.sysm = h2 by omega]

theorem decodeBarrier_reads : ReadsAs [BitVec.ofNat 16 h1, BitVec.ofNat 16 h2] (decodeBarrier h1 h2) := by
  have enc {base : Nat} (high2 : h2 / 16 * 16 = base) : base + (bitsAt 4 h2 0).toNat = h2 := by
    rw [bitsAt_toNat]
    omega
  unfold decodeBarrier
  split
  case h_4 => exact readsAs_undefined
  all_goals
    split
    · next bits =>
      obtain ⟨rfl, high2⟩ := bits
      exact readsAs_instr rfl (congrArg ([0xF3BF, BitVec.ofNat 16 ·]) (enc (by omega)))
    · exact readsAs_unpredictable

theorem decodeSystem_reads : ReadsAs [BitVec.ofNat 16 h1, BitVec.ofNat 16 h2] (decodeSystem h1 h2) := by
  unfold decodeSystem
  split
  · split
    · exact decodeMsr_reads (by assumption) (by assumption)
    · exact readsAs_unpredictable
  · exact readsAs_unpredictable
  · exact decodeBarrier_reads
  · split
    · next bits =>
      obtain ⟨rfl, high2⟩ := bits
      exact decodeMrs_reads high2
    · exact readsAs_unpredictable
  · exact readsAs_unpredictable
  · split
    · refine readsAs_instr rfl ?_
      rw [encode, BitVec.toNat_ofNat]
      congr 3
      all_goals omega
    · exact readsAs_undefined
  · exact readsAs_undefined

theorem decode32_reads : ReadsAs [BitVec.ofNat 16 h1, BitVec.ofNat 16 h2] (decode32 h1 h2) := by
  unfold decode32
  split
  · next top =>
    split
    · next group => exact readsAs_instr rfl (encodeBl_blOffset top group)
    · split
      · exact decodeSystem_reads
      · exact readsAs_undefined
  · exact readsAs_undefined

end

theorem ofNat_toNat_half (h : Half) : BitVec.ofNat 16 h.toNat = h := by rw [BitVec.ofNat_toNat, BitVec.setWidth_eq]

/-- Settles O2: the wide words by their decoder, the narrow ones by theirs, the hints apart. -/
theorem oneWordPerInstruction : Obligations.OneWordPerInstruction := by
  intro h1 h2 i decoded
  cases wide : isWide h1 with
  | true =>
    rw [decodeHalves_wide wide] at decoded
    obtain ⟨wf, enc⟩ := decode32_reads i decoded
    rw [ofNat_toNat_half, ofNat_toNat_half] at enc
    exact ⟨wf, fun _ => enc, nofun⟩
  | false =>
    rw [decodeHalves_narrow wide] at decoded
    have word : oneHalf h1.toNat = [h1] := by rw [oneHalf, ofNat_toNat_half]
    by_cases hint : h1.toNat / 256 = 0xBF
    · rw [decode16_hint hint] at decoded
      obtain ⟨wf, enc | ⟨nop, low, unallocated⟩⟩ := decodeHint_reads hint decoded
      · exact ⟨wf, nofun, fun _ => .inl (enc.trans word)⟩
      · exact ⟨wf, nofun, fun _ => .inr ⟨nop, hint, low, unallocated⟩⟩
    · obtain ⟨wf, enc⟩ := decode16_reads hint i decoded
      exact ⟨wf, nofun, fun _ => .inl (enc.trans word)⟩

end Sys2Proof
end

