-- ==== Sys2Proof/Proofs/FixedWords.lean ====
section
/-! PROOF. The words of the encoding tables (30_encoding.md R197, R198, R201, R203). -/

namespace Sys2Proof

/-- Settles O3: a narrow word decodes by its own halfword, whatever the halfword after it. -/
theorem decodeExamples : Obligations.DecodeExamples := by
  intro h2
  have narrow {h1 : Half} {d : Decoded} (begins : isWide h1 = false) (word : decode16 h1.toNat = d) : decodeHalves h1 h2 = d :=
    (decodeHalves_narrow begins h2).trans word
  have wide {h1 h2 : Half} {d : Decoded} (begins : isWide h1 = true) (word : decode32 h1.toNat h2.toNat = d) : decodeHalves h1 h2 = d :=
    (decodeHalves_wide begins h2).trans word
  exact ⟨narrow rfl rfl, narrow rfl rfl, narrow rfl rfl, narrow rfl rfl, narrow rfl rfl, narrow rfl rfl, narrow rfl rfl, narrow rfl rfl,
    narrow rfl rfl, wide rfl rfl, wide rfl rfl, narrow rfl rfl, narrow rfl rfl⟩

end Sys2Proof
end

