-- ==== Sys2Proof/Proofs/IllFormed.lean ====
section
/-! PROOF. Operands outside every encoding are refused (30_encoding.md R203), and LSLS by 0 is MOVS (R199 item 1). -/

namespace Sys2Proof.Machine

theorem exec_lslsImm_zero (rm rd : LoReg) (s : State) : exec (.lslsImm 0 rm rd) s = exec (.movsReg rd rm) s := rfl

/-- Settles O31, one case per restriction of R203: each meaning begins with the check that the instruction fails. -/
theorem illFormedRefused : Obligations.IllFormedRefused := by
  intro i s ill
  have not_ok {ok : Bool} (h : ok = false) : ¬ok = true := Bool.not_eq_true _ ▸ h
  cases i with
  | lslsImm imm5 rm rd =>
    obtain rfl : imm5 = 0 := bne_eq_false_iff_eq.mp ill
    exact .inr ⟨rm, rd, rfl, exec_lslsImm_zero rm rd s⟩
  | addHigh | cmpHigh | bx | blx | mrs | msr => exact .inl ⟨_, if_neg (not_ok ill)⟩
  | ldm | stm | push | pop => exact .inl ⟨_, if_pos (Bool.not_eq_true' _ ▸ ill)⟩
  | _ => cases ill

end Sys2Proof.Machine
end

