-- ==== Sys2Proof/Proofs/SingleStorage.lean ====
section
/-! PROOF. The single loads and stores of storage: the value of a load as the number in its bytes, and the bytes of a store
(40_memory_access.md R231 to R247, R253; 20_memory.md R132). -/

namespace Sys2Proof.Machine

open Sys2Proof.Safety

/-! ### Values as numbers -/

theorem bytesValue_lt (s : State) (a : Word) (n : Nat) : bytesValue s a n < 256 ^ n := by
  induction n generalizing a with
  | zero => exact Nat.one_pos
  | succ n ih =>
    have byte := (s.mem.byteAt a.toNat).isLt
    have rest := ih (a + 1)
    rw [bytesValue, Nat.pow_succ]
    omega

theorem load_eq_bytesValue (s : State) (size : Size) (a : Word) :
    s.mem.load size a = BitVec.ofNat 32 (bytesValue s a size.bytes) := by
  cases size with
  | byte =>
    rw [Memory.load, ← BitVec.ofNat_toNat]
    rfl
  | half =>
    rw [Memory.load, ← BitVec.ofNat_toNat, toNat_append_byte]
    rfl
  | word => exact load_word_eq_bytesValue s a

theorem carried_load (s : State) (size : Size) (a : Word) : carried size (s.mem.load size a) = bytesValue s a size.bytes := by
  have lt := bytesValue_lt s a size.bytes
  have fits : 256 ^ size.bytes ≤ 2 ^ 32 := by cases size <;> decide
  rw [carried, load_eq_bytesValue, BitVec.toNat_ofNat, Nat.mod_eq_of_lt (Nat.lt_of_lt_of_le lt fits), Nat.mod_eq_of_lt lt]

/-- A load without sign extension gives the number in the bytes. -/
theorem loaded_unsigned (s : State) (size : Size) (a : Word) :
    loaded size false (s.mem.load size a) = BitVec.ofNat 32 (bytesValue s a size.bytes) := by
  rw [loaded, carried_load, if_neg nofun]

/-- A load with sign extension fills the upper bits where the number reaches half of what its bytes can hold. -/
theorem loaded_signed {size : Size} {sign fill : Nat} (half : 256 ^ size.bytes = 2 * sign)
    (upper : 256 ^ size.bytes + fill = 4294967296) (s : State) (a : Word) :
    loaded size true (s.mem.load size a) =
      BitVec.ofNat 32 (if bytesValue s a size.bytes < sign then bytesValue s a size.bytes else bytesValue s a size.bytes + fill) := by
  have negative : 256 ^ size.bytes ≤ 2 * bytesValue s a size.bytes ↔ ¬bytesValue s a size.bytes < sign := by omega
  have filled : bytesValue s a size.bytes + 4294967296 - 256 ^ size.bytes = bytesValue s a size.bytes + fill := by omega
  by_cases below : bytesValue s a size.bytes < sign <;> simp [loaded, carried_load, negative, filled, below]

/-! ### Loads and stores that reach storage -/

section
variable {s : State} {i : Instr} {rt : LoReg} {size : Size} {a : Word}

/-- A load from storage puts its value in its register and changes nothing else. -/
theorem exec_load_storage {signed : Bool} (h : singleAccess s i = some ⟨.read, size, a, rt, signed⟩)
    (storage : ReachesStorage s .read size a) :
    ∃ t, exec i s = .next t ∧ WroteLow s t rt (loaded size signed (s.mem.load size a)) s.apsr := by
  obtain ⟨t, run, value, others, frame⟩ := exec_single_loaded h rfl (State.memRead_of_storage storage)
  refine ⟨t, run, value, fun k hk => others k fun same => hk (Fin.ext same), ?_, ?_, fun a => ?_, ?_⟩ <;> rw [frame]

theorem exec_load_unsigned (h : singleAccess s i = some ⟨.read, size, a, rt, false⟩) (storage : ReachesStorage s .read size a) :
    ∃ t, exec i s = .next t ∧ WroteLow s t rt (BitVec.ofNat 32 (bytesValue s a size.bytes)) s.apsr :=
  loaded_unsigned s size a ▸ exec_load_storage h storage

theorem exec_load_signed {sign fill : Nat} (half : 256 ^ size.bytes = 2 * sign) (upper : 256 ^ size.bytes + fill = 4294967296)
    (h : singleAccess s i = some ⟨.read, size, a, rt, true⟩) (storage : ReachesStorage s .read size a) :
    ∃ t, exec i s = .next t ∧ WroteLow s t rt
      (BitVec.ofNat 32 (if bytesValue s a size.bytes < sign then bytesValue s a size.bytes else bytesValue s a size.bytes + fill))
      s.apsr :=
  loaded_signed half upper s a ▸ exec_load_storage h storage

/-- A write to storage: its bytes unless the storage is read-only, every other byte and all else as before. -/
theorem State.busWrite_bytes {v : Word} {u : State} (storage : ReachesStorage s .write size a)
    (written : s.busWrite s.privileged size a v = .ok u) :
    (∀ i < size.bytes, u.mem.byteAt (a + BitVec.ofNat 32 i).toNat =
        if s.kindAt s.privileged .write size a = .rom then s.mem.byteAt (a + BitVec.ofNat 32 i).toNat
        else BitVec.ofNat 8 (v.toNat / 256 ^ i)) ∧
      ∀ b, (∀ i < size.bytes, b ≠ (a + BitVec.ofNat 32 i).toNat) → u.mem.byteAt b = s.mem.byteAt b := by
  obtain ⟨rom, rfl⟩ | ⟨device, -⟩ | ⟨notRom, -, rfl⟩ := State.busWrite_cases (inPpb_of_storage storage) written
  · exact ⟨fun i _ => (if_pos rom).symm, fun _ _ => rfl⟩
  · exact absurd device (not_device_of_storage storage)
  · have short : 0 + size.bytes ≤ 4294967296 := by cases size <;> decide
    rw [accessBytes_eq]
    refine ⟨fun i hi => ?_, fun b hb => State.storeBytes_byteAt_ne fun c hc => ?_⟩
    · rw [if_neg notRom, ← byteOf_eq_ofNat]
      exact State.storeBytes_byteAt short (Nat.zero_le i) (by omega)
    · obtain ⟨k, hk, rfl⟩ := List.mem_map.mp hc
      exact fun same => hb k (by simpa using hk) same.symm

/-- A store to storage stores the bytes of its register and changes nothing else. -/
theorem exec_store_storage {signed : Bool} (h : singleAccess s i = some ⟨.write, size, a, rt, signed⟩)
    (storage : ReachesStorage s .write size a) : ∃ t, exec i s = .next t ∧ Stored s t size a (s.lo rt) := by
  obtain ⟨u, written⟩ := State.busWrite_done (s := s) (priv := s.privileged) (size := size) (v := s.lo rt)
    (inPpb_of_storage storage)
  have done := (State.memWrite_of_check (State.checkAccess_of_storage storage) (s.lo rt)).trans written
  obtain ⟨bytes, others⟩ := State.busWrite_bytes storage written
  refine ⟨_, exec_single_stored h rfl done, bytes, others, ?_⟩
  rw [State.busWrite_of_storage storage written]

end

/-- Settles O18, one case per form of LDR. -/
theorem wordLoads : Obligations.WordLoads := by
  rintro s rt rn rm imm5 imm8 i a (⟨rfl, rfl⟩ | ⟨rfl, rfl⟩ | ⟨rfl, rfl⟩ | ⟨rfl, rfl⟩) storage <;>
    exact exec_load_unsigned rfl storage

/-- Settles O19: the forms without sign extension, then LDRSB and LDRSH. -/
theorem narrowLoads : Obligations.NarrowLoads := by
  intro s rt rn rm imm5
  refine ⟨?byte, ?half, exec_load_signed (size := .byte) rfl rfl rfl, exec_load_signed (size := .half) rfl rfl rfl⟩
  case byte =>
    rintro i a (⟨rfl, rfl⟩ | ⟨rfl, rfl⟩) storage <;> exact exec_load_unsigned rfl storage
  case half =>
    rintro i a (⟨rfl, rfl⟩ | ⟨rfl, rfl⟩) storage <;> exact exec_load_unsigned rfl storage

/-- Settles O20, one case per form of STR, STRH and STRB. -/
theorem singleStores : Obligations.SingleStores := by
  rintro s rt rn rm imm5 imm8 i size a (⟨rfl, rfl, rfl⟩ | ⟨rfl, rfl, rfl⟩ | ⟨rfl, rfl, rfl⟩ | ⟨rfl, rfl, rfl⟩ | ⟨rfl, rfl, rfl⟩ |
      ⟨rfl, rfl, rfl⟩ | ⟨rfl, rfl, rfl⟩) storage <;>
    exact exec_store_storage rfl storage

end Sys2Proof.Machine
end

