-- ==== Sys2Proof/Proofs/Midway.lean ====
section
/-! PROOF. Arrivals in the middle of LDM, STM, PUSH and POP: sampling does not look at what the accesses have changed so far, so that an
instruction is abandoned by the same exception after each of them (60_exceptions.md R362, R366, R367, R384, R406). -/

namespace Sys2Proof.Machine

open Sys2Proof.Safety

/-! ### Sampling and what accesses change -/

/-- The state with the registers, memory and count of free values of another: those that accesses of storage change. -/
def State.withTransferred (s u : State) : State := { s with regs := u.regs, mem := u.mem, freeCount := u.freeCount }

section
variable (s u : State)

theorem State.withTransferred_ite {c : Prop} [Decidable c] (t : State) :
    (if c then s else t).withTransferred u = if c then s.withTransferred u else t.withTransferred u :=
  apply_ite (State.withTransferred · u) c s t

theorem State.signalEvent_withTransferred : (s.withTransferred u).signalEvent = s.signalEvent.withTransferred u := by
  rw [State.signalEvent, State.signalEvent, State.withTransferred_ite]
  rfl

theorem State.setPendingMask_withTransferred (mask : BitVec 48) :
    (s.withTransferred u).setPendingMask mask = (s.setPendingMask mask).withTransferred u := by
  simp only [State.setPendingMask, State.withTransferred_ite, ← State.signalEvent_withTransferred]
  rfl

theorem State.sampleIrq_withTransferred (levels : BitVec 32) :
    (s.withTransferred u).sampleIrq levels = (s.sampleIrq levels).withTransferred u := by
  rw [State.sampleIrq, State.setPendingMask_withTransferred]
  rfl

theorem State.sampleNmi_withTransferred (level : Bool) :
    (s.withTransferred u).sampleNmi level = (s.sampleNmi level).withTransferred u := by
  rw [State.sampleNmi, State.setPending, State.setPendingMask_withTransferred, ← State.withTransferred_ite]
  rfl

theorem State.sysTickTick_withTransferred : (s.withTransferred u).sysTickTick = s.sysTickTick.withTransferred u := by
  simp only [State.sysTickTick, State.withTransferred_ite, State.setPending, ← State.setPendingMask_withTransferred]
  rfl

theorem State.sysTickTicks_withTransferred (n : Nat) : (s.withTransferred u).sysTickTicks n = (s.sysTickTicks n).withTransferred u := by
  induction n generalizing s with
  | zero => rfl
  | succ n ih => rw [State.sysTickTicks, State.sysTickTick_withTransferred, ih, State.sysTickTicks]

theorem State.sampleMidway_withTransferred (m : Midway) :
    (s.withTransferred u).sampleMidway m = (s.sampleMidway m).withTransferred u := by
  rw [State.sampleMidway, State.sampleIrq_withTransferred, State.sampleNmi_withTransferred, State.sysTickTicks_withTransferred]
  rfl

theorem State.bestCandidate_withTransferred : (s.withTransferred u).bestCandidate = s.bestCandidate :=
  State.bestCandidate_congr rfl rfl rfl

end

/-! ### Instructions that are abandoned -/

section
variable {s : State} {a : Word} {m : Midway} {e : Exc}

/-- An instruction whose accesses so far are done and changed registers, memory and free values alone is abandoned by the exception
that the arrival makes the one to take. -/
theorem State.inSteps_abandoned {n : Nat} {upTo : Nat → Progress} {partway : Progress → State} {finish : Progress → Result}
    (interrupted : Interrupted s m e) {u : State} (done : (upTo (min m.after n)).stop = .ok ())
    (state : partway (upTo (min m.after n)) = s.withTransferred u) :
    s.inSteps n upTo partway finish = ((s.sampleMidway m).withTransferred u).takeException e s.pc := by
  obtain ⟨notAtomic, arrives, best⟩ := interrupted
  have abandoned : s.abandonment n upTo partway = some (e, (s.sampleMidway m).withTransferred u) := by
    simp only [State.abandonment, notAtomic, arrives, done, state, State.sampleMidway_withTransferred,
      State.bestCandidate_withTransferred, best, if_true, Option.map_some]
  rw [State.inSteps, abandoned]

theorem Progress.loadsKept_eq_withTransferred (p : Progress) (base : Option LoReg) (rs : List LoReg) :
    p.loadsKept base rs = p.state.withTransferred (p.loadsKept base rs) := by
  have mem : (p.loadsKept base rs).mem = p.state.mem := by rw [Progress.loadsKept_frame]
  rw [State.withTransferred, mem]
  exact p.loadsKept_frame base rs

theorem Progress.storesKept_eq_withTransferred (p : Progress) (fresh : Bool) :
    p.storesKept fresh = p.state.withTransferred (p.storesKept fresh) := by
  have regs : (p.storesKept fresh).regs = p.state.regs := by rw [Progress.storesKept_frame]
  have mem : (p.storesKept fresh).mem = p.state.mem := by rw [Progress.storesKept_frame]
  rw [State.withTransferred, regs, mem]
  exact p.storesKept_frame fresh

theorem partlyLoaded_congr {u t : State} (regs : t.regs = u.regs) {list8 : BitVec 8} {k : Nat} {base : Option LoReg}
    (h : PartlyLoaded s u a list8 k base) : PartlyLoaded s t a list8 k base := by
  simpa only [PartlyLoaded, State.lo, State.gpr_congr regs] using h

/-- A block of loads from storage that is abandoned: the exception is taken with some of the words loaded so far in their registers. -/
theorem State.transferLoads_abandoned {n : Nat} {base : Option LoReg} {list8 : BitVec 8} {finish : List Word → State → Result}
    (interrupted : Interrupted s m e) (storage : BlockReachesStorage s .read a n) :
    ∃ u, s.transferLoads a n base (regList list8) finish = u.takeException e s.pc ∧
      PartlyLoaded s u a list8 (min m.after n) base ∧
      u = { s.sampleMidway m with regs := u.regs, freeCount := u.freeCount } := by
  have steps := State.readSteps_of_storage (s := s) (a := a) (n := min m.after n) fun k hk => storage k (by omega)
  generalize read : s.readSteps a (min m.after n) = p at steps
  have state : p.state = s := by rw [steps]
  have kept : p.loadsKept base (regList list8) = s.withTransferred (p.loadsKept base (regList list8)) :=
    (p.loadsKept_eq_withTransferred ..).trans (by rw [state])
  have mem : (p.loadsKept base (regList list8)).mem = (s.sampleMidway m).mem := by
    rw [Progress.loadsKept_frame, state, State.sampleMidway_mem]
  refine ⟨(s.sampleMidway m).withTransferred (p.loadsKept base (regList list8)), ?_, ?_, ?_⟩
  · rw [State.transferLoads_inSteps interrupted.1]
    exact State.inSteps_abandoned interrupted (by rw [read, steps]) (by rw [read]; exact kept)
  · exact partlyLoaded_congr rfl (partlyLoaded_of_words state (by rw [steps]) list8 base)
  · rw [State.withTransferred, mem]

/-- A block of words written to storage: each word that RAM takes is there, every byte outside the block and all else is as before. -/
theorem State.writeSteps_holds {ws : List Word} (short : ws.length ≤ 9) (storage : BlockReachesStorage s .write a ws.length) :
    ∃ u, s.writeSteps a ws = { words := ws, state := u, stop := .ok () } ∧ u = { s with mem := u.mem } ∧
      (∀ k v, ws[k]? = some v → HoldsWord s u (wordAt a k) v) ∧ SameOutside s u a ws.length := by
  obtain ⟨u, steps, written, frame⟩ := State.writeSteps_of_storage storage
  exact ⟨u, steps, frame, State.writeWords_holds short (fun k hk => outside_of_storage (storage k hk)) written⟩

/-- A block of stores to storage that is abandoned: the exception is taken with the first words stored. -/
theorem State.transferStores_abandoned {ws : List Word} {fresh : Bool} {finish : State → Result} (short : ws.length ≤ 9)
    (interrupted : Interrupted s m e) (storage : BlockReachesStorage s .write a ws.length) :
    ∃ u, s.transferStores a ws fresh finish = u.takeException e s.pc ∧
      (∀ k v, k < m.after → ws[k]? = some v → HoldsWord s u (wordAt a k) v) ∧
      SameOutside s u a (min m.after ws.length) ∧
      u = { s.sampleMidway m with mem := u.mem, freeCount := u.freeCount } ∧
      (fresh = false → u = { s.sampleMidway m with mem := u.mem }) := by
  have length : (ws.take (min m.after ws.length)).length = min m.after ws.length := by rw [List.length_take]; omega
  obtain ⟨t, steps, frame, holds, others⟩ := State.writeSteps_holds (s := s) (a := a) (ws := ws.take (min m.after ws.length))
    (by omega) fun k hk => storage k (by omega)
  generalize written : s.writeSteps a (ws.take (min m.after ws.length)) = p at steps
  have state : p.state = { s with mem := t.mem } := frame ▸ congrArg Progress.state steps
  have kept : p.storesKept fresh = s.withTransferred (p.storesKept fresh) :=
    (p.storesKept_eq_withTransferred fresh).trans (by rw [state]; rfl)
  have mem : (p.storesKept fresh).mem = t.mem := by rw [Progress.storesKept_frame, state]
  have regs : (p.storesKept fresh).regs = (s.sampleMidway m).regs := by
    rw [Progress.storesKept_frame, state, State.sampleMidway_regs]
  refine ⟨(s.sampleMidway m).withTransferred (p.storesKept fresh), ?_, fun k v hk hv ram => ?_, fun b hb => ?_, ?_, ?_⟩
  · rw [State.transferStores_inSteps interrupted.1]
    exact State.inSteps_abandoned interrupted (by rw [written, steps]) (by rw [written]; exact kept)
  · have bound := (List.getElem?_eq_some_iff.mp hv).1
    exact mem ▸ holds k v (by rwa [List.getElem?_take_of_lt (by omega)]) ram
  · exact mem ▸ others b (by rwa [length])
  · rw [State.withTransferred, regs]
  · rintro rfl
    have count : (p.storesKept false).freeCount = (s.sampleMidway m).freeCount := by
      have same : p.storesKept false = p.state := rfl
      rw [State.sampleMidway_freeCount, same, state]
    rw [State.withTransferred, regs, count]

end

end Sys2Proof.Machine
end

