-- ==== Sys2Proof/Proofs/BlockStorage.lean ====
section
/-! PROOF. LDM, STM, PUSH and POP of words that lie in storage, done and abandoned (40_memory_access.md R248 to R251, R254, R258, R259;
42_branch.md R325; 60_exceptions.md R384, R386). -/

namespace Sys2Proof.Machine

open Sys2Proof.Safety

section
variable {s : State} {a : Word}

/-! ### Blocks of storage -/

theorem State.readBlock_of_storage {n : Nat} (storage : BlockReachesStorage s .read a n) :
    readBlock s a n = some ((List.range n).map fun k => s.mem.load .word (wordAt a k), s) := by
  induction n generalizing a with
  | zero => rfl
  | succ n ih =>
    have first := storage 0 (Nat.succ_pos n)
    rw [wordAt_zero] at first
    have rest := ih (a := a + 4) fun k hk => by rw [wordAt_succ]; exact storage (k + 1) (Nat.succ_lt_succ hk)
    simp only [wordAt_succ] at rest
    rw [readBlock, State.memRead_of_storage first]
    simp only [rest, Option.map_some, List.range_succ_eq_map, List.map_cons, List.map_map, wordAt_zero, Function.comp_def]

/-- A word read from storage is the number in its bytes. -/
theorem getElem?_words {n k : Nat} (hk : k < n) :
    ((List.range n).map fun k => s.mem.load .word (wordAt a k))[k]? = some (BitVec.ofNat 32 (bytesValue s (wordAt a k) 4)) := by
  rw [List.getElem?_map, List.getElem?_range hk, Option.map_some, load_word_eq_bytesValue]

theorem State.writeBlock_of_writeSteps {ws : List Word} (done : (s.writeSteps a ws).stop = .ok ()) :
    writeBlock s a ws = some (s.writeSteps a ws).state := by
  induction ws generalizing s a with
  | nil => rfl
  | cons v ws ih =>
    obtain ⟨t, written, rest⟩ := State.memWrite_of_writeSteps done
    rw [writeBlock, written, State.writeSteps_cons written]
    exact ih rest

theorem State.writeBlock_of_storage {ws : List Word} (short : ws.length ≤ 9) (storage : BlockReachesStorage s .write a ws.length) :
    ∃ u, writeBlock s a ws = some u ∧ u = { s with mem := u.mem } ∧
      (∀ k v, ws[k]? = some v → HoldsWord s u (wordAt a k) v) ∧ SameOutside s u a ws.length := by
  obtain ⟨u, steps, written⟩ := State.writeSteps_holds short storage
  exact ⟨u, by rw [State.writeBlock_of_writeSteps (by rw [steps]), steps], written⟩

/-! ### Branches to a loaded word -/

theorem State.bxWritePc_exceptionReturn {v : Word} (handler : s.ipsr ≠ 0) (pattern : v.toNat / 268435456 = 15) :
    s.bxWritePc v = s.exceptionReturn v := by
  rw [State.bxWritePc, if_pos (Bool.and_eq_true_iff.mpr ⟨bne_iff_ne.mpr handler, decide_eq_true pattern⟩)]

theorem State.bxWritePc_branch {v : Word} (plain : ¬(s.ipsr ≠ 0 ∧ v.toNat / 268435456 = 15)) :
    s.bxWritePc v = .next { s with pc := BitVec.ofNat 32 (v.toNat / 2 * 2), epsrT := decide (v.toNat % 2 = 1) } := by
  have even : v &&& 0xFFFFFFFE#32 = BitVec.ofNat 32 (v.toNat / 2 * 2) := by
    apply BitVec.eq_of_toNat_eq
    rw [toNat_and_highMask 1 (by decide), BitVec.toNat_ofNat]
    omega
  have thumb : v.getLsbD 0 = decide (v.toNat % 2 = 1) := by rw [BitVec.getLsbD, Nat.testBit_zero]
  rw [State.bxWritePc, if_neg (by simpa using plain), State.interwork, even, thumb]

end

/-- Settles O25: the words read are the block's, and an abandoned block is partly loaded. -/
theorem loadMultiple : Obligations.LoadMultiple := by
  intro s rn list8 nonempty storage
  refine ⟨fun calm => ?done, fun m e interrupted => ?abandoned⟩
  case done =>
    obtain ⟨t, run, words, base, others, frame⟩ := exec_ldm_done nonempty calm (State.readBlock_of_storage storage)
    refine ⟨t, run, fun r hr => ?_, base, others, fun b => by rw [frame], frame⟩
    exact Option.some.inj ((words r hr).symm.trans (getElem?_words (rank_lt hr)))
  case abandoned =>
    rw [exec_ldm nonempty]
    exact State.transferLoads_abandoned interrupted storage

/-- Settles O26: the words of the list are written, and an abandoned block has its first words written. -/
theorem storeMultiple : Obligations.StoreMultiple := by
  intro s rn list8 nonempty storage
  obtain ⟨length, words⟩ := s.stmWords_spec rn list8
  have short : (s.stmWords rn list8).length ≤ 9 := by have := bitCount_le list8; omega
  rw [← length] at storage
  refine ⟨fun calm => ?done, fun m e interrupted => ?abandoned⟩
  case done =>
    obtain ⟨u, written, memory, holds, others⟩ := State.writeBlock_of_storage short storage
    obtain ⟨t, run, base, regs, frame⟩ :=
      exec_stm_done nonempty (.inl ⟨calm, fun j hj => outside_of_storage (storage j (by omega))⟩) written
    have mem : t.mem = u.mem := by rw [frame]
    refine ⟨t, run, fun r hr lowest ram => mem ▸ holds _ _ (words r hr lowest) ram, fun b hb => mem ▸ others b (by rwa [length]), base,
      regs, ?_⟩
    rw [mem]
    exact frame.trans (by rw [memory])
  case abandoned =>
    rw [exec_stm nonempty]
    obtain ⟨u, run, holds, others, frame, -⟩ := State.transferStores_abandoned short interrupted storage
    exact ⟨u, run, fun r hr lowest before => holds _ _ before (words r hr lowest), length ▸ others, frame⟩

/-- A list of PUSH or POP that transfers a word is not empty. -/
theorem stackList_of_count {m : Bool} {list8 : BitVec 8} (count : bitCount list8 + m.toNat ≠ 0) : ¬(m = false ∧ list8 = 0) := by
  rintro ⟨rfl, rfl⟩
  exact count rfl

/-- Settles O27: as for STM, from the lowered stack pointer on and with LR as the last word. -/
theorem pushRegisters : Obligations.PushRegisters := by
  intro s m list8 n base count storage
  have nonempty := stackList_of_count count
  obtain ⟨length, words, lr⟩ := s.pushWords_spec m list8
  have short : (s.pushWords m list8).length ≤ 9 := length ▸ stackCount_le m list8
  change BlockReachesStorage s .write base (bitCount list8 + m.toNat) at storage
  rw [← length] at storage
  refine ⟨fun calm => ?done, fun x e interrupted => ?abandoned⟩
  case done =>
    obtain ⟨u, written, memory, holds, others⟩ := State.writeBlock_of_storage short storage
    have run := exec_push_done nonempty rfl (.inl ⟨calm, fun j hj => outside_of_storage (storage j (by omega))⟩) written
    refine ⟨_, run, fun r hr => holds _ _ (words r hr), fun hm => holds _ _ (lr hm), fun b hb => others b (by rwa [length]), ?_⟩
    rw [memory]
    rfl
  case abandoned =>
    rw [exec_push nonempty]
    obtain ⟨u, run, holds, others, -, frame⟩ := State.transferStores_abandoned short interrupted storage
    rw [length] at others
    exact ⟨u, run, fun r hr before => holds _ _ before (words r hr), fun hm before => holds _ _ before (lr hm), others, frame rfl⟩

/-- POP from storage: the registers and the stack pointer, then the branch where PC is in the list. -/
theorem exec_pop_storage {s : State} {p : Bool} {list8 : BitVec 8} (count : bitCount list8 + p.toNat ≠ 0) (calm : Uninterrupted s)
    (storage : BlockReachesStorage s .read s.sp (bitCount list8 + p.toNat)) :
    ∃ t : State,
      exec (.pop p list8) s = (if p then t.bxWritePc (BitVec.ofNat 32 (bytesValue s (wordAt s.sp (bitCount list8)) 4))
        else .next { t with pc := s.pc + 2 }) ∧
      (∀ r : LoReg, list8.getLsbD r.val = true → t.lo r = BitVec.ofNat 32 (bytesValue s (wordAt s.sp (rank list8 r)) 4)) ∧
      (∀ g : Fin 13, (8 ≤ g.val ∨ list8.getLsbD g.val = false) → t.gpr g = s.gpr g) ∧
      t = { s with
        regs := t.regs
        msp := if s.ipsr = 0 ∧ s.spsel = true then s.msp else wordAt s.sp (bitCount list8 + p.toNat)
        psp := if s.ipsr = 0 ∧ s.spsel = true then wordAt s.sp (bitCount list8 + p.toNat) else s.psp } := by
  obtain ⟨t, run, words, others, frame⟩ := exec_pop_done (stackList_of_count count) calm (State.readBlock_of_storage storage)
  refine ⟨t, run.trans ?_, fun r hr => ?_, others, frame⟩
  · cases p with
    | false => rfl
    | true => rw [List.getD_eq_getElem?_getD, getElem?_words (n := bitCount list8 + true.toNat) (Nat.lt_succ_self _), Option.getD_some]
  · exact Option.some.inj ((words r hr).symm.trans (getElem?_words (Nat.lt_of_lt_of_le (rank_lt hr) (Nat.le_add_right ..))))

/-- Settles O28: the last word of the block is a branch target or EXC_RETURN where PC is in the list. -/
theorem popRegisters : Obligations.PopRegisters := by
  intro s p list8 n target popped raised count storage
  have targetNumber : (BitVec.ofNat 32 target).toNat = target := Nat.mod_eq_of_lt (bytesValue_lt ..)
  refine ⟨fun calm hp handler pattern => ?exceptionReturn, fun calm plain => ?done, fun m e interrupted => ?abandoned⟩
  case exceptionReturn =>
    obtain ⟨t, run, loaded, others, frame⟩ := exec_pop_storage count calm storage
    have ipsr : t.ipsr = s.ipsr := by rw [frame]
    have mainStack : ¬(s.ipsr = 0 ∧ s.spsel = true) := fun h => handler h.1
    rw [if_neg mainStack, if_neg mainStack] at frame
    refine ⟨t, ?_, ⟨loaded, others⟩, frame⟩
    rw [run, if_pos hp]
    exact State.bxWritePc_exceptionReturn (ipsr ▸ handler) (targetNumber.symm ▸ pattern)
  case done =>
    obtain ⟨t, run, loaded, others, frame⟩ := exec_pop_storage count calm storage
    have ipsr : t.ipsr = s.ipsr := by rw [frame]
    have mem : t.mem = s.mem := by rw [frame]
    cases p with
    | false =>
      refine ⟨_, run, ⟨loaded, others⟩, fun b => mem ▸ rfl, ?_⟩
      rw [frame]
      rfl
    | true =>
      have branch := t.bxWritePc_branch (v := BitVec.ofNat 32 target) (by rw [ipsr, targetNumber]; simpa using plain)
      rw [targetNumber] at branch
      refine ⟨_, run.trans branch, ⟨loaded, others⟩, fun b => mem ▸ rfl, ?_⟩
      rw [frame]
      rfl
  case abandoned =>
    rw [exec_pop (stackList_of_count count)]
    exact State.transferLoads_abandoned interrupted storage

end Sys2Proof.Machine
end

