-- ==== Sys2Proof/Proofs/LowResults.lean ====
section
/-! PROOF. How the instructions with a low destination register end, and the flags they set as numbers (00_scope.md R11, R12;
10_state.md R35; 30_encoding.md R208; 41_data_processing.md R308 to R311). -/

namespace Sys2Proof.Machine

open Sys2Proof.Safety

/-! ### Flags -/

/-- Bit 31 of a word says that its number is in the upper half. -/
theorem getLsbD_31_eq_decide (x : Word) : x.getLsbD 31 = decide (2147483648 ≤ x.toNat) := by
  rw [← BitVec.msb_eq_getLsbD_last x, BitVec.msb_eq_decide]

theorem beq_zero_eq_decide (x : Word) : (x == 0) = decide (x.toNat = 0) := by
  rw [Bool.eq_iff_iff, beq_iff_eq, decide_eq_true_eq]
  exact BitVec.toNat_inj.symm

theorem Apsr.withNZ_eq_resultFlags (f : Apsr) (v : Word) : f.withNZ v = resultFlags f v := by
  rw [Apsr.withNZ, getLsbD_31_eq_decide, beq_zero_eq_decide]
  rfl

theorem Apsr.withNZC_eq_shiftFlags (f : Apsr) (v : Word) (c : Bool) : f.withNZC v c = shiftFlags f v c := by
  rw [Apsr.withNZC, Apsr.withNZ_eq_resultFlags]
  rfl

theorem addWithCarry_comm (x y : Word) (c : Bool) : addWithCarry x y c = addWithCarry y x c := by
  simp only [addWithCarry, Nat.add_comm x.toNat, Int.add_comm x.toInt]

/-- A signed number as its word's number and bit 31. -/
theorem toInt_eq_bit31 (x : Word) : x.toInt = x.toNat - 4294967296 * ((x.getLsbD 31).toNat : Int) := by
  rw [BitVec.toInt_eq_msb_cond, BitVec.msb_eq_getLsbD_last x]
  change (if x.getLsbD 31 = true then (x.toNat : Int) - 4294967296 else x.toNat) = _
  cases x.getLsbD 31 <;> simp

/-- A sum overflows when both operands have one sign and the result the other. -/
theorem addWithCarry_overflow (x y : Word) (c : Bool) :
    (addWithCarry x y c).overflow =
      ((x.getLsbD 31 == y.getLsbD 31) && (x.getLsbD 31 != (addWithCarry x y c).result.getLsbD 31)) := by
  have result := addWithCarry_result_toNat x y c
  have bound := c.toNat_le
  have hx := x.isLt
  have hy := y.isLt
  rw [Bool.eq_iff_iff, addWithCarry_overflow_iff, toInt_eq_bit31 x, toInt_eq_bit31 y]
  simp only [getLsbD_31_eq_decide, result]
  by_cases signX : 2147483648 ≤ x.toNat <;> by_cases signY : 2147483648 ≤ y.toNat <;> simp [signX, signY] <;> omega

theorem addWithCarry_flags (x y : Word) (c : Bool) : (addWithCarry x y c).flags = sumFlags x y c.toNat := by
  simp only [AddResult.flags, addWithCarry_overflow, getLsbD_31_eq_decide (addWithCarry x y c).result, beq_zero_eq_decide,
    addWithCarry_result_toNat]
  rfl

/-- The flags of a subtraction: a borrow is the carry that is missing. -/
theorem addWithCarry_not_flags (x y : Word) (c : Bool) :
    (addWithCarry x (~~~y) c).flags = differenceFlags x y (1 - c.toNat) := by
  have carry : (addWithCarry x (~~~y) c).carry = decide (y.toNat + (1 - c.toNat) ≤ x.toNat) := by
    rw [Bool.eq_iff_iff, addWithCarry_not_carry_iff, decide_eq_true_eq]
  have zero : ((addWithCarry x (~~~y) c).result == 0) = decide (x.toNat = (y.toNat + (1 - c.toNat)) % 4294967296) := by
    have number := addWithCarry_result_toNat x (~~~y) c
    have toNat_not : (~~~y).toNat = 4294967295 - y.toNat := BitVec.toNat_not
    have hx := x.isLt
    have hy := y.isLt
    have hc := c.toNat_le
    rw [beq_zero_eq_decide, decide_eq_decide, number, toNat_not]
    omega
  have overflow : (addWithCarry x (~~~y) c).overflow =
      ((x.getLsbD 31 != y.getLsbD 31) && ((addWithCarry x (~~~y) c).result.getLsbD 31 == y.getLsbD 31)) := by
    rw [addWithCarry_overflow, BitVec.getLsbD_not]
    cases x.getLsbD 31 <;> cases y.getLsbD 31 <;> simp
  rw [AddResult.flags, carry, zero, overflow, addWithCarry_not_result]
  rfl

/-! ### Endings -/

/-- A low register and the flags written, and the PC past the instruction. -/
theorem wroteLow_setLo (s : State) (rd : LoReg) (v : Word) (f : Apsr) :
    WroteLow s (((s.setLo rd v).setFlags f).advance 2) rd v f := by
  refine ⟨?value, fun k hk => ?others, rfl, rfl, fun _ => rfl, rfl⟩
  case value => exact (s.setLo_lo rd v rd).trans (if_pos rfl)
  case others => exact (s.setLo_gpr rd v k).trans (if_neg (Ne.symm hk))

section
variable {s : State} {i : Instr} {rd : LoReg}

theorem exec_putPlain {v w : Word} (run : exec i s = s.putPlain rd v) (value : v = w) :
    ∃ t, exec i s = .next t ∧ WroteLow s t rd w s.apsr :=
  ⟨_, run, value ▸ wroteLow_setLo s rd v s.apsr⟩

theorem exec_putNZ {v w : Word} (run : exec i s = s.putNZ rd v) (value : v = w) :
    ∃ t, exec i s = .next t ∧ WroteLow s t rd w (resultFlags s.apsr w) :=
  ⟨_, run, by rw [← value, Apsr.withNZ_eq_resultFlags]; exact wroteLow_setLo ..⟩

theorem exec_putShift {r : Word × Bool} {w : Word} {c : Bool} (run : exec i s = s.putShift rd r) (value : r = (w, c)) :
    ∃ t, exec i s = .next t ∧ WroteLow s t rd w (shiftFlags s.apsr w c) :=
  ⟨_, run, by rw [value, Apsr.withNZC_eq_shiftFlags]; exact wroteLow_setLo ..⟩

theorem exec_putAdd {r : AddResult} {w : Word} {f : Apsr} (run : exec i s = s.putAdd rd r) (result : r.result = w) (flags : r.flags = f) :
    ∃ t, exec i s = .next t ∧ WroteLow s t rd w f :=
  ⟨_, run, by rw [result, flags]; exact wroteLow_setLo ..⟩

end

end Sys2Proof.Machine
end

