-- ==== Sys2Proof/Proofs/Arithmetic.lean ====
section
/-! PROOF. Additions, subtractions and comparisons (41_data_processing.md R265 to R268, R272 to R274, R276, R277, R289 to R292, R305). -/

namespace Sys2Proof.Machine

open Sys2Proof.Safety

section
variable {s : State} {i : Instr} {rd : LoReg} {x y : Word}

theorem exec_sum {c : Bool} (run : exec i s = s.putAdd rd (addWithCarry x y c)) :
    ∃ t, exec i s = .next t ∧ WroteLow s t rd (x + y + BitVec.ofNat 32 c.toNat) (sumFlags x y c.toNat) :=
  exec_putAdd run (addWithCarry_result x y c) (addWithCarry_flags x y c)

theorem exec_sum_noCarry (run : exec i s = s.putAdd rd (addWithCarry x y false)) :
    ∃ t, exec i s = .next t ∧ WroteLow s t rd (x + y) (sumFlags x y 0) :=
  exec_putAdd run ((addWithCarry_result x y false).trans (BitVec.add_zero _)) (addWithCarry_flags x y false)

theorem exec_difference {c : Bool} (run : exec i s = s.putAdd rd (addWithCarry x (~~~y) c)) :
    ∃ t, exec i s = .next t ∧ WroteLow s t rd (x - y - BitVec.ofNat 32 (1 - c.toNat)) (differenceFlags x y (1 - c.toNat)) :=
  exec_putAdd run (addWithCarry_not_result x y c) (addWithCarry_not_flags x y c)

theorem exec_difference_noBorrow (run : exec i s = s.putAdd rd (addWithCarry x (~~~y) true)) :
    ∃ t, exec i s = .next t ∧ WroteLow s t rd (x - y) (differenceFlags x y 0) :=
  exec_putAdd run ((addWithCarry_not_result x y true).trans (BitVec.sub_zero _)) (addWithCarry_not_flags x y true)

end

/-- Settles O9, one clause per form. -/
theorem addInstructions : Obligations.AddInstructions := by
  intro s rd rn rm imm3 imm8
  rw [← immWord_eq_ofNat imm3, ← immWord_eq_ofNat imm8]
  exact ⟨exec_sum_noCarry rfl, exec_sum_noCarry rfl, exec_sum_noCarry rfl, exec_sum rfl⟩

/-- Settles O10, one clause per form; RSBS adds the complement to 0 in the other order. -/
theorem subInstructions : Obligations.SubInstructions := by
  intro s rd rn rm imm3 imm8
  have rsbs : exec (.rsbs rd rn) s = s.putAdd rd (addWithCarry 0 (~~~s.lo rn) true) :=
    congrArg (s.putAdd rd) (addWithCarry_comm (~~~s.lo rn) 0 true)
  rw [← immWord_eq_ofNat imm3, ← immWord_eq_ofNat imm8]
  exact ⟨exec_difference_noBorrow rfl, exec_difference_noBorrow rfl, exec_difference_noBorrow rfl, exec_difference rfl,
    exec_difference_noBorrow rsbs⟩

theorem State.putFlags_sum (s : State) (x y : Word) :
    s.putFlags (addWithCarry x y false).flags = .next { s with apsr := sumFlags x y 0, pc := s.pc + 2 } := by
  rw [addWithCarry_flags]
  rfl

theorem State.putFlags_difference (s : State) (x y : Word) :
    s.putFlags (addWithCarry x (~~~y) true).flags = .next { s with apsr := differenceFlags x y 0, pc := s.pc + 2 } := by
  rw [addWithCarry_not_flags]
  rfl

theorem cmpHighOk_iff {n m : Reg} : cmpHighOk n m = true ↔ ¬(n.val < 8 ∧ m.val < 8) ∧ n.val ≠ 15 ∧ m.val ≠ 15 := by
  simp only [cmpHighOk, Bool.and_eq_true, Bool.not_eq_true', Bool.and_eq_false_iff, decide_eq_false_iff_not, bne_iff_ne, ne_eq,
    Fin.ext_iff]
  change ((_ ∨ _) ∧ ¬n.val = 15) ∧ ¬m.val = 15 ↔ _
  omega

/-- Settles O11: a comparison is a subtraction or an addition whose flags alone are kept, TST an AND. -/
theorem compareInstructions : Obligations.CompareInstructions := by
  intro s rn rm n m imm8
  rw [← immWord_eq_ofNat imm8]
  refine ⟨s.putFlags_difference .., s.putFlags_difference .., fun notLow hn hm => ?high, s.putFlags_sum .., ?tst⟩
  case high => exact (if_pos (cmpHighOk_iff.mpr ⟨notLow, hn, hm⟩)).trans (s.putFlags_difference ..)
  case tst =>
    rw [← Apsr.withNZ_eq_resultFlags]
    rfl

end Sys2Proof.Machine
end

