-- ==== Sys2Proof/Proofs/Logic.lean ====
section
/-! PROOF. The logic instructions, the moves and MULS, which an arriving exception can abandon (41_data_processing.md R278 to R281, R294 to
R297; 60_exceptions.md R384). -/

namespace Sys2Proof.Machine

open Sys2Proof.Safety

theorem mul_eq_ofNat (x y : Word) : x * y = BitVec.ofNat 32 (x.toNat * y.toNat) := by
  rw [BitVec.ofNat_mul, BitVec.ofNat_toNat, BitVec.ofNat_toNat, BitVec.setWidth_eq, BitVec.setWidth_eq]

theorem exec_muls (s : State) (rd rm : LoReg) :
    exec (.muls rd rm) s = s.inSteps 0 (fun _ => Progress.start s) Progress.state fun _ => s.putNZ rd (s.lo rm * s.lo rd) := rfl

theorem exec_muls_done {s : State} (calm : Uninterrupted s) (rd rm : LoReg) :
    exec (.muls rd rm) s = s.putNZ rd (s.lo rm * s.lo rd) := by
  rw [exec_muls]
  exact State.inSteps_done (State.abandonment_eq_none (calm.imp_right fun none m arrives _ => none m arrives)) rfl

theorem exec_muls_abandoned {s : State} {m : Midway} {e : Exc} (interrupted : Interrupted s m e) (rd rm : LoReg) :
    exec (.muls rd rm) s = (s.sampleMidway m).takeException e s.pc := by
  have unchanged : (s.sampleMidway m).withTransferred s = s.sampleMidway m := by
    rw [State.withTransferred, ← s.sampleMidway_regs m, ← s.sampleMidway_mem m, ← s.sampleMidway_freeCount m]
  rw [exec_muls, State.inSteps_abandoned interrupted (u := s) rfl rfl, unchanged]

/-- Settles O12, one clause per instruction, and MULS abandoned. -/
theorem logicInstructions : Obligations.LogicInstructions := by
  intro s rd rm imm8
  exact ⟨exec_putNZ rfl rfl, exec_putNZ rfl rfl, exec_putNZ rfl rfl, exec_putNZ rfl rfl,
    fun calm => exec_putNZ (exec_muls_done calm rd rm) (mul_eq_ofNat ..),
    fun _ _ interrupted => exec_muls_abandoned interrupted rd rm, exec_putNZ rfl rfl, exec_putNZ rfl rfl,
    exec_putNZ rfl (immWord_eq_ofNat imm8)⟩

end Sys2Proof.Machine
end

