-- ==== Sys2Proof/Proofs/Shifts.lean ====
section
/-! PROOF. The shifters as arithmetic on numbers and bits, for every length, and the shift instructions (41_data_processing.md R261 to R264,
R282 to R288). -/

namespace Sys2Proof.Machine

open Sys2Proof.Safety

/-! ### Bits -/

theorem bitAt_eq_getLsbD (x : Word) (k : Nat) : bitAt x k = x.getLsbD k := by
  rw [Bool.eq_iff_iff, getLsbD_iff_div, bitAt, decide_eq_true_eq]

theorem bitAt_of_ge (x : Word) {k : Nat} (h : 32 ≤ k) : bitAt x k = false := by
  rw [bitAt_eq_getLsbD, BitVec.getLsbD_of_ge x k h]

/-! ### The shifters -/

theorem shiftLeft_eq_ofNat (x : Word) (n : Nat) : x <<< n = BitVec.ofNat 32 (x.toNat * 2 ^ n) := by
  apply BitVec.eq_of_toNat_eq
  rw [BitVec.toNat_shiftLeft, BitVec.toNat_ofNat, Nat.shiftLeft_eq]

theorem ushiftRight_eq_ofNat (x : Word) (n : Nat) : x >>> n = BitVec.ofNat 32 (x.toNat / 2 ^ n) := by
  rw [← Nat.shiftRight_eq_div_pow, ← BitVec.toNat_ushiftRight, BitVec.ofNat_toNat, BitVec.setWidth_eq]

theorem sshiftRight_eq_ofInt (x : Word) (n : Nat) : x.sshiftRight n = BitVec.ofInt 32 (x.toInt / 2 ^ n) := by
  rw [BitVec.sshiftRight_eq, Int.shiftRight_eq_div_pow]
  push_cast
  rfl

/-- R261: no bit of the word is left from 32 on, and the last one shifted out is bit 0 at 32 and none after. -/
theorem lslC_eq (x : Word) (n : Nat) : lslC x n = (BitVec.ofNat 32 (x.toNat * 2 ^ n), decide (n ≤ 32) && bitAt x (32 - n)) := by
  rw [← shiftLeft_eq_ofNat, bitAt_eq_getLsbD, lslC]
  split
  next short => rw [decide_eq_true (Nat.le_of_lt short), Bool.true_and]
  next notShort =>
    rw [BitVec.shiftLeft_eq_zero (Nat.le_of_not_lt notShort)]
    split
    next all => subst all; rfl
    next notAll =>
      rw [decide_eq_false (by omega), Bool.false_and]
      rfl

/-- R262: the last bit shifted out is bit n - 1, which the word has up to 32. -/
theorem lsrC_eq (x : Word) (n : Nat) : lsrC x n = (BitVec.ofNat 32 (x.toNat / 2 ^ n), bitAt x (n - 1)) := by
  rw [← ushiftRight_eq_ofNat, bitAt_eq_getLsbD, lsrC]
  split
  next short => rfl
  next notShort =>
    rw [BitVec.ushiftRight_eq_zero (Nat.le_of_not_lt notShort)]
    split
    next all => subst all; rfl
    next notAll =>
      rw [BitVec.getLsbD_of_ge x _ (by omega)]
      rfl

/-- R263: from 32 on every bit is the sign. -/
theorem asrC_eq (x : Word) (n : Nat) : asrC x n = (BitVec.ofInt 32 (x.toInt / 2 ^ n), bitAt x (min n 32 - 1)) := by
  rw [← sshiftRight_eq_ofInt, bitAt_eq_getLsbD, asrC]
  split
  next short => rw [Nat.min_eq_left (Nat.le_of_lt short)]
  next notShort =>
    rw [Nat.min_eq_right (Nat.le_of_not_lt notShort)]
    refine congrArg (·, x.getLsbD 31) ?_
    ext k hk
    rw [BitVec.getElem_sshiftRight, dif_neg (by omega), BitVec.msb_eq_getLsbD_last]
    cases x.getLsbD 31 with
    | false => exact BitVec.getElem_zero hk
    | true => exact BitVec.getElem_allOnes k hk

/-- R264: the rotate is the library's, also where the length is a multiple of 32. -/
theorem rorC_eq (x : Word) (n : Nat) : rorC x n = (x.rotateRight n, bitAt (x.rotateRight n) 31) := by
  have turned : (if n % 32 = 0 then x else x >>> (n % 32) ||| x <<< (32 - n % 32)) = x.rotateRight n := by
    rw [BitVec.rotateRight_def]
    split
    next zero => rw [zero]; simp
    next => rfl
  rw [bitAt_eq_getLsbD, ← turned]
  rfl

theorem bitAt_rotateRight (x : Word) (n : Nat) {k : Nat} (hk : k < 32) : bitAt (x.rotateRight n) k = bitAt x ((k + n) % 32) := by
  rw [bitAt_eq_getLsbD, bitAt_eq_getLsbD, BitVec.getLsbD_rotateRight]
  by_cases low : k < 32 - n % 32
  · rw [decide_eq_true low, cond_true, show (k + n) % 32 = n % 32 + k by omega]
  · rw [decide_eq_false low, cond_false, decide_eq_true hk, Bool.true_and, show (k + n) % 32 = k - (32 - n % 32) by omega]

theorem immShift_eq (imm5 : BitVec 5) : immShift imm5 = if imm5.toNat = 0 then 32 else imm5.toNat := by
  by_cases zero : imm5 = 0
  · subst zero
    rfl
  · have nonzero : imm5.toNat ≠ 0 := fun number => zero (BitVec.eq_of_toNat_eq number)
    rw [immShift, if_neg zero, if_neg nonzero]

/-! ### The instructions -/

section
variable {s : State} {i : Instr} {rd : LoReg} {f : Word → Nat → Word × Bool} {x : Word} {n : Nat}

/-- A shift by 0 keeps the value and C. -/
theorem exec_shift_zero (run : exec i s = s.putShift rd (shiftOrKeep f x n s.apsr.c)) (zero : n = 0) :
    ∃ t, exec i s = .next t ∧ WroteLow s t rd x (resultFlags s.apsr x) :=
  exec_putShift run (if_pos zero)

theorem exec_shift_nonzero (run : exec i s = s.putShift rd (shiftOrKeep f x n s.apsr.c)) (nonzero : n ≠ 0) {w : Word} {c : Bool}
    (shifted : f x n = (w, c)) : ∃ t, exec i s = .next t ∧ WroteLow s t rd w (shiftFlags s.apsr w c) :=
  exec_putShift run ((if_neg nonzero).trans shifted)

end

/-- Settles O13: a field that is not 0 is the length, which is at most 31. -/
theorem shiftImmediate : Obligations.ShiftImmediate := by
  intro s rd rm imm5 x n
  have length : immShift imm5 = n := immShift_eq imm5
  have atMost : n ≤ 32 := by
    have := imm5.isLt
    rw [← length, immShift_eq]
    split <;> omega
  refine ⟨fun nonzero => ?lsls, fun zero => ?movs, exec_putShift rfl (length ▸ lsrC_eq x _), exec_putShift rfl ?asrs⟩
  case lsls =>
    have field : imm5.toNat = n := (if_neg nonzero).symm
    refine exec_shift_nonzero rfl nonzero ?_
    rw [field, lslC_eq, decide_eq_true atMost, Bool.true_and]
  case movs =>
    obtain rfl : imm5 = 0 := BitVec.eq_of_toNat_eq zero
    exact exec_lslsImm_zero rm rd s
  case asrs => rw [length, asrC_eq, Nat.min_eq_left atMost]

/-- Settles O14: the lengths 0, and then each shifter for the others. -/
theorem shiftRegister : Obligations.ShiftRegister := by
  intro s rd rs x n
  refine ⟨?zero, fun nonzero => ⟨exec_shift_nonzero rfl nonzero (lslC_eq x n), exec_shift_nonzero rfl nonzero (lsrC_eq x n),
    exec_shift_nonzero rfl nonzero (asrC_eq x n), ?rors⟩⟩
  case zero =>
    rintro zero i (rfl | rfl | rfl | rfl) <;> exact exec_shift_zero rfl zero
  case rors =>
    obtain ⟨t, run, wrote⟩ := exec_shift_nonzero (i := .rors rd rs) rfl nonzero (rorC_eq x n)
    exact ⟨t, x.rotateRight n, run, fun _ => bitAt_rotateRight x n, wrote⟩

end Sys2Proof.Machine
end

