-- ==== Sys2Proof/Proofs/Extensions.lean ====
section
/-! PROOF. The extensions and the byte reversals as arithmetic on the bytes of a word (41_data_processing.md R298 to R304). -/

namespace Sys2Proof.Machine

open Sys2Proof.Safety

/-- Sign extension adds the upper ones where the number reaches half of what its bits can hold. -/
theorem signExtend_eq_ofNat {n sign fill : Nat} (half : 2 ^ n = 2 * sign) (upper : 2 ^ n + fill = 4294967296) (x : BitVec n) :
    x.signExtend 32 = BitVec.ofNat 32 (if x.toNat < sign then x.toNat else x.toNat + fill) := by
  have bound := x.isLt
  have positive : 0 < n := Nat.pos_of_ne_zero fun zero => by rw [zero] at half; omega
  have signBit : x.msb = true ↔ ¬x.toNat < sign := by
    have := Nat.two_pow_pred_mul_two positive
    rw [BitVec.msb_eq_decide, decide_eq_true_eq]
    omega
  apply BitVec.eq_of_toNat_eq
  rw [BitVec.toNat_signExtend, BitVec.toNat_setWidth, BitVec.toNat_ofNat]
  by_cases low : x.toNat < sign
  · rw [if_neg fun negative => signBit.mp negative low, if_pos low, Nat.add_zero]
  · rw [if_pos (signBit.mpr low), if_neg low]
    omega

theorem toNat_byteOf (x : Word) (i : Nat) : (byteOf x i).toNat = x.toNat / 256 ^ i % 256 := by
  rw [byteOf_eq_ofNat, BitVec.toNat_ofNat]

theorem sextByte_eq (x : Word) :
    sextByte x = BitVec.ofNat 32 (if x.toNat % 256 < 128 then x.toNat % 256 else x.toNat % 256 + 4294967040) := by
  rw [sextByte, signExtend_eq_ofNat (sign := 128) (fill := 4294967040) rfl rfl, BitVec.toNat_setWidth]

theorem sextHalf_eq (x : Word) :
    sextHalf x = BitVec.ofNat 32 (if x.toNat % 65536 < 32768 then x.toNat % 65536 else x.toNat % 65536 + 4294901760) := by
  rw [sextHalf, signExtend_eq_ofNat (sign := 32768) (fill := 4294901760) rfl rfl, BitVec.toNat_setWidth]

theorem zextByte_eq (x : Word) : zextByte x = BitVec.ofNat 32 (x.toNat % 256) := by
  rw [zextByte, ← BitVec.ofNat_toNat, BitVec.toNat_setWidth]

theorem zextHalf_eq (x : Word) : zextHalf x = BitVec.ofNat 32 (x.toNat % 65536) := by
  rw [zextHalf, ← BitVec.ofNat_toNat, BitVec.toNat_setWidth]

/-- Four bytes, the most significant first, as a number. -/
theorem append_bytes_eq_ofNat (a b c d : Byte) :
    (a ++ b ++ c ++ d : Word) = BitVec.ofNat 32 (a.toNat * 16777216 + b.toNat * 65536 + c.toNat * 256 + d.toNat) := by
  have number : (a ++ b ++ c ++ d : Word).toNat = a.toNat * 16777216 + b.toNat * 65536 + c.toNat * 256 + d.toNat := by
    simp only [toNat_append_byte]
    omega
  rw [← number, BitVec.ofNat_toNat, BitVec.setWidth_eq]

theorem topByte_eq (x : Word) : x.toNat / 16777216 % 256 = x.toNat / 16777216 := by
  have := x.isLt
  omega

theorem revWord_eq (x : Word) :
    revWord x = BitVec.ofNat 32
      (x.toNat % 256 * 16777216 + x.toNat / 256 % 256 * 65536 + x.toNat / 65536 % 256 * 256 + x.toNat / 16777216) := by
  simp only [revWord, append_bytes_eq_ofNat, toNat_byteOf, Nat.reducePow, Nat.div_one, topByte_eq]

theorem rev16Word_eq (x : Word) :
    rev16Word x = BitVec.ofNat 32
      (x.toNat / 65536 % 256 * 16777216 + x.toNat / 16777216 * 65536 + x.toNat % 256 * 256 + x.toNat / 256 % 256) := by
  simp only [rev16Word, append_bytes_eq_ofNat, toNat_byteOf, Nat.reducePow, Nat.div_one, topByte_eq]

/-- The sign of the reversed halfword is that of its upper byte, the lowest of the word. -/
theorem revshWord_eq (x : Word) :
    revshWord x = BitVec.ofNat 32
      (if x.toNat % 256 < 128 then x.toNat % 256 * 256 + x.toNat / 256 % 256
        else x.toNat % 256 * 256 + x.toNat / 256 % 256 + 4294901760) := by
  have number : (byteOf x 0 ++ byteOf x 1).toNat = x.toNat % 256 * 256 + x.toNat / 256 % 256 := by
    simp only [toNat_append_byte, toNat_byteOf, Nat.reducePow, Nat.div_one]
    omega
  have sign : x.toNat % 256 * 256 + x.toNat / 256 % 256 < 32768 ↔ x.toNat % 256 < 128 := by omega
  rw [revshWord, signExtend_eq_ofNat (sign := 32768) (fill := 4294901760) rfl rfl, number]
  simp only [sign]

/-- Settles O15, one clause per instruction. -/
theorem extendAndReverse : Obligations.ExtendAndReverse := by
  intro s rd rm x b0 b1 b2 b3
  exact ⟨exec_putPlain rfl (sextByte_eq _), exec_putPlain rfl (sextHalf_eq _), exec_putPlain rfl (zextByte_eq _),
    exec_putPlain rfl (zextHalf_eq _), exec_putPlain rfl (revWord_eq _), exec_putPlain rfl (rev16Word_eq _),
    exec_putPlain rfl (revshWord_eq _)⟩

end Sys2Proof.Machine
end

