-- ==== Sys2Proof/Proofs/AnyRegister.lean ====
section
/-! PROOF. MOV and ADD with any destination, the stack pointer and the PC among them, and the sums with SP and PC (10_state.md R20 to R26;
41_data_processing.md R269 to R271, R275, R293; 40_memory_access.md R230). -/

namespace Sys2Proof.Machine

open Sys2Proof.Safety

/-- Writing the current stack pointer, which drops its two low bits. -/
theorem State.setSp_eq (s : State) (v : Word) :
    s.setSp v = { s with
      msp := if s.ipsr = 0 ∧ s.spsel = true then s.msp else BitVec.ofNat 32 (v.toNat / 4 * 4)
      psp := if s.ipsr = 0 ∧ s.spsel = true then BitVec.ofNat 32 (v.toNat / 4 * 4) else s.psp } := by
  have test : s.usesPsp = true ↔ s.ipsr = 0 ∧ s.spsel = true := by simp [State.usesPsp]
  have aligned : alignSp v = BitVec.ofNat 32 (v.toNat / 4 * 4) := align4_eq v
  simp only [State.setSp, State.setMsp, State.setPsp, test, aligned]
  split <;> rfl

theorem State.setPc_eq (s : State) (v : Word) : s.setPc v = { s with pc := BitVec.ofNat 32 (v.toNat / 2 * 2) } := by
  have rounded : v &&& 0xFFFFFFFE#32 = BitVec.ofNat 32 (v.toNat / 2 * 2) := by
    apply BitVec.eq_of_toNat_eq
    rw [toNat_and_highMask 1 (by decide), BitVec.toNat_ofNat]
    omega
  rw [State.setPc, rounded]

/-- A value written to any register, one case per kind of destination. -/
theorem State.putAny_wroteAny (s : State) (rd : Reg) (v : Word) : ∃ t, s.putAny rd v = .next t ∧ WroteAny s t rd v 2 := by
  have kinds : ∀ r : Reg, r.val < 13 ∨ r = 13 ∨ r = 14 ∨ r = 15 := by decide
  obtain low | rfl | rfl | rfl := kinds rd
  · have notPc : rd ≠ 15 := fun same => by subst same; exact absurd low (by decide)
    refine ⟨(s.setGpr ⟨rd.val, low⟩ v).advance 2, ?run, ?wrote⟩
    case run => rw [State.putAny, if_neg notPc, State.setReg, dif_pos low]
    case wrote =>
      rw [WroteAny, dif_pos low]
      refine ⟨(s.setGpr_gpr ..).trans (if_pos rfl), fun k hk => (s.setGpr_gpr ..).trans (if_neg fun same => hk ?_), rfl⟩
      exact congrArg Fin.val same.symm
  · exact ⟨(s.setSp v).advance 2, rfl, congrArg (State.advance · 2) (s.setSp_eq v)⟩
  · exact ⟨_, rfl, rfl⟩
  · exact ⟨s.setPc v, rfl, s.setPc_eq v⟩

theorem exec_putAny {s : State} {i : Instr} {rd : Reg} {v w : Word} (run : exec i s = s.putAny rd v) (value : v = w) :
    ∃ t, exec i s = .next t ∧ WroteAny s t rd w 2 :=
  run ▸ value ▸ s.putAny_wroteAny rd v

theorem exec_addHigh {rd rm : Reg} (notBothPc : ¬(rd.val = 15 ∧ rm.val = 15)) (s : State) :
    exec (.addHigh rd rm) s = s.putAny rd (s.reg rd + s.reg rm) := by
  refine if_pos ?_
  rw [addHighOk, Bool.not_eq_true', Bool.and_eq_false_iff, beq_eq_false_iff_ne, beq_eq_false_iff_ne]
  exact (Decidable.not_and_iff_not_or_not.mp notBothPc).imp (fun ne same => ne (congrArg Fin.val same))
    fun ne same => ne (congrArg Fin.val same)

/-- Settles O16: both write any register. -/
theorem anyRegisterMoves : Obligations.AnyRegisterMoves := by
  intro s rd rm
  exact ⟨exec_putAny rfl rfl, fun notBothPc => exec_putAny (exec_addHigh notBothPc s) rfl⟩

theorem immWords_eq {n : Nat} (imm : BitVec n) : immWords imm = BitVec.ofNat 32 (4 * imm.toNat) := immWord_mul imm 4

/-- Settles O17: ADD SP and SUB SP write the register 13, the other two a low register. -/
theorem addressArithmetic : Obligations.AddressArithmetic := by
  intro s rd imm8 imm7
  exact ⟨exec_putPlain rfl (s.spAddr_eq imm8), exec_putAny rfl (congrArg (s.sp + ·) (immWords_eq imm7)),
    exec_putAny rfl (congrArg (s.sp - ·) (immWords_eq imm7)), exec_putPlain rfl (s.literalAddr_eq imm8)⟩

end Sys2Proof.Machine
end

