-- ==== Sys2Proof/Proofs/Branches.lean ====
section
/-! PROOF. Branches to an offset and to a register: their targets as numbers modulo 2^32, the conditions, the links, and where BX returns
from an exception (30_encoding.md R206; 42_branch.md R320 to R325; 60_exceptions.md R386). -/

namespace Sys2Proof.Machine

open Sys2Proof.Safety

/-! ### Offsets, conditions, links -/

/-- The field with a zero below it is twice its signed number. -/
theorem branchOffset_eq_ofInt {n : Nat} (imm : BitVec n) : branchOffset imm = BitVec.ofInt 32 (2 * imm.toInt) := by
  have doubled : (imm ++ 0#1).toInt = 2 * imm.toInt := BitVec.toInt_append_zero
  rw [branchOffset, BitVec.signExtend, doubled]

theorem State.branchTarget_eq_ofInt {n : Nat} (s : State) (imm : BitVec n) :
    s.branchTarget imm = BitVec.ofInt 32 (s.pc.toNat + 4 + 2 * imm.toInt) := by
  have pcNumber : BitVec.ofInt 32 (s.pc.toNat + 4) = s.pcRead := by
    rw [BitVec.ofInt_add, BitVec.ofInt_natCast, BitVec.ofNat_toNat, BitVec.setWidth_eq]
    rfl
  rw [BitVec.ofInt_add, pcNumber, ← branchOffset_eq_ofInt, State.branchTarget]

theorem conditionPassed_iff_condHolds (f : Apsr) (c : Cond) : conditionPassed f c = true ↔ CondHolds f c := by
  cases c <;> simp [conditionPassed, CondHolds]

/-- A return address with bit 0 set (42_branch.md R322, R324). -/
theorem or_one_eq_ofNat (x : Word) : x ||| 1 = BitVec.ofNat 32 (x.toNat / 2 * 2 + 1) := by
  have upper : (x ||| 1).toNat / 2 = x.toNat / 2 := by
    rw [BitVec.toNat_or, Nat.or_div_two]
    exact Nat.or_zero _
  have lowest : (x ||| 1).toNat % 2 = 1 := by
    rw [BitVec.toNat_or]
    exact Nat.or_mod_two_eq_one.mpr (.inr rfl)
  have number : x.toNat / 2 * 2 + 1 = (x ||| 1).toNat := by omega
  rw [number, BitVec.ofNat_toNat, BitVec.setWidth_eq]

/-- Settles O29: the condition chooses between the target and the next instruction. -/
theorem relativeBranches : Obligations.RelativeBranches := by
  intro s imm11 imm8 imm24 c
  simp only [← State.branchTarget_eq_ofInt, ← or_one_eq_ofNat, ← conditionPassed_iff_condHolds]
  exact ⟨rfl, fun passed => if_pos passed, fun failed => if_neg failed, rfl⟩

/-! ### Branches to a register -/

theorem branchRegOk_of_ne {rm : Reg} (notSp : rm.val ≠ 13) (notPc : rm.val ≠ 15) : branchRegOk rm = true := by
  rw [branchRegOk, Bool.and_eq_true, bne_iff_ne, bne_iff_ne]
  exact ⟨fun same => notSp (congrArg Fin.val same), fun same => notPc (congrArg Fin.val same)⟩

theorem exec_bx {rm : Reg} (ok : branchRegOk rm = true) (s : State) : exec (.bx rm) s = s.bxWritePc (s.reg rm) := if_pos ok

theorem exec_blx {rm : Reg} (ok : branchRegOk rm = true) (s : State) :
    exec (.blx rm) s = .next (State.interwork { s with lr := (s.pc + 2) ||| 1 } (s.reg rm)) := if_pos ok

/-- Bit 0 goes to T and is dropped from the PC (42_branch.md R325). -/
theorem State.interwork_eq (s : State) (v : Word) :
    s.interwork v = { s with pc := BitVec.ofNat 32 (v.toNat / 2 * 2), epsrT := decide (v.toNat % 2 = 1) } := by
  have even : v &&& 0xFFFFFFFE#32 = BitVec.ofNat 32 (v.toNat / 2 * 2) := congrArg State.pc (s.setPc_eq v)
  have thumb : v.getLsbD 0 = decide (v.toNat % 2 = 1) := by rw [← bitAt_eq_getLsbD, bitAt, Nat.pow_zero, Nat.div_one]
  rw [State.interwork, even, thumb]

/-- Settles O30: BX writes the PC in either of its two ways, and BLX always branches. -/
theorem registerBranches : Obligations.RegisterBranches := by
  intro s rm notSp notPc v
  have ok := branchRegOk_of_ne notSp notPc
  refine ⟨fun plain => ?branch, fun handler pattern => ?exceptionReturn, ?link⟩
  case branch =>
    have notReturn : ¬(s.ipsr ≠ 0 ∧ v / 268435456 = 15) := fun ⟨handler, pattern⟩ => plain.elim handler (absurd pattern)
    rw [exec_bx ok, State.bxWritePc_branch notReturn]
  case exceptionReturn => rw [exec_bx ok, State.bxWritePc_exceptionReturn handler pattern]
  case link => rw [exec_blx ok, State.interwork_eq, or_one_eq_ofNat]

end Sys2Proof.Machine
end

