-- ==== Sys2Proof/Proofs/SpecialRegisters.lean ====
section
/-! PROOF. The status words as numbers, and the reads and writes of the special registers at both privilege levels (10_state.md R30 to
R37; 43_misc.md R336, R337; 60_exceptions.md R371). -/

namespace Sys2Proof.Machine

open Sys2Proof.Safety

/-! ### Status words as numbers -/

theorem toNat_append {n m : Nat} (x : BitVec n) (y : BitVec m) : (x ++ y).toNat = x.toNat * 2 ^ m + y.toNat := by
  rw [BitVec.toNat_append, ← Nat.shiftLeft_add_eq_or_of_lt y.isLt, Nat.shiftLeft_eq]

/-- Fields that do not overlap add up. -/
theorem toNat_or_of_disjoint {x y : Word} (k : Nat) (high : x.toNat % 2 ^ k = 0) (low : y.toNat < 2 ^ k) :
    (x ||| y).toNat = x.toNat + y.toNat := by
  have multiple : 2 ^ k * (x.toNat / 2 ^ k) = x.toNat := Nat.mul_div_cancel' (Nat.dvd_of_mod_eq_zero high)
  rw [BitVec.toNat_or, ← multiple, Nat.two_pow_add_eq_or_of_lt low]

theorem toNat_setWidth_ofBool (b : Bool) : ((BitVec.ofBool b).setWidth 32).toNat = b.toNat := by
  cases b <;> rfl

theorem Apsr.toNat_toWord (f : Apsr) :
    f.toWord.toNat = f.n.toNat * 2147483648 + f.z.toNat * 1073741824 + f.c.toNat * 536870912 + f.v.toNat * 268435456 := by
  simp only [Apsr.toWord, toNat_append, BitVec.toNat_ofBool, BitVec.toNat_ofNat]
  omega

theorem State.toNat_ipsrWord (s : State) : s.ipsrWord.toNat = s.ipsr.toNat := by
  have small := s.ipsr.isLt
  rw [State.ipsrWord, BitVec.toNat_setWidth]
  omega

theorem State.toNat_flags_or_ipsr (s : State) : (s.apsr.toWord ||| s.ipsrWord).toNat = s.apsr.toWord.toNat + s.ipsr.toNat := by
  have flags := s.apsr.toNat_toWord
  have small := s.ipsr.isLt
  rw [toNat_or_of_disjoint 28 (by omega) (by rw [s.toNat_ipsrWord]; omega), s.toNat_ipsrWord]

theorem State.toNat_controlWord (s : State) : s.controlWord.toNat = 2 * s.spsel.toNat + s.nPriv.toNat := by
  have psp := s.spsel.toNat_le
  have unprivileged := s.nPriv.toNat_le
  rw [State.controlWord, BitVec.toNat_setWidth, toNat_append, BitVec.toNat_ofBool, BitVec.toNat_ofBool]
  omega

/-! ### MRS -/

theorem eq_ofNat_of_toNat {x : Word} {n : Nat} (h : x.toNat = n) : x = BitVec.ofNat 32 n := by
  rw [← h, BitVec.ofNat_toNat, BitVec.setWidth_eq]

theorem State.privileged_of_not {s : State} (unprivileged : ¬(s.ipsr ≠ 0 ∨ s.nPriv = false)) : s.privileged = false :=
  Bool.eq_false_iff.mpr (mt (privilegeLevel s).mp unprivileged)

/-- Unprivileged software runs in Thread mode, whose number is the zero that it reads (10_state.md R32, R39). -/
theorem State.visible_ipsr (s : State) : (if s.privileged then s.ipsrWord else 0) = s.ipsrWord := by
  split
  · rfl
  · rename_i unprivileged
    have thread : s.ipsr = 0 := Decidable.byContradiction fun handler => unprivileged ((privilegeLevel s).mpr (.inl handler))
    rw [State.ipsrWord, thread]
    rfl

theorem specMoveRegOk_of_ne {r : Reg} (notSp : r.val ≠ 13) (notPc : r.val ≠ 15) : specMoveRegOk r = true := by
  rw [specMoveRegOk, Bool.and_eq_true, bne_iff_ne, bne_iff_ne]
  exact ⟨fun same => notSp (congrArg Fin.val same), fun same => notPc (congrArg Fin.val same)⟩

section
variable {s : State} {r : Reg}

/-- R0 to R12 or LR written by an instruction of any length. -/
theorem State.setReg_wroteAny (notSp : r.val ≠ 13) (notPc : r.val ≠ 15) (v len : Word) :
    WroteAny s ((s.setReg r v).advance len) r v len := by
  by_cases low : r.val < 13
  · rw [State.setReg, dif_pos low, WroteAny, dif_pos low]
    refine ⟨(s.setGpr_gpr ..).trans (if_pos rfl), fun k other => (s.setGpr_gpr ..).trans (if_neg fun same => other ?_), rfl⟩
    exact congrArg Fin.val same.symm
  · obtain rfl : r = 14 := Fin.ext (show r.val = 14 by omega)
    rfl

theorem exec_mrs (notSp : r.val ≠ 13) (notPc : r.val ≠ 15) {spec : SpecReg} {w : Word} (value : s.mrsValue spec = w) :
    ∃ t, exec (.mrs r spec) s = .next t ∧ WroteAny s t r w 4 :=
  ⟨_, if_pos (specMoveRegOk_of_ne notSp notPc), value ▸ State.setReg_wroteAny notSp notPc _ 4⟩

theorem exec_msr (notSp : r.val ≠ 13) (notPc : r.val ≠ 15) (spec : SpecReg) :
    exec (.msr spec r) s = .next ((s.msrWrite spec (s.reg r)).advance 4) :=
  if_pos (specMoveRegOk_of_ne notSp notPc)

end

/-- Settles O32: each special register's word is the number of its fields. -/
theorem mrsReads : Obligations.MrsReads := by
  intro s rd notSp notPc flags priv number
  have reads {spec : SpecReg} {w : Word} (value : s.mrsValue spec = w) := exec_mrs notSp notPc value
  have flagsWord : s.apsr.toWord = BitVec.ofNat 32 flags := eq_ofNat_of_toNat s.apsr.toNat_toWord
  have number_eq : s.ipsr.toNat = number := by
    change s.ipsr.toNat = if s.ipsr = 0 then 0 else s.ipsr.toNat
    split
    · rename_i thread
      rw [thread]
      rfl
    · rfl
  have numberWord : (if s.privileged then s.ipsrWord else 0) = BitVec.ofNat 32 number :=
    s.visible_ipsr.trans (eq_ofNat_of_toNat (s.toNat_ipsrWord.trans number_eq))
  have bothWord : s.apsr.toWord ||| (if s.privileged then s.ipsrWord else 0) = BitVec.ofNat 32 (flags + number) := by
    have flags_eq : s.apsr.toWord.toNat = flags := s.apsr.toNat_toWord
    rw [s.visible_ipsr]
    exact eq_ofNat_of_toNat (by rw [s.toNat_flags_or_ipsr, flags_eq, number_eq])
  refine ⟨?flagsOnly, ?flagsAndNumber, ?numberOnly, reads rfl, fun privileged => ?privileged, fun unprivileged => ?unprivileged⟩
  case flagsOnly => rintro r (rfl | rfl) <;> exact reads flagsWord
  case flagsAndNumber => rintro r (rfl | rfl) <;> exact reads bothWord
  case numberOnly => rintro r (rfl | rfl) <;> exact reads numberWord
  case privileged =>
    have allowed := (privilegeLevel s).mpr privileged
    exact ⟨reads (if_pos allowed), reads (if_pos allowed),
      reads ((if_pos allowed).trans (eq_ofNat_of_toNat (toNat_setWidth_ofBool _))),
      reads ((if_pos allowed).trans (eq_ofNat_of_toNat s.toNat_controlWord))⟩
  case unprivileged =>
    have denied := State.privileged_of_not unprivileged
    rintro r (rfl | rfl | rfl | rfl) <;> exact reads (if_neg (Bool.eq_false_iff.mp denied))

/-! ### MSR -/

theorem Apsr.ofWord_eq (x : Word) : Apsr.ofWord x = { n := bitAt x 31, z := bitAt x 30, c := bitAt x 29, v := bitAt x 28 } := by
  simp only [Apsr.ofWord, bitAt_eq_getLsbD]

theorem alignSp_eq (v : Word) : alignSp v = BitVec.ofNat 32 (v.toNat / 4 * 4) := align4_eq v

/-- Settles O33: what each special register takes of the word. -/
theorem msrWrites : Obligations.MsrWrites := by
  intro s rn notSp notPc x priv
  have writes := exec_msr (s := s) notSp notPc
  refine ⟨?flags, ?ignored, fun privileged => ?privileged, fun unprivileged => ?unprivileged⟩
  case flags => rintro r (rfl | rfl | rfl | rfl) <;> rw [writes, State.msrWrite, Apsr.ofWord_eq] <;> rfl
  case ignored => rintro r (rfl | rfl | rfl) <;> exact writes _
  case privileged =>
    have allowed := (privilegeLevel s).mpr privileged
    have thread : s.threadMode = true ↔ s.ipsr = 0 := beq_iff_eq
    simp only [writes, State.msrWrite, allowed, if_true, State.setMsp, State.setPsp, alignSp_eq, bitAt_eq_getLsbD, thread]
    exact ⟨rfl, rfl, rfl, rfl⟩
  case unprivileged =>
    have denied := State.privileged_of_not unprivileged
    rintro r (rfl | rfl | rfl | rfl) <;> simp only [writes, State.msrWrite, denied, Bool.false_eq_true, if_false] <;> rfl

end Sys2Proof.Machine
end

