-- ==== Sys2Proof/Proofs/Hints.lean ====
section
/-! PROOF. The mask instructions, the hints and the barriers (43_misc.md R331 to R335, R338, R340, R342, R343, R345; 20_memory.md R165). -/

namespace Sys2Proof.Machine

/-- CPSID sets PRIMASK where the software is privileged, and does nothing else. -/
theorem exec_cpsid (s : State) :
    exec .cpsid s = .next { s with primask := s.primask || decide (s.ipsr ≠ 0 ∨ s.nPriv = false), pc := s.pc + 2 } := by
  change Host.Outcome.next ((if s.privileged then { s with primask := true } else s).advance 2) = _
  simp only [← privilegeLevel s, Bool.decide_eq_true]
  cases s.privileged with
  | true => rw [Bool.or_true]; rfl
  | false => rw [Bool.or_false]; rfl

/-- CPSIE clears PRIMASK where the software is privileged, and does nothing else. -/
theorem exec_cpsie (s : State) :
    exec .cpsie s = .next { s with primask := s.primask && decide (s.ipsr = 0 ∧ s.nPriv = true), pc := s.pc + 2 } := by
  have unprivileged : (s.ipsr = 0 ∧ s.nPriv = true) ↔ ¬s.privileged = true := by
    rw [privilegeLevel s, not_or, Decidable.not_not, Bool.not_eq_false]
  change Host.Outcome.next ((if s.privileged then { s with primask := false } else s).advance 2) = _
  simp only [unprivileged, decide_not, Bool.decide_eq_true]
  cases s.privileged with
  | true => rw [Bool.not_true, Bool.and_false]; rfl
  | false => rw [Bool.not_false, Bool.and_true]; rfl

/-- Settles O34: WFE looks at the event register, CPS at the privilege, the others at nothing. -/
theorem hintsMasksAndBarriers : Obligations.HintsMasksAndBarriers := by
  intro s o
  refine ⟨exec_cpsid s, exec_cpsie s, ?hints, ?barriers, rfl, rfl, fun event => if_pos event, fun noEvent => ?sleeps, rfl⟩
  case hints => rintro i (rfl | rfl) <;> rfl
  case barriers => rintro i (rfl | rfl) <;> rfl
  case sleeps => exact if_neg (Bool.eq_false_iff.mp noEvent)

end Sys2Proof.Machine
end

