-- ==== Sys2Proof/Proofs/ExceptionEntry.lean ====
section
/-! PROOF. Taking an exception whose frame and vector lie in storage (60_exceptions.md R371 to R376). -/

namespace Sys2Proof.Machine

open Sys2Proof.Safety

/-! ### The stack frame -/

/-- The stacked PSR as the sum of its fields (60_exceptions.md R371, R372). -/
theorem State.toNat_stackedPsr (s : State) : (s.stackedPsr (frameAlign s.sp)).toNat = psrNumber s := by
  have alignBit : (frameAlign s.sp).toNat = s.sp.toNat / 4 % 2 := by
    rw [frameAlign, BitVec.getLsbD, Nat.toNat_testBit]
  have thumbField : ((BitVec.ofBool s.epsrT).setWidth 32 <<< 24 : Word).toNat = s.epsrT.toNat * 16777216 := by
    cases s.epsrT <;> rfl
  have alignField : ((BitVec.ofBool (frameAlign s.sp)).setWidth 32 <<< 9 : Word).toNat = (frameAlign s.sp).toNat * 512 := by
    cases frameAlign s.sp <;> rfl
  have flags := s.apsr.toNat_toWord
  have thumb := s.epsrT.toNat_le
  have aligned := (frameAlign s.sp).toNat_le
  have number := s.ipsr.isLt
  have ipsrField := s.toNat_ipsrWord
  have withThumb := toNat_or_of_disjoint (x := s.apsr.toWord) (y := (BitVec.ofBool s.epsrT).setWidth 32 <<< 24) 28 (by omega) (by omega)
  have withAlign := toNat_or_of_disjoint (x := s.apsr.toWord ||| (BitVec.ofBool s.epsrT).setWidth 32 <<< 24)
    (y := (BitVec.ofBool (frameAlign s.sp)).setWidth 32 <<< 9) 24 (by omega) (by omega)
  rw [State.stackedPsr, toNat_or_of_disjoint 9 (by omega) (by omega), psrNumber]
  omega

theorem State.toNat_frameWords (s : State) (ra : Word) :
    (s.frameWords ra).map BitVec.toNat =
      [(s.gpr 0).toNat, (s.gpr 1).toNat, (s.gpr 2).toNat, (s.gpr 3).toNat, (s.gpr 12).toNat, s.lr.toNat, ra.toNat, psrNumber s] := by
  rw [← s.toNat_stackedPsr]
  rfl

theorem framePtr_aligned (sp : Word) : (framePtr sp).toNat % 4 = 0 := by
  rw [framePtr, toNat_and_highMask 3 (by decide)]
  omega

theorem toNat_load_word (s : State) (a : Word) : (s.mem.load .word a).toNat = bytesValue s a 4 := by
  have small : bytesValue s a 4 < 2 ^ 32 := bytesValue_lt s a 4
  rw [load_word_eq_bytesValue, BitVec.toNat_ofNat, Nat.mod_eq_of_lt small]

/-- A stored word is the number in its bytes. -/
theorem bytesValue_of_holdsWord {s u : State} {a v : Word} (holds : HoldsWord s u a v)
    (ram : s.kindAt s.privileged .write .word a = .ram) : bytesValue u a 4 = v.toNat := by
  have bytes (i : Nat) (hi : i < 4) : u.mem.byteAt (a + BitVec.ofNat 32 i).toNat = byteOf v i := by
    rw [holds ram i hi, byteOf_eq_ofNat]
  rw [← toNat_load_word, Memory.load_word_of_bytes bytes]

/-- Stacking in storage: no store faults, memory alone changes, and each word that RAM takes is there. -/
theorem State.stackWords_of_storage {s : State} {a : Word} {ws : List Word} (short : ws.length ≤ 9)
    (storage : BlockReachesStorage s .write a ws.length) :
    ∃ u, s.stackWords s.privileged a ws = .ok (false, u) ∧ u = { s with mem := u.mem } ∧
      (∀ k v, ws[k]? = some v → HoldsWord s u (wordAt a k) v) ∧ SameOutside s u a ws.length := by
  obtain ⟨u, -, written, frame⟩ := State.writeSteps_of_storage storage
  refine ⟨u, ?_, frame, State.writeWords_holds short (fun k hk => outside_of_storage (storage k hk)) written⟩
  rw [State.stackWords_eq_writeWords (fun k hk => State.checkAccess_of_storage (storage k hk))
    fun k hk => inPpb_of_storage (storage k hk), written, Acc.bind_ok]

/-- The frame of an exception stacked in RAM, its words as numbers. -/
theorem State.stackFrame_of_writable {s : State} (writable : FrameWritable s) (ra : Word) :
    ∃ m, s.stackWords s.privileged (framePtr s.sp) (s.frameWords ra) = .ok (false, { s with mem := m }) ∧
      (∀ k < 8, bytesValue { s with mem := m } (wordAt (framePtr s.sp) k) 4 = ((s.frameWords ra).map BitVec.toNat).getD k 0) ∧
      SameOutside s { s with mem := m } (framePtr s.sp) 8 := by
  have length : (s.frameWords ra).length = 8 := rfl
  obtain ⟨u, stacked, frame, holds, others⟩ := State.stackWords_of_storage (s := s) (a := framePtr s.sp) (ws := s.frameWords ra)
    (by rw [length]; decide) fun k hk => (writable k hk).1
  obtain ⟨m, rfl⟩ : ∃ m, u = { s with mem := m } := ⟨_, frame⟩
  refine ⟨m, stacked, fun k hk => ?_, others⟩
  have word : (s.frameWords ra)[k]? = some (s.frameWords ra)[k] := List.getElem?_eq_getElem hk
  rw [bytesValue_of_holdsWord (holds k _ word) (writable k hk).2, List.getD_eq_getElem?_getD, List.getElem?_map, word]
  rfl

/-! ### The handler -/

theorem State.vectorRead_of_readable {s : State} {e : Exc} (readable : VectorReadable s e.num) :
    s.vectorRead (s.vectorAddr e) = .ok (s.mem.load .word (s.vectorAddr e), s) := by
  obtain ⟨out, storage⟩ := readable
  have outside : inPpb (s.vectorAddr e) = false := (inPpb_eq_false_iff _).mpr out
  have answered : s.kindAt true .read .word (s.vectorAddr e) ≠ .busError ∧ s.kindAt true .read .word (s.vectorAddr e) ≠ .device := by
    rcases storage with ram | rom
    · exact ⟨fun h => absurd (ram.symm.trans h) (by decide), fun h => absurd (ram.symm.trans h) (by decide)⟩
    · exact ⟨fun h => absurd (rom.symm.trans h) (by decide), fun h => absurd (rom.symm.trans h) (by decide)⟩
  rw [State.vectorRead, outside, if_neg Bool.false_ne_true, State.checkBus_done answered.1, Acc.bind_ok,
    State.busValue_outside outside answered.2, State.busReadEffect_outside outside answered.2]

theorem State.enterHandler_of_readable {s : State} {e : Exc} (readable : VectorReadable s e.num) (p : Int) (lr : Word) :
    s.enterHandler e p lr = .next ((s.enterHandlerMode e lr).jumpVector (s.mem.load .word (s.vectorAddr e))) := by
  rw [State.enterHandler, State.vectorRead_of_readable readable]

theorem Exc.mask_getLsbD_num (e e' : Exc) : e.mask.getLsbD e'.num = decide (e' = e) :=
  (e.mask_getLsbD e'.num).trans (decide_eq_decide.mpr Exc.num_inj)

theorem State.activate_isPending (s : State) (e e' : Exc) : (s.activate e).isPending e' = (s.isPending e' && decide (e' ≠ e)) := by
  rw [State.isPending, State.activate_nvic, BitVec.getLsbD_and, BitVec.getLsbD_not, decide_eq_true e'.num_lt, Bool.true_and,
    Exc.mask_getLsbD_num, ← decide_not]
  rfl

theorem State.activate_isActive (s : State) (e e' : Exc) : (s.activate e).isActive e' = (s.isActive e' || decide (e' = e)) := by
  rw [State.isActive, State.activate_nvic, BitVec.getLsbD_or, Exc.mask_getLsbD_num]
  rfl

/-- The handler's address and T as numbers (60_exceptions.md R358). -/
theorem State.jumpVector_load (s : State) (a : Word) :
    (s.jumpVector (s.mem.load .word a)).pc.toNat = bytesValue s a 4 / 2 * 2 ∧
      (s.jumpVector (s.mem.load .word a)).epsrT = decide (bytesValue s a 4 % 2 = 1) := by
  rw [State.jumpVector_pc, State.jumpVector_epsrT, toNat_and_highMask 1 (by decide), ← bitAt_eq_getLsbD, bitAt, toNat_load_word,
    Nat.pow_one, Nat.pow_zero, Nat.div_one]
  exact ⟨rfl, rfl⟩

theorem State.excReturn_eq (s : State) :
    s.excReturn = if s.ipsr ≠ 0 then 0xFFFFFFF1 else if s.spsel then 0xFFFFFFFD else 0xFFFFFFF9 := by
  simp only [State.excReturn, bne_iff_ne]

theorem Exc.toNat_ofNat_num (e : Exc) : (BitVec.ofNat 6 e.num).toNat = e.num := by
  have small := e.num_lt
  rw [BitVec.toNat_ofNat]
  omega

/-! ### Taking an exception -/

/-- An exception whose frame RAM takes and whose vector lies in storage is entered. -/
theorem State.takeException_entered {s : State} {e : Exc} (writable : FrameWritable s) (readable : VectorReadable s e.num) (ra : Word) :
    ∃ t, s.takeException e ra = .next t ∧ Entered s t e ra := by
  obtain ⟨m, stacked, words, others⟩ := State.stackFrame_of_writable writable ra
  obtain ⟨u, lower⟩ : ∃ u, State.setSp { s with mem := m } (framePtr s.sp) = u := ⟨_, rfl⟩
  have lowered := State.setSp_of_aligned (s := s) (u := { s with mem := m }) rfl rfl rfl rfl (framePtr_aligned s.sp)
  rw [lower] at lowered
  have readable' : VectorReadable u e.num := by rw [lowered]; exact readable
  refine ⟨(u.enterHandlerMode e s.excReturn).jumpVector (u.mem.load .word (u.vectorAddr e)), ?taken, ?entered⟩
  case taken =>
    simp only [State.takeException, stacked, Bool.false_eq_true, if_false]
    rw [lower, State.enterHandler_of_readable readable']
  case entered =>
    obtain ⟨pc, thumb⟩ := (u.enterHandlerMode e s.excReturn).jumpVector_load (u.vectorAddr e)
    have pending := u.activate_isPending e
    have active := u.activate_isActive e
    rw [s.toNat_frameWords] at words
    subst lowered
    exact ⟨fun k hk _ => words k hk, others, rfl, rfl, s.excReturn_eq, e.toNat_ofNat_num, rfl, pc, thumb, pending, active, rfl, rfl,
      rfl, rfl⟩

end Sys2Proof.Machine
end

