-- ==== Sys2Proof/Proofs/RaisedExceptions.lean ====
section
/-! PROOF. An exception that becomes pending and is taken at once, which is how SVC, UDF, UDF.W and BKPT end (43_misc.md R330, R341, R346;
60_exceptions.md R353, R362, R374, R390). -/

namespace Sys2Proof.Machine

open Sys2Proof.Safety

section
variable (s : State) (e : Exc)

/-! ### What a pending bit does not change -/

theorem State.setPending_isPending (e' : Exc) : (s.setPending e).isPending e' = (s.isPending e' || decide (e' = e)) := by
  rw [State.isPending, State.setPending_nvic, BitVec.getLsbD_or, Exc.mask_getLsbD_num]
  rfl

@[simp] theorem State.setPending_isActive (e' : Exc) : (s.setPending e).isActive e' = s.isActive e' := by
  rw [State.isActive, State.setPending_nvic]
  rfl

@[simp] theorem State.setPending_isEnabled (e' : Exc) : (s.setPending e).isEnabled e' = s.isEnabled e' := by
  cases e' with
  | irq n => rw [State.isEnabled, State.setPending_nvic]; rfl
  | _ => rfl

@[simp] theorem State.setPending_prio (e' : Exc) : (s.setPending e).prio e' = s.prio e' := by
  cases e' <;> simp only [State.prio, State.irqPriority, State.setPending_nvic, State.setPending_scb]

@[simp] theorem State.setPending_activePriority (es : List Exc) : (s.setPending e).activePriority es = s.activePriority es := by
  induction es with
  | nil => rfl
  | cons e' rest ih => simp only [State.activePriority, State.setPending_isActive, State.setPending_prio, ih]

@[simp] theorem State.setPending_executionPriority : (s.setPending e).executionPriority = s.executionPriority := by
  unfold State.executionPriority State.priorityIgnoringPrimask
  rw [s.setPending_activePriority, s.setPending_primask]

@[simp] theorem State.setPending_privileged : (s.setPending e).privileged = s.privileged := by
  simp [State.privileged]

@[simp] theorem State.setPending_sp : (s.setPending e).sp = s.sp := by
  simp [State.sp_eq]

@[simp] theorem State.setPending_mpuCheck (a : Word) (kind : AccessKind) (priv : Bool) :
    (s.setPending e).mpuCheck a kind priv = s.mpuCheck a kind priv := by
  unfold State.mpuCheck State.mpuActive
  rw [s.setPending_executionPriority, s.setPending_mpu, s.setPending_cfg]

@[simp] theorem State.setPending_kindAt (priv : Bool) (kind : AccessKind) (size : Size) (a : Word) :
    (s.setPending e).kindAt priv kind size a = s.kindAt priv kind size a := State.kindAt_congr (s.setPending_cfg e) priv kind size a

theorem frameWritable_setPending : FrameWritable (s.setPending e) ↔ FrameWritable s := by
  simp [FrameWritable, ReachesStorage]

theorem vectorReadable_setPending (n : Nat) : VectorReadable (s.setPending e) n ↔ VectorReadable s n := by
  simp [VectorReadable, vectorAddress]

theorem psrNumber_setPending : psrNumber (s.setPending e) = psrNumber s := by
  simp [psrNumber]

end

section
variable {s t : State} {e : Exc} {ra : Word}

/-! ### Pending and taken at once -/

/-- Where nothing was to be taken, an exception of sufficient priority that becomes pending is the one to take (60_exceptions.md R362). -/
theorem State.setPending_bestCandidate (nothing : NothingToTake s) (enabled : s.isEnabled e = true)
    (sufficient : s.prio e < s.executionPriority) : (s.setPending e).bestCandidate = some e := by
  have candidate (e' : Exc) : (s.setPending e).isCandidate s.executionPriority e' = true ↔ e' = e := by
    have before : s.isCandidate s.executionPriority e' = false := State.bestOf_eq_none nothing e' e'.mem_all
    rw [State.isCandidate, s.setPending_isPending, s.setPending_isEnabled, s.setPending_prio]
    by_cases same : e' = e
    · simp [same, enabled, sufficient]
    · rw [decide_eq_false same, Bool.or_false]
      exact iff_of_false (Bool.eq_false_iff.mp before) same
  rw [State.bestCandidate, s.setPending_executionPriority]
  cases best : (s.setPending e).bestOf s.executionPriority Exc.all with
  | none => exact absurd ((candidate e).mpr rfl) (Bool.eq_false_iff.mp (State.bestOf_eq_none best e e.mem_all))
  | some b => exact congrArg some ((candidate b).mp (State.bestOf_eq_some Exc.all_sorted best).1)

/-- Entry from the state in which the exception became pending is entry: it clears that bit again and wakes the processor. -/
theorem entered_of_setPending (h : Entered (s.setPending e) t e ra) : Entered s t e ra := by
  have bits (e' : Exc) : ((s.setPending e).isPending e' && decide (e' ≠ e)) = (s.isPending e' && decide (e' ≠ e)) := by
    rw [s.setPending_isPending]
    cases s.isPending e' <;> simp
  have changes := s.setPendingMask_frame e.mask
  rw [← State.setPending] at changes
  simp only [Entered, EnteredWith, State.setPending_sp, psrNumber_setPending, State.setPending_isActive, bits] at h
  rw [changes] at h
  exact h

theorem State.takeBest_of_candidate (best : s.bestCandidate = some e) (ra : Word) : s.takeBest ra = s.takeException e ra := by
  unfold State.takeBest
  rw [best]

theorem State.takeBest_entered (nothing : NothingToTake s) (enabled : s.isEnabled e = true) (sufficient : s.prio e < s.executionPriority)
    (writable : FrameWritable s) (readable : VectorReadable s e.num) (ra : Word) :
    ∃ t, (s.setPending e).takeBest ra = .next t ∧ Entered s t e ra := by
  have writable' : FrameWritable (s.setPending e) := (frameWritable_setPending s e).mpr writable
  have readable' : VectorReadable (s.setPending e) e.num := (vectorReadable_setPending s e e.num).mpr readable
  obtain ⟨t, taken, entered⟩ := State.takeException_entered writable' readable' ra
  have best := State.setPending_bestCandidate nothing enabled sufficient
  exact ⟨t, (State.takeBest_of_candidate best ra).trans taken, entered_of_setPending entered⟩

theorem State.raiseHardFault_entered (sufficient : -1 < s.executionPriority) (nothing : NothingToTake s) (writable : FrameWritable s)
    (readable : VectorReadable s 3) (ra : Word) : ∃ t, s.raiseHardFault ra = .next t ∧ Entered s t .hardFault ra := by
  rw [State.raiseHardFault, if_neg (Int.not_le.mpr sufficient)]
  exact State.takeBest_entered (e := .hardFault) nothing rfl sufficient writable readable ra

end

/-! ### SVC, UDF, UDF.W and BKPT -/

/-- Settles O35: the execution priority decides between SVCall and HardFault. -/
theorem supervisorCall : Obligations.SupervisorCall := by
  intro s imm8
  refine ⟨fun sufficient nothing writable readable => ?taken, fun insufficient => if_pos insufficient⟩
  have run : exec (.svc imm8) s = (s.setPending .svCall).takeBest (s.pc + 2) := if_neg (Int.not_le.mpr sufficient)
  rw [run]
  exact State.takeBest_entered nothing rfl sufficient writable readable (s.pc + 2)

/-- Settles O36: each of the three raises HardFault, unless a debugger takes the breakpoint. -/
theorem undefinedAndBreakpoint : Obligations.UndefinedAndBreakpoint := by
  intro s imm8 imm16
  refine ⟨fun i hi sufficient nothing writable readable => ?raised, fun attached => if_pos attached⟩
  have run : exec i s = s.raiseHardFault s.pc := by
    obtain rfl | rfl | ⟨rfl, detached⟩ := hi
    · rfl
    · rfl
    · exact if_neg (Bool.eq_false_iff.mp detached)
  rw [run]
  exact State.raiseHardFault_entered sufficient nothing writable readable s.pc

end Sys2Proof.Machine
end

