-- ==== Sys2Proof/Proofs/Confinement.lean ====
section
/-! PROOF. What unprivileged software leaves as it was, instruction by instruction: its own accesses stay outside the PPB, and the exceptions
that it raises or that abandon it change no setting (20_memory.md R142; 60_exceptions.md R401, R404). -/

namespace Sys2Proof.Machine

open Sys2Proof.Safety

theorem protectedSame_refl (s : State) : ProtectedSame s s := ⟨rfl, rfl, rfl, rfl, rfl, rfl, rfl, rfl, rfl⟩

theorem protectedSame_trans {s u t : State} (first : ProtectedSame s u) (second : ProtectedSame u t) : ProtectedSame s t := by
  obtain ⟨nPriv, primask, enable, ipr, scb, ctrl, reload, current, mpu⟩ := first
  obtain ⟨nPriv', primask', enable', ipr', scb', ctrl', reload', current', mpu'⟩ := second
  exact ⟨nPriv'.trans nPriv, primask'.trans primask, enable'.trans enable, ipr'.trans ipr, scb'.trans scb, ctrl'.trans ctrl,
    reload'.trans reload, current'.trans current, mpu'.trans mpu⟩

variable {s t u : State}

/-! ### Operations of any privilege -/

theorem protectedSame_setSp (s : State) (v : Word) : ProtectedSame s (s.setSp v) := by simp [ProtectedSame]

theorem protectedSame_setReg (s : State) (r : Reg) (v : Word) : ProtectedSame s (s.setReg r v) := by
  unfold State.setReg
  split
  · exact protectedSame_refl s
  · split
    · exact protectedSame_setSp s v
    · split <;> exact protectedSame_refl s

theorem protectedSame_setLos (s : State) (rs : List LoReg) (ws : List Word) : ProtectedSame s (s.setLos rs ws) := by
  simp [ProtectedSame]

theorem protectedSame_setPendingMask (s : State) (m : BitVec 48) : ProtectedSame s (s.setPendingMask m) := by simp [ProtectedSame]

/-- A read changes COUNTFLAG at most of what the core peripherals hold (10_state.md R76). -/
theorem protectedSame_readWords (s : State) (priv : Bool) (a : Word) (n : Nat) : ProtectedSame s (s.readWords priv a n).2 := by
  rw [(State.readWords_frame s priv a n).2]
  exact protectedSame_refl s

theorem protectedSame_memRead {size : Size} {a v : Word} (h : s.memRead size a = .ok (v, t)) : ProtectedSame s t := by
  obtain ⟨-, read⟩ := State.memRead_ok h
  obtain ⟨-, rfl⟩ := Prod.mk.inj read
  rw [State.busReadEffect_frame]
  exact protectedSame_refl s

theorem protectedSame_vectorRead {a v : Word} (h : s.vectorRead a = .ok (v, t)) : ProtectedSame s t := by
  rw [State.vectorRead_frame h]
  exact protectedSame_refl s

/-- An arrival midway changes pending bits, samples and the event state, where the timer does not count. -/
theorem protectedSame_sampleMidway {m : Midway} (noTicks : m.ticks = 0) (s : State) : ProtectedSame s (s.sampleMidway m) := by
  have samples : s.sampleMidway m = (s.sampleIrq m.irq).sampleNmi m.nmi := by rw [State.sampleMidway, noTicks]; rfl
  have irq : ProtectedSame s (s.sampleIrq m.irq) := protectedSame_setPendingMask s _
  have nmi (w : State) : ProtectedSame w (w.sampleNmi m.nmi) := by
    unfold State.sampleNmi
    dsimp only
    split
    · exact protectedSame_setPendingMask w _
    · exact protectedSame_refl w
  rw [samples]
  exact protectedSame_trans irq (nmi _)

/-! ### Exceptions taken by unprivileged software -/

/-- The next state that a result answers, if it answers one, has the settings of `s`. -/
def KeepsSettings (s : State) (r : Result) : Prop := ∀ t, r = .next t → ProtectedSame s t

theorem keepsSettings_next (same : ProtectedSame s t) : KeepsSettings s (.next t) := by
  intro t' h
  cases h
  exact same

theorem keepsSettings_refused (r : Refusal) : KeepsSettings s (.refused r) := fun _ h => nomatch h

theorem keepsSettings_fault (f : Fault) : KeepsSettings s (.fault f) := fun _ h => nomatch h

theorem KeepsSettings.ite {c : Prop} [Decidable c] {x y : Result} (hx : KeepsSettings s x) (hy : KeepsSettings s y) :
    KeepsSettings s (if c then x else y) := by
  split
  · exact hx
  · exact hy

/-- What keeps the settings of a state that has those of `s` keeps those of `s`. -/
theorem KeepsSettings.after {r : Result} (same : ProtectedSame s u) (keeps : KeepsSettings u r) : KeepsSettings s r :=
  fun t h => protectedSame_trans same (keeps t h)

/-- Going to the handler of an exception whose vector was read. -/
theorem protectedSame_handler {a v lr : Word} {e : Exc} (read : s.vectorRead a = .ok (v, u)) :
    ProtectedSame s ((u.enterHandlerMode e lr).jumpVector v) :=
  protectedSame_trans (protectedSame_vectorRead read) (protectedSame_refl u)

theorem State.enterHardFault_keepsSettings (s : State) (lr : Word) : KeepsSettings s (s.enterHardFault lr) := by
  intro t h
  obtain ⟨v, u, read, rfl⟩ | rfl := State.enterHardFault_next h
  · exact protectedSame_handler read
  · exact protectedSame_refl s

theorem State.entryFault_keepsSettings (s : State) (p : Int) (lr : Word) : KeepsSettings s (s.entryFault p lr) := by
  intro t h
  obtain ⟨-, rfl⟩ | ⟨-, tailChained⟩ := State.entryFault_next h
  · exact protectedSame_refl s
  · exact (State.enterHardFault_keepsSettings _ lr).after (protectedSame_setPendingMask s _) t tailChained

theorem State.enterHandler_keepsSettings (s : State) (e : Exc) (p : Int) (lr : Word) : KeepsSettings s (s.enterHandler e p lr) := by
  intro t h
  obtain ⟨v, u, read, rfl⟩ | faulted := State.enterHandler_next h
  · exact protectedSame_handler read
  · exact s.entryFault_keepsSettings p lr t faulted

/-- The frame is stacked with the privilege of the interrupted code, so unprivileged code that points its stack into the PPB writes no
register there (60_exceptions.md R371, R393). -/
theorem State.takeException_keepsSettings (unprivileged : Unprivileged s) (e : Exc) (ra : Word) :
    KeepsSettings s (s.takeException e ra) := by
  intro t h
  obtain ⟨faulted, u, stacked, entered⟩ := State.takeException_next h
  rw [State.privileged_of_unprivileged unprivileged] at stacked
  have same : ProtectedSame s u := by
    rw [State.stackWords_unprivileged stacked]
    exact protectedSame_refl s
  have lowered := protectedSame_trans same (protectedSame_setSp u (framePtr s.sp))
  split at entered
  · exact (State.entryFault_keepsSettings _ _ _).after lowered t entered
  · exact (State.enterHandler_keepsSettings _ _ _ _).after lowered t entered

theorem State.takeBest_keepsSettings (unprivileged : Unprivileged s) (ra : Word) : KeepsSettings s (s.takeBest ra) := by
  intro t h
  obtain ⟨e, -, taken⟩ | ⟨-, rfl⟩ := State.takeBest_next h
  · exact State.takeException_keepsSettings unprivileged e ra t taken
  · exact protectedSame_refl t

/-! ### The unprivileged program -/

/-- The state `u` is reached by the unprivileged program of the state `s`: it has the settings of `s`, and is unprivileged too. -/
structure Confined (s u : State) : Prop where
  /-- the settings are those of `s` -/
  settings : ProtectedSame s u
  /-- no privilege was gained -/
  unprivileged : Unprivileged u

theorem Confined.trans (h : Confined s u) (same : ProtectedSame u t) (ipsr : t.ipsr = u.ipsr) : Confined s t where
  settings := protectedSame_trans h.settings same
  unprivileged := ⟨ipsr.trans h.unprivileged.1, same.1.trans h.unprivileged.2⟩

theorem Confined.setPending (h : Confined s u) (e : Exc) : Confined s (u.setPending e) :=
  h.trans (protectedSame_setPendingMask u _) (u.setPending_ipsr e)

theorem Confined.takeBest (h : Confined s u) (ra : Word) : KeepsSettings s (u.takeBest ra) :=
  (State.takeBest_keepsSettings h.unprivileged ra).after h.settings

theorem Confined.raiseHardFault (h : Confined s u) (ra : Word) : KeepsSettings s (u.raiseHardFault ra) := by
  intro t raised
  obtain ⟨-, rfl⟩ | ⟨-, taken⟩ := State.raiseHardFault_next raised
  · exact h.settings
  · exact (h.setPending .hardFault).takeBest ra t taken

theorem Confined.afterAccess (h : Confined s u) {α : Type} {x : Acc α} {k : α → Result}
    (goesOn : ∀ a, x = .ok a → KeepsSettings s (k a)) : KeepsSettings s (u.afterAccess x k) := by
  intro t answer
  obtain ⟨a, done, rest⟩ | ⟨-, -, raised⟩ := State.afterAccess_next answer
  · exact goesOn a done t rest
  · exact h.raiseHardFault _ t raised

/-- Unprivileged code that is not in a handler never returns from an exception: BX and POP branch (42_branch.md R325). -/
theorem Confined.bxWritePc (h : Confined s u) (v : Word) : KeepsSettings s (u.bxWritePc v) := by
  intro t branched
  obtain ⟨handler, -, -⟩ | ⟨-, rfl⟩ := State.bxWritePc_next branched
  · exact absurd h.unprivileged.1 handler
  · exact h.settings

/-! ### Accesses -/

theorem Confined.memWrite (h : Confined s u) {size : Size} {a v : Word} (written : u.memWrite size a v = .ok t) : Confined s t := by
  obtain ⟨checked, done⟩ := State.memWrite_ok written
  rw [State.privileged_of_unprivileged h.unprivileged] at checked
  rw [State.busWrite_outside (State.checkAccess_unprivileged checked) done]
  exact { h with }

theorem Confined.memRead (h : Confined s u) {size : Size} {a v : Word} (read : u.memRead size a = .ok (v, t)) : Confined s t := by
  refine h.trans (protectedSame_memRead read) ?_
  obtain ⟨-, answer⟩ := State.memRead_ok read
  obtain ⟨-, rfl⟩ := Prod.mk.inj answer
  exact u.busReadEffect_ipsr ..

theorem Confined.load (h : Confined s u) (rt : LoReg) (size : Size) (a : Word) (ext : Word → Word) :
    KeepsSettings s (u.load rt size a ext) :=
  h.afterAccess fun _ read => keepsSettings_next (h.memRead read).settings

theorem Confined.store (h : Confined s u) (rt : LoReg) (size : Size) (a : Word) : KeepsSettings s (u.store rt size a) :=
  h.afterAccess fun _ written => keepsSettings_next (h.memWrite written).settings

/-- A block of words that unprivileged code may write lies outside the PPB: memory and what the devices saw change alone. -/
theorem State.writeWords_unprivileged {priv : Bool} {ws : List Word} :
    ∀ {u : State} {a : Word}, s.checkWords false .write a ws.length = .ok () → u.writeWords priv a ws = .ok t →
      t = { u with mem := t.mem, devices := t.devices } := by
  induction ws with
  | nil =>
    intro u a _ written
    cases written
    rfl
  | cons v rest ih =>
    intro u a checked written
    obtain ⟨⟨⟩, first, others⟩ := Acc.bind_eq_ok checked
    obtain ⟨w, stored, remaining⟩ := Acc.bind_eq_ok written
    rw [ih others remaining, State.busWrite_outside (State.checkAccess_unprivileged first) stored]

/-! ### LDM, STM, PUSH, POP and MULS -/

/-- An instruction in steps keeps the settings where the states between its accesses are those of the unprivileged program, and the
timer does not count in its middle. -/
theorem inSteps_keepsSettings (noTicks : ∀ m, s.midway = some m → m.ticks = 0) {n : Nat} {upTo : Nat → Progress}
    {partway : Progress → State} {finish : Progress → Result} (confined : ∀ k, Confined s (partway (upTo k)))
    (finishes : KeepsSettings s (finish (upTo n))) : KeepsSettings s (s.inSteps n upTo partway finish) := by
  intro t h
  obtain ⟨m, e, -, arrives, -, -, abandoned⟩ | ⟨-, done⟩ | ⟨-, -, stopped⟩ := State.inSteps_next h
  · have sampled := (confined (min m.after n)).trans (protectedSame_sampleMidway (noTicks m arrives) _) (State.sampleMidway_ipsr _ m)
    exact (State.takeException_keepsSettings sampled.unprivileged e s.pc).after sampled.settings t abandoned
  · exact finishes t done
  · exact (confined n).raiseHardFault _ t stopped

theorem Confined.transferLoads (h : Confined s s) (noTicks : ∀ m, s.midway = some m → m.ticks = 0) (a : Word) (n : Nat)
    (base : Option LoReg) (rs : List LoReg) {finish : List Word → State → Result}
    (finishes : ∀ ws u, Confined s u → KeepsSettings s (finish ws u)) : KeepsSettings s (s.transferLoads a n base rs finish) := by
  have read (k : Nat) : Confined s (s.readSteps a k).state := State.readSteps_keeps (fun _ _ _ _ hu => Confined.memRead hu) h
  have kept (k : Nat) : Confined s ((s.readSteps a k).loadsKept base rs) := by
    rw [Progress.loadsKept_frame]
    exact { read k with }
  refine .ite (h.afterAccess fun _ _ => finishes _ _ ?_) (inSteps_keepsSettings noTicks kept (finishes _ _ (read n)))
  exact h.trans (protectedSame_readWords s _ a n) (s.readWords_ipsr _ a n)

theorem Confined.transferStores (h : Confined s s) (noTicks : ∀ m, s.midway = some m → m.ticks = 0) (a : Word) (ws : List Word)
    (fresh : Bool) {finish : State → Result} (finishes : ∀ u, Confined s u → KeepsSettings s (finish u)) :
    KeepsSettings s (s.transferStores a ws fresh finish) := by
  have drawn {u : State} (hu : Confined s u) : Confined s (if fresh then u.drewFree else u) := by
    split
    · exact { hu with }
    · exact hu
  have written (vs : List Word) : Confined s (s.writeSteps a vs).state :=
    State.writeSteps_keeps (fun _ _ _ _ hu => Confined.memWrite hu) h
  have kept (k : Nat) : Confined s ((s.writeSteps a (ws.take k)).storesKept fresh) := by
    rw [Progress.storesKept_frame]
    exact { written (ws.take k) with }
  refine .ite (h.afterAccess fun u done => finishes _ (drawn ?_)) (inSteps_keepsSettings noTicks kept (finishes _ (drawn (written _))))
  obtain ⟨⟨⟩, checked, stored⟩ := Acc.bind_eq_ok done
  rw [State.privileged_of_unprivileged h.unprivileged] at checked
  rw [State.writeWords_unprivileged checked stored]
  exact { h with }

/-! ### Instructions -/

theorem Confined.setLos (h : Confined s u) (rs : List LoReg) (ws : List Word) : Confined s (u.setLos rs ws) :=
  h.trans (protectedSame_setLos u rs ws) (u.setLos_ipsr rs ws)

theorem Confined.setSp (h : Confined s u) (v : Word) : Confined s (u.setSp v) := h.trans (protectedSame_setSp u v) (u.setSp_ipsr v)

theorem Confined.execMuls (h : Confined s s) (noTicks : ∀ m, s.midway = some m → m.ticks = 0) (rdm rn : LoReg) :
    KeepsSettings s (execMuls rdm rn s) := by
  unfold Machine.execMuls
  exact inSteps_keepsSettings noTicks (fun _ => h) (keepsSettings_next (protectedSame_refl s))

theorem Confined.execLdm (h : Confined s s) (noTicks : ∀ m, s.midway = some m → m.ticks = 0) (rn : LoReg) (list8 : BitVec 8) :
    KeepsSettings s (execLdm rn list8 s) := by
  refine .ite (keepsSettings_refused _) (h.transferLoads noTicks _ _ _ _ fun ws u hu => keepsSettings_next ?_)
  have loaded := (hu.setLos (regList list8) ws).settings
  split
  · exact loaded
  · exact loaded

theorem Confined.execStm (h : Confined s s) (noTicks : ∀ m, s.midway = some m → m.ticks = 0) (rn : LoReg) (list8 : BitVec 8) :
    KeepsSettings s (execStm rn list8 s) :=
  .ite (keepsSettings_refused _) (h.transferStores noTicks _ _ _ fun _ hu => keepsSettings_next hu.settings)

theorem Confined.execPush (h : Confined s s) (noTicks : ∀ m, s.midway = some m → m.ticks = 0) (m : Bool) (list8 : BitVec 8) :
    KeepsSettings s (execPush m list8 s) :=
  .ite (keepsSettings_refused _) (h.transferStores noTicks _ _ _ fun _ hu => keepsSettings_next (hu.setSp _).settings)

theorem Confined.execPop (h : Confined s s) (noTicks : ∀ m, s.midway = some m → m.ticks = 0) (p : Bool) (list8 : BitVec 8) :
    KeepsSettings s (execPop p list8 s) :=
  .ite (keepsSettings_refused _) (h.transferLoads noTicks _ _ _ _ fun ws _ hu =>
    have popped := (hu.setLos (regList list8) ws).setSp _
    .ite (popped.bxWritePc _) (keepsSettings_next popped.settings))

/-- Unprivileged code changes no special register but the flags (43_misc.md R337). -/
theorem protectedSame_msrWrite (unprivileged : Unprivileged s) (spec : SpecReg) (x : Word) : ProtectedSame s (s.msrWrite spec x) := by
  have ignored (u : State) : (if s.privileged then u else s) = s := by
    rw [State.privileged_of_unprivileged unprivileged]
    rfl
  cases spec with
  | apsr | iapsr | eapsr | psr | ipsr | epsr | iepsr => exact protectedSame_refl s
  | msp | psp | primask | control =>
    rw [State.msrWrite, ignored]
    exact protectedSame_refl s

/-- CPS is a NOP for unprivileged code (43_misc.md R331, R332). -/
theorem execCps_keepsSettings (unprivileged : Unprivileged s) (p : Bool) :
    KeepsSettings s (.next ((if s.privileged then { s with primask := p } else s).advance 2)) := by
  rw [State.privileged_of_unprivileged unprivileged]
  exact keepsSettings_next (protectedSame_refl s)

/-- Every instruction of unprivileged code keeps the settings. -/
theorem exec_keepsSettings (unprivileged : Unprivileged s) (noTicks : ∀ m, s.midway = some m → m.ticks = 0) (i : Instr) :
    KeepsSettings s (exec i s) := by
  have same := protectedSame_refl s
  have h : Confined s s := ⟨same, unprivileged⟩
  have putAny (rd : Reg) (v : Word) : KeepsSettings s (s.putAny rd v) :=
    .ite (keepsSettings_next same) (keepsSettings_next (protectedSame_setReg s rd v))
  cases i with
  | movsReg | movsImm | mvns | ands | eors | orrs | bics => exact keepsSettings_next same
  | lslsImm | lsrsImm | asrsImm | lslsReg | lsrsReg | asrsReg | rors => exact keepsSettings_next same
  | addsReg | subsReg | addsImm3 | subsImm3 | addsImm8 | subsImm8 | adcs | sbcs | rsbs => exact keepsSettings_next same
  | cmpImm | cmpLow | cmn | tst => exact keepsSettings_next same
  | cmpHigh => exact .ite (keepsSettings_next same) (keepsSettings_refused _)
  | muls rdm rn => exact h.execMuls noTicks rdm rn
  | addHigh => exact .ite (putAny _ _) (keepsSettings_refused _)
  | mov => exact putAny _ _
  | adr | addRdSp | sxth | sxtb | uxth | uxtb | rev | rev16 | revsh => exact keepsSettings_next same
  | addSp | subSp => exact keepsSettings_next (protectedSame_setSp s _)
  | ldrLit | ldrReg | ldrhReg | ldrbReg | ldrsh | ldrsb | ldrImm | ldrhImm | ldrbImm | ldrSp => exact h.load _ _ _ _
  | strReg | strhReg | strbReg | strImm | strhImm | strbImm | strSp => exact h.store _ _ _
  | ldm rn list8 => exact h.execLdm noTicks rn list8
  | stm rn list8 => exact h.execStm noTicks rn list8
  | push m list8 => exact h.execPush noTicks m list8
  | pop p list8 => exact h.execPop noTicks p list8
  | b | bl => exact keepsSettings_next same
  | bcond => exact .ite (keepsSettings_next same) (keepsSettings_next same)
  | bx => exact .ite (h.bxWritePc _) (keepsSettings_refused _)
  | blx => exact .ite (keepsSettings_next same) (keepsSettings_refused _)
  | msr => exact .ite (keepsSettings_next (protectedSame_msrWrite unprivileged _ _)) (keepsSettings_refused _)
  | mrs => exact .ite (keepsSettings_next (protectedSame_setReg s _ _)) (keepsSettings_refused _)
  | cpsie => exact execCps_keepsSettings unprivileged false
  | cpsid => exact execCps_keepsSettings unprivileged true
  | bkpt => exact .ite (keepsSettings_fault _) (h.raiseHardFault _)
  | svc => exact .ite (h.raiseHardFault _) ((h.setPending _).takeBest _)
  | udf | udfW => exact h.raiseHardFault _
  | nop | yield | dsb | dmb | isb | wfi | sev => exact keepsSettings_next same
  | wfe => exact .ite (keepsSettings_next same) (keepsSettings_next same)

/-- Settles O59: no privilege is gained before an exception is entered, and no access without privilege reaches the PPB. -/
theorem unprivilegedCannotReconfigure : Obligations.UnprivilegedCannotReconfigure :=
  fun _ t i unprivileged noTicks => exec_keepsSettings unprivileged noTicks i t

end Sys2Proof.Machine
end

