-- ==== Sys2Proof/Proofs/EntryFaults.lean ====
section
/-! PROOF. Exception entry where a stacking store or the vector fetch faults: HardFault by tail-chaining, or lockup (60_exceptions.md R390,
R393, R396). -/

namespace Sys2Proof.Machine

open Sys2Proof.Safety

/-! ### Stacking with faults -/

section
variable {s u t : State} {a : Word} {n : Nat}

/-- Bytes outside a block of words are as before where those outside its first word and those outside the others are. -/
theorem sameOutside_cons (first : SameOutside s u a 1) (others : SameOutside u t (a + 4) n) : SameOutside s t a (n + 1) := by
  intro b outside
  have next (k : Nat) : a + 4 + BitVec.ofNat 32 k = a + BitVec.ofNat 32 (4 + k) := by
    rw [BitVec.add_assoc, BitVec.ofNat_add]
    rfl
  rw [others b fun k hk => by rw [next]; exact outside (4 + k) (by omega), first b fun k hk => outside k (by omega)]

/-- The word below a block is kept with the bytes outside the block. -/
theorem holdsWord_of_sameOutside {v : Word} (short : n ≤ 8) (holds : HoldsWord s u a v) (same : SameOutside u t (a + 4) n) :
    HoldsWord s t a v := by
  intro ram i hi
  rw [← holds ram i hi]
  refine same _ fun k hk => ?_
  have next : a + 4 + BitVec.ofNat 32 k = a + BitVec.ofNat 32 (4 + k) := by
    rw [BitVec.add_assoc, BitVec.ofNat_add]
    rfl
  rw [next]
  exact offset_ne (by omega) (by omega) (by omega)

theorem reachesStorage_withMem (m : Memory) {kind : AccessKind} {size : Size} :
    ReachesStorage { s with mem := m } kind size a ↔ ReachesStorage s kind size a := reachesStorage_congr rfl rfl rfl rfl rfl rfl

theorem State.checkAccess_withMem (m : Memory) (priv : Bool) (kind : AccessKind) (size : Size) :
    State.checkAccess { s with mem := m } priv kind size a = s.checkAccess priv kind size a :=
  State.checkAccess_congr rfl rfl rfl rfl rfl priv kind size a

/-- A stacking store faults (60_exceptions.md R393). -/
def State.StackFaults (s : State) (a : Word) : Prop := ∃ c, s.checkAccess s.privileged .write .word a = .fault c

theorem not_stackFaults_of_storage (storage : ReachesStorage s .write .word a) : ¬s.StackFaults a := by
  rintro ⟨c, fault⟩
  rw [State.checkAccess_of_storage storage] at fault
  cases fault

theorem State.stackWords_fault (fault : s.StackFaults a) (v : Word) (rest : List Word) :
    s.stackWords s.privileged a (v :: rest) = (s.stackWords s.privileged (a + 4) rest).bind fun r => .ok (true, r.2) := by
  obtain ⟨c, fault⟩ := fault
  rw [State.stackWords, fault]

/-- A stacking store in storage changes memory alone. -/
theorem State.stackWords_storage (storage : ReachesStorage s .write .word a) (v : Word) (rest : List Word) :
    ∃ m, s.stackWords s.privileged a (v :: rest) = State.stackWords { s with mem := m } s.privileged (a + 4) rest ∧
      HoldsWord s { s with mem := m } a v ∧ SameOutside s { s with mem := m } a 1 := by
  obtain ⟨u, written⟩ := State.busWrite_done (s := s) (priv := s.privileged) (size := .word) (v := v) (inPpb_of_storage storage)
  obtain ⟨m, rfl⟩ : ∃ m, u = { s with mem := m } := ⟨_, State.busWrite_of_storage storage written⟩
  obtain ⟨stored, -, others⟩ := State.busWrite_word_byteAt (inPpb_of_storage storage) written
  refine ⟨m, ?_, fun ram i hi => ?_, others⟩
  · rw [State.stackWords, State.checkAccess_of_storage storage]
    dsimp only
    rw [written, Acc.bind_ok]
  · rw [stored ram i hi, byteOf_eq_ofNat]

end

/-- Stacking where each store faults or reaches storage: the faulting ones are skipped and reported, the others are done, and memory alone
changes. -/
theorem State.stackWords_of_each {s : State} {a : Word} {ws : List Word} (short : ws.length ≤ 8)
    (each : ∀ k < ws.length, s.StackFaults (wordAt a k) ∨ ReachesStorage s .write .word (wordAt a k)) :
    ∃ faulted m, s.stackWords s.privileged a ws = .ok (faulted, { s with mem := m }) ∧
      ((∃ k < ws.length, s.StackFaults (wordAt a k)) → faulted = true) ∧
      (∀ k v, ws[k]? = some v → ReachesStorage s .write .word (wordAt a k) → HoldsWord s { s with mem := m } (wordAt a k) v) ∧
      SameOutside s { s with mem := m } a ws.length := by
  induction ws generalizing s a with
  | nil =>
    refine ⟨false, s.mem, rfl, ?_, fun k v hv => ?_, fun _ _ => rfl⟩
    · rintro ⟨k, hk, -⟩
      exact absurd hk (Nat.not_lt_zero k)
    · cases hv
  | cons v rest ih =>
    have length : (v :: rest).length = rest.length + 1 := rfl
    rw [length] at short each ⊢
    have first := each 0 (Nat.succ_pos _)
    have later (k : Nat) (hk : k < rest.length) : s.StackFaults (wordAt (a + 4) k) ∨ ReachesStorage s .write .word (wordAt (a + 4) k) := by
      rw [wordAt_succ]
      exact each (k + 1) (Nat.succ_lt_succ hk)
    rw [wordAt_zero] at first
    obtain fault | storage := first
    · obtain ⟨faulted, m, stacked, -, holds, same⟩ := ih (s := s) (a := a + 4) (by omega) later
      refine ⟨true, m, ?_, fun _ => rfl, fun k w hw reaches => ?_, sameOutside_cons (u := s) (fun _ _ => rfl) same⟩
      · rw [State.stackWords_fault fault, stacked, Acc.bind_ok]
      · cases k with
        | zero => exact absurd fault (not_stackFaults_of_storage (by rwa [wordAt_zero] at reaches))
        | succ k => rw [← wordAt_succ] at reaches ⊢; exact holds k w hw reaches
    · obtain ⟨m', stored, holdsFirst, sameFirst⟩ := State.stackWords_storage storage v rest
      obtain ⟨faulted, m, stacked, reported, holds, same⟩ := ih (s := { s with mem := m' }) (a := a + 4) (by omega) fun k hk => by
        rw [State.StackFaults, State.checkAccess_withMem, reachesStorage_withMem]
        exact later k hk
      refine ⟨faulted, m, stored.trans stacked, ?_, fun k w hw reaches => ?_, sameOutside_cons sameFirst same⟩
      · rintro ⟨k, hk, fault⟩
        cases k with
        | zero => exact absurd (by rwa [wordAt_zero] at fault) (not_stackFaults_of_storage storage)
        | succ k =>
          refine reported ⟨k, Nat.lt_of_succ_lt_succ hk, ?_⟩
          rw [State.StackFaults, State.checkAccess_withMem, wordAt_succ]
          exact fault
      · cases k with
        | zero =>
          obtain rfl := Option.some.inj hw
          rw [wordAt_zero]
          exact holdsWord_of_sameOutside (by omega) holdsFirst same
        | succ k =>
          rw [← wordAt_succ] at reaches ⊢
          exact holds k w hw ((reachesStorage_withMem m').mpr reaches)
/-- The frame of an exception, each store of which faults or is done in RAM: the words that were done, as numbers. -/
theorem State.stackFrame_of_faults {s : State} (faults : FrameFaults s) (ra : Word) :
    ∃ m, s.stackWords s.privileged (framePtr s.sp) (s.frameWords ra) = .ok (true, { s with mem := m }) ∧
      (∀ k < 8, ¬Denied s .write .word (wordAt (framePtr s.sp) k) →
        bytesValue { s with mem := m } (wordAt (framePtr s.sp) k) 4 = ((s.frameWords ra).map BitVec.toNat).getD k 0) ∧
      SameOutside s { s with mem := m } (framePtr s.sp) 8 := by
  obtain ⟨each, k, hk, denied⟩ := faults
  obtain ⟨faulted, m, stacked, reported, holds, same⟩ := State.stackWords_of_each (s := s) (a := framePtr s.sp) (ws := s.frameWords ra)
    (Nat.le_refl 8) fun k hk => (each k hk).imp State.checkAccess_of_denied And.left
  rw [reported ⟨k, hk, State.checkAccess_of_denied denied⟩] at stacked
  refine ⟨m, stacked, fun k hk done => ?_, same⟩
  obtain ⟨storage, ram⟩ := (each k hk).resolve_left done
  have word : (s.frameWords ra)[k]? = some (s.frameWords ra)[k] := List.getElem?_eq_getElem hk
  rw [bytesValue_of_holdsWord (holds k _ word storage) ram, List.getD_eq_getElem?_getD, List.getElem?_map, word]
  rfl

/-! ### Lockup and tail-chaining -/

section
variable {s : State}

/-- Lockup is entered at priority -1 or -2 (60_exceptions.md R396). -/
theorem State.enterLockup_eq_lockedUp (locks : s.executionPriority ≤ -1) : s.enterLockup = lockedUp s := by
  have level : (if s.executionPriority ≤ -2 then LockupLevel.nmi else .hardFault) =
      if s.executionPriority = -1 then LockupLevel.hardFault else .nmi := by
    by_cases first : s.executionPriority = -1
    · rw [if_neg (by omega), if_pos first]
    · rw [if_pos (by omega), if_neg first]
  rw [State.enterLockup, level]
  rfl

/-- Entering a handler clears the pending bit of its exception, sets the event register and wakes the processor, whatever they were. -/
theorem State.enterHandlerMode_setPending (s : State) (e : Exc) (lr : Word) :
    (s.setPending e).enterHandlerMode e lr = s.enterHandlerMode e lr := by
  have pending : (s.nvic.pending ||| e.mask) &&& ~~~e.mask = s.nvic.pending &&& ~~~e.mask := by
    rw [BitVec.and_or_distrib_right, BitVec.and_not_self]
    exact BitVec.or_zero
  have changes := s.setPendingMask_frame e.mask
  rw [State.setPendingMask_nvic] at changes
  rw [State.setPending, changes]
  simp only [State.enterHandlerMode, State.activate, State.withPending, State.withActive, pending]

/-- HardFault that becomes pending and is entered by tail-chaining, its vector in storage. -/
theorem State.tailChain_of_readable (readable : VectorReadable s 3) (lr : Word) :
    (s.setPending .hardFault).enterHardFault lr =
      .next ((s.enterHandlerMode .hardFault lr).jumpVector (s.mem.load .word (s.vectorAddr .hardFault))) := by
  have readable' : VectorReadable (s.setPending .hardFault) Exc.hardFault.num := (vectorReadable_setPending s .hardFault 3).mpr readable
  have address : (s.setPending .hardFault).vectorAddr .hardFault = s.vectorAddr .hardFault := by simp [State.vectorAddr]
  rw [State.enterHardFault, State.vectorRead_of_readable readable']
  dsimp only
  rw [State.enterHandlerMode_setPending, address, State.setPending, State.setPendingMask_mem]

/-! ### Taking an exception -/

theorem State.vectorRead_of_denied {e : Exc} (denied : VectorDenied s e.num) : s.vectorRead (s.vectorAddr e) = .fault .bus := by
  obtain ⟨out, busError⟩ := denied
  have outside : inPpb (s.vectorAddr e) = false := (inPpb_eq_false_iff _).mpr out
  have fault : s.checkBus true .read .word (s.vectorAddr e) = .fault .bus := State.checkBus_busError busError
  rw [State.vectorRead, outside, if_neg Bool.false_ne_true, fault, Acc.bind_fault]

/-- The state of exception entry between stacking and the handler: memory holds the frame `m`, and the current stack pointer is lowered
(60_exceptions.md R371, R372). -/
def State.lowered (s : State) (m : Memory) : State :=
  { s with
    mem := m
    msp := if s.ipsr = 0 ∧ s.spsel = true then s.msp else framePtr s.sp
    psp := if s.ipsr = 0 ∧ s.spsel = true then framePtr s.sp else s.psp }

theorem State.setSp_eq_lowered (s : State) (m : Memory) : State.setSp { s with mem := m } (framePtr s.sp) = s.lowered m :=
  State.setSp_of_aligned (s := s) (u := { s with mem := m }) rfl rfl rfl rfl (framePtr_aligned s.sp)

theorem State.lowered_executionPriority (s : State) (m : Memory) : (s.lowered m).executionPriority = s.executionPriority :=
  State.executionPriority_congr rfl rfl rfl

/-- Exception entry from the lowered stack, the words `written` of the frame in memory. -/
theorem enteredWith_of_lowered {written : Nat → Prop} {m : Memory} {e : Exc} {ra : Word}
    (words : ∀ k < 8, written k →
      bytesValue { s with mem := m } (wordAt (framePtr s.sp) k) 4 = ((s.frameWords ra).map BitVec.toNat).getD k 0)
    (others : SameOutside s { s with mem := m } (framePtr s.sp) 8) :
    EnteredWith written s (((s.lowered m).enterHandlerMode e s.excReturn).jumpVector (m.load .word (s.vectorAddr e))) e ra := by
  obtain ⟨pc, thumb⟩ := ((s.lowered m).enterHandlerMode e s.excReturn).jumpVector_load (s.vectorAddr e)
  rw [s.toNat_frameWords] at words
  exact ⟨words, others, rfl, rfl, s.excReturn_eq, e.toNat_ofNat_num, rfl, pc, thumb, (s.lowered m).activate_isPending e,
    (s.lowered m).activate_isActive e, rfl, rfl, rfl, rfl⟩

theorem State.takeException_of_frameFaults {e : Exc} {ra : Word} {m : Memory}
    (stacked : s.stackWords s.privileged (framePtr s.sp) (s.frameWords ra) = .ok (true, { s with mem := m })) :
    s.takeException e ra = (s.lowered m).entryFault s.executionPriority s.excReturn := by
  rw [State.takeException, stacked]
  dsimp only
  rw [if_pos rfl, State.setSp_eq_lowered]

theorem State.takeException_of_vectorDenied {e : Exc} {ra : Word} {m : Memory}
    (stacked : s.stackWords s.privileged (framePtr s.sp) (s.frameWords ra) = .ok (false, { s with mem := m }))
    (denied : VectorDenied s e.num) : s.takeException e ra = (s.lowered m).entryFault s.executionPriority s.excReturn := by
  have denied' : VectorDenied (s.lowered m) e.num := denied
  rw [State.takeException, stacked]
  dsimp only
  rw [if_neg Bool.false_ne_true, State.setSp_eq_lowered, State.enterHandler, State.vectorRead_of_denied denied']

/-- A fault of exception entry, in stacking or in the vector fetch: the frame is stacked but for the words whose store faults, and the
fault of the entry is handled on the lowered stack. -/
theorem State.takeException_fault {e : Exc} (faults : FrameFaults s ∨ (FrameWritable s ∧ VectorDenied s e.num)) (ra : Word) :
    ∃ m, s.takeException e ra = (s.lowered m).entryFault s.executionPriority s.excReturn ∧
      (∀ k < 8, ¬Denied s .write .word (wordAt (framePtr s.sp) k) →
        bytesValue { s with mem := m } (wordAt (framePtr s.sp) k) 4 = ((s.frameWords ra).map BitVec.toNat).getD k 0) ∧
      SameOutside s { s with mem := m } (framePtr s.sp) 8 := by
  obtain faults | ⟨writable, denied⟩ := faults
  · obtain ⟨m, stacked, words, others⟩ := State.stackFrame_of_faults faults ra
    exact ⟨m, State.takeException_of_frameFaults stacked, words, others⟩
  · obtain ⟨m, stacked, words, others⟩ := State.stackFrame_of_writable writable ra
    exact ⟨m, State.takeException_of_vectorDenied stacked denied, fun k hk _ => words k hk, others⟩

end

/-- Settles O37: the execution priority decides between HardFault and lockup. -/
theorem raiseHardFault : Obligations.RaiseHardFault := by
  intro s ra
  refine ⟨fun sufficient nothing writable readable => State.raiseHardFault_entered sufficient nothing writable readable ra,
    fun locks => ?locked⟩
  rw [State.raiseHardFault, if_pos locks, State.enterLockup_eq_lockedUp locks]
  rfl

/-- Settles O38: the frame and the vector decide whether the entry faults, and then the execution priority whether it is lockup. -/
theorem exceptionEntry : Obligations.ExceptionEntry := by
  intro s e ra fp lowered
  refine ⟨fun writable readable => State.takeException_entered writable readable ra, fun faults => ?_⟩
  obtain ⟨m, run, words, others⟩ := State.takeException_fault faults ra
  refine ⟨fun sufficient readable => ⟨_, ?tailChained, enteredWith_of_lowered words others⟩,
    fun locks => ⟨lockedUp (s.lowered m), ?locked, others, ?changes⟩⟩
  case tailChained =>
    have readable' : VectorReadable (s.lowered m) 3 := readable
    rw [run, State.entryFault, if_neg (Int.not_le.mpr sufficient), State.tailChain_of_readable readable']
    rfl
  case locked =>
    have locks' : (s.lowered m).executionPriority ≤ -1 := by rwa [s.lowered_executionPriority m]
    rw [run, State.entryFault, if_pos locks, State.enterLockup_eq_lockedUp locks']
  case changes => rfl

end Sys2Proof.Machine
end

