-- ==== Sys2Proof/Proofs/ExceptionReturn.lean ====
section
/-! PROOF. Exception return: the frame that EXC_RETURN names, read or faulting, the refusals, and the return to the program that an entry
interrupted (60_exceptions.md R373, R387, R388, R393, R413; 93_implementation_defined.md U2, U6, U18). -/

namespace Sys2Proof.Machine

open Sys2Proof.Safety

/-! ### EXC_RETURN and the nesting -/

/-- The three legal EXC_RETURN values and what they ask for (60_exceptions.md R387). -/
theorem excReturnTarget_of_legal {x : Word} (legal : (x = 0xFFFFFFF9#32 ∨ x = 0xFFFFFFFD#32) ∨ x = 0xFFFFFFF1#32) :
    ∃ toThread toPsp, excReturnTarget x = some (toThread, toPsp) ∧ (toThread = true ↔ x = 0xFFFFFFF9#32 ∨ x = 0xFFFFFFFD#32) ∧
      (toPsp = true ↔ x = 0xFFFFFFFD#32) ∧ (toThread = false ↔ x = 0xFFFFFFF1#32) := by
  obtain (rfl | rfl) | rfl := legal
  · exact ⟨true, false, rfl, by decide, by decide, by decide⟩
  · exact ⟨true, true, rfl, by decide, by decide, by decide⟩
  · exact ⟨false, false, rfl, by decide, by decide, by decide⟩

theorem excReturnTarget_of_reserved {x : Word} (h1 : x ≠ 0xFFFFFFF1#32) (h9 : x ≠ 0xFFFFFFF9#32) (hD : x ≠ 0xFFFFFFFD#32) :
    excReturnTarget x = none := by
  rw [excReturnTarget, if_neg h1, if_neg h9, if_neg hD]

section
variable {s : State} {x : Word} {e : Exc} {toThread toPsp : Bool}

theorem State.exceptionReturn_reserved (target : excReturnTarget x = none) : s.exceptionReturn x = .refused .excReturnValue := by
  rw [State.exceptionReturn, target]

/-- The nesting that a return needs: no other active exception for Thread mode, another one for Handler mode (60_exceptions.md R388). -/
def Nested (s : State) (toThread : Bool) : Prop := if toThread then s.activeCount = 1 else 1 < s.activeCount

theorem nested_iff : Nested s toThread ↔
    ¬(toThread && s.activeCount != 1 || !toThread && decide (s.activeCount ≤ 1)) = true := by
  cases toThread <;> simp [Nested]

theorem State.exceptionReturn_notNested (target : excReturnTarget x = some (toThread, toPsp)) (number : s.ipsr.toNat = e.num)
    (wrong : ¬Nested s toThread) : s.exceptionReturn x = .refused .excReturnNesting := by
  rw [nested_iff, Decidable.not_not] at wrong
  rw [State.exceptionReturn, target, number, Exc.ofNum?_num]
  exact if_pos wrong

theorem State.exceptionReturn_notActive (target : excReturnTarget x = some (toThread, toPsp)) (number : s.ipsr.toNat = e.num)
    (nested : Nested s toThread) (inactive : s.isActive e = false) : s.exceptionReturn x = .refused .excReturnNotActive := by
  rw [State.exceptionReturn, target, number, Exc.ofNum?_num]
  dsimp only
  rw [if_neg (nested_iff.mp nested), inactive]
  rfl

/-- A return that is legal starts to unstack, its exception no longer active. -/
theorem State.exceptionReturn_unstack (target : excReturnTarget x = some (toThread, toPsp)) (number : s.ipsr.toNat = e.num)
    (nested : Nested s toThread) (active : s.isActive e = true) : s.exceptionReturn x = (s.clearActive e).unstack x toThread toPsp := by
  rw [State.exceptionReturn, target, number, Exc.ofNum?_num]
  dsimp only
  rw [if_neg (nested_iff.mp nested), active]
  rfl

theorem State.clearActive_isActive (s : State) (e e' : Exc) : (s.clearActive e).isActive e' = (s.isActive e' && decide (e' ≠ e)) := by
  rw [State.isActive, State.clearActive_nvic, BitVec.getLsbD_and, BitVec.getLsbD_not, decide_eq_true e'.num_lt, Bool.true_and,
    Exc.mask_getLsbD_num, ← decide_not]
  rfl

end

/-! ### The frame -/

section
variable {s : State} {x fp : Word} {priv toThread toPsp : Bool}

/-- A word of the frame can be read from storage (20_memory.md R140). -/
def ReadableAs (s : State) (priv : Bool) (a : Word) : Prop :=
  a.toNat % 4 = 0 ∧ OutsidePpb a ∧ s.mpuCheck a .read priv = .ok () ∧
    (s.kindAt priv .read .word a = .ram ∨ s.kindAt priv .read .word a = .rom)

theorem State.checkAccess_of_readable {a : Word} (readable : ReadableAs s priv a) : s.checkAccess priv .read .word a = .ok () := by
  obtain ⟨aligned, out, allowed, storage⟩ := readable
  exact State.checkAccess_of_reaches aligned out allowed (by rcases storage with h | h <;> simp [h])

theorem not_device_of_readable {a : Word} (readable : ReadableAs s priv a) : s.kindAt priv .read .word a ≠ .device := by
  obtain ⟨-, -, -, storage⟩ := readable
  rcases storage with h | h <;> simp [h]

/-- The eight words of memory from an address on. -/
def State.frameAt (s : State) (fp : Word) : List Word := (List.range 8).map fun k => s.mem.load .word (wordAt fp k)

theorem State.frameAt_getD (s : State) (fp : Word) {k : Nat} (hk : k < 8) :
    (s.frameAt fp).getD k 0 = s.mem.load .word (wordAt fp k) := by
  rw [State.frameAt, List.getD_eq_getElem?_getD, List.getElem?_map, List.getElem?_range hk]
  rfl

theorem State.toNat_frameAt (s : State) (fp : Word) {k : Nat} (hk : k < 8) :
    ((s.frameAt fp).getD k 0).toNat = bytesValue s (wordAt fp k) 4 := by
  rw [s.frameAt_getD fp hk, toNat_load_word]

/-- The stack pointer of the stack that a return names. -/
def State.returnFrame (s : State) (toPsp : Bool) : Word := if toPsp then s.psp else s.msp

theorem State.unstack_of_readable (readable : ∀ k < 8, ReadableAs s (s.unstackPriv toThread) (wordAt (s.returnFrame toPsp) k)) (x : Word) :
    s.unstack x toThread toPsp = s.popFrame toThread toPsp (s.returnFrame toPsp) := by
  have checked := State.checkWords_of_checks fun k hk => State.checkAccess_of_readable (readable k hk)
  unfold State.returnFrame at checked ⊢
  rw [State.unstack, checked]

theorem State.readWords_of_readable (readable : ∀ k < 8, ReadableAs s priv (wordAt fp k)) : s.readWords priv fp 8 = (s.frameAt fp, s) :=
  State.readWords_outside (fun k hk => (inPpb_eq_false_iff _).mpr (readable k hk).2.1) fun k hk => not_device_of_readable (readable k hk)

/-- The number `n` of an IPSR in the frame fits the mode returned to (60_exceptions.md R388; U6). -/
def IpsrFits (toThread : Bool) (n : Nat) : Prop := (toThread = true → n = 0) ∧ (toThread = false → ∃ e : Exc, n = e.num)

theorem returnIpsrOk_iff (toThread : Bool) (psr : Word) : returnIpsrOk toThread psr = true ↔ IpsrFits toThread (psr.toNat % 64) := by
  cases toThread with
  | true => simp [returnIpsrOk, IpsrFits]
  | false =>
    have named : (Exc.ofNum? (psr.toNat % 64)).isSome = true ↔ ∃ e : Exc, psr.toNat % 64 = e.num := by
      rw [Option.isSome_iff_exists]
      exact exists_congr fun e => ⟨fun h => (Exc.num_of_ofNum? h).symm, fun h => by rw [h, Exc.ofNum?_num]⟩
    simpa [returnIpsrOk, IpsrFits] using named

theorem getLsbD_zero_eq_decide (v : Word) : v.getLsbD 0 = decide (v.toNat % 2 = 1) := by
  rw [← bitAt_eq_getLsbD, bitAt, Nat.pow_zero, Nat.div_one]

/-- The checks of a frame that was read: its return address, then its IPSR. -/
theorem State.popFrame_of_readable (readable : ∀ k < 8, ReadableAs s (s.unstackPriv toThread) (wordAt fp k)) (toPsp : Bool) :
    s.popFrame toThread toPsp fp =
      if bytesValue s (wordAt fp 6) 4 % 2 = 1 then .refused .excReturnOddAddress
      else if returnIpsrOk toThread ((s.frameAt fp).getD 7 0) = true then
        .next ((s.unstacked toPsp fp (s.frameAt fp)).afterReturn toThread)
      else .refused .excReturnIpsr := by
  rw [State.popFrame, State.readWords_of_readable readable]
  dsimp only
  rw [getLsbD_zero_eq_decide, s.toNat_frameAt fp (by decide)]
  simp only [decide_eq_true_eq, Bool.not_eq_true', ← Bool.not_eq_true, ite_not]

theorem State.popFrame_odd (readable : ∀ k < 8, ReadableAs s (s.unstackPriv toThread) (wordAt fp k)) (toPsp : Bool)
    (odd : bytesValue s (wordAt fp 6) 4 % 2 = 1) : s.popFrame toThread toPsp fp = .refused .excReturnOddAddress := by
  rw [State.popFrame_of_readable readable, if_pos odd]

theorem State.popFrame_unfit (readable : ∀ k < 8, ReadableAs s (s.unstackPriv toThread) (wordAt fp k)) (toPsp : Bool)
    (even : bytesValue s (wordAt fp 6) 4 % 2 = 0) (unfit : ¬IpsrFits toThread (bytesValue s (wordAt fp 7) 4 % 64)) :
    s.popFrame toThread toPsp fp = .refused .excReturnIpsr := by
  rw [← s.toNat_frameAt fp (by decide), ← returnIpsrOk_iff] at unfit
  rw [State.popFrame_of_readable readable, if_neg (by omega), if_neg unfit]

theorem State.popFrame_done (readable : ∀ k < 8, ReadableAs s (s.unstackPriv toThread) (wordAt fp k)) (toPsp : Bool)
    (even : bytesValue s (wordAt fp 6) 4 % 2 = 0) (fits : IpsrFits toThread (bytesValue s (wordAt fp 7) 4 % 64)) :
    s.popFrame toThread toPsp fp = .next ((s.unstacked toPsp fp (s.frameAt fp)).afterReturn toThread) := by
  rw [← s.toNat_frameAt fp (by decide), ← returnIpsrOk_iff] at fits
  rw [State.popFrame_of_readable readable, if_neg (by omega), if_pos fits]

/-! ### Faults of the frame's reads -/

theorem State.checkWords_of_each {kind : AccessKind} {a : Word} {n : Nat}
    (each : ∀ k < n, (∃ c, s.checkAccess priv kind .word (wordAt a k) = .fault c) ∨ s.checkAccess priv kind .word (wordAt a k) = .ok ())
    (faults : ∃ k < n, ∃ c, s.checkAccess priv kind .word (wordAt a k) = .fault c) : ∃ c, s.checkWords priv kind a n = .fault c := by
  induction n generalizing a with
  | zero =>
    obtain ⟨k, hk, -⟩ := faults
    exact absurd hk (Nat.not_lt_zero k)
  | succ n ih =>
    have first := each 0 (Nat.succ_pos n)
    rw [wordAt_zero] at first
    obtain ⟨c, fault⟩ | passes := first
    · exact ⟨c, by rw [State.checkWords, fault, Acc.bind_fault]⟩
    · obtain ⟨k, hk, fault⟩ := faults
      obtain ⟨k, rfl⟩ : ∃ j, k = j + 1 := by
        refine Nat.exists_eq_succ_of_ne_zero fun zero => ?_
        obtain ⟨c, fault⟩ := fault
        rw [zero, wordAt_zero, passes] at fault
        cases fault
      rw [State.checkWords, passes, Acc.bind_ok]
      exact ih (fun j hj => by rw [wordAt_succ]; exact each (j + 1) (Nat.succ_lt_succ hj))
        ⟨k, Nat.lt_of_succ_lt_succ hk, by rwa [wordAt_succ]⟩

theorem State.unstack_of_denied
    (each : ∀ k < 8, DeniedAs s (s.unstackPriv toThread) .read .word (wordAt (s.returnFrame toPsp) k) ∨
      ReadableAs s (s.unstackPriv toThread) (wordAt (s.returnFrame toPsp) k))
    (faults : ∃ k < 8, DeniedAs s (s.unstackPriv toThread) .read .word (wordAt (s.returnFrame toPsp) k)) (x : Word) :
    s.unstack x toThread toPsp = s.unstackFault x := by
  obtain ⟨k, hk, denied⟩ := faults
  obtain ⟨c, fault⟩ := State.checkWords_of_each (fun k hk => (each k hk).imp State.checkAccess_of_denied State.checkAccess_of_readable)
    ⟨k, hk, State.checkAccess_of_denied denied⟩
  unfold State.returnFrame at fault
  rw [State.unstack, fault]

theorem State.unstackFault_locks (locks : s.executionPriority ≤ -1) (x : Word) : s.unstackFault x = .next (lockedUp s) := by
  rw [State.unstackFault, if_pos locks, State.enterLockup_eq_lockedUp locks]

theorem State.unstackFault_tailChains (sufficient : -1 < s.executionPriority) (readable : VectorReadable s 3) (x : Word) :
    ∃ t, s.unstackFault x = .next t ∧ TailChained s t x := by
  refine ⟨_, by rw [State.unstackFault, if_neg (Int.not_le.mpr sufficient), State.tailChain_of_readable readable], ?_⟩
  obtain ⟨pc, thumb⟩ := (s.enterHandlerMode .hardFault x).jumpVector_load (s.vectorAddr .hardFault)
  exact ⟨pc, thumb, s.activate_isPending .hardFault, s.activate_isActive .hardFault, rfl⟩

/-! ### What a return restores -/

/-- The stack pointer after the frame, with the alignment bit of the stacked PSR (60_exceptions.md R373). -/
def poppedSp (fp psr : Word) : Word := (fp + 0x20) ||| BitVec.ofNat 32 (4 * (psr.toNat / 512 % 2))

theorem alignSp_poppedSp (aligned : fp.toNat % 4 = 0) (psr : Word) :
    alignSp ((fp + 0x20) ||| ((BitVec.ofBool (psr.getLsbD 9)).setWidth 32 <<< 2)) = poppedSp fp psr := by
  have bit : ((BitVec.ofBool (psr.getLsbD 9)).setWidth 32 <<< 2 : Word) = BitVec.ofNat 32 (4 * (psr.toNat / 512 % 2)) := by
    rw [← bitAt_eq_getLsbD, bitAt]
    rcases Nat.mod_two_eq_zero_or_one (psr.toNat / 512) with h | h <;> simp [h]
  have low (v : Word) : v.toNat % 4 = 0 ↔ v &&& 3#32 = 0 := (and_lowMask_eq_zero_iff 2 rfl).symm
  rw [bit]
  refine alignSp_of_aligned ((low _).mpr ?_)
  rw [BitVec.and_or_distrib_right, (low _).mp (by rw [BitVec.toNat_add]; simp; omega), (low _).mp (by simp)]
  rfl

theorem State.unstacked_eq (aligned : fp.toNat % 4 = 0) (toPsp : Bool) (w : List Word) :
    s.unstacked toPsp fp w = { s with
      regs := (s.unstacked toPsp fp w).regs
      msp := if toPsp then s.msp else poppedSp fp (w.getD 7 0)
      psp := if toPsp then poppedSp fp (w.getD 7 0) else s.psp
      lr := w.getD 5 0
      spsel := toPsp
      apsr := Apsr.ofWord (w.getD 7 0)
      epsrT := (w.getD 7 0).getLsbD 24
      ipsr := (w.getD 7 0).setWidth 6
      pc := w.getD 6 0 &&& 0xFFFFFFFE#32
      eventReg := true
      prefetched := none } := by
  rw [← alignSp_poppedSp aligned]
  cases toPsp <;> rfl

theorem State.unstacked_gpr (s : State) (toPsp : Bool) (fp : Word) (w : List Word) (k : Fin 13) :
    (s.unstacked toPsp fp w).gpr k =
      if k.val < 4 then w.getD k.val 0 else if k.val = 12 then w.getD 4 0 else s.gpr k := by
  have registers : (s.unstacked toPsp fp w).gpr k =
      (((((s.setGpr 0 (w.getD 0 0)).setGpr 1 (w.getD 1 0)).setGpr 2 (w.getD 2 0)).setGpr 3 (w.getD 3 0)).setGpr 12 (w.getD 4 0)).gpr k := by
    cases toPsp <;> rfl
  rw [registers]
  simp only [State.setGpr_gpr]
  match k with
  | 0 | 1 | 2 | 3 | 4 | 5 | 6 | 7 | 8 | 9 | 10 | 11 | 12 => rfl

end

section
variable {s : State} {x : Word} {e : Exc} {toThread toPsp : Bool}

/-- The state after a return from the exception `e` whose frame is at `fp`. -/
def State.returned (s : State) (e : Exc) (toThread toPsp : Bool) (fp : Word) : State :=
  ((s.clearActive e).unstacked toPsp fp (s.frameAt fp)).afterReturn toThread

theorem State.returned_gpr (s : State) (e : Exc) (toThread toPsp : Bool) (fp : Word) (k : Fin 13) :
    (s.returned e toThread toPsp fp).gpr k =
      if k.val < 4 then (s.frameAt fp).getD k.val 0 else if k.val = 12 then (s.frameAt fp).getD 4 0 else s.gpr k := by
  have registers : (s.returned e toThread toPsp fp).gpr k = ((s.clearActive e).unstacked toPsp fp (s.frameAt fp)).gpr k := by
    rw [State.gpr, State.returned, State.afterReturn_regs]
    rfl
  rw [registers, State.unstacked_gpr]
  rfl

theorem State.afterReturn_eq (s : State) (toThread : Bool) :
    s.afterReturn toThread = { s with sleep := if toThread && s.sleepOnExit then .onExit else s.sleep } := by
  unfold State.afterReturn
  split <;> rfl

/-- What a return restores, but for the values of the registers. -/
theorem State.returned_eq {fp : Word} (aligned : fp.toNat % 4 = 0) (e : Exc) (toThread toPsp : Bool) :
    s.returned e toThread toPsp fp = { s with
      regs := ((s.clearActive e).unstacked toPsp fp (s.frameAt fp)).regs
      msp := if toPsp then s.msp else poppedSp fp ((s.frameAt fp).getD 7 0)
      psp := if toPsp then poppedSp fp ((s.frameAt fp).getD 7 0) else s.psp
      lr := (s.frameAt fp).getD 5 0
      spsel := toPsp
      apsr := Apsr.ofWord ((s.frameAt fp).getD 7 0)
      epsrT := ((s.frameAt fp).getD 7 0).getLsbD 24
      ipsr := ((s.frameAt fp).getD 7 0).setWidth 6
      pc := (s.frameAt fp).getD 6 0 &&& 0xFFFFFFFE#32
      eventReg := true
      sleep := if toThread && s.sleepOnExit then .onExit else s.sleep
      prefetched := none
      nvic := { s.nvic with active := s.nvic.active &&& ~~~e.mask } } := by
  rw [State.returned, State.unstacked_eq aligned, State.afterReturn_eq]
  rfl

theorem apsr_ofWord_eq (psr : Word) :
    Apsr.ofWord psr = { n := decide (psr.toNat / 2147483648 = 1), z := decide (psr.toNat / 1073741824 % 2 = 1)
                        c := decide (psr.toNat / 536870912 % 2 = 1), v := decide (psr.toNat / 268435456 % 2 = 1) } := by
  have top : psr.toNat / 2147483648 % 2 = psr.toNat / 2147483648 := by omega
  rw [Apsr.ofWord_eq, ← top]
  rfl

/-- The stack pointers after a return: the one of the frame moves past it. -/
theorem State.returned_stacks {fp : Word} {c : Prop} [Decidable c] (aligned : fp.toNat % 4 = 0) (isPsp : toPsp = true ↔ c) (e : Exc)
    (toThread : Bool) :
    let t := s.returned e toThread toPsp fp
    let popped := (fp + 0x20) ||| BitVec.ofNat 32 (4 * (bytesValue s (wordAt fp 7) 4 / 512 % 2))
    if c then t.msp = s.msp ∧ t.psp = popped else t.psp = s.psp ∧ t.msp = popped := by
  intro t popped
  have value : poppedSp fp ((s.frameAt fp).getD 7 0) = popped := by rw [poppedSp, s.toNat_frameAt fp (by decide)]
  have eq : t = _ := State.returned_eq aligned e toThread toPsp
  have msp := congrArg State.msp eq
  have psp := congrArg State.psp eq
  dsimp only at msp psp
  rw [msp, psp, value]
  by_cases onPsp : c
  · rw [if_pos onPsp, isPsp.mpr onPsp]
    exact ⟨rfl, rfl⟩
  · rw [if_neg onPsp, Bool.eq_false_iff.mpr (mt isPsp.mp onPsp)]
    exact ⟨rfl, rfl⟩

theorem State.returned_sleep {fp : Word} {c : Prop} (aligned : fp.toNat % 4 = 0) (isThread : toThread = true ↔ c) (e : Exc)
    (toPsp : Bool) :
    (c ∧ s.scb.scr.getLsbD 1 = true → (s.returned e toThread toPsp fp).sleep = .onExit) ∧
      (¬(c ∧ s.scb.scr.getLsbD 1 = true) → (s.returned e toThread toPsp fp).sleep = s.sleep) := by
  have sleep := congrArg State.sleep (State.returned_eq (s := s) aligned e toThread toPsp)
  have condition : (toThread && s.sleepOnExit) = true ↔ c ∧ s.scb.scr.getLsbD 1 = true := by
    rw [Bool.and_eq_true, isThread]
    rfl
  exact ⟨fun exits => sleep.trans (if_pos (condition.mpr exits)), fun stays => sleep.trans (if_neg (mt condition.mp stays))⟩

/-- A return with the nesting that its EXC_RETURN value needs. -/
theorem nested_of_legal (isThread : toThread = true ↔ x = 0xFFFFFFF9#32 ∨ x = 0xFFFFFFFD#32) (isHandler : toThread = false ↔ x = 0xFFFFFFF1#32)
    (legal : ((x = 0xFFFFFFF9#32 ∨ x = 0xFFFFFFFD#32) ∧ s.activeCount = 1) ∨ (x = 0xFFFFFFF1#32 ∧ 1 < s.activeCount)) :
    Nested s toThread := by
  unfold Nested
  obtain ⟨thread, count⟩ | ⟨handler, count⟩ := legal
  · rwa [if_pos (isThread.mpr thread)]
  · rwa [isHandler.mpr handler, if_neg Bool.false_ne_true]

/-- The privilege of the unstacking loads as the statements write it (60_exceptions.md R388). -/
theorem State.unstackPriv_eq (isHandler : toThread = false ↔ x = 0xFFFFFFF1#32) (s : State) :
    s.unstackPriv toThread = (decide (x = 0xFFFFFFF1#32) || !s.nPriv) := by
  have test : decide (x = 0xFFFFFFF1#32) = !toThread := by rw [Bool.eq_iff_iff, decide_eq_true_iff, ← isHandler, Bool.not_eq_true']
  rw [State.unstackPriv, test]

theorem State.returnFrame_eq (isPsp : toPsp = true ↔ x = 0xFFFFFFFD#32) (s : State) :
    s.returnFrame toPsp = if x = 0xFFFFFFFD#32 then s.psp else s.msp := ite_congr (propext isPsp) (fun _ => rfl) fun _ => rfl

/-- Settles O39: a legal return whose frame can be read restores it, and one whose frame cannot is a fault at the remaining priority. -/
theorem exceptionReturn : Obligations.ExceptionReturn := by
  intro s e x fp w toThread s1 priv readable legal number active
  obtain ⟨thread, psp, target, isThread, isPsp, isHandler⟩ := excReturnTarget_of_legal (legal.imp And.left And.left)
  have run := State.exceptionReturn_unstack target number (nested_of_legal isThread isHandler legal) active
  have frame : s1.returnFrame psp = fp := State.returnFrame_eq isPsp s1
  have privilege : s1.unstackPriv thread = priv := State.unstackPriv_eq isHandler s1
  refine ⟨fun canRead even threadIpsr handlerIpsr => ?returned, fun each faults => ⟨fun locks => ?locked, fun sufficient vector => ?tailChained⟩⟩
  case returned =>
    have canRead' : ∀ k < 8, ReadableAs s1 (s1.unstackPriv thread) (wordAt (s1.returnFrame psp) k) := by
      rw [privilege, frame]
      exact canRead
    have fits : IpsrFits thread (w 7 % 64) :=
      ⟨fun h => threadIpsr (isThread.mp h), fun h => handlerIpsr (mt isThread.mpr (by rw [h]; exact Bool.false_ne_true))⟩
    have aligned : fp.toNat % 4 = 0 := by
      obtain ⟨first, -⟩ := canRead 0 (by decide)
      rwa [wordAt_zero] at first
    have taken : s.exceptionReturn x = .next (s.returned e thread psp fp) := by
      rw [run, State.unstack_of_readable canRead', frame]
      rw [frame] at canRead'
      exact State.popFrame_done canRead' psp even fits
    have value (k : Nat) (hk : k < 8) : ((s.frameAt fp).getD k 0).toNat = w k := s.toNat_frameAt fp hk
    have gpr := s.returned_gpr e thread psp fp
    have pointers := State.returned_stacks (s := s) aligned isPsp e thread
    obtain ⟨exits, stays⟩ := State.returned_sleep (s := s) aligned isThread e psp
    have eq := State.returned_eq (s := s) aligned e thread psp
    generalize s.returned e thread psp fp = t at taken gpr pointers exits stays eq
    have register (k : Fin 13) (j : Nat) (hj : j < 8) (h : t.gpr k = (s.frameAt fp).getD j 0) : (t.gpr k).toNat = w j := by
      rw [h, value j hj]
    refine ⟨t, taken, register 0 0 (by decide) (gpr 0), register 1 1 (by decide) (gpr 1), register 2 2 (by decide) (gpr 2),
      register 3 3 (by decide) (gpr 3), register 12 4 (by decide) (gpr 12), fun k hk hk' => ?others, ?lr, ?pc, ?ipsr, ?thumb, ?flags,
      ?spsel, pointers, fun e' => ?activeBits, congrArg State.eventReg eq, exits, stays, by rw [eq]⟩
    case others => rw [gpr, if_neg (by omega), if_neg hk']
    case lr => rw [congrArg State.lr eq, value 5 (by decide)]
    case pc =>
      rw [congrArg State.pc eq, toNat_and_highMask 1 (by decide), value 6 (by decide)]
      omega
    case ipsr => rw [congrArg State.ipsr eq, BitVec.toNat_setWidth, value 7 (by decide)]
    case thumb =>
      have thumb := (congrArg State.epsrT eq).trans (bitAt_eq_getLsbD _ 24).symm
      exact thumb.trans (congrArg (fun psr => decide (psr / 2 ^ 24 % 2 = 1)) (value 7 (by decide)))
    case flags => rw [congrArg State.apsr eq, apsr_ofWord_eq, value 7 (by decide)]
    case spsel => rw [congrArg State.spsel eq, Bool.eq_iff_iff, isPsp, decide_eq_true_iff]
    case activeBits =>
      have nvic : t.nvic = (s.clearActive e).nvic := by rw [eq]; rfl
      rw [State.isActive_congr nvic, s.clearActive_isActive]
  all_goals
    have stops : s.exceptionReturn x = s1.unstackFault x := by
      rw [← frame, ← privilege] at faults
      refine run.trans (State.unstack_of_denied ?_ faults x)
      rw [privilege, frame]
      exact each
    rw [stops]
  case locked => exact State.unstackFault_locks locks x
  case tailChained => exact State.unstackFault_tailChains sufficient vector x

end

end Sys2Proof.Machine
end

