-- ==== Sys2Proof/Proofs/EntryAndReturn.lean ====
section
/-! PROOF. The returns that are refused (93_implementation_defined.md U2, U6, U18), and the return to the program that an entry interrupted
(60_exceptions.md R371 to R376, R387, R388). -/

namespace Sys2Proof.Machine

open Sys2Proof.Safety

/-! ### Refused returns -/

/-- Settles O41: the checks of a return in their order: the value, the nesting, the active bit, then the frame. -/
theorem illegalReturnRefused : Obligations.IllegalReturnRefused := by
  intro s x toThread fp w priv
  refine ⟨fun h1 h9 hD => State.exceptionReturn_reserved (excReturnTarget_of_reserved h1 h9 hD), fun e number => ⟨?handler, ?thread, ?legal⟩⟩
  case handler =>
    intro handler count
    obtain ⟨_, _, target, -, -, isHandler⟩ := excReturnTarget_of_legal (.inr handler)
    refine State.exceptionReturn_notNested target number ?_
    rw [Nested, isHandler.mpr handler, if_neg Bool.false_ne_true]
    omega
  case thread =>
    intro thread count
    obtain ⟨_, _, target, isThread, -, -⟩ := excReturnTarget_of_legal (.inl thread)
    refine State.exceptionReturn_notNested target number ?_
    rwa [Nested, if_pos (isThread.mpr thread)]
  case legal =>
    intro legal
    obtain ⟨thread, psp, target, isThread, isPsp, isHandler⟩ := excReturnTarget_of_legal (legal.imp And.left And.left)
    have nested := nested_of_legal isThread isHandler legal
    refine ⟨State.exceptionReturn_notActive target number nested, fun active canRead => ?_⟩
    have frame : (s.clearActive e).returnFrame psp = fp := State.returnFrame_eq isPsp (s.clearActive e)
    have privilege : (s.clearActive e).unstackPriv thread = priv := State.unstackPriv_eq isHandler (s.clearActive e)
    have canRead' : ∀ k < 8, ReadableAs (s.clearActive e) ((s.clearActive e).unstackPriv thread) (wordAt fp k) := by
      rw [privilege]
      exact canRead
    have run : s.exceptionReturn x = (s.clearActive e).popFrame thread psp fp := by
      rw [State.exceptionReturn_unstack target number nested active]
      rw [← frame] at canRead' ⊢
      exact State.unstack_of_readable canRead' x
    refine ⟨fun odd => run.trans (State.popFrame_odd canRead' psp odd), fun even unfit => run.trans (State.popFrame_unfit canRead' psp even ?_)⟩
    rintro ⟨zero, named⟩
    obtain ⟨thr, nonzero⟩ | ⟨handler, unnamed⟩ := unfit
    · exact nonzero (zero (isThread.mpr thr))
    · obtain ⟨e', number'⟩ := named (Bool.eq_false_iff.mpr (mt isThread.mp handler))
      exact unnamed e' number'

/-! ### The frame that entry wrote -/

section
variable (s : State)

/-- The flags, T, the exception number and the alignment bit that the stacked PSR gives back (60_exceptions.md R371). -/
theorem State.stackedPsr_fields :
    Apsr.ofWord (s.stackedPsr (frameAlign s.sp)) = s.apsr ∧ (s.stackedPsr (frameAlign s.sp)).getLsbD 24 = s.epsrT ∧
      (s.stackedPsr (frameAlign s.sp)).setWidth 6 = s.ipsr ∧ (s.stackedPsr (frameAlign s.sp)).toNat / 512 % 2 = s.sp.toNat / 4 % 2 := by
  have number := s.toNat_stackedPsr
  have n := s.apsr.n.toNat_le
  have z := s.apsr.z.toNat_le
  have c := s.apsr.c.toNat_le
  have v := s.apsr.v.toNat_le
  have thumb := s.epsrT.toNat_le
  have ipsr := s.ipsr.isLt
  generalize s.stackedPsr (frameAlign s.sp) = psr at number
  unfold psrNumber at number
  have bits : psr.toNat / 2147483648 = s.apsr.n.toNat ∧ psr.toNat / 1073741824 % 2 = s.apsr.z.toNat ∧
      psr.toNat / 536870912 % 2 = s.apsr.c.toNat ∧ psr.toNat / 268435456 % 2 = s.apsr.v.toNat ∧
      psr.toNat / 16777216 % 2 = s.epsrT.toNat := by omega
  obtain ⟨n', z', c', v', thumb'⟩ := bits
  refine ⟨?_, ?_, BitVec.eq_of_toNat_eq ?_, by omega⟩
  · rw [apsr_ofWord_eq, n', z', c', v']
    simp only [Bool.toNat_eq_one, Bool.decide_eq_true]
  · rw [← bitAt_eq_getLsbD, bitAt]
    change decide (psr.toNat / 16777216 % 2 = 1) = _
    simp only [thumb', Bool.toNat_eq_one, Bool.decide_eq_true]
  · rw [BitVec.toNat_setWidth]
    omega

/-- The stack pointer after the frame is the one before it (60_exceptions.md R372, R373). -/
theorem poppedSp_framePtr {sp psr : Word} (aligned : sp.toNat % 4 = 0) (bit : psr.toNat / 512 % 2 = sp.toNat / 4 % 2) :
    poppedSp (framePtr sp) psr = sp := by
  have above : (framePtr sp + 0x20).toNat = sp.toNat / 8 * 8 := by
    have mask := toNat_and_highMask (x := sp - 0x20) (m := 0xFFFFFFF8#32) 3 (by decide)
    have small := sp.isLt
    rw [framePtr, BitVec.toNat_add, mask, BitVec.toNat_sub]
    simp
    omega
  have low : (BitVec.ofNat 32 (4 * (psr.toNat / 512 % 2))).toNat = 4 * (sp.toNat / 4 % 2) := by
    rw [BitVec.toNat_ofNat, bit]
    omega
  apply BitVec.eq_of_toNat_eq
  rw [poppedSp, toNat_or_of_disjoint 3 (by omega) (by omega), above, low]
  omega

end

/-! ### The state that entry leaves -/

section
variable {s : State} {e : Exc} {ra : Word} {m : Memory}

/-- The state in the handler of the exception `e`, the frame in the memory `m` (60_exceptions.md R375). -/
def State.entered (s : State) (m : Memory) (e : Exc) : State :=
  ((s.lowered m).enterHandlerMode e s.excReturn).jumpVector (m.load .word (s.vectorAddr e))

/-- Entry without a fault: the state it leaves, the words of the frame, the bytes outside it. -/
theorem State.takeException_done (writable : FrameWritable s) (readable : VectorReadable s e.num) (ra : Word) :
    ∃ m, s.takeException e ra = .next (s.entered m e) ∧
      (∀ k < 8, ((s.entered m e).frameAt (framePtr s.sp)).getD k 0 = (s.frameWords ra).getD k 0) ∧
      SameOutside s (s.entered m e) (framePtr s.sp) 8 := by
  obtain ⟨m, stacked, words, others⟩ := State.stackFrame_of_writable writable ra
  refine ⟨m, ?_, fun k hk => BitVec.eq_of_toNat_eq ?_, others⟩
  · have readable' : VectorReadable (s.lowered m) e.num := readable
    rw [State.takeException, stacked]
    dsimp only
    rw [if_neg Bool.false_ne_true, State.setSp_eq_lowered, State.enterHandler_of_readable readable']
    rfl
  · rw [State.toNat_frameAt _ _ hk]
    refine (words k hk).trans ?_
    rw [List.getD_eq_getElem?_getD, List.getElem?_map, List.getD_eq_getElem?_getD]
    cases (s.frameWords ra)[k]? <;> rfl

/-- EXC_RETURN names the mode and the stack of the interrupted program (60_exceptions.md R376, R387). -/
theorem State.excReturnTarget_excReturn (s : State) : excReturnTarget s.excReturn = some (s.threadMode, s.usesPsp) := by
  by_cases thread : s.ipsr = 0
  · cases psp : s.spsel <;> simp [State.excReturn, State.threadMode, State.usesPsp, thread, psp, excReturnTarget]
  · have value : s.excReturn = 0xFFFFFFF1#32 := s.excReturn_eq.trans (if_pos thread)
    have mode : s.threadMode = false := beq_eq_false_iff_ne.mpr thread
    change _ = some (s.threadMode, s.threadMode && s.spsel)
    rw [value, mode]
    rfl

theorem length_filter_or {α : Type} [DecidableEq α] {p : α → Bool} {a : α} (ha : p a = false) {l : List α} (nodup : l.Nodup)
    (mem : a ∈ l) : (l.filter fun x => p x || decide (x = a)).length = (l.filter p).length + 1 := by
  induction l with
  | nil => cases mem
  | cons b rest ih =>
    obtain ⟨fresh, nodup⟩ := List.nodup_cons.mp nodup
    by_cases same : b = a
    · subst same
      have others : (rest.filter fun x => p x || decide (x = b)) = rest.filter p :=
        List.filter_congr fun x hx => by rw [decide_eq_false fun h : x = b => fresh (h ▸ hx), Bool.or_false]
      simp [ha, others]
    · have later := ih nodup ((List.mem_cons.mp mem).resolve_left (Ne.symm same))
      cases pb : p b <;> simp [pb, same, later]

theorem Exc.all_nodup : Exc.all.Nodup := Exc.all_sorted.imp fun lt same => absurd (congrArg Exc.num same) (Nat.ne_of_lt lt)

theorem State.entered_activeCount (inactive : s.isActive e = false) (m : Memory) : (s.entered m e).activeCount = s.activeCount + 1 := by
  have bits : (s.entered m e).isActive = fun e' => s.isActive e' || decide (e' = e) := funext ((s.lowered m).activate_isActive e)
  rw [State.activeCount, bits]
  exact length_filter_or inactive Exc.all_nodup e.mem_all

/-- The active bits after entry and return. -/
theorem and_not_mask_of_inactive (inactive : s.isActive e = false) : (s.nvic.active ||| e.mask) &&& ~~~e.mask = s.nvic.active := by
  refine BitVec.eq_of_getLsbD_eq fun i hi => ?_
  rw [BitVec.getLsbD_and, BitVec.getLsbD_or, BitVec.getLsbD_not, decide_eq_true hi, Bool.true_and, Exc.mask_getLsbD]
  by_cases same : i = e.num
  · rw [decide_eq_true same, Bool.not_true, Bool.and_false, same]
    exact inactive.symm
  · rw [decide_eq_false same, Bool.not_false, Bool.and_true, Bool.or_false]

/-- A return with the frame that entry wrote gives the interrupted program back. -/
theorem State.entered_returned (words : ∀ k < 8, ((s.entered m e).frameAt (framePtr s.sp)).getD k 0 = (s.frameWords ra).getD k 0)
    (msp : s.msp.toNat % 4 = 0) (psp : s.psp.toNat % 4 = 0) (even : ra.toNat % 2 = 0) (inactive : s.isActive e = false)
    (stays : s.scb.scr.getLsbD 1 = false) (mode : s.ipsr = 0 ∨ s.spsel = false) :
    (s.entered m e).returned e s.threadMode s.usesPsp (framePtr s.sp) = { s with
      pc := ra, mem := m, eventReg := true, sleep := .running, prefetched := none
      nvic := { s.nvic with pending := s.nvic.pending &&& ~~~e.mask } } := by
  obtain ⟨flags, thumb, number, bit⟩ := s.stackedPsr_fields
  have aligned := framePtr_aligned s.sp
  have spAligned : s.sp.toNat % 4 = 0 := by
    unfold State.sp
    split
    · exact psp
    · exact msp
  have sp := poppedSp_framePtr spAligned bit
  have target : ra &&& 0xFFFFFFFE#32 = ra := by
    apply BitVec.eq_of_toNat_eq
    rw [toNat_and_highMask 1 (by decide)]
    omega
  have registers : (((s.entered m e).clearActive e).unstacked s.usesPsp (framePtr s.sp) ((s.entered m e).frameAt (framePtr s.sp))).regs = s.regs := by
    refine Vector.ext fun i hi => ?_
    have gpr := State.unstacked_gpr ((s.entered m e).clearActive e) s.usesPsp (framePtr s.sp)
      ((s.entered m e).frameAt (framePtr s.sp)) ⟨i, hi⟩
    refine gpr.trans ?_
    by_cases low : i < 4
    · rw [if_pos low, words i (by omega)]
      match i, low with
      | 0, _ | 1, _ | 2, _ | 3, _ => rfl
    · rw [if_neg low, words 4 (by decide)]
      by_cases twelve : i = 12
      · subst twelve
        rfl
      · exact if_neg twelve
  have spsel : s.usesPsp = s.spsel := by
    obtain thread | main := mode
    · rw [State.usesPsp, thread]
      rfl
    · rw [State.usesPsp, main, Bool.and_false]
  have exits : (s.threadMode && (s.entered m e).sleepOnExit) = false := by
    rw [show (s.entered m e).sleepOnExit = false from stays, Bool.and_false]
  have stackPointers : (if s.usesPsp then (s.entered m e).msp else s.sp) = s.msp ∧ (if s.usesPsp then s.sp else (s.entered m e).psp) = s.psp := by
    have test : s.usesPsp = true ↔ s.ipsr = 0 ∧ s.spsel = true := by simp [State.usesPsp]
    by_cases process : s.usesPsp = true
    · have msp : (s.entered m e).msp = s.msp := if_pos (test.mp process)
      have sp : s.sp = s.psp := if_pos process
      rw [if_pos process, if_pos process, msp, sp]
      exact ⟨rfl, rfl⟩
    · have psp : (s.entered m e).psp = s.psp := if_neg (mt test.mpr process)
      have sp : s.sp = s.msp := if_neg process
      rw [if_neg process, if_neg process, psp, sp]
      exact ⟨rfl, rfl⟩
  obtain ⟨mspSame, pspSame⟩ := stackPointers
  rw [State.returned_eq aligned, registers, words 5 (by decide), words 6 (by decide), words 7 (by decide)]
  change ({ s.entered m e with
    regs := s.regs
    msp := if s.usesPsp then (s.entered m e).msp else poppedSp (framePtr s.sp) (s.stackedPsr (frameAlign s.sp))
    psp := if s.usesPsp then poppedSp (framePtr s.sp) (s.stackedPsr (frameAlign s.sp)) else (s.entered m e).psp
    lr := s.lr
    spsel := s.usesPsp
    apsr := Apsr.ofWord (s.stackedPsr (frameAlign s.sp))
    epsrT := (s.stackedPsr (frameAlign s.sp)).getLsbD 24
    ipsr := (s.stackedPsr (frameAlign s.sp)).setWidth 6
    pc := ra &&& 0xFFFFFFFE#32
    eventReg := true
    sleep := if s.threadMode && (s.entered m e).sleepOnExit then .onExit else .running
    prefetched := none
    nvic := { s.nvic with pending := s.nvic.pending &&& ~~~e.mask, active := (s.nvic.active ||| e.mask) &&& ~~~e.mask } } : State) = _
  rw [sp, mspSame, pspSame, flags, thumb, number, target, spsel, exits, and_not_mask_of_inactive inactive]
  rfl

theorem State.threadMode_iff (s : State) : s.threadMode = true ↔ s.ipsr = 0 := beq_iff_eq

theorem Exc.num_pos (e : Exc) : 0 < e.num := by
  cases e with
  | irq n => exact Nat.lt_of_lt_of_le (by decide) (Nat.le_add_right 16 n)
  | nmi | hardFault | svCall | pendSV | sysTick => decide

theorem State.threadMode_of_handler {e' : Exc} (handler : s.ipsr.toNat = e'.num) : s.threadMode = false := by
  refine Bool.eq_false_iff.mpr fun thread => Nat.ne_of_gt e'.num_pos ?_
  rw [← handler, s.threadMode_iff.mp thread]
  rfl

/-- The nesting of the interrupted program: no exception is active in Thread mode, one is in Handler mode. -/
theorem State.entered_nested (inactive : s.isActive e = false) (m : Memory)
    (nesting : (s.ipsr = 0 ∧ s.activeCount = 0) ∨ (s.spsel = false ∧ 0 < s.activeCount ∧ ∃ e' : Exc, s.ipsr.toNat = e'.num)) :
    Nested (s.entered m e) s.threadMode := by
  unfold Nested
  rw [State.entered_activeCount inactive]
  obtain ⟨thread, none⟩ | ⟨-, some, e', handler⟩ := nesting
  · rw [if_pos (s.threadMode_iff.mpr thread), none]
  · rw [State.threadMode_of_handler handler, if_neg Bool.false_ne_true]
    omega

theorem State.entered_returnFrame (s : State) (m : Memory) (e : Exc) :
    ((s.entered m e).clearActive e).returnFrame s.usesPsp = framePtr s.sp := by
  have test : s.usesPsp = true ↔ s.ipsr = 0 ∧ s.spsel = true := by simp [State.usesPsp]
  by_cases process : s.usesPsp = true
  · exact (if_pos process).trans (if_pos (test.mp process))
  · exact (if_neg process).trans (if_neg (mt test.mpr process))

/-- The frame can be read back with the privilege of the interrupted program, the MPU being off. -/
theorem State.entered_readable (writable : FrameWritable s)
    (ram : ∀ k < 8, s.kindAt s.privileged .read .word (wordAt (framePtr s.sp) k) = .ram) (mpuOff : s.mpu.enabled = false) (m : Memory)
    (e : Exc) (k : Nat) (hk : k < 8) :
    ReadableAs ((s.entered m e).clearActive e) (((s.entered m e).clearActive e).unstackPriv s.threadMode) (wordAt (framePtr s.sp) k) := by
  obtain ⟨⟨aligned, out, -, -⟩, -⟩ := writable k hk
  have inactive : ((s.entered m e).clearActive e).mpuActive = false := by
    have enabled : ((s.entered m e).clearActive e).mpu.enabled = false := mpuOff
    rw [State.mpuActive, enabled, Bool.and_false, Bool.false_and]
  refine ⟨aligned, out, (State.mpuCheck_inactive inactive .read _).trans rfl, .inl ?_⟩
  exact (State.kindAt_congr rfl _ .read .word _).trans (ram k hk)

theorem State.stackedPsr_ipsrFits
    (nesting : (s.ipsr = 0 ∧ s.activeCount = 0) ∨ (s.spsel = false ∧ 0 < s.activeCount ∧ ∃ e' : Exc, s.ipsr.toNat = e'.num)) :
    IpsrFits s.threadMode ((s.stackedPsr (frameAlign s.sp)).toNat % 64) := by
  obtain ⟨-, -, number, -⟩ := s.stackedPsr_fields
  have value : (s.stackedPsr (frameAlign s.sp)).toNat % 64 = s.ipsr.toNat := by
    rw [← number, BitVec.toNat_setWidth]
  rw [value]
  refine ⟨fun thread => by rw [s.threadMode_iff.mp thread]; rfl, fun handler => ?_⟩
  obtain ⟨thread, -⟩ | ⟨-, -, number⟩ := nesting
  · exact absurd (s.threadMode_iff.mpr thread) (Bool.eq_false_iff.mp handler)
  · exact number

/-- Settles O40: entry leaves the frame, the mode and the nesting with which the return reads it back. -/
theorem entryThenReturn : Obligations.EntryThenReturn := by
  intro s t e ra writable readable ram mpuOff msp psp even inactive stays nesting taken
  obtain ⟨m, run, words, others⟩ := State.takeException_done writable readable ra
  obtain rfl : s.entered m e = t := Host.Outcome.next.inj (run.symm.trans taken)
  have target : excReturnTarget (s.entered m e).lr = some (s.threadMode, s.usesPsp) := s.excReturnTarget_excReturn
  have active : (s.entered m e).isActive e = true := by
    refine ((s.lowered m).activate_isActive e e).trans ?_
    rw [decide_eq_true rfl, Bool.or_true]
  have canRead := State.entered_readable writable ram mpuOff m e
  have frame := s.entered_returnFrame m e
  have value (k : Nat) (hk : k < 8) :
      bytesValue ((s.entered m e).clearActive e) (wordAt (framePtr s.sp) k) 4 = ((s.frameWords ra).getD k 0).toNat := by
    rw [← words k hk, State.toNat_frameAt _ _ hk]
    rfl
  have returned := State.entered_returned words msp psp even inactive stays (nesting.imp And.left And.left)
  refine ⟨_, ?done, returned, by rw [returned]; exact others⟩
  rw [State.exceptionReturn_unstack target e.toNat_ofNat_num (State.entered_nested inactive m nesting) active,
    State.unstack_of_readable (by rw [frame]; exact canRead), frame]
  refine State.popFrame_done canRead s.usesPsp ?_ ?_
  · rw [value 6 (by decide)]
    exact even
  · rw [value 7 (by decide)]
    exact State.stackedPsr_ipsrFits nesting

end

end Sys2Proof.Machine
end

