-- ==== Sys2Proof/Proofs/Priorities.lean ====
section
/-! PROOF. The execution priority as a minimum, and the exception to take as the least of the candidates (60_exceptions.md R360 to R362;
10_state.md R36). -/

namespace Sys2Proof.Machine

open Sys2Proof.Safety

section
variable (s : State)

/-! ### The execution priority -/

/-- What is below the priorities of the active exceptions of a list, and below 256, is below their minimum. -/
theorem State.lt_activePriority_iff (p : Int) (es : List Exc) :
    p < s.activePriority es ↔ p < 256 ∧ ∀ e ∈ es, s.isActive e = true → p < s.prio e := by
  induction es with
  | nil => simp [State.activePriority]
  | cons e rest ih =>
    rw [State.activePriority, List.forall_mem_cons]
    by_cases active : s.isActive e = true
    · rw [if_pos active, Int.lt_min, ih]
      exact ⟨fun ⟨first, bound, others⟩ => ⟨bound, fun _ => first, others⟩, fun ⟨bound, first, others⟩ => ⟨first active, bound, others⟩⟩
    · rw [if_neg active, ih]
      exact and_congr_right fun _ => ⟨fun others => ⟨fun h => absurd h active, others⟩, And.right⟩

theorem State.activePriority_attained (es : List Exc) :
    s.activePriority es = 256 ∨ ∃ e, s.isActive e = true ∧ s.activePriority es = s.prio e := by
  induction es with
  | nil => exact .inl rfl
  | cons e rest ih =>
    rw [State.activePriority]
    split
    · rename_i active
      rcases Std.min_eq_or (a := s.prio e) (b := s.activePriority rest) with least | least
      · exact .inr ⟨e, active, least⟩
      · rwa [least]
    · exact ih

theorem State.lt_priorityIgnoringPrimask_iff (p : Int) :
    p < s.priorityIgnoringPrimask ↔ p < 256 ∧ ∀ e, s.isActive e = true → p < s.prio e := by
  rw [State.priorityIgnoringPrimask, s.lt_activePriority_iff]
  exact and_congr_right fun _ => ⟨fun h e => h e e.mem_all, fun h e _ => h e⟩

theorem State.priorityIgnoringPrimask_le {e : Exc} (active : s.isActive e = true) : s.priorityIgnoringPrimask ≤ s.prio e :=
  Int.not_lt.mp fun lt => Int.lt_irrefl _ (((s.lt_priorityIgnoringPrimask_iff _).mp lt).2 e active)

theorem State.priorityIgnoringPrimask_le_256 : s.priorityIgnoringPrimask ≤ 256 :=
  Int.not_lt.mp fun lt => Int.lt_irrefl _ ((s.lt_priorityIgnoringPrimask_iff _).mp lt).1

/-- PRIMASK raises the execution priority to 0 (60_exceptions.md R361; 10_state.md R36). -/
theorem State.executionPriority_masked (masked : s.primask = true) : s.executionPriority = min 0 s.priorityIgnoringPrimask := by
  rw [State.executionPriority, masked, Bool.true_and]
  by_cases above : 0 < s.priorityIgnoringPrimask
  · rw [if_pos (decide_eq_true above), Int.min_eq_left (Int.le_of_lt above)]
  · rw [if_neg (mt of_decide_eq_true above), Int.min_eq_right (Int.not_lt.mp above)]

theorem State.executionPriority_unmasked (unmasked : ¬s.primask = true) : s.executionPriority = s.priorityIgnoringPrimask := by
  rw [State.executionPriority, Bool.eq_false_iff.mpr unmasked, Bool.false_and, if_neg Bool.false_ne_true]

theorem State.executionPriority_le : s.executionPriority ≤ s.priorityIgnoringPrimask := by
  by_cases masked : s.primask = true
  · rw [s.executionPriority_masked masked]
    exact Int.min_le_right _ _
  · exact Int.le_of_eq (s.executionPriority_unmasked masked)

/-- Of all exceptions NMI and HardFault alone have a negative priority (10_state.md R73). -/
theorem State.fixed_of_prio_neg {e : Exc} (neg : s.prio e < 0) : e = .nmi ∨ e = .hardFault := by
  cases e with
  | nmi => exact .inl rfl
  | hardFault => exact .inr rfl
  | svCall | pendSV | sysTick | irq n =>
    simp only [State.prio] at neg
    omega

/-! ### The candidates -/

theorem State.isCandidate_iff (limit : Int) (e : Exc) :
    s.isCandidate limit e = true ↔ s.isPending e = true ∧ s.isEnabled e = true ∧ s.prio e < limit := by
  rw [State.isCandidate, Bool.and_eq_true, Bool.and_eq_true, decide_eq_true_iff, and_assoc]

theorem State.bestOf_isSome_iff (limit : Int) : (s.bestOf limit Exc.all).isSome = true ↔ ∃ e, s.isCandidate limit e = true := by
  cases best : s.bestOf limit Exc.all with
  | none =>
    have never (e : Exc) : ¬s.isCandidate limit e = true := Bool.eq_false_iff.mp (State.bestOf_eq_none best e e.mem_all)
    exact iff_of_false Bool.false_ne_true fun ⟨e, candidate⟩ => never e candidate
  | some b => exact iff_of_true rfl ⟨b, (State.bestOf_eq_some Exc.all_sorted best).1⟩

/-- The exception to take is a candidate that comes before every candidate. -/
theorem State.bestCandidate_eq_some_iff (e : Exc) :
    s.bestCandidate = some e ↔
      s.isCandidate s.executionPriority e = true ∧ ∀ e', s.isCandidate s.executionPriority e' = true → s.Before e e' := by
  constructor
  · intro best
    obtain ⟨candidate, least⟩ := State.bestOf_eq_some Exc.all_sorted best
    exact ⟨candidate, fun e' => least e' e'.mem_all⟩
  · rintro ⟨candidate, least⟩
    obtain ⟨b, best⟩ := Option.isSome_iff_exists.mp ((s.bestOf_isSome_iff _).mpr ⟨e, candidate⟩)
    obtain ⟨candidate', least'⟩ := State.bestOf_eq_some Exc.all_sorted best
    have before := least b candidate'
    have after := least' e e.mem_all candidate
    unfold State.Before at before after
    rw [State.bestCandidate, best, Exc.num_inj.mp (show b.num = e.num by omega)]

end

/-- Settles O42: the minimum over the active exceptions, and what PRIMASK makes of it. -/
theorem executionPriorityRule : Obligations.ExecutionPriorityRule := by
  intro s
  have le := s.executionPriority_le
  have masks (masked : s.primask = true) : s.executionPriority ≤ 0 := by
    rw [s.executionPriority_masked masked]
    exact Int.min_le_left _ _
  refine ⟨fun e active => Int.le_trans le (s.priorityIgnoringPrimask_le active), masks, Int.le_trans le s.priorityIgnoringPrimask_le_256, ?attained,
    fun e masked best => ?fixed⟩
  case attained =>
    have attained : s.priorityIgnoringPrimask = 256 ∨ ∃ e, s.isActive e = true ∧ s.priorityIgnoringPrimask = s.prio e :=
      s.activePriority_attained Exc.all
    by_cases masked : s.primask = true
    · rw [s.executionPriority_masked masked]
      rcases Std.min_eq_or (a := 0) (b := s.priorityIgnoringPrimask) with least | least
      · exact .inr (.inl ⟨masked, least⟩)
      · rw [least]
        exact attained.imp_right .inr
    · rw [s.executionPriority_unmasked masked]
      exact attained.imp_right .inr
  case fixed =>
    obtain ⟨candidate, -⟩ := (s.bestCandidate_eq_some_iff e).mp best
    obtain ⟨-, -, lt⟩ := (s.isCandidate_iff _ e).mp candidate
    exact s.fixed_of_prio_neg (Int.lt_of_lt_of_le lt (masks masked))

/-- Settles O43: a candidate before all others is the one of the smallest (priority, number). -/
theorem candidateChoice : Obligations.CandidateChoice := by
  intro s e
  simp only [s.bestCandidate_eq_some_iff, s.isCandidate_iff, State.Before, and_imp, and_assoc]

end Sys2Proof.Machine
end

