-- ==== Sys2Proof/Proofs/StepCases.lean ====
section
/-! PROOF. What a step does after its inputs are sampled: lockup, sleep, the exception taken, the instruction fetched and executed
(60_exceptions.md R396, R407, R411 to R413, R425; 20_memory.md R133, R145, R165). -/

namespace Sys2Proof.Machine

open Sys2Proof.Safety

/-! ### The parts of a step -/

section
variable {s s' : State}

theorem step_sampled (noReset : s.currentInput.reset = false) (noHalt : (s.currentInput.halt && s.cfg.debuggerAttached) = false) :
    step s = (s.takeInput.sample s.currentInput).sampledStep s.currentInput := by
  rw [step, State.machineStep, noReset, if_neg Bool.false_ne_true]
  exact if_neg (Bool.eq_false_iff.mp noHalt)

theorem step_halted (noReset : s.currentInput.reset = false) (halt : (s.currentInput.halt && s.cfg.debuggerAttached) = true) :
    step s = .next (s.takeInput.haltedStep s.currentInput) := by
  rw [step, State.machineStep, noReset, if_neg Bool.false_ne_true]
  exact if_pos halt

theorem State.sampledStep_locked {l : LockupLevel} (locked : s.lockup = some l) (i : StepInput) : s.sampledStep i = s.lockupStep l := by
  rw [State.sampledStep, locked]

theorem State.sampledStep_asleep (unlocked : s.lockup = none) {i : StepInput} (sleeps : s.wakes i.wake = false) :
    s.sampledStep i = .next s := by
  rw [State.sampledStep, unlocked]
  exact if_neg (Bool.eq_false_iff.mp sleeps)

theorem State.sampledStep_awake (unlocked : s.lockup = none) {i : StepInput} (wakes : s.wakes i.wake = true) :
    s.sampledStep i = State.runStep { s with sleep := .running } i.prefetch := by
  rw [State.sampledStep, unlocked]
  exact if_pos wakes

theorem State.runStep_taken {e : Exc} (best : s.bestCandidate = some e) (ahead : Bool) : s.runStep ahead = s.takeException e s.pc := by
  unfold State.runStep
  rw [best]

theorem State.runStep_executes (nothing : NothingToTake s) (ahead : Bool) : s.runStep ahead = s.fetchAndExecute ahead := by
  unfold State.runStep
  rw [nothing]

theorem State.bestCandidate_awake (s : State) : State.bestCandidate { s with sleep := .running } = s.bestCandidate :=
  State.bestCandidate_congr rfl rfl rfl

/-! ### Waking -/

/-- After WFI and sleep-on-exit a processor wakes also for an exception that PRIMASK holds off (60_exceptions.md R411). -/
theorem State.wakes_wfi_iff (asleep : s.sleep = .wfi ∨ s.sleep = .onExit) (spurious : Bool) :
    s.wakes spurious = true ↔ spurious = true ∨ ∃ e, s.isCandidate s.priorityIgnoringPrimask e = true := by
  have wakes : s.wakes spurious = (spurious || (s.bestOf s.priorityIgnoringPrimask Exc.all).isSome) := by
    obtain asleep | asleep := asleep <;> rw [State.wakes, asleep]
  rw [wakes, Bool.or_eq_true, s.bestOf_isSome_iff]

theorem State.wakes_wfe_iff (asleep : s.sleep = .wfe) (spurious : Bool) :
    s.wakes spurious = true ↔ spurious = true ∨ ∃ e, s.isCandidate s.executionPriority e = true := by
  have wakes : s.wakes spurious = (spurious || s.bestCandidate.isSome) := by rw [State.wakes, asleep]
  rw [wakes, Bool.or_eq_true, State.bestCandidate, s.bestOf_isSome_iff]

/-- An exception to take wakes the processor, whatever it waits for. -/
theorem State.wakes_of_bestCandidate {e : Exc} (best : s.bestCandidate = some e) (spurious : Bool) : s.wakes spurious = true := by
  obtain ⟨candidate, -⟩ := (s.bestCandidate_eq_some_iff e).mp best
  have unmasked : s.isCandidate s.priorityIgnoringPrimask e = true := by
    obtain ⟨pending, enabled, lt⟩ := (s.isCandidate_iff _ e).mp candidate
    exact (s.isCandidate_iff _ e).mpr ⟨pending, enabled, Int.lt_of_lt_of_le lt s.executionPriority_le⟩
  cases asleep : s.sleep with
  | running => rw [State.wakes, asleep]
  | wfe => exact (State.wakes_wfe_iff asleep spurious).mpr (.inr ⟨e, candidate⟩)
  | wfi => exact (State.wakes_wfi_iff (.inl asleep) spurious).mpr (.inr ⟨e, unmasked⟩)
  | onExit => exact (State.wakes_wfi_iff (.inr asleep) spurious).mpr (.inr ⟨e, unmasked⟩)

/-- The timer does not count in a step without ticks. -/
theorem State.sample_stk {i : StepInput} (noTicks : i.ticks = 0) (s : State) : (s.sample i).stk = s.stk := by
  have all : (s.sampleAll i).stk = s.stk := by
    rw [State.sampleAll, noTicks, State.sysTickTicks]
    simp
  unfold State.sample
  split <;> exact all

end

/-- Settles O5: an exception to take wakes the processor and comes before the instruction. -/
theorem stepTakesPending : Obligations.StepTakesPending := by
  rintro s s' e noReset noHalt rfl unlocked best
  rw [step_sampled noReset noHalt, State.sampledStep_awake unlocked (State.wakes_of_bestCandidate best _)]
  exact State.runStep_taken (State.bestCandidate_awake _ |>.trans best) _

/-- Settles O44: a step in lockup looks at the debugger and at NMI alone. -/
theorem lockupStays : Obligations.LockupStays := by
  rintro s s' l locked noReset rfl
  refine ⟨fun halt => step_halted noReset halt, fun noHalt => ?_⟩
  have locked' : (s.takeInput.sample s.currentInput).lockup = some l := by simpa using locked
  have run : step s = (s.takeInput.sample s.currentInput).lockupStep l := by
    rw [step_sampled noReset noHalt, State.sampledStep_locked locked']
  refine ⟨fun stays => run.trans (if_neg fun leaves => stays ?_), fun level pending => run.trans (if_pos ?_)⟩
  · rw [Bool.and_eq_true, decide_eq_true_iff] at leaves
    exact leaves.symm
  · rw [pending, level]
    rfl

/-- Settles O45: the wake condition of each kind of sleep, and the steps of a processor that sleeps or is halted. -/
theorem sleepAndWake : Obligations.SleepAndWake := by
  rintro s s' noReset rfl unlocked
  refine ⟨fun halt => ⟨_, step_halted noReset halt, rfl, ?pc, ?timer, rfl⟩, fun noHalt asleep => ?stays, fun asleep => ?wfi,
    fun asleep => ?wfe⟩
  case pc => exact State.sample_pc ..
  case timer => exact State.sample_stk rfl s.takeInput
  case stays => rw [step_sampled noReset noHalt, State.sampledStep_asleep unlocked asleep]
  case wfi =>
    rw [State.wakes_wfi_iff asleep]
    simp only [State.isCandidate_iff, State.lt_priorityIgnoringPrimask_iff, State.prio_lt, true_and]
  case wfe =>
    rw [State.wakes_wfe_iff asleep]
    simp only [State.isCandidate_iff]

end Sys2Proof.Machine
end

