-- ==== Sys2Proof/Proofs/FetchAndExecute.lean ====
section
/-! PROOF. The fetch of the instruction at the PC, one or two halfwords, and what the step does with what they decode to (20_memory.md R133,
R145, R165; 30_encoding.md R191, R201, R203, R204; 60_exceptions.md R390, R425). -/

namespace Sys2Proof.Machine

open Sys2Proof.Safety

section
variable {s s' u u1 u2 : State} {a : Word} {h h1 h2 : Half}

/-! ### One halfword -/

theorem fetchDevice_eq (s : State) (a : Word) :
    (s.deviceValue (s.deviceAccess s.privileged .fetch .half a 0)).setWidth 16 =
      (deviceAnswer s (accessRecord s .fetch .half a 0)).setWidth 16 := by
  rw [State.deviceValue, narrowTo_eq_ofNat_carried]
  rfl

theorem State.fetchHalf_done {code : Half} (fetched : FetchedHalf s a code h u) (isCode : code = s.codeHalf a) :
    s.fetchHalf a = .ok (h, u) := by
  obtain ⟨thumb, allowed, answer⟩ := fetched
  have answered : s.kindAt s.privileged .fetch .half a ≠ .busError := by
    rcases answer with ⟨ram | rom, -⟩ | ⟨device, -⟩
    · simp [ram]
    · simp [rom]
    · simp [device]
  rw [State.fetchHalf, thumb, Bool.not_true, if_neg Bool.false_ne_true, allowed, Acc.bind_ok, State.checkBus_done answered, Acc.bind_ok]
  obtain ⟨storage, rfl, rfl⟩ | ⟨device, rfl, rfl⟩ := answer
  · rw [if_neg (by rcases storage with h | h <;> simp [h]), isCode]
  · rw [if_pos device, fetchDevice_eq]
    rfl

theorem State.fetchHalf_denied (denied : FetchDenied s a) : ∃ c, s.fetchHalf a = .fault c := by
  by_cases thumb : s.epsrT = true
  · rw [State.fetchHalf, thumb, Bool.not_true, if_neg Bool.false_ne_true]
    obtain notThumb | ⟨c, denied⟩ | ⟨allowed, busError⟩ := denied
    · exact absurd thumb (Bool.eq_false_iff.mp notThumb)
    · exact ⟨c, by rw [denied, Acc.bind_fault]⟩
    · exact ⟨.bus, by rw [allowed, Acc.bind_ok, State.checkBus_busError busError, Acc.bind_fault]⟩
  · exact ⟨.notThumb, by rw [State.fetchHalf, Bool.eq_false_iff.mpr thumb]; rfl⟩

/-- A fetch changes what the devices saw at most. -/
theorem fetchedHalf_devices {code : Half} (fetched : FetchedHalf s a code h u) : ∃ d, u = { s with devices := d } := by
  obtain ⟨-, -, ⟨-, -, rfl⟩ | ⟨-, -, rfl⟩⟩ := fetched
  · exact ⟨_, rfl⟩
  · exact ⟨_, rfl⟩

/-! ### The code at the PC -/

theorem codeAt_fst (s : State) : (codeAt s).1 = s.codeHalf s.pc := by
  unfold codeAt State.codeHalf
  cases s.prefetched with
  | none => rfl
  | some p =>
    dsimp only
    by_cases ahead : p.addr = s.pc
    · rw [if_pos ahead, if_pos ahead, if_pos rfl]
    · rw [if_neg ahead, if_neg ahead]
      rfl

theorem codeAt_snd (s : State) : (codeAt s).2 = s.codeHalf (s.pc + 2) := by
  have three : s.pc + 2 + 1 = s.pc + 3 := BitVec.add_assoc s.pc 2 1
  have other : s.pc + 2 ≠ s.pc := by bv_omega
  unfold codeAt State.codeHalf Memory.halfAt
  rw [three]
  cases s.prefetched with
  | none => rfl
  | some p =>
    dsimp only
    by_cases ahead : p.addr = s.pc
    · rw [if_pos ahead, if_pos ahead, if_neg other]
    · rw [if_neg ahead, if_neg ahead]

theorem State.fetchAhead_eq (s : State) (ahead : Bool) (len : Word) : s.fetchAhead ahead len = fetchedAhead s ahead len := by
  have three : s.pc + len + 2 + 1 = s.pc + len + 3 := BitVec.add_assoc (s.pc + len) 2 1
  unfold State.fetchAhead fetchedAhead Memory.halfAt
  rw [three]

/-! ### The instruction -/

theorem State.fetch_narrow (first : FetchedHalf s s.pc (codeAt s).1 h1 u1) (narrow : isWide h1 = false) :
    s.fetch = .ok ((decodeHalves h1 0, 2), u1) := by
  rw [State.fetch, State.fetchHalf_done first (codeAt_fst s), Acc.bind_ok]
  dsimp only
  rw [narrow, if_neg Bool.false_ne_true]

theorem State.fetch_wide (first : FetchedHalf s s.pc (codeAt s).1 h1 u1) (wide : isWide h1 = true)
    (second : FetchedHalf u1 (s.pc + 2) (codeAt s).2 h2 u2) : s.fetch = .ok ((decodeHalves h1 h2, 4), u2) := by
  have isCode : (codeAt s).2 = u1.codeHalf (s.pc + 2) := by
    obtain ⟨d, rfl⟩ := fetchedHalf_devices first
    exact codeAt_snd s
  rw [State.fetch, State.fetchHalf_done first (codeAt_fst s), Acc.bind_ok]
  dsimp only
  rw [wide, if_pos rfl, State.fetchHalf_done second isCode, Acc.bind_ok]

theorem State.fetch_secondDenied (first : FetchedHalf s s.pc (codeAt s).1 h1 u1) (wide : isWide h1 = true)
    (denied : FetchDenied u1 (s.pc + 2)) : ∃ c, s.fetch = .fault c := by
  obtain ⟨c, fault⟩ := State.fetchHalf_denied denied
  refine ⟨c, ?_⟩
  rw [State.fetch, State.fetchHalf_done first (codeAt_fst s), Acc.bind_ok]
  dsimp only
  rw [wide, if_pos rfl, fault, Acc.bind_fault]

theorem State.fetch_denied (denied : FetchDenied s s.pc) : ∃ c, s.fetch = .fault c := by
  obtain ⟨c, fault⟩ := State.fetchHalf_denied denied
  exact ⟨c, by rw [State.fetch, fault, Acc.bind_fault]⟩

theorem State.fetchAndExecute_fault {c : FaultCause} (fault : s.fetch = .fault c) (ahead : Bool) :
    s.fetchAndExecute ahead = s.raiseHardFault s.pc := by
  rw [State.fetchAndExecute, fault, State.afterAccess_fault]

theorem State.fetchAndExecute_done {d : Decoded} {len : Word} (fetched : s.fetch = .ok ((d, len), u)) (ahead : Bool) :
    s.fetchAndExecute ahead = (fetchedAhead u ahead len).execDecoded d := by
  rw [State.fetchAndExecute, fetched, State.afterAccess_ok, State.fetchAhead_eq]

end

/-- Settles O4: the fetch of one or two halfwords, and the three answers of the decoder. -/
theorem stepRunsDecoded : Obligations.StepRunsDecoded := by
  rintro s s0 s' noReset noHalt sampled unlocked wakes nothing awake runs
  have executes : step s = s'.fetchAndExecute s.currentInput.prefetch := by
    have nothing' : NothingToTake s' := by
      rw [NothingToTake, awake, State.bestCandidate_awake]
      exact nothing
    rw [step_sampled noReset noHalt, ← sampled, State.sampledStep_awake unlocked wakes, ← awake, State.runStep_executes nothing']
  have faults (h : ∃ c, s'.fetch = .fault c) : step s = s'.raiseHardFault s'.pc := by
    obtain ⟨c, fault⟩ := h
    rw [executes, State.fetchAndExecute_fault fault]
  have decoded {u : State} {len : Word} {d : Decoded} (fetched : s'.fetch = .ok ((d, len), u)) (samePc : u.pc = s'.pc) : runs u len d := by
    have run := executes.trans (State.fetchAndExecute_done fetched s.currentInput.prefetch)
    refine ⟨fun i instr => ?_, fun undefined => ?_, fun r unpredictable => ?_⟩
    · rw [run, instr]
      rfl
    · rw [run, undefined, ← samePc]
      rfl
    · rw [run, unpredictable]
      rfl
  refine ⟨fun h1 u1 first => ?_, fun denied => faults (State.fetch_denied denied)⟩
  obtain ⟨d1, rfl⟩ := fetchedHalf_devices first
  refine ⟨fun narrow => decoded (State.fetch_narrow first narrow) rfl, fun wide =>
    ⟨fun h2 u2 second => ?_, fun denied => faults (State.fetch_secondDenied first wide denied)⟩⟩
  obtain ⟨d2, rfl⟩ := fetchedHalf_devices second
  exact decoded (State.fetch_wide first wide second) rfl

end Sys2Proof.Machine
end

