-- ==== Sys2Proof/Proofs/Sampling.lean ====
section
/-! PROOF. What the interrupt lines and the NMI input make pending, and the events of a step (60_exceptions.md R366, R367, R412, R415 to
R417). -/

namespace Sys2Proof.Machine

open Sys2Proof.Safety

/-! ### Lines and the NMI input -/

section
variable (s : State)

theorem State.irqActive_getLsbD (n : Fin 32) : s.irqActive.getLsbD n.val = s.isActive (.irq n) := by
  rw [State.irqActive, BitVec.getLsbD_extractLsb', decide_eq_true n.isLt, Bool.true_and]
  rfl

theorem State.setPendingMask_isPending (m : BitVec 48) (e : Exc) : (s.setPendingMask m).isPending e = (s.isPending e || m.getLsbD e.num) :=
  s.setPendingMask_getLsbD m e.num

theorem Exc.num_lt_of_not_irq {e : Exc} (system : ∀ n, e ≠ .irq n) : e.num < 16 := by
  cases e with
  | irq n => exact absurd rfl (system n)
  | nmi | hardFault | svCall | pendSV | sysTick => decide

/-- The interrupts that a sample of the lines makes pending (60_exceptions.md R366). -/
theorem State.sampleIrq_isPending (l : BitVec 32) (n : Fin 32) :
    (s.sampleIrq l).isPending (.irq n) =
      (s.isPending (.irq n) || (l.getLsbD n.val && (!s.isActive (.irq n) || !s.nvic.irqPrev.getLsbD n.val))) := by
  change (s.setPendingMask (irqMask _)).isPending (.irq n) = _
  rw [s.setPendingMask_isPending, irqMask_getLsbD_irq, BitVec.getLsbD_or, BitVec.getLsbD_and, BitVec.getLsbD_and, BitVec.getLsbD_not,
    BitVec.getLsbD_not, decide_eq_true n.isLt, Bool.true_and, Bool.true_and, s.irqActive_getLsbD, ← Bool.and_or_distrib_left]

theorem State.sampleIrq_isPending_system (l : BitVec 32) {e : Exc} (system : ∀ n, e ≠ .irq n) :
    (s.sampleIrq l).isPending e = s.isPending e := by
  change (s.setPendingMask (irqMask _)).isPending e = _
  rw [s.setPendingMask_isPending, irqMask_getLsbD_low _ (Exc.num_lt_of_not_irq system), Bool.or_false]

/-- A rising edge of the NMI input makes NMI pending (60_exceptions.md R367). -/
theorem State.sampleNmi_isPending (level : Bool) (e : Exc) :
    (s.sampleNmi level).isPending e = (s.isPending e || (decide (e = .nmi) && level && !s.nvic.nmiPrev)) := by
  change (if level && !s.nvic.nmiPrev then s.setPending .nmi else s).isPending e = _
  rw [Bool.and_assoc]
  cases rises : level && !s.nvic.nmiPrev with
  | true => rw [if_pos rfl, s.setPending_isPending, Bool.and_true]
  | false => rw [if_neg Bool.false_ne_true, Bool.and_false, Bool.or_false]

end

/-- Settles O46: the bits that each sample sets, and the samples kept. -/
theorem interruptSampling : Obligations.InterruptSampling := fun s l h =>
  ⟨s.sampleIrq_isPending l, fun _ system => s.sampleIrq_isPending_system l system, rfl, s.sampleNmi_isPending h, rfl⟩

/-! ### Events -/

section
variable {s t u : State}

/-- Setting one pending bit is an event where SEVONPEND is set and the bit is clear (60_exceptions.md R416). -/
theorem State.pendsEvent_mask (s : State) (e : Exc) : s.PendsEvent e.mask ↔ s.scb.scr.getLsbD 4 = true ∧ s.isPending e = false := by
  refine and_congr_right fun _ => ⟨?_, fun clear => ⟨e.num, by rw [e.mask_getLsbD, decide_eq_true rfl], clear⟩⟩
  rintro ⟨i, set, clear⟩
  rw [e.mask_getLsbD, decide_eq_true_iff] at set
  rw [State.isPending, ← set]
  exact clear

/-- What can happen to the event state is events: a processor asleep in WFE is woken, and the event register set (60_exceptions.md
R415). -/
structure EventsOnly (s t : State) : Prop where
  /-- the processor sleeps as before, or was woken from WFE -/
  sleep : t.sleep = s.sleep ∨ (s.sleep = .wfe ∧ t.sleep = .running)
  /-- the event register stays set -/
  register : s.eventReg = true → t.eventReg = true

theorem EventsOnly.refl (s : State) : EventsOnly s s := ⟨.inl rfl, id⟩

theorem EventsOnly.trans (h : EventsOnly s u) (h' : EventsOnly u t) : EventsOnly s t := by
  refine ⟨?_, h'.register ∘ h.register⟩
  obtain same | ⟨asleep, woken⟩ := h.sleep
  · rw [← same]
    exact h'.sleep
  · obtain same | ⟨asleep', -⟩ := h'.sleep
    · exact .inr ⟨asleep, same.trans woken⟩
    · exact absurd (woken.symm.trans asleep') (by decide)

theorem eventsOnly_signalEvent (s : State) : EventsOnly s s.signalEvent := by
  unfold State.signalEvent
  split
  · exact ⟨.inr ⟨‹_›, rfl⟩, id⟩
  · exact ⟨.inl rfl, fun _ => rfl⟩

theorem eventsOnly_setPendingMask (s : State) (m : BitVec 48) : EventsOnly s (s.setPendingMask m) := by
  have written (p : BitVec 48) : EventsOnly s (s.withPending p) := ⟨.inl rfl, id⟩
  by_cases event : s.PendsEvent m
  · rw [State.setPendingMask_of_event event]
    exact (written _).trans (eventsOnly_signalEvent _)
  · rw [State.setPendingMask_of_no_event event]
    exact written _

theorem eventsOnly_sampleIrq (s : State) (l : BitVec 32) : EventsOnly s (s.sampleIrq l) := { eventsOnly_setPendingMask s _ with }

theorem eventsOnly_sampleNmi (s : State) (level : Bool) : EventsOnly s (s.sampleNmi level) := by
  unfold State.sampleNmi
  dsimp only
  split
  · exact { eventsOnly_setPendingMask s _ with }
  · exact { EventsOnly.refl s with }

theorem eventsOnly_sampleEvent (s : State) (level : Bool) : EventsOnly s (s.sampleEvent level) := by
  unfold State.sampleEvent
  split
  · exact eventsOnly_signalEvent s
  · exact .refl s

theorem eventsOnly_sysTickTick (s : State) : EventsOnly s s.sysTickTick := by
  have counted (k : SysTick) : EventsOnly s { s with stk := k } := ⟨.inl rfl, id⟩
  unfold State.sysTickTick
  split
  · exact .refl s
  · split
    · exact counted _
    · split
      · dsimp only
        split
        · exact (counted _).trans (eventsOnly_setPendingMask _ _)
        · exact counted _
      · exact counted _

theorem eventsOnly_sysTickTicks (n : Nat) : ∀ s : State, EventsOnly s (s.sysTickTicks n) := by
  induction n with
  | zero => exact .refl
  | succ n ih => exact fun s => (eventsOnly_sysTickTick s).trans (ih _)

/-- The lines and the NMI input are sampled before the event input. -/
theorem eventsOnly_beforeEvent (s : State) (i : StepInput) : EventsOnly s (((s.applyDma i.dma).sampleIrq i.irq).sampleNmi i.nmi) :=
  have written : EventsOnly s (s.applyDma i.dma) := ⟨.inl rfl, id⟩
  (written.trans (eventsOnly_sampleIrq _ _)).trans (eventsOnly_sampleNmi _ _)

theorem eventsOnly_sampleAll (s : State) (i : StepInput) : EventsOnly s (s.sampleAll i) :=
  ((eventsOnly_beforeEvent s i).trans (eventsOnly_sampleEvent _ _)).trans (eventsOnly_sysTickTicks _ _)

theorem State.sampleEvent_asleep (asleep : s.sleep = .wfe) : s.sampleEvent true = { s with sleep := .running } := by
  rw [State.sampleEvent, if_pos rfl, State.signalEvent, if_pos asleep]

theorem State.sampleEvent_awake (awake : s.sleep ≠ .wfe) : s.sampleEvent true = { s with eventReg := true } := by
  rw [State.sampleEvent, if_pos rfl, State.signalEvent, if_neg awake]

/-- The event input wakes a processor asleep in WFE, which an earlier event of the step may have woken already. -/
theorem State.sampleAll_wakes (asleep : s.sleep = .wfe) {i : StepInput} (event : i.event = true) : (s.sampleAll i).sleep = .running := by
  unfold State.sampleAll
  rw [event]
  refine sysTickTicks_awake _ ?_
  obtain same | ⟨-, woken⟩ := (eventsOnly_beforeEvent s i).sleep
  · rw [State.sampleEvent_asleep (same.trans asleep)]
  · rw [State.sampleEvent_awake (by rw [woken]; decide)]
    exact woken

theorem State.sampleAll_sleep (awake : s.sleep ≠ .wfe) (i : StepInput) : (s.sampleAll i).sleep = s.sleep :=
  (eventsOnly_sampleAll s i).sleep.resolve_right fun woken => awake woken.1

theorem State.sampleAll_eventReg (awake : s.sleep ≠ .wfe) {i : StepInput} (event : i.event = true) : (s.sampleAll i).eventReg = true := by
  have same := (eventsOnly_beforeEvent s i).sleep.resolve_right fun woken => awake woken.1
  unfold State.sampleAll
  refine (eventsOnly_sysTickTicks _ _).register ?_
  rw [event, State.sampleEvent_awake (by rwa [same])]

end

/-- Settles O47: the events of one pending bit, of the event input, and of all that a step samples. -/
theorem sendEventOnPend : Obligations.SendEventOnPend := by
  intro s e i
  have sleep := State.setPendingMask_sleep (s.pendsEvent_mask e)
  have register := State.setPendingMask_eventReg (s.pendsEvent_mask e)
  refine ⟨s.setPending_isPending e, fun sev clear => ⟨fun asleep => ⟨?_, ?_⟩, fun awake => ⟨?_, ?_⟩⟩, fun silent => ?silent, rfl,
    State.sampleEvent_asleep, State.sampleEvent_awake, fun asleep => ?asleep, fun awake => ?awake⟩
  · exact sleep.trans (if_pos ⟨⟨sev, clear⟩, asleep⟩)
  · exact register.trans (if_neg fun h => h.2 asleep)
  · exact sleep.trans (if_neg fun h => awake h.2)
  · exact register.trans (if_pos ⟨⟨sev, clear⟩, awake⟩)
  case silent =>
    have noEvent : ¬(s.scb.scr.getLsbD 4 = true ∧ s.isPending e = false) := fun ⟨sev, clear⟩ =>
      silent.elim (fun off => Bool.false_ne_true (off.symm.trans sev)) fun set => Bool.false_ne_true (clear.symm.trans set)
    exact ⟨sleep.trans (if_neg fun h => noEvent h.1), register.trans (if_neg fun h => noEvent h.1)⟩
  case asleep =>
    rw [State.sample, if_pos asleep]
    exact ⟨rfl, fun event => State.sampleAll_wakes asleep event⟩
  case awake =>
    rw [State.sample, if_neg awake]
    exact ⟨State.sampleAll_sleep awake i, fun event => State.sampleAll_eventReg awake event⟩

end Sys2Proof.Machine
end

