-- ==== Sys2Proof/Proofs/SystemTimer.lean ====
section
/-! PROOF. The system timer: one tick by the value of the counter, several ticks, and its registers (60_exceptions.md R406; 10_state.md R76
to R78). -/

namespace Sys2Proof.Machine

open Sys2Proof.Safety

section
variable {s : State}

/-! ### One tick -/

theorem State.sysTickTick_disabled (disabled : s.stk.ctrl.getLsbD 0 = false) : s.sysTickTick = s := by
  rw [State.sysTickTick, disabled]
  rfl

theorem State.sysTickTick_reloads (enabled : s.stk.ctrl.getLsbD 0 = true) (zero : s.stk.current = 0) :
    s.sysTickTick = { s with stk := { s.stk with current := s.stk.reload } } := by
  rw [State.sysTickTick, enabled, Bool.not_true, if_neg Bool.false_ne_true, if_pos zero]

/-- The tick that takes the counter to zero sets COUNTFLAG, and with TICKINT makes SysTick pending (60_exceptions.md R406). -/
theorem State.sysTickTick_reachesZero (enabled : s.stk.ctrl.getLsbD 0 = true) (one : s.stk.current = 1) :
    s.sysTickTick.stk.current = 0 ∧ s.sysTickTick.stk.countFlag = true ∧
      s.sysTickTick.isPending .sysTick = (s.isPending .sysTick || s.stk.ctrl.getLsbD 1) := by
  have counting : ¬s.stk.current = 0 := by rw [one]; decide
  rw [State.sysTickTick, enabled, Bool.not_true, if_neg Bool.false_ne_true, if_neg counting, if_pos one]
  dsimp only
  cases s.stk.ctrl.getLsbD 1 with
  | false => exact ⟨rfl, rfl, (Bool.or_false _).symm⟩
  | true =>
    rw [if_pos rfl, State.setPending_isPending, decide_eq_true rfl, State.setPending_stk]
    exact ⟨rfl, rfl, rfl⟩

theorem State.sysTickTick_counts (enabled : s.stk.ctrl.getLsbD 0 = true) (above : 1 < s.stk.current.toNat) :
    s.sysTickTick = { s with stk := { s.stk with current := s.stk.current - 1 } } := by
  have notZero : ¬s.stk.current = 0 := by bv_omega
  have notOne : ¬s.stk.current = 1 := by bv_omega
  rw [State.sysTickTick, enabled, Bool.not_true, if_neg Bool.false_ne_true, if_neg notZero, if_neg notOne]

/-! ### Several ticks -/

theorem State.sysTickTicks_succ (s : State) (n : Nat) : s.sysTickTicks (n + 1) = (s.sysTickTicks n).sysTickTick := by
  induction n generalizing s with
  | zero => rfl
  | succ n ih => exact ih s.sysTickTick

theorem State.sysTickTicks_disabled (disabled : s.stk.ctrl.getLsbD 0 = false) (n : Nat) : s.sysTickTicks n = s := by
  induction n with
  | zero => rfl
  | succ n ih => rw [State.sysTickTicks_succ, ih, State.sysTickTick_disabled disabled]

/-- Fewer ticks than the counter holds count it down and change nothing else. -/
theorem State.sysTickTicks_counts (enabled : s.stk.ctrl.getLsbD 0 = true) {n : Nat} (fewer : n < s.stk.current.toNat) :
    s.sysTickTicks n = { s with stk := { s.stk with current := s.stk.current - BitVec.ofNat 24 n } } := by
  induction n with
  | zero =>
    rw [BitVec.sub_zero]
    rfl
  | succ n ih =>
    have above : 1 < (s.stk.current - BitVec.ofNat 24 n).toNat := by bv_omega
    have next : s.stk.current - BitVec.ofNat 24 n - 1 = s.stk.current - BitVec.ofNat 24 (n + 1) := by bv_omega
    rw [State.sysTickTicks_succ, ih (by omega), State.sysTickTick_counts (by exact enabled) (by exact above), ← next]

/-- As many ticks as the counter holds end with the tick that takes it to zero. -/
theorem State.sysTickTicks_reachesZero (enabled : s.stk.ctrl.getLsbD 0 = true) (running : s.stk.current.toNat ≠ 0) :
    (s.sysTickTicks s.stk.current.toNat).stk.current = 0 ∧ (s.sysTickTicks s.stk.current.toNat).stk.countFlag = true ∧
      (s.sysTickTicks s.stk.current.toNat).isPending .sysTick = (s.isPending .sysTick || s.stk.ctrl.getLsbD 1) := by
  obtain ⟨n, last⟩ := Nat.exists_eq_succ_of_ne_zero running
  have one : s.stk.current - BitVec.ofNat 24 n = 1 := by bv_omega
  rw [last, State.sysTickTicks_succ, State.sysTickTicks_counts enabled (by omega), one]
  exact State.sysTickTick_reachesZero enabled rfl

/-! ### The registers -/

theorem State.ppbValue_stkCsr_toNat (s : State) :
    (s.ppbValue .stkCsr).toNat = s.stk.ctrl.toNat + 65536 * s.stk.countFlag.toNat := by
  have flag : ((BitVec.ofBool s.stk.countFlag).setWidth 32 <<< 16 : Word).toNat = 65536 * s.stk.countFlag.toNat := by
    cases s.stk.countFlag <;> rfl
  have low : (s.stk.ctrl.setWidth 32).toNat = s.stk.ctrl.toNat := BitVec.toNat_setWidth_of_le (by decide)
  have small := s.stk.ctrl.isLt
  rw [State.ppbValue, BitVec.or_comm, toNat_or_of_disjoint 16 (by omega) (by omega), flag, low, Nat.add_comm]

end

/-- Settles O52: the counter tick by tick, and the reads and writes of its registers. -/
theorem sysTickCounts : Obligations.SysTickCounts := by
  intro s n
  refine ⟨fun enabled fewer => ?counts, fun enabled last running => ?reachesZero, State.sysTickTick_reloads,
    fun disabled => State.sysTickTicks_disabled disabled n, rfl, fun _ => rfl, BitVec.toNat_setWidth_of_le (by decide),
    BitVec.toNat_setWidth_of_le (by decide), s.ppbValue_stkCsr_toNat⟩
  case counts =>
    have left : (s.stk.current - BitVec.ofNat 24 n).toNat = s.stk.current.toNat - n := by bv_omega
    rw [State.sysTickTicks_counts enabled fewer]
    exact ⟨left, rfl, rfl⟩
  case reachesZero =>
    subst last
    exact State.sysTickTicks_reachesZero enabled running

end Sys2Proof.Machine
end

