-- ==== Sys2Proof/Proofs/ResetState.lean ====
section
/-! PROOF. A reset whose two words lie in storage: the words that it loads, and the interrupt controller and the priorities that it leaves
(70_reset_and_hazards.md R430, R433; 10_state.md R41, R50, R100). -/

namespace Sys2Proof.Machine

open Sys2Proof.Safety

section
variable {s : State}

/-! ### The words that reset loads -/

theorem State.vectorRead_of_storage {a : Word} (out : OutsidePpb a)
    (storage : s.kindAt true .read .word a = .ram ∨ s.kindAt true .read .word a = .rom) :
    s.vectorRead a = .ok (s.mem.load .word a, s) := by
  have outside : inPpb a = false := (inPpb_eq_false_iff a).mpr out
  have noBusError : s.kindAt true .read .word a ≠ .busError := by rcases storage with h | h <;> rw [h] <;> decide
  have noDevice : s.kindAt true .read .word a ≠ .device := by rcases storage with h | h <;> rw [h] <;> decide
  rw [State.vectorRead, outside, if_neg Bool.false_ne_true, State.checkBus_done noBusError, Acc.bind_ok,
    State.busValue_outside outside noDevice, State.busReadEffect_outside outside noDevice]

theorem State.doReset_of_storage
    (storage : ∀ a : Word, a = 0 ∨ a = 4 → s.kindAt true .read .word a = .ram ∨ s.kindAt true .read .word a = .rom) :
    s.doReset = .next (State.resetFrom (s.mem.load .word 0) (s.mem.load .word 4) s.mem s.devices s.deviceInput s.inputs s.freeCount
      s.cfg) := by
  rw [State.doReset, State.vectorRead_of_storage (by unfold OutsidePpb; decide) (storage 0 (.inl rfl))]
  dsimp only
  rw [State.vectorRead_of_storage (by unfold OutsidePpb; decide) (storage 4 (.inr rfl))]

/-- Reset comes before everything else in a step (60_exceptions.md R425 item 1). -/
theorem step_reset (reset : s.currentInput.reset = true) : step s = s.takeInput.doReset := if_pos reset

/-! ### The interrupt controller, the priorities and the regions after reset -/

theorem State.nothingRaised_of_nvic_reset (nvic : s.nvic = Nvic.reset) (e : Exc) : s.isPending e = false ∧ s.isActive e = false := by
  rw [State.isPending, State.isActive, nvic]
  exact ⟨BitVec.getLsbD_zero, BitVec.getLsbD_zero⟩

theorem State.irqDisabled_of_nvic_reset (nvic : s.nvic = Nvic.reset) (n : Fin 32) :
    s.isEnabled (.irq n) = false ∧ s.prio (.irq n) = 0 := by
  have word : (Nvic.reset.ipr[n.val / 4]'(by omega)).toNat = 0 := congrArg BitVec.toNat (Vector.getElem_replicate ..)
  have priority : s.irqPriority n = 0 := by simp only [State.irqPriority, nvic, word, Nat.zero_div, Nat.zero_mod]
  rw [State.isEnabled, State.prio, nvic, priority]
  exact ⟨BitVec.getLsbD_zero, rfl⟩

theorem State.prio_of_scb_reset (scb : s.scb = Scb.reset) {e : Exc} (system : e = .svCall ∨ e = .pendSV ∨ e = .sysTick) :
    s.prio e = 0 := by
  rcases system with rfl | rfl | rfl <;> rw [State.prio, scb] <;> rfl

end

theorem Mpu.reset_disabled (r : Fin 8) : Mpu.reset.regions[r].attr.getLsbD 0 = false := by
  revert r
  decide

/-- Settles O56: the two words as numbers, the interrupt controller and the regions; the rest is what `State.resetFrom` writes. -/
theorem resetState : Obligations.ResetState := by
  intro s reset storage
  obtain ⟨pc, thumb⟩ := s.jumpVector_load 4
  have msp : (s.mem.load .word 0 &&& 0xFFFFFFFC#32).toNat = bytesValue s 0 4 / 4 * 4 := by
    rw [toNat_and_highMask 2 (by decide), toNat_load_word]
    rfl
  exact ⟨_, (step_reset reset).trans (State.doReset_of_storage storage), msp, pc, thumb, rfl, rfl, rfl, rfl, rfl, rfl, rfl,
    State.nothingRaised_of_nvic_reset rfl, State.irqDisabled_of_nvic_reset rfl, rfl, rfl, State.prio_of_scb_reset rfl (.inl rfl),
    State.prio_of_scb_reset rfl (.inr (.inl rfl)), State.prio_of_scb_reset rfl (.inr (.inr rfl)), rfl, rfl, rfl, Mpu.reset_disabled, rfl⟩

end Sys2Proof.Machine
end
